-- ==== Sys2Proof/Word.lean ====
section
/-! DEFINITION. The widths of the CDL-3016: words of 32 bits, station numbers and tags of 5, handles of 4, Setup
slots of 2 (spec/00_scope.md 3.3 and 3.4, R7). -/

namespace Sys2Proof

/-- A local-port or frame body word: 32 bits. -/
abbrev Word := BitVec 32

/-- A station number as strapped and as carried in a frame: 0 to 31, of which 1-30 are valid (R38) and 31 addresses
all stations (R7). -/
abbrev Station := BitVec 5

/-- A request tag, an index of the ORT: 0 to 31 (R118). -/
abbrev Tag := BitVec 5

/-- A handle, an index of the ITT: 0 to 15 (R142). -/
abbrev Handle := BitVec 4

/-- A window slot of Setup and its own-window record: 0 to 3 (R39, R67). -/
abbrev Slot := BitVec 2

/-- The destination that addresses all stations (R7). -/
abbrev allStations : Station := 31

/-- A valid station number is 1-30 (R38). -/
def validStation (n : Station) : Bool := n != 0 && n != 31

end Sys2Proof
end

