-- ==== Sys2Proof/Syntax.lean ====
section
/-! DEFINITION. The commands of the station: one constructor of Instr per row of spec/opcode_table.json, with the
operands that the outside decides (a written word, a frame's fields, sampled levels, a tag). -/

namespace Sys2Proof

/-- Levels of the three trailer slots, or which of them a station drives: true is dominant (R16). -/
structure Slots where
  error : Bool
  reject : Bool
  accept : Bool
deriving DecidableEq, Repr

/-- The two trailer slots that are sampled before the end of the trailer (R16). -/
inductive EarlySlot where
  | error | reject
deriving DecidableEq, Repr

/-- The moment of a frame's reception that a received-frame command stands for (log entry 1). -/
inductive RxMoment where
  /-- The receiver samples the start bit dominant (R6). -/
  | startBit
  /-- The rising edge that samples the last check bit: check, decision (R14, R136). -/
  | lastCheckBit
  /-- The rising edge that samples the ERROR or the REJECT slot, where one more clock period ends (R4). -/
  | slotSampled (slot : EarlySlot)
  /-- The end of the trailer (R6), with the slots the other stations drive. -/
  | endOfTrailer (others : Slots)
  /-- The moments of one frame from its start bit to the end of its trailer with no other event between them. -/
  | whole (others : Slots)
deriving DecidableEq, Repr

/-- The moment of an own frame's transmission that an outcome row stands for (log entry 33). -/
inductive TxMoment where
  /-- The rising edge that samples the own last check bit: the transmitter's receiver goes to SLOTS (R6). -/
  | lastCheckBit
  /-- The end of the trailer (R6), with the levels sampled in the slots; the own last check bit is in this step too where it
  has not been in one of its own. -/
  | endOfTrailer (levels : Slots)
deriving DecidableEq, Repr

/-- The body of a READ, WRITE or CWRITE frame (R11). -/
inductive RequestBody where
  | read (address length : Word)
  | write (address : Word) (data : List Word)
  | cwrite (address : Word) (data : List Word)
deriving DecidableEq, Repr

/-- The body of a DATA, DONE or FAIL frame (R11). -/
inductive ResponseBody where
  | data (words : List Word)
  | done
  | fail (status : Word)
deriving DecidableEq, Repr

/-- What a unicast frame carries (R11). -/
inductive UnicastBody where
  | request (tag : Tag) (body : RequestBody)
  | response (tag : Tag) (body : ResponseBody)
  | signal (value : Word)
deriving DecidableEq, Repr

/-- The commands: one constructor per row of spec/opcode_table.json. -/
inductive Instr where
  -- the reset pin and the straps
  | resetNAsserted
  | resetNReleased (sid : BitVec 5) (rate : BitVec 2)
  -- the command word
  | join
  | leave
  | flush
  | restart
  -- pushes and pops
  | rqPush
  | sqPush
  | cqPop
  | iqPop
  | nqPop
  | faultPop
  -- the other writes of the local port
  | setupWrite (index : Fin 9) (value : Word)
  | causeWrite (value : Word)
  | maskWrite (value : Word)
  | severityEnableWrite (value : Word)
  | registerWrite (address : BitVec 10) (value : Word) (readStrobe : Bool)
  -- the trunk, seen by the idle detector and the transmitter
  | trunkIdleObserved
  | beginningAFrame
  | lost (bit : BitVec 3)
  | collided (bit : Nat)
  -- the outcomes of the station's own frames
  | syncOutcome (moment : TxMoment)
  | rosterOutcome (moment : TxMoment)
  | claimOutcome (moment : TxMoment)
  | releaseOutcome (moment : TxMoment)
  | evictOutcome (moment : TxMoment)
  | byeOutcome (moment : TxMoment)
  | requestFrameOutcome (moment : TxMoment)
  | responseFrameOutcome (moment : TxMoment)
  -- frames received as a listener; a malformed one carries the bits after the start bit and every clock period measured,
  -- the first of them the one that ends at the first class bit, the last three those that end in the trailer slots
  | malformedFrame (bits : List Bool) (periods : List Nat) (moment : RxMoment)
  | syncReceived (source : Station) (moment : RxMoment)
  | rosterReceived (source : Station) (peers : Word) (pairs : List (Word × Word)) (moment : RxMoment)
  | claimReceived (source : Station) (base descriptor : Word) (moment : RxMoment)
  | releaseReceived (source : Station) (base : Word) (moment : RxMoment)
  | evictReceived (source : Station) (station : Word) (moment : RxMoment)
  | byeReceived (source : Station) (moment : RxMoment)
  | requestReceived (source : Station) (tag : Tag) (body : RequestBody) (moment : RxMoment)
  | responseReceived (source : Station) (tag : Tag) (body : ResponseBody) (moment : RxMoment)
  | signalReceived (source : Station) (broadcast : Bool) (value : Word) (moment : RxMoment)
  | frameForAnotherStation (source destination : Station) (body : UnicastBody) (moment : RxMoment)
  -- the request queue's head and the timers
  | headPreparation
  | holdoffExpiry
  | responseTimerExpiry (tag : Tag)
  | quarantineExpiry (tag : Tag)
  | settleTimerExpiry
  | leaveDeadlineExpiry
  -- the receiver
  | burstNotAFrame
deriving DecidableEq, Repr

end Sys2Proof
end

