-- ==== Sys2Proof/Decode.lean ====
section
/-! DEFINITION. spec/opcode_table.json gives none of its rows any bits (every row's fields are empty), so no word spells
a command of this block (log entry 26). The bits of the trunk are read in Machine/Frames.lean. -/

namespace Sys2Proof

/-- The command that a word spells by the table's bits: none, for the table gives its rows no bits. -/
def decodeTableWord (_nbits _w : Nat) : Option Instr := none

end Sys2Proof
end

