-- ==== Sys2Proof/Config.lean ====
section
/-! DEFINITION. What the manual fixes for every CDL-3016 (capacities, limits, intervals: spec/00_scope.md 4.1 to 4.3)
and the values it leaves free. -/

namespace Sys2Proof.Config

/-- The RQ holds 16 descriptors (R99). -/
abbrev rqDepth : Nat := 16
/-- The CQ holds 32 records, reservations included (R102). -/
abbrev cqDepth : Nat := 32
/-- The IQ holds 16 records (R140). -/
abbrev iqDepth : Nat := 16
/-- The NQ holds 8 records (R155). -/
abbrev nqDepth : Nat := 8
/-- The Fault List holds 8 records (R165). -/
abbrev faultDepth : Nat := 8
/-- The window map holds 64 entries (R65). -/
abbrev mapDepth : Nat := 64
/-- A station owns at most 4 entries of any map (R65). -/
abbrev ownedLimit : Nat := 4
/-- The idle detector reports idle at 10 recessive bit times (R5). -/
abbrev idleBits : Nat := 10
/-- The void limit (R35). -/
abbrev voidLimit : Nat := 8
/-- The busy limit (R108). -/
abbrev busyLimit : Nat := 16
/-- The collision limit (R30). -/
abbrev collisionLimit : Nat := 2
/-- The miss threshold (R90). -/
abbrev missLimit : Nat := 3
/-- The settle attempts (R55). -/
abbrev settleLimit : Nat := 3
/-- The busy holdoff lasts 256 bit times (R36). -/
abbrev holdoffBits : Nat := 256

/-- The bit time in nanoseconds selected by RATE[1:0] (R2). -/
def bitTimeNs (rate : BitVec 2) : Nat :=
  if rate = 0 then 1000 else if rate = 1 then 400 else if rate = 2 then 200 else 100

/-- T_R in nanoseconds for a response-timeout code: 0.5 ms × 2^code (R39). -/
def responseTimeoutNs (code : BitVec 3) : Nat := 500000 * 2 ^ code.toNat

/-- FREE VALUE (log entry 5): the own number held while RESET_N is asserted, when no strap sample is held. -/
opaque sidUnderReset : Nat → BitVec 5

/-- FREE VALUE (log entry 5): the rate held while RESET_N is asserted, when no strap sample is held. -/
opaque rateUnderReset : Nat → BitVec 2

end Sys2Proof.Config
end

