-- ==== Sys2Proof/Machine/Bank.lean ====
section
/-! DEFINITION. A bank: a fixed table of 2^w cells indexed by a w-bit number (the ORT, the ITT, the own-window
records, the miss counters), and sets of station numbers as the peer word spells them. -/

namespace Sys2Proof

/-- A table of 2^w cells. -/
structure Bank (w : Nat) (α : Type) where
  cells : List α
  size : cells.length = 2 ^ w
deriving DecidableEq, Repr

/-- Every cell holds x. -/
def Bank.all (w : Nat) {α : Type} (x : α) : Bank w α := ⟨List.replicate (2 ^ w) x, by simp⟩

/-- The cell at index i. -/
def Bank.at {w : Nat} {α : Type} (b : Bank w α) (i : BitVec w) : α :=
  b.cells[i.toNat]'(by rw [b.size]; exact i.isLt)

/-- The bank with x in the cell at index i. -/
def Bank.put {w : Nat} {α : Type} (b : Bank w α) (i : BitVec w) (x : α) : Bank w α :=
  ⟨b.cells.set i.toNat x, by rw [List.length_set]; exact b.size⟩

/-- f applied to every cell. -/
def Bank.map {w : Nat} {α β : Type} (f : α → β) (b : Bank w α) : Bank w β :=
  ⟨b.cells.map f, by rw [List.length_map]; exact b.size⟩

/-- The indices in ascending order. -/
def Bank.indices (w : Nat) : List (BitVec w) := (List.range (2 ^ w)).map (BitVec.ofNat w)

/-- How many cells satisfy p. -/
def Bank.count {w : Nat} {α : Type} (p : α → Bool) (b : Bank w α) : Nat := b.cells.countP p

/-- The lowest index whose cell satisfies p. -/
def Bank.lowest {w : Nat} {α : Type} (p : α → Bool) (b : Bank w α) : Option (BitVec w) :=
  (Bank.indices w).find? (fun i => p (b.at i))

/-- A set of station numbers, bit n for station n, as the peer word spells it (R12, R180). -/
abbrev StationSet := BitVec 32

namespace StationSet

/-- The empty set. -/
def empty : StationSet := 0

/-- The set with one station in it. -/
def single (n : Station) : StationSet := BitVec.twoPow 32 n.toNat

/-- Whether station n is in the set. -/
def has (s : StationSet) (n : Station) : Bool := s.getLsbD n.toNat

/-- Both sets together. -/
def union (s t : StationSet) : StationSet := s ||| t

/-- The stations of s that are not in t. -/
def minus (s t : StationSet) : StationSet := s &&& ~~~t

/-- The set with n added. -/
def insert (s : StationSet) (n : Station) : StationSet := union s (single n)

/-- The set with n removed. -/
def erase (s : StationSet) (n : Station) : StationSet := minus s (single n)

/-- The stations of the set in ascending order. -/
def toList (s : StationSet) : List Station := (Bank.indices 5).filter (fun n => has s n)

/-- How many stations are in the set. -/
def card (s : StationSet) : Nat := (toList s).length

/-- The stations a peer word names: bits 1-30; listeners ignore bits 0 and 31 (R12). -/
def ofPeerWord (w : Word) : StationSet := w &&& 0x7FFFFFFE

end StationSet

end Sys2Proof
end

