-- ==== Sys2Proof/Machine/Frames.lean ====
section
/-! DEFINITION. Trunk frames: fields, kinds, bodies, transmit order, the check sequence, what a listener reads from
the bits, the malformed conditions, and the outcome drawn from the trailer (R2, R4, R7 to R15, R26, R32, R182). -/

namespace Sys2Proof

/-- The assigned frame kinds (R11). -/
inductive FrameKind where
  | data | done | fail | sync | roster | claim | release | evict | bye | read | write | cwrite | signal
deriving DecidableEq, Repr

/-- The kind code (R11). -/
def FrameKind.code : FrameKind → BitVec 4
  | .data => 0 | .done => 1 | .fail => 2 | .sync => 4 | .roster => 5 | .claim => 6 | .release => 7
  | .evict => 8 | .bye => 9 | .read => 10 | .write => 11 | .cwrite => 12 | .signal => 13

/-- The kind a code names; 3, 14 and 15 are unassigned (R10). -/
def FrameKind.ofCode (c : BitVec 4) : Option FrameKind :=
  [FrameKind.data, .done, .fail, .sync, .roster, .claim, .release, .evict, .bye, .read, .write, .cwrite,
    .signal].find? (fun k => k.code == c)

/-- The class of a kind: RESPONSE 0, MAP 1, REQUEST 2, SIGNAL 3 (R10). -/
def FrameKind.cls : FrameKind → BitVec 2
  | .data | .done | .fail => 0
  | .sync | .roster | .claim | .release | .evict | .bye => 1
  | .read | .write | .cwrite => 2
  | .signal => 3

/-- The fields of a frame from class to body (R7). -/
structure Frame where
  cls : BitVec 2
  urgency : BitVec 1
  source : Station
  dest : Station
  kind : BitVec 4
  tag : Tag
  count : BitVec 5
  body : List Word
deriving DecidableEq, Repr

/-- What a well-formed frame says, by kind (R11, R12). -/
inductive Content where
  | sync
  | roster (peers : Word) (pairs : List (Word × Word))
  | claim (base descriptor : Word)
  | release (base : Word)
  | evict (station : Word)
  | bye
  | request (body : RequestBody)
  | response (body : ResponseBody)
  | signal (value : Word)
deriving DecidableEq, Repr

/-- A frame as its receiver understands it. -/
structure Message where
  source : Station
  dest : Station
  tag : Tag
  content : Content
deriving DecidableEq, Repr

/-- The kind that carries a content. -/
def Content.kind : Content → FrameKind
  | .sync => .sync
  | .roster _ _ => .roster
  | .claim _ _ => .claim
  | .release _ => .release
  | .evict _ => .evict
  | .bye => .bye
  | .request (.read _ _) => .read
  | .request (.write _ _) => .write
  | .request (.cwrite _ _) => .cwrite
  | .response (.data _) => .data
  | .response .done => .done
  | .response (.fail _) => .fail
  | .signal _ => .signal

/-- Window pairs as body words, base word first (R11). -/
def flattenPairs : List (Word × Word) → List Word
  | [] => []
  | (b, d) :: ps => b :: d :: flattenPairs ps

/-- Body words as window pairs; none for an odd number of words (R11). -/
def readPairs : List Word → Option (List (Word × Word))
  | [] => some []
  | [_] => none
  | b :: d :: ws => (readPairs ws).map (fun ps => (b, d) :: ps)

/-- The body words of a content, in body order (R11). -/
def Content.body : Content → List Word
  | .sync => []
  | .roster p ps => p :: flattenPairs ps
  | .claim b d => [b, d]
  | .release b => [b]
  | .evict w => [w]
  | .bye => []
  | .request (.read a l) => [a, l]
  | .request (.write a ds) => a :: ds
  | .request (.cwrite a ds) => a :: ds
  | .response (.data ds) => ds
  | .response .done => []
  | .response (.fail st) => [st]
  | .signal v => [v]

/-- The content of a unicast body. -/
def UnicastBody.content : UnicastBody → Content
  | .request _ b => .request b
  | .response _ b => .response b
  | .signal v => .signal v

/-- The tag of a unicast body; a SIGNAL is sent with tag 0 (R8). -/
def UnicastBody.tag : UnicastBody → Tag
  | .request t _ => t
  | .response t _ => t
  | .signal _ => 0

/-- The tag is meaningful for READ, CWRITE, DATA, DONE and FAIL; every other kind is sent with tag 0 (R8). -/
def Content.sentTag (c : Content) (t : Tag) : Tag :=
  match c with
  | .request (.read _ _) | .request (.cwrite _ _) | .response _ => t
  | _ => 0

/-- The frame a station builds for a message (R8): urgency 0 is urgent. -/
def Message.frame (m : Message) (urgent : Bool) : Frame :=
  { cls := m.content.kind.cls
    urgency := if urgent then 0 else 1
    source := m.source
    dest := m.dest
    kind := m.content.kind.code
    tag := m.content.sentTag m.tag
    count := BitVec.ofNat 5 m.content.body.length
    body := m.content.body }

/-! ### Transmit order and the check sequence -/

/-- The bits of a field, most significant first (R8); true is recessive (R1). -/
def bitsOf {w : Nat} (x : BitVec w) : List Bool := (List.range w).map (fun i => x.getMsbD i)

/-- The bits of the body words, first word first (R8). -/
def bodyBits (ws : List Word) : List Bool := ws.flatMap (fun w => bitsOf w)

/-- The 27 header bits in transmit order (R7). -/
def Frame.headerBits (f : Frame) : List Bool :=
  bitsOf f.cls ++ bitsOf f.urgency ++ bitsOf f.source ++ bitsOf f.dest ++ bitsOf f.kind ++ bitsOf f.tag ++
    bitsOf f.count

/-- The bits the check covers: class through the last body bit (R13). -/
def Frame.coveredBits (f : Frame) : List Bool := f.headerBits ++ bodyBits f.body

/-- One bit of the check register: generator x^16 + x^12 + x^5 + 1 (R13). -/
def crcStep (r : BitVec 16) (b : Bool) : BitVec 16 :=
  if r.msb != b then (r <<< 1) ^^^ 0x1021 else r <<< 1

/-- The check register after the given bits, from FFFFh (R13). -/
def crc16 (bits : List Bool) : BitVec 16 := bits.foldl crcStep 0xFFFF

/-- The check a transmitter sends (R13). -/
def Frame.check (f : Frame) : BitVec 16 := crc16 f.coveredBits

/-- The bits from class through check, as a listener samples them after the start bit (R7, R182). -/
def Frame.bits (f : Frame) : List Bool := f.coveredBits ++ bitsOf f.check

/-- The bit a transmitter sends at position p counted from the start bit as bit 0, up to the last check bit (R182);
the start bit is dominant. -/
def Frame.bitAt (f : Frame) (p : Nat) : Option Bool := (false :: f.bits)[p]?

/-- The bit position of the ERROR slot of a frame with the given count (R9, R182). -/
def errorPosition (count : BitVec 5) : Nat := 44 + 32 * count.toNat

/-- The bit position of the REJECT slot (R182). -/
def rejectPosition (count : BitVec 5) : Nat := errorPosition count + 1

/-- The bit position of the ACCEPT slot (R182). -/
def acceptPosition (count : BitVec 5) : Nat := errorPosition count + 2

/-- The arbitration field: class, urgency, source (spec/02 2.4). -/
def Frame.arbitration (f : Frame) : BitVec 8 := f.cls ++ f.urgency ++ f.source

/-! ### What a listener reads -/

/-- The number a run of bits spells, first bit most significant. -/
def ofBits (w : Nat) (bs : List Bool) : BitVec w := BitVec.ofNat w (bs.foldl (fun a b => 2 * a + b.toNat) 0)

/-- A field of w bits and the bits after it; none when the bits run out. -/
def readField (w : Nat) (bs : List Bool) : Option (BitVec w × List Bool) :=
  if bs.length < w then none else some (ofBits w (bs.take w), bs.drop w)

/-- n words and the bits after them. -/
def readWords : Nat → List Bool → Option (List Word × List Bool)
  | 0, bs => some ([], bs)
  | n + 1, bs =>
    match readField 32 bs with
    | none => none
    | some (w, rest) =>
      match readWords n rest with
      | none => none
      | some (ws, rest') => some (w :: ws, rest')

/-- The frame a listener locates in the bits after the start bit, by the count it received whatever it is, and the
check it received; none when the clock stops before the last check bit (R9). Bits after the check are not its own. -/
def Frame.read (bs : List Bool) : Option (Frame × BitVec 16) :=
  match readField 2 bs with
  | none => none
  | some (cls, b1) =>
    match readField 1 b1 with
    | none => none
    | some (urgency, b2) =>
      match readField 5 b2 with
      | none => none
      | some (source, b3) =>
        match readField 5 b3 with
        | none => none
        | some (dest, b4) =>
          match readField 4 b4 with
          | none => none
          | some (kind, b5) =>
            match readField 5 b5 with
            | none => none
            | some (tag, b6) =>
              match readField 5 b6 with
              | none => none
              | some (count, b7) =>
                match readWords count.toNat b7 with
                | none => none
                | some (body, b8) =>
                  match readField 16 b8 with
                  | none => none
                  | some (check, _) => some (⟨cls, urgency, source, dest, kind, tag, count, body⟩, check)

/-- A clock period is in tolerance when it is at least three quarters and at most one and a half of the listener's own
bit time (R4), all in nanoseconds. -/
def periodInTolerance (bitTime period : Nat) : Bool := 3 * bitTime ≤ 4 * period && 2 * period ≤ 3 * bitTime

/-- The period that ends at bit p of the frame, if it was measured, is in tolerance; the first one ends at the first class
bit, which is bit 1 (R4). -/
def periodHeld (bitTime : Nat) (periods : List Nat) (p : Nat) : Bool :=
  match periods[p - 1]? with
  | none => true
  | some x => periodInTolerance bitTime x

/-! ### Windows in frames -/

/-- The size code of a descriptor word: bits 4:0 (R182). -/
def sizeCodeOf (d : Word) : BitVec 5 := d.setWidth 5

/-- The WRITABLE flag of a descriptor word: bit 31 (R182). -/
def writableOf (d : Word) : Bool := d.getLsbD 31

/-- The length of a window in bytes: 4 KiB × 2^k (R64). -/
def windowSize (k : BitVec 5) : Nat := 4096 * 2 ^ k.toNat

/-- A base and descriptor word that are no malformation: size code at most 18, base a multiple of the size (R12). -/
def windowWellFormed (base descriptor : Word) : Bool :=
  (sizeCodeOf descriptor).toNat ≤ 18 && base.toNat % windowSize (sizeCodeOf descriptor) == 0

/-- An address word is word-aligned (R15). -/
def wordAligned (a : Word) : Bool := a.toNat % 4 == 0

/-! ### The malformed conditions (R15) -/

/-- A body of no words. -/
def readNone (c : Content) : List Word → Option Content
  | [] => some c
  | _ :: _ => none

/-- A body of one word. -/
def readOne (f : Word → Content) : List Word → Option Content
  | [w] => some (f w)
  | _ => none

/-- A body of two words. -/
def readTwo (f : Word → Word → Content) : List Word → Option Content
  | [a, b] => some (f a b)
  | _ => none

/-- A body of an address and 1 to 16 data words. -/
def readData (f : Word → List Word → Content) : List Word → Option Content
  | [] => none
  | a :: ds => if 1 ≤ ds.length && ds.length ≤ 16 then some (f a ds) else none

/-- The body of a ROSTER: the peer word and at most four window pairs. -/
def readRoster : List Word → Option Content
  | [] => none
  | p :: ws => if ws.length ≤ 8 then (readPairs ws).map (fun ps => .roster p ps) else none

/-- The content of a body of the given kind, when its count is in the range of the kind (R11). -/
def readContent (k : FrameKind) (body : List Word) : Option Content :=
  match k with
  | .data => if 1 ≤ body.length && body.length ≤ 16 then some (.response (.data body)) else none
  | .done => readNone (.response .done) body
  | .fail => readOne (fun st => .response (.fail st)) body
  | .sync => readNone .sync body
  | .roster => readRoster body
  | .claim => readTwo .claim body
  | .release => readOne .release body
  | .evict => readOne .evict body
  | .bye => readNone .bye body
  | .read => readTwo (fun a l => .request (.read a l)) body
  | .write => readData (fun a ds => .request (.write a ds)) body
  | .cwrite => readData (fun a ds => .request (.cwrite a ds)) body
  | .signal => readOne .signal body

/-- The body words lie in their ranges (R12, R15). -/
def Content.inRange (source : Station) : Content → Bool
  | .sync | .bye | .response _ | .signal _ => true
  | .roster _ pairs => pairs.all (fun p => windowWellFormed p.1 p.2)
  | .claim b d => windowWellFormed b d
  | .release b => b.toNat % 4096 == 0
  | .evict w => 1 ≤ w.toNat && w.toNat ≤ 30 && w.toNat != source.toNat
  | .request (.read a l) => wordAligned a && 1 ≤ l.toNat && l.toNat ≤ 16
  | .request (.write a _) => wordAligned a
  | .request (.cwrite a _) => wordAligned a

/-- The destination is in the range of the kind (R15). -/
def FrameKind.destInRange (k : FrameKind) (d : Station) : Bool :=
  if k.cls == 1 then d == 31 else if k == .signal then d != 0 else validStation d

/-- What a listener understands of a frame whose check passed and whose clock was in tolerance: none when any other
condition of R15 holds. -/
def Frame.message (f : Frame) : Option Message :=
  match FrameKind.ofCode f.kind with
  | none => none
  | some k =>
    if f.cls == k.cls && validStation f.source && k.destInRange f.dest && f.count.toNat == f.body.length then
      match readContent k f.body with
      | none => none
      | some c => if c.inRange f.source then some ⟨f.source, f.dest, f.tag, c⟩ else none
    else none

/-- What a listener strapped with the given bit time understands of sampled bits and measured clock periods: none when
the frame is malformed at it (R15), its check and clock included (R4, R14). -/
def understand (bitTime : Nat) (f : Frame) (check : BitVec 16) (periods : List Nat) : Option Message :=
  if crc16 f.coveredBits == check && periods.all (periodInTolerance bitTime) then f.message else none

/-! ### The transmitter's view -/

/-- The six outcomes of an offer (R26, R32). -/
inductive Outcome where
  | lost | collided | voided | rejected | taken | unanswered
deriving DecidableEq, Repr

/-- The comparison of a sent bit with the sampled one at position p from the start bit (R26): none is no event. -/
def compareBit (p : Nat) (sent sampled : Bool) : Option Outcome :=
  if sent == sampled then none
  else if 1 ≤ p && p ≤ 8 && sent then some .lost else some .collided

/-- The outcome a transmitter draws from the slot levels (R32). -/
def outcomeOf (dest : Station) (levels : Slots) : Outcome :=
  if levels.error then .voided
  else if levels.reject then .rejected
  else if levels.accept || dest == allStations then .taken
  else .unanswered

/-- Wired-AND of two drives of the slots: a slot is dominant when anyone drives it (R1). -/
def Slots.wired (a b : Slots) : Slots := ⟨a.error || b.error, a.reject || b.reject, a.accept || b.accept⟩

/-- No slot driven. -/
def Slots.none : Slots := ⟨false, false, false⟩

/-- ERROR and REJECT are recessive: the frame is neither VOIDED nor REJECTED (R32). -/
def Slots.clear (l : Slots) : Prop := l.error = false ∧ l.reject = false

end Sys2Proof
end

