-- ==== Sys2Proof/Machine/State.lean ====
section
/-! DEFINITION. The state of the station, block by block (spec/00_scope.md 2.1), as plain data, and the state after
reset. INVENTORY.md lists every item with the rule that names it. -/

namespace Sys2Proof.Machine

/-! ### Shared pieces -/

/-- A timer: stopped, or running with the interval in nanoseconds it was last loaded with (log entry 3). -/
abbrev Timer := Option Nat

/-- The counts a transmit candidate carries (R20). -/
structure Counts where
  losses : Nat
  voids : Nat
  urgent : Bool
deriving DecidableEq, Repr

/-- A new candidate: loss count 0, void count 0, urgency normal (R20). -/
def Counts.zero : Counts := ⟨0, 0, false⟩

/-- The nine station states (R40). -/
inductive StationState where
  | halted | listen | syncWait | syncing | claiming | joined | leaving | detached | faulted
deriving DecidableEq, Repr

/-- The four local commands (R41). -/
inductive Command where
  | join | leave | flush | restart
deriving DecidableEq, Repr

/-- The results a command can end with; FORCED carries the outbound and the inbound count (R41, R60). -/
inductive CommandResult where
  | done | failed | aborted
  | forced (outbound inbound : Nat)
  | badStrap | badSetup | refusedBusy | refusedState
deriving DecidableEq, Repr

/-- The results of pushes and pops (R178). -/
inductive PortResult where
  | none | accepted | full | badDescriptor | notReady | leaving | flushing | badHandle | badLength | empty
deriving DecidableEq, Repr

/-- The completion status codes (R132). -/
inductive Status where
  | ok | noWindow | localWindow | notOwner | readOnly | targetError | timeout | peerLost | noPeer | busyLimit
  | trunkError | flushed
deriving DecidableEq, Repr

/-! ### TIF -/

/-- The phases of the receiver (R6). -/
inductive RxPhase where
  | unsynced | ready | receiving | slots
deriving DecidableEq, Repr

/-- What a station will do with a request it accepts (R137). -/
inductive ServicePlan where
  | deliver
  | answer (status : Status)
  | drop
deriving DecidableEq, Repr

/-- What a listening station decided at the last check bit (R15, R16, R17). -/
inductive Verdict where
  /-- Malformed here: ERROR is driven. -/
  | malformed
  /-- Well-formed, no slot driven: a station in SYNC_WAIT, or a frame for another station. -/
  | silent (m : Message)
  /-- Refused by a member: REJECT is driven. -/
  | reject (m : Message)
  /-- Accepted by a member: ACCEPT is driven; a request carries the plan of R137. -/
  | accept (m : Message) (plan : Option ServicePlan)
deriving DecidableEq, Repr

/-- A frame between its last check bit and its end of trailer: the decision, the count that places its trailer (R9), the local
events of R138 since the decision, and the slot, if any, at whose edge the clock was first found out of tolerance (R4, R15). -/
structure Reception where
  verdict : Verdict
  count : BitVec 5
  flushedSince : Bool
  deadlineSince : Bool
  late : Option EarlySlot
deriving DecidableEq, Repr

/-- The transmit candidates of a station (R20). -/
inductive Source where
  | sqHead | sync | bye | roster
  | evict (station : Station)
  | release (slot : Slot)
  | claim (slot : Slot)
  | rqHead
deriving DecidableEq, Repr

/-- The frame in flight: its source, its content fixed at the beginning (R25), and whether the work it belonged to has
been discarded since (R60, R115, R150). -/
structure Flight where
  source : Source
  frame : Frame
  discarded : Bool
deriving DecidableEq, Repr

/-- The fault kinds (R164). -/
inductive FaultKind where
  | strayResponse | postedDropped | peerEvicted | claimRefused | mapOverlap | voidLimit | idConflict
  | syncIncomplete | collision
deriving DecidableEq, Repr

/-- The severities (R164). -/
inductive Severity where
  | note | degraded | fatal
deriving DecidableEq, Repr

/-- A fault record (R164); its severity is that of its kind. -/
structure FaultRecord where
  kind : FaultKind
  station : Option Station
  tagOrHandle : Option (BitVec 5)
  base : Option Word
  overflow : Bool
deriving DecidableEq, Repr

/-- What is still to come at the end of the frame on which an own frame COLLIDED for the eighth time and was abandoned (log
entry 10). -/
inductive Aftermath where
  /-- The fault records of the abandonment, in order (R35, R165). -/
  | faults (records : List FaultRecord)
  /-- The SYNC was abandoned: SYNC_INCOMPLETE and the entry into FAULTED (R47, R61, R165). -/
  | syncIncomplete
  /-- The BYE was abandoned: VOID_LIMIT and the entry into DETACHED (R35, R59). -/
  | detach
deriving DecidableEq, Repr

/-- The Trunk Interface. spent is what the end of the frame on the trunk still owes to an own frame that COLLIDED on it for the
eighth time. -/
structure Tif where
  rate : BitVec 2
  idleCount : Nat
  receiver : RxPhase
  collidedHere : Bool
  spent : Option Aftermath
  rx : Option Reception
  flight : Option Flight
  collisions : Nat
  holdoff : Timer
deriving DecidableEq, Repr

/-! ### MC -/

/-- A queued EVICT (R91). -/
structure PendingEvict where
  station : Station
  counts : Counts
deriving DecidableEq, Repr

/-- The Membership Controller. A set flag holds the counts of its candidate frame. -/
structure Mc where
  sid : Station
  state : StationState
  peers : StationSet
  answered : StationSet
  late : StationSet
  expected : StationSet
  attempts : Nat
  settle : Timer
  deadline : Timer
  miss : Bank 5 Nat
  evicts : List PendingEvict
  sync : Option Counts
  roster : Option Counts
  bye : Option Counts
deriving DecidableEq, Repr

/-! ### WMU -/

/-- An entry of the window map (R65). -/
structure MapEntry where
  base : Word
  size : BitVec 5
  writable : Bool
  owner : Station
deriving DecidableEq, Repr

/-- The states of an own-window record (R67). -/
inductive WindowState where
  | idle | wanted | held | releasing | refused
deriving DecidableEq, Repr

/-- An own-window record: its state and its queued RELEASE (R67, R73). Base, size and WRITABLE are the Setup slot's. -/
structure OwnRecord where
  state : WindowState
  release : Option Counts
deriving DecidableEq, Repr

/-- The CLAIM in course (R68). -/
structure ClaimInCourse where
  slot : Slot
  counts : Counts
deriving DecidableEq, Repr

/-- The Window Map Unit. -/
structure Wmu where
  map : List MapEntry
  own : Bank 2 OwnRecord
  claim : Option ClaimInCourse
deriving DecidableEq, Repr

/-! ### ORE -/

/-- The operations (R97). -/
inductive Op where
  | read | write | cwrite | signal
deriving DecidableEq, Repr

/-- What a descriptor asks for, with the fields its op uses (R97). -/
inductive Work where
  | read (address : Word) (length : Nat)
  | write (address : Word) (data : List Word)
  | cwrite (address : Word) (data : List Word)
  | signal (dest : Station) (value : Word)
deriving DecidableEq, Repr

/-- An outbound descriptor (R97). -/
structure Descriptor where
  ticket : BitVec 16
  work : Work
deriving DecidableEq, Repr

/-- The prepared states of the RQ head (R100). -/
inductive HeadPhase where
  | ready | holdoff
deriving DecidableEq, Repr

/-- A prepared RQ head: where it is routed (31 for a broadcast SIGNAL), its tag if its op takes one, its state, its busy
count and its frame's counts (R100, R103 to R105). -/
structure PreparedHead where
  dest : Station
  tag : Option Tag
  phase : HeadPhase
  busy : Nat
  counts : Counts
deriving DecidableEq, Repr

/-- What an ORT entry records at its allocation (R104); cwrite is false for a READ. -/
structure OrtRecord where
  cwrite : Bool
  dest : Station
  length : Nat
  ticket : BitVec 16
deriving DecidableEq, Repr

/-- An ORT entry (R118). A FREE entry records nothing. -/
inductive OrtEntry where
  | free
  | pending (r : OrtRecord)
  | sent (r : OrtRecord) (timer : Timer)
  | quarantined (r : OrtRecord) (timer : Timer)
deriving DecidableEq, Repr

/-- A completion record (R131); its count is the number of its data words. -/
structure Completion where
  ticket : BitVec 16
  op : Op
  status : Status
  dest : Option Station
  data : List Word
deriving DecidableEq, Repr

/-- The Outbound Request Engine. The head is WAITING when the RQ holds descriptors and no head is prepared. -/
structure Ore where
  rq : List Descriptor
  head : Option PreparedHead
  ort : Bank 5 OrtEntry
  cq : List Completion
deriving DecidableEq, Repr

/-! ### ISU -/

/-- What an inbound request asks for (R140). -/
inductive InboundWork where
  | read (length : Nat)
  | write (data : List Word)
  | cwrite (data : List Word)
deriving DecidableEq, Repr

/-- An IQ record (R140). -/
structure IqRecord where
  source : Station
  address : Word
  work : InboundWork
  handle : Option Handle
deriving DecidableEq, Repr

/-- The states of a live ITT entry (R142). -/
inductive IttState where
  | delivered | awaiting | answering
deriving DecidableEq, Repr

/-- A live ITT entry (R142). -/
structure IttRecord where
  source : Station
  tag : Tag
  cwrite : Bool
  length : Nat
  state : IttState
  orphaned : Bool
deriving DecidableEq, Repr

/-- An ITT entry: FREE is none (R142). -/
abbrev IttEntry := Option IttRecord

/-- An SQ record: the handle it answers and the response frame it becomes (R143, R145, R146). -/
structure SqRecord where
  handle : Handle
  dest : Station
  tag : Tag
  body : ResponseBody
deriving DecidableEq, Repr

/-- An NQ record (R155). -/
structure NqRecord where
  source : Station
  value : Word
  broadcast : Bool
deriving DecidableEq, Repr

/-- The Inbound Service Unit; sqCounts are the counts of the SQ head (R146). -/
structure Isu where
  iq : List IqRecord
  itt : Bank 4 IttEntry
  sq : List SqRecord
  sqCounts : Counts
  nq : List NqRecord
deriving DecidableEq, Repr

/-! ### LPU -/

/-- The words of one Setup window slot, as written (R176). -/
structure SlotWords where
  base : Word
  descriptor : Word
deriving DecidableEq, Repr

/-- The Setup block (R39, R176). -/
structure Setup where
  slots : Bank 2 SlotWords
  timing : Word
deriving DecidableEq, Repr

/-- The last command and its result (R175). -/
structure CommandEnd where
  command : Command
  result : CommandResult
deriving DecidableEq, Repr

/-- The six fields of the push/pop result word (R178). -/
structure PortResults where
  rq : PortResult
  sq : PortResult
  cq : PortResult
  iq : PortResult
  nq : PortResult
  fault : PortResult
deriving DecidableEq, Repr

/-- The Local Port Unit. -/
structure Lpu where
  setup : Setup
  locked : Bool
  running : Option Command
  last : Option CommandEnd
  results : PortResults
  rqStage : Vector Word 18
  sqStage : Vector Word 17
  faults : List FaultRecord
  enables : BitVec 3
  masks : BitVec 6
  cmdDone : Bool
  stateChange : Bool
deriving DecidableEq, Repr

/-! ### The station -/

/-- The state of the station: its pins, its six blocks, the counter of free values used, and the queue of commands that
wait, first in first out. -/
structure State where
  resetAsserted : Bool
  tif : Tif
  mc : Mc
  wmu : Wmu
  ore : Ore
  isu : Isu
  lpu : Lpu
  freeUsed : Nat
  pending : List Instr
deriving DecidableEq, Repr

/-- Why a step could stop the machine with a fault: never. Every event the manual describes leaves the station running,
in FAULTED at worst (log entry 22), so no constructor is raised by anyone. -/
inductive Fault
deriving DecidableEq, Repr

/-- Why a command could have no meaning. -/
inductive Refusal where
  /-- Raised by exec's arm of a command that has no meaning yet; safe, as the machine stops. No arm raises it. -/
  | notModelled (mnemonic : String)
deriving DecidableEq, Repr

/-! ### Reset values -/

/-- The TIF after RESET_N is released (R5, R6, R37), the rate as sampled (R2). -/
def Tif.reset (rate : BitVec 2) : Tif :=
  { rate := rate, idleCount := 0, receiver := .unsynced, collidedHere := false, spent := none, rx := none,
    flight := none, collisions := 0, holdoff := none }

/-- The MC after RESET_N is released (R63), the own number as sampled (R38). -/
def Mc.reset (sid : Station) : Mc :=
  { sid := sid, state := .halted, peers := StationSet.empty, answered := StationSet.empty,
    late := StationSet.empty, expected := StationSet.empty, attempts := 0, settle := none, deadline := none,
    miss := Bank.all 5 0, evicts := [], sync := none, roster := none, bye := none }

/-- The WMU after RESET_N is released and after RESTART (R82). -/
def Wmu.reset : Wmu := { map := [], own := Bank.all 2 ⟨.idle, none⟩, claim := none }

/-- The ORE after RESET_N is released and after RESTART (R117, R130). -/
def Ore.reset : Ore := { rq := [], head := none, ort := Bank.all 5 .free, cq := [] }

/-- The ISU after RESET_N is released and after RESTART (R152, R157). -/
def Isu.reset : Isu := { iq := [], itt := Bank.all 4 none, sq := [], sqCounts := Counts.zero, nq := [] }

/-- The Setup defaults: no slot valid, timing word 0000_0803h (R39, R176). -/
def Setup.reset : Setup := { slots := Bank.all 2 ⟨0, 0⟩, timing := 0x00000803 }

/-- The LPU after RESET_N is released (R63, R172, R177, R178, R181). -/
def Lpu.reset : Lpu :=
  { setup := Setup.reset, locked := false, running := none, last := none,
    results := ⟨.none, .none, .none, .none, .none, .none⟩,
    rqStage := Vector.replicate 18 0, sqStage := Vector.replicate 17 0, faults := [],
    enables := 4, masks := 0x3F, cmdDone := false, stateChange := false }

/-- The state right after RESET_N is released, for the sampled straps (R62, R63). -/
def State.afterReset (sid : Station) (rate : BitVec 2) (freeUsed : Nat) (pending : List Instr) : State :=
  { resetAsserted := false, tif := Tif.reset rate, mc := Mc.reset sid, wmu := Wmu.reset, ore := Ore.reset,
    isu := Isu.reset, lpu := Lpu.reset, freeUsed := freeUsed, pending := pending }

/-- The machine right after reset. The straps are the card's: SID 1 and RATE 00 are a DESIGN CHOICE (log entry 4). -/
def State.reset : State := State.afterReset 1 0 0 []

end Sys2Proof.Machine
end

