-- ==== Sys2Proof/Machine/Flags.lean ====
section
/-! DEFINITION. The state predicates, the codes of statuses and severities, the interrupt causes and LIRQ (R17, R40,
R132, R164, R168 to R171, R181). -/

namespace Sys2Proof.Machine

/-- The member states (R17, R40). -/
def StationState.isMember : StationState → Bool
  | .syncing | .claiming | .joined | .leaving => true
  | _ => false

/-- The listening states: the members and SYNC_WAIT (R17). -/
def StationState.isListening : StationState → Bool
  | .syncWait => true
  | st => st.isMember

/-- The states in which the ORE prepares a head (R101). -/
def StationState.prepares : StationState → Bool
  | .claiming | .joined | .leaving => true
  | _ => false

/-- The completion status codes (R132). -/
def Status.code : Status → Nat
  | .ok => 0 | .noWindow => 1 | .localWindow => 2 | .notOwner => 3 | .readOnly => 4 | .targetError => 5
  | .timeout => 6 | .peerLost => 7 | .noPeer => 8 | .busyLimit => 9 | .trunkError => 10 | .flushed => 11

/-- The statuses a FAIL can carry to a match: 3, 4, 5 and 11 (R121). -/
def failStatus (w : Word) : Option Status :=
  [Status.notOwner, .readOnly, .targetError, .flushed].find? (fun st => st.code == w.toNat)

/-- The severity of a fault kind (R164). -/
def FaultKind.severity : FaultKind → Severity
  | .strayResponse | .postedDropped => .note
  | .peerEvicted | .claimRefused | .mapOverlap | .voidLimit => .degraded
  | .idConflict | .syncIncomplete | .collision => .fatal

/-- The bit of a severity in the enable word (R181). -/
def Severity.bit : Severity → Nat
  | .note => 0 | .degraded => 1 | .fatal => 2

/-- The FAULT cause: a record of an enabled severity stands in the list (R168). -/
def Lpu.faultCause (l : Lpu) : Bool := l.faults.any (fun r => l.enables.getLsbD r.kind.severity.bit)

/-- The six causes, bit 0 CQ_READY to bit 5 STATE_CHANGE (R168 to R170, R181). -/
def State.causes (s : State) : BitVec 6 :=
  BitVec.ofBool s.lpu.stateChange ++ BitVec.ofBool s.lpu.cmdDone ++ BitVec.ofBool s.lpu.faultCause ++
    BitVec.ofBool (!s.isu.nq.isEmpty) ++ BitVec.ofBool (!s.isu.iq.isEmpty) ++ BitVec.ofBool (!s.ore.cq.isEmpty)

/-- LIRQ is asserted while an unmasked cause is active, and never while RESET_N is asserted (R171). -/
def State.lirq (s : State) : Bool := !s.resetAsserted && (s.causes &&& ~~~s.lpu.masks) != 0

end Sys2Proof.Machine
end

