-- ==== Sys2Proof/Machine/Operands.lean ====
section
/-! DEFINITION. The operand forms: the fields of the Setup words, of the RQ and SQ staging words, and of the window
words the station sends (R39, R42, R97, R144, R176, R182). -/

namespace Sys2Proof.Machine

/-! ### Setup words (R176) -/

/-- The response-timeout code: timing word bits 2:0. -/
def Setup.timeoutCode (u : Setup) : BitVec 3 := u.timing.setWidth 3

/-- The aging threshold: timing word bits 11:8. -/
def Setup.agingThreshold (u : Setup) : Nat := (u.timing.extractLsb' 8 4).toNat

/-- VALID of a slot descriptor word: bit 30. -/
def SlotWords.valid (w : SlotWords) : Bool := w.descriptor.getLsbD 30

/-- The size code of a slot: bits 4:0. -/
def SlotWords.size (w : SlotWords) : BitVec 5 := sizeCodeOf w.descriptor

/-- WRITABLE of a slot: bit 31. -/
def SlotWords.writable (w : SlotWords) : Bool := writableOf w.descriptor

/-- T_R in nanoseconds by the Setup block (R39). -/
def Setup.responseTimeout (u : Setup) : Nat := Config.responseTimeoutNs u.timeoutCode

/-- One of the nine Setup words: base and descriptor of slots 0-3, then the timing word (R176). -/
def Setup.word (u : Setup) (i : Fin 9) : Word :=
  if i.val = 8 then u.timing
  else
    let w := u.slots.at (BitVec.ofNat 2 (i.val / 2))
    if i.val % 2 = 0 then w.base else w.descriptor

/-- The Setup block with one of its nine words replaced (R176). -/
def Setup.setWord (u : Setup) (i : Fin 9) (v : Word) : Setup :=
  if i.val = 8 then { u with timing := v }
  else
    let n := BitVec.ofNat 2 (i.val / 2)
    let w := u.slots.at n
    { u with slots := u.slots.put n (if i.val % 2 = 0 then { w with base := v } else { w with descriptor := v }) }

/-- The byte ranges [b, b + size) of two windows share an address (R64). -/
def rangesOverlap (base₁ size₁ base₂ size₂ : Nat) : Bool := base₁ < base₂ + size₂ && base₂ < base₁ + size₁

/-- A slot that is not valid passes; a valid one has a size code of at most 18 and an aligned base (R42). -/
def SlotWords.passes (w : SlotWords) : Bool := !w.valid || windowWellFormed w.base w.descriptor

/-- Two valid slots overlap (R42). -/
def SlotWords.overlaps (a b : SlotWords) : Bool :=
  a.valid && b.valid && rangesOverlap a.base.toNat (windowSize a.size) b.base.toNat (windowSize b.size)

/-- The Setup check of JOIN (R42). -/
def Setup.passes (u : Setup) : Bool :=
  u.slots.cells.all SlotWords.passes &&
    (Bank.indices 2).all (fun i => (Bank.indices 2).all (fun j =>
      i == j || !(u.slots.at i).overlaps (u.slots.at j))) &&
    2 ≤ u.agingThreshold

/-! ### Windows as the station sends and shows them -/

/-- A descriptor word: size code in bits 4:0, WRITABLE in bit 31, the other bits 0 (R12, R182). -/
def descriptorWord (size : BitVec 5) (writable : Bool) : Word :=
  size.setWidth 32 ||| (if writable then 0x80000000 else 0)

/-- The window of Setup slot n as a map entry of the given owner (R67). -/
def Setup.window (u : Setup) (n : Slot) (owner : Station) : MapEntry :=
  let w := u.slots.at n
  { base := w.base, size := w.size, writable := w.writable, owner := owner }

/-! ### Work and records -/

/-- The op of a work item (R97). -/
def Work.op : Work → Op
  | .read _ _ => .read
  | .write _ _ => .write
  | .cwrite _ _ => .cwrite
  | .signal _ _ => .signal

/-- READ and CWRITE take a tag (R101). -/
def Work.tagged : Work → Bool
  | .read _ _ => true
  | .cwrite _ _ => true
  | _ => false

/-- The number of words to read or write; 0 for a SIGNAL (R97). -/
def Work.length : Work → Nat
  | .read _ n => n
  | .write _ ds => ds.length
  | .cwrite _ ds => ds.length
  | .signal _ _ => 0

/-- The length of a request: the READ length word or the number of data words (R79). -/
def requestLength : RequestBody → Nat
  | .read _ l => l.toNat
  | .write _ ds => ds.length
  | .cwrite _ ds => ds.length

/-- The address word of a request (R11). -/
def requestAddress : RequestBody → Word
  | .read a _ => a
  | .write a _ => a
  | .cwrite a _ => a

/-- A posted request is a WRITE: no response is expected (spec/00_scope.md 3.4). -/
def requestPosted : RequestBody → Bool
  | .write _ _ => true
  | _ => false

/-! ### RQ staging (R97, R182) -/

/-- The descriptor in the RQ staging area; none when it is not well-formed for a station of the given number (R97). -/
def stagedDescriptor (sid : Station) (stage : Vector Word 18) : Option Descriptor :=
  let w0 := stage[0]
  let address := stage[1]
  let op := w0.setWidth 3
  let length := (w0.extractLsb' 4 5).toNat
  let dest : Station := w0.extractLsb' 10 5
  let ticket : BitVec 16 := w0.extractLsb' 16 16
  let data := (stage.toList.drop 2).take length
  let ranged := wordAligned address && 1 ≤ length && length ≤ 16
  if op = 1 then (if ranged then some ⟨ticket, .read address length⟩ else none)
  else if op = 2 then (if ranged then some ⟨ticket, .write address data⟩ else none)
  else if op = 3 then (if ranged then some ⟨ticket, .cwrite address data⟩ else none)
  else if op = 4 then
    (if dest != 0 && dest != sid || dest == allStations then some ⟨ticket, .signal dest stage[2]⟩ else none)
  else none

/-! ### SQ staging (R144, R182) -/

/-- The response in the SQ staging area, as written. -/
structure StagedResponse where
  handle : BitVec 5
  status : BitVec 4
  count : Nat
  data : List Word
deriving DecidableEq, Repr

/-- The fields of the SQ staging words. -/
def stagedResponse (stage : Vector Word 17) : StagedResponse :=
  let w0 := stage[0]
  let count := (w0.extractLsb' 16 5).toNat
  { handle := w0.setWidth 5, status := w0.extractLsb' 8 4, count := count,
    data := (stage.toList.drop 1).take count }

end Sys2Proof.Machine
end

