-- ==== Sys2Proof/Machine/Ops.lean ====
section
/-! DEFINITION. The named operations each block offers: candidate counts, the Fault List, command ends, miss counters,
the pending-EVICT set, the CQ and the ORT, the ITT and the SQ. -/

namespace Sys2Proof.Machine

/-! ### Candidate counts -/

/-- A LOST outcome: the loss count rises up to the threshold, and there the frame becomes urgent (R28). -/
def Counts.lose (threshold : Nat) (c : Counts) : Counts :=
  let losses := if c.losses < threshold then c.losses + 1 else c.losses
  { c with losses := losses, urgent := c.urgent || threshold ≤ losses }

/-- A void: the void count rises by 1 (R35). -/
def Counts.raiseVoids (c : Counts) : Counts := { c with voids := c.voids + 1 }

/-! ### LPU -/

/-- The Fault List after a fault (R165, R166). -/
def addFault (r : FaultRecord) (fs : List FaultRecord) : List FaultRecord :=
  if fs.length < Config.faultDepth then fs ++ [r]
  else
    match fs.getLast? with
    | none => [r]
    | some newest =>
      if r.kind.severity = .fatal ∧ newest.kind.severity ≠ .fatal then fs.dropLast ++ [{ r with overflow := true }]
      else fs.dropLast ++ [{ newest with overflow := true }]

/-- The Fault List after several faults, in order (R165). -/
def addFaults (rs fs : List FaultRecord) : List FaultRecord := rs.foldl (fun fs r => addFault r fs) fs

/-- The fault records that wait for the end of the frame on the trunk (R165; log entry 10). -/
def Tif.due (t : Tif) : List FaultRecord :=
  match t.spent with
  | some (.faults rs) => rs
  | _ => []

/-- The waiting fault records are appended (R165). -/
def State.appendDue (s : State) : State :=
  { s with lpu := { s.lpu with faults := addFaults s.tif.due s.lpu.faults }, tif := { s.tif with spent := none } }

/-- A block appends a fault record through the LPU (R164, R165). -/
def State.fault (k : FaultKind) (station : Option Station) (tagOrHandle : Option (BitVec 5)) (base : Option Word)
    (s : State) : State :=
  { s with lpu := { s.lpu with faults := addFault ⟨k, station, tagOrHandle, base, false⟩ s.lpu.faults } }

/-- The command in progress, if any, ends with a result (R41, R170, R175). -/
def State.finish (r : CommandResult) (s : State) : State :=
  match s.lpu.running with
  | none => s
  | some c => { s with lpu := { s.lpu with running := none, last := some ⟨c, r⟩, cmdDone := true } }

/-- A command is refused: it ends at the moment it is written, and the running command goes on (R41, R175). -/
def State.refuse (c : Command) (r : CommandResult) (s : State) : State :=
  { s with lpu := { s.lpu with last := some ⟨c, r⟩, cmdDone := true } }

/-- A command is accepted and becomes the command in progress (R41). -/
def State.accept (c : Command) (s : State) : State := { s with lpu := { s.lpu with running := some c } }

/-- The station state changes, and the LPU sets STATE_CHANGE (R40). -/
def State.enter (st : StationState) (s : State) : State :=
  { s with mc := { s.mc with state := st }, lpu := { s.lpu with stateChange := true } }

/-- T_R in nanoseconds (R39). -/
def State.timeout (s : State) : Nat := s.lpu.setup.responseTimeout

/-- A FLUSH is in progress (R158). -/
def State.flushing (s : State) : Bool := s.lpu.running == some .flush

/-! ### MC -/

/-- The pending-EVICT set with an EVICT of d added; an addition for a station already in it leaves it as it is (R91). -/
def addEvict (d : Station) : List PendingEvict → List PendingEvict
  | [] => [⟨d, Counts.zero⟩]
  | e :: es =>
    if d.toNat < e.station.toNat then ⟨d, Counts.zero⟩ :: e :: es
    else if d = e.station then e :: es
    else e :: addEvict d es

/-- The pending-EVICT set without d (R91). -/
def dropEvict (d : Station) (es : List PendingEvict) : List PendingEvict := es.filter (fun e => e.station != d)

/-- The miss counter of p returns to 0 (R89). -/
def Mc.clearMiss (p : Station) (m : Mc) : Mc := { m with miss := m.miss.put p 0 }

/-- A unicast frame to p ended UNANSWERED (R89, R90). -/
def Mc.raiseMiss (p : Station) (m : Mc) : Mc :=
  if p = m.sid then m
  else if m.miss.at p + 1 < Config.missLimit then { m with miss := m.miss.put p (m.miss.at p + 1) }
  else
    { m with
      miss := m.miss.put p 0
      evicts := if m.peers.has p then addEvict p m.evicts else m.evicts }

/-- What the outcome of an own frame does to the miss counter of its destination; a broadcast has none (R89). -/
def Mc.reportOutcome (dest : Station) (o : Outcome) (m : Mc) : Mc :=
  if dest = allStations then m
  else
    match o with
    | .taken | .rejected => m.clearMiss dest
    | .unanswered => m.raiseMiss dest
    | .lost | .collided | .voided => m

/-! ### ORE -/

/-- PENDING and SENT entries hold a reservation (R102, R118). -/
def OrtEntry.reserved : OrtEntry → Bool
  | .pending _ => true
  | .sent _ _ => true
  | _ => false

/-- The entry is FREE. -/
def OrtEntry.isFree : OrtEntry → Bool
  | .free => true
  | _ => false

/-- The entry is SENT. -/
def OrtEntry.isSent : OrtEntry → Bool
  | .sent _ _ => true
  | _ => false

/-- The entry is QUARANTINED. -/
def OrtEntry.isQuarantined : OrtEntry → Bool
  | .quarantined _ _ => true
  | _ => false

/-- The reservations held: one per PENDING or SENT entry and one for a prepared tagless head (R102). -/
def Ore.reservations (o : Ore) : Nat :=
  o.ort.count OrtEntry.reserved +
    (match o.head with
      | some h => if h.tag.isNone then 1 else 0
      | none => 0)

/-- The CQ sum: records plus reservations (R102). -/
def Ore.cqSum (o : Ore) : Nat := o.cq.length + o.reservations

/-- The op an ORT entry records. -/
def OrtRecord.op (r : OrtRecord) : Op := if r.cwrite then .cwrite else .read

/-- The completion of an ORT entry (R122, R124, R126). -/
def OrtRecord.completion (r : OrtRecord) (st : Status) (data : List Word) : Completion :=
  { ticket := r.ticket, op := r.op, status := st, dest := some r.dest, data := data }

/-- The head leaves the RQ; the next descriptor becomes the head in WAITING (R99, R100). -/
def Ore.retireHead (o : Ore) : Ore := { o with rq := o.rq.tail, head := none }

/-- The tag of the prepared head, if it has one, goes FREE (R108 to R110, R113). -/
def Ore.freeHeadTag (o : Ore) : Ore :=
  match o.head.bind PreparedHead.tag with
  | none => o
  | some t => { o with ort := o.ort.put t .free }

/-- The head is completed with a status and leaves the RQ; its tag, if any, goes FREE (R103, R105, R108 to R110, R113). -/
def Ore.completeHead (st : Status) (dest : Option Station) (o : Ore) : Ore :=
  match o.rq with
  | [] => o
  | d :: _ =>
    let o' := o.freeHeadTag.retireHead
    { o' with cq := o'.cq ++ [⟨d.ticket, d.work.op, st, dest, []⟩] }

/-- A SENT entry whose destination is d (R126). -/
def OrtEntry.sentTo (d : Station) : OrtEntry → Bool
  | .sent r _ => r.dest == d
  | _ => false

/-- The PEER_LOST completion of a SENT entry (R126). -/
def OrtEntry.peerLost : OrtEntry → Option Completion
  | .sent r _ => some (r.completion .peerLost [])
  | _ => none

/-- A SENT entry goes to QUARANTINED with its quarantine timer started; another entry stays (R124, R126, R127). -/
def OrtEntry.quarantine (timeout : Nat) : OrtEntry → OrtEntry
  | .sent r _ => .quarantined r (some timeout)
  | e => e

/-- Every timer of the entry stops (R129). -/
def OrtEntry.stopTimer : OrtEntry → OrtEntry
  | .sent r _ => .sent r none
  | .quarantined r _ => .quarantined r none
  | e => e

/-- The ORE's part of the departure of d (R113, R126): SENT entries to d complete PEER_LOST in ascending order of tag and
are quarantined; then a prepared head routed to d completes PEER_LOST. -/
def Ore.departure (d : Station) (timeout : Nat) (o : Ore) : Ore :=
  let o₁ := { o with
    cq := o.cq ++ (o.ort.cells.filter (OrtEntry.sentTo d)).filterMap OrtEntry.peerLost
    ort := o.ort.map (fun e => if e.sentTo d then e.quarantine timeout else e) }
  match o.head with
  | some h => if h.dest = d then o₁.completeHead .peerLost (some d) else o₁
  | none => o₁

/-- The RQ is discarded (R115): no completion; the PENDING entry of the head goes FREE. -/
def Ore.discardQueue (o : Ore) : Ore := { o.freeHeadTag with rq := [], head := none }

/-! ### ISU -/

/-- A record joins the SQ tail; one that becomes the head starts with counts of 0 (R146). -/
def Isu.pushSq (r : SqRecord) (i : Isu) : Isu :=
  { i with sq := i.sq ++ [r], sqCounts := if i.sq.isEmpty then Counts.zero else i.sqCounts }

/-- The SQ head leaves and its handle goes FREE; the next record becomes the head with counts of 0 (R147). -/
def Isu.popSq (i : Isu) : Isu :=
  match i.sq with
  | [] => i
  | r :: rs => { i with sq := rs, itt := i.itt.put r.handle none, sqCounts := Counts.zero }

/-- The live entries (R142). -/
def Isu.live (i : Isu) : Nat := i.itt.count Option.isSome

/-- The lowest FREE handle (R142). -/
def Isu.freeHandle (i : Isu) : Option Handle := i.itt.lowest Option.isNone

/-- The entry is of station d and ANSWERING (R148). -/
def answeringTo (d : Station) (e : IttEntry) : Bool :=
  match e with
  | some r => r.source == d && r.state == .answering
  | none => false

/-- One ITT entry at the departure of d (R148). -/
def departEntry (d : Station) (e : IttEntry) : IttEntry :=
  match e with
  | some r =>
    if r.source = d then (if r.state = .answering then none else some { r with orphaned := true }) else some r
  | none => none

/-- The ISU's part of the departure of d (R148). -/
def Isu.departure (d : Station) (i : Isu) : Isu :=
  let sq := i.sq.filter (fun r => !answeringTo d (i.itt.at r.handle))
  { i with
    itt := i.itt.map (departEntry d)
    sq := sq
    sqCounts := if sq.head? = i.sq.head? then i.sqCounts else Counts.zero }

/-- The FLUSHED record of one entry at a FLUSH start (R160). -/
def flushedRecord (i : Isu) (h : Handle) : Option SqRecord :=
  match i.itt.at h with
  | some r =>
    if r.state = .answering ∨ r.orphaned then none
    else some ⟨h, r.source, r.tag, .fail (BitVec.ofNat 32 Status.flushed.code)⟩
  | none => none

/-- One ITT entry at a FLUSH start (R160). -/
def flushEntry (e : IttEntry) : IttEntry :=
  match e with
  | some r =>
    if r.state = .answering then some r else if r.orphaned then none else some { r with state := .answering }
  | none => none

/-- The ISU's part of a FLUSH start (R160): FLUSHED records follow in ascending order of handle. -/
def Isu.flush (i : Isu) : Isu :=
  { i with
    iq := []
    nq := []
    itt := i.itt.map flushEntry
    sq := i.sq ++ (Bank.indices 4).filterMap (flushedRecord i)
    sqCounts := if i.sq.isEmpty then Counts.zero else i.sqCounts }

/-- Every live ITT entry goes FREE and the SQ is emptied; the IQ and the NQ keep their records (R59, R150). -/
def Isu.dropService (i : Isu) : Isu := { i with itt := Bank.all 4 none, sq := [], sqCounts := Counts.zero }

end Sys2Proof.Machine
end

