-- ==== Sys2Proof/Machine/WindowMap.lean ====
section
/-! DEFINITION. The Window Map Unit: entries, overlap and cover, additions and removals, the roster merge, the route
lookup and the ownership check (spec/04_the_window_map.md). -/

namespace Sys2Proof.Machine

/-- The lowest byte address of an entry. -/
def MapEntry.low (e : MapEntry) : Nat := e.base.toNat

/-- The length of an entry in bytes (R64). -/
def MapEntry.bytes (e : MapEntry) : Nat := windowSize e.size

/-- Two entries share a byte address (R64). -/
def MapEntry.overlaps (a b : MapEntry) : Bool := rangesOverlap a.low a.bytes b.low b.bytes

/-- Every byte of [low, low + bytes) lies in the entry (R64). -/
def MapEntry.covers (e : MapEntry) (low bytes : Nat) : Bool := e.low ≤ low && low + bytes ≤ e.low + e.bytes

/-- The window overlaps an entry of the map (R69, R71, R76). -/
def overlapsAny (map : List MapEntry) (e : MapEntry) : Bool := map.any (fun x => x.overlaps e)

/-- The entry takes its place by its base (R65). -/
def insertEntry (e : MapEntry) : List MapEntry → List MapEntry
  | [] => [e]
  | x :: xs => if e.low < x.low then e :: x :: xs else x :: insertEntry e xs

/-- How many entries a station owns. -/
def ownedBy (map : List MapEntry) (d : Station) : Nat := map.countP (fun e => e.owner == d)

/-- The map without the entries of d (R88). -/
def removeOwner (d : Station) (map : List MapEntry) : List MapEntry := map.filter (fun e => e.owner != d)

/-- The map without the entry of that base and owner (R74). -/
def removeEntry (base : Word) (owner : Station) (map : List MapEntry) : List MapEntry :=
  map.filter (fun e => !(e.base == base && e.owner == owner))

/-- A member's evaluation of another station's CLAIM: it is refused when any condition of R71 holds. -/
def claimRefusedBy (map : List MapEntry) (e : MapEntry) : Bool :=
  overlapsAny map e || Config.mapDepth ≤ map.length || Config.ownedLimit ≤ ownedBy map e.owner

/-- The map with an entry added. "The addition always fits" (R72): an entry that overlaps, finds 64 entries, or finds four of
its owner, which only a state no run reaches could offer, is not added, so that the laws of R65 hold whatever the state (log
entry 13). -/
def addEntry (e : MapEntry) (map : List MapEntry) : List MapEntry :=
  if claimRefusedBy map e then map else insertEntry e map

/-- The check of the station's own CLAIM (R69). -/
def claimFits (map : List MapEntry) (e : MapEntry) : Bool :=
  !(overlapsAny map e || Config.mapDepth ≤ map.length)

/-- The window of a pair of window words, owned by d (R12). -/
def pairEntry (p : Word × Word) (d : Station) : MapEntry :=
  { base := p.1, size := sizeCodeOf p.2, writable := writableOf p.2, owner := d }

/-- One pair of a ROSTER of d is merged, or MAP_OVERLAP is appended (R76). -/
def mergePair (d : Station) (s : State) (p : Word × Word) : State :=
  let e := pairEntry p d
  if s.wmu.map.any (fun x => x.base == e.base && x.owner == d) then s
  else if claimRefusedBy s.wmu.map e then s.fault .mapOverlap (some d) none (some e.base)
  else { s with wmu := { s.wmu with map := insertEntry e s.wmu.map } }

/-- The window pairs of a ROSTER are merged in body order (R76). -/
def mergePairs (d : Station) (pairs : List (Word × Word)) (s : State) : State := pairs.foldl (mergePair d) s

/-- The answers of the route lookup (R78). -/
inductive Route where
  | owner (d : Station)
  | self
  | none
deriving DecidableEq, Repr

/-- The size of the address space in bytes: addresses run to FFFF_FFFFh. -/
abbrev addressSpace : Nat := 2 ^ 32

/-- The route lookup of length words from address (R78). -/
def routeLookup (map : List MapEntry) (sid : Station) (address : Word) (length : Nat) : Route :=
  if address.toNat + 4 * length ≤ addressSpace then
    match map.find? (fun e => e.covers address.toNat (4 * length)) with
    | none => .none
    | some e => if e.owner = sid then .self else .owner e.owner
  else .none

/-- The answers of the ownership check (R79). -/
inductive Ownership where
  | serve | readOnly | notOwner
deriving DecidableEq, Repr

/-- The record is HELD or RELEASING. -/
def WindowState.active : WindowState → Bool
  | .held | .releasing => true
  | _ => false

/-- The entry is an own entry whose record is HELD or RELEASING (R67, R79). -/
def State.activeOwn (s : State) (e : MapEntry) : Bool :=
  e.owner == s.mc.sid &&
    (Bank.indices 2).any (fun n => (s.wmu.own.at n).state.active && (s.lpu.setup.slots.at n).base == e.base)

/-- The ownership check of a request (R79). -/
def State.ownership (s : State) (b : RequestBody) : Ownership :=
  let low := (requestAddress b).toNat
  let bytes := 4 * requestLength b
  if low + bytes ≤ addressSpace then
    match s.wmu.map.find? (fun e => s.activeOwn e && e.covers low bytes) with
    | none => .notOwner
    | some e =>
      match b with
      | .read _ _ => .serve
      | .write _ _ => if e.writable then .serve else .readOnly
      | .cwrite _ _ => if e.writable then .serve else .readOnly
  else .notOwner

/-- The held-window count: records in HELD or RELEASING (R66). -/
def Wmu.heldCount (w : Wmu) : Nat := w.own.count (fun r => r.state.active)

/-- The own-window record of slot n goes to a state, with no RELEASE queued. -/
def Wmu.setRecord (n : Slot) (st : WindowState) (w : Wmu) : Wmu := { w with own := w.own.put n ⟨st, none⟩ }

/-- The record of slot n goes to RELEASING and a RELEASE is queued (R73). -/
def Wmu.queueRelease (n : Slot) (w : Wmu) : Wmu := { w with own := w.own.put n ⟨.releasing, some Counts.zero⟩ }

end Sys2Proof.Machine
end

