-- ==== Sys2Proof/Machine/Outbound.lean ====
section
/-! DEFINITION. The preparation of the RQ head (R101 to R105), the leave condition (R58), the end of a FLUSH (R163), and
what follows an event at the same moment. -/

namespace Sys2Proof.Machine

/-- What the preparation of a head finds (R101 to R105). -/
inductive Preparation where
  /-- A condition of R101 does not hold: the head stays WAITING. -/
  | blocked
  /-- Completed locally: nothing is sent. -/
  | completed (status : Status) (dest : Option Station)
  /-- Routed to a station, or to all stations. -/
  | routed (dest : Station)
deriving DecidableEq, Repr

/-- The preparation of a descriptor against the tables as they stand: the conditions of R101, then the route (R103,
R105). -/
def prepare (m : Mc) (map : List MapEntry) (o : Ore) (d : Descriptor) : Preparation :=
  if m.state.prepares && decide (o.cqSum < Config.cqDepth) &&
      (!d.work.tagged || (o.ort.lowest OrtEntry.isFree).isSome) then
    match d.work with
    | .signal dest _ =>
      if dest = allStations ∨ m.peers.has dest then .routed dest else .completed .noPeer (some dest)
    | .read a n =>
      match routeLookup map m.sid a n with
      | .none => .completed .noWindow none
      | .self => .completed .localWindow none
      | .owner p => .routed p
    | .write a ds =>
      match routeLookup map m.sid a ds.length with
      | .none => .completed .noWindow none
      | .self => .completed .localWindow none
      | .owner p => .routed p
    | .cwrite a ds =>
      match routeLookup map m.sid a ds.length with
      | .none => .completed .noWindow none
      | .self => .completed .localWindow none
      | .owner p => .routed p
  else .blocked

/-- What the entry of an allocated tag records (R104). -/
def recordOf (d : Descriptor) (dest : Station) : OrtRecord :=
  { cwrite := d.work.op == .cwrite, dest := dest, length := d.work.length, ticket := d.ticket }

/-- The head becomes READY; a READ or CWRITE takes the lowest FREE tag, whose entry becomes PENDING (R103, R104). -/
def Ore.makeReady (d : Descriptor) (dest : Station) (o : Ore) : Ore :=
  if d.work.tagged then
    match o.ort.lowest OrtEntry.isFree with
    | none => o
    | some t =>
      { o with
        ort := o.ort.put t (.pending (recordOf d dest))
        head := some ⟨dest, some t, .ready, 0, Counts.zero⟩ }
  else { o with head := some ⟨dest, none, .ready, 0, Counts.zero⟩ }

/-- Preparation is attempted for the head, and after a local completion for the next head (R99, R101); n bounds the
descriptors looked at. -/
def Ore.prepareHead (m : Mc) (map : List MapEntry) : Nat → Ore → Ore
  | 0, o => o
  | n + 1, o =>
    match o.rq with
    | [] => o
    | d :: _ =>
      if o.head.isSome then o
      else
        match prepare m map o d with
        | .blocked => o
        | .completed st dest => (o.completeHead st dest).prepareHead m map n
        | .routed dest => o.makeReady d dest

/-- The ORE attempts the preparation of a WAITING head at this moment (R101). -/
def State.prepareHead (s : State) : State :=
  { s with ore := s.ore.prepareHead s.mc s.wmu.map s.ore.rq.length }

/-- The leave condition (R58). -/
def State.leaveCondition (s : State) : Bool :=
  s.ore.rq.isEmpty && s.ore.ort.count OrtEntry.reserved == 0 && s.wmu.heldCount == 0 && s.isu.live == 0 &&
    s.isu.sq.isEmpty

/-- A station in LEAVING sets its BYE flag when the leave condition holds; once set it stays set (R58). -/
def State.testLeave (s : State) : State :=
  if s.mc.state = .leaving ∧ s.mc.bye = none ∧ s.leaveCondition = true then
    { s with mc := { s.mc with bye := some Counts.zero } }
  else s

/-- The station is receiving a request frame on which the ISU decided ACCEPT (R163). -/
def Tif.acceptedRequest (t : Tif) : Bool :=
  match t.rx with
  | none => false
  | some r =>
    match r.verdict with
    | .accept _ (some _) => true
    | _ => false

/-- A FLUSH ends DONE when the SQ is empty and no request accepted before its start is still being received (R163). During
a FLUSH every request is rejected (R137), so an accepted one was accepted before. -/
def State.testFlush (s : State) : State :=
  if s.flushing = true ∧ s.isu.sq.isEmpty = true ∧ s.tif.acceptedRequest = false then s.finish .done else s

/-- What follows where the RQ head or a tag may have gone: the next head is prepared (R99, R101) and the leave condition
is tested (R58). -/
def State.afterHead (s : State) : State := s.prepareHead.testLeave

/-- What follows where an SQ record or a handle may have gone: the leave condition (R58) and the end of a FLUSH (R163) are
tested. -/
def State.afterResponse (s : State) : State := s.testLeave.testFlush

end Sys2Proof.Machine
end

