-- ==== Sys2Proof/Machine/Membership.lean ====
section
/-! DEFINITION. Changes of station state and what each does to every block: HALTED, SYNCING, CLAIMING, JOINED, LEAVING,
DETACHED, FAULTED; claiming the own windows; sync completion; the departure cleanup (spec/03, 04, 05). -/

namespace Sys2Proof.Machine

/-! ### FAULTED, DETACHED, HALTED -/

/-- Entry into FAULTED (R61, R81, R116, R129, R151): lines released, any frame cut short or abandoned, timers stopped, map,
peer set and miss counters emptied, the queues and tables frozen, and the command in progress ended FAILED. -/
def State.enterFaulted (s : State) : State :=
  ({ s with
    tif := { s.tif with flight := none, rx := none, collidedHere := false, spent := none, holdoff := none }
    mc := { s.mc with settle := none, deadline := none, peers := StationSet.empty, miss := Bank.all 5 0 }
    wmu := { s.wmu with map := [] }
    ore := { s.ore with ort := s.ore.ort.map OrtEntry.stopTimer } }.enter .faulted).finish .failed

/-- A FATAL fault is recorded and the station enters FAULTED (R61). -/
def State.fatal (k : FaultKind) (station : Option Station) (s : State) : State :=
  (s.fault k station none none).enterFaulted

/-- A QUARANTINED entry goes to FREE (R125, R128). -/
def OrtEntry.release : OrtEntry → OrtEntry
  | .quarantined _ _ => .free
  | e => e

/-- Entry into DETACHED (R37, R52, R59, R80, R128, R150): the command in progress, if it is LEAVE, ends DONE. That the SQ is empty
and no ITT entry is live by then, the manual states and takes to have come about before; where a request served after the
BYE flag was set has left something, the entry itself drops it, which the model deduces (log entry 27). -/
def State.enterDetached (s : State) : State :=
  let s₁ := { s with
    tif := { s.tif with rx := none, holdoff := none }
    mc := { s.mc with
      peers := StationSet.empty, miss := Bank.all 5 0, evicts := [], roster := none, bye := none, settle := none
      deadline := none }
    wmu := Wmu.reset
    ore := { s.ore with ort := s.ore.ort.map OrtEntry.release }
    isu := s.isu.dropService }.enter .detached
  if s₁.lpu.running = some .leave then s₁.finish .done else s₁

/-- A LEAVE before membership returns the station to HALTED and ends DONE (R44). -/
def State.leaveToHalted (s : State) : State :=
  ({ s with
    tif := { s.tif with flight := none, rx := none, collidedHere := false, spent := none }
    mc := { s.mc with sync := none }
    wmu := { s.wmu with own := Bank.all 2 ⟨.idle, none⟩, claim := none } }.enter .halted).finish .done

/-! ### Claiming (R68, R69) -/

/-- The own window of slot n. -/
def State.ownWindow (s : State) (n : Slot) : MapEntry := s.lpu.setup.window n s.mc.sid

/-- The record of slot n goes to REFUSED and CLAIM_REFUSED is appended (R69, R70). -/
def State.refuseClaim (n : Slot) (s : State) : State :=
  { s with wmu := s.wmu.setRecord n .refused }.fault .claimRefused none none (some (s.ownWindow n).base)

/-- No record is WANTED: a station in CLAIMING enters JOINED and JOIN ends DONE (R56). -/
def State.enterJoined (s : State) : State :=
  if s.mc.state = .claiming then
    let s₁ := s.enter .joined
    if s₁.lpu.running = some .join then s₁.finish .done else s₁
  else s

/-- The CLAIM in course becomes that of the first WANTED record of the slots given, each checked in its turn; when none is
left the station enters JOINED (R68, R69). -/
def State.claimFrom : List Slot → State → State
  | [], s => s.enterJoined
  | n :: ns, s =>
    if (s.wmu.own.at n).state = .wanted then
      if claimFits s.wmu.map (s.ownWindow n) then
        { s with wmu := { s.wmu with claim := some ⟨n, Counts.zero⟩ } }
      else State.claimFrom ns (s.refuseClaim n)
    else State.claimFrom ns s

/-- The next WANTED record is taken in course (R68). -/
def State.nextClaim (s : State) : State :=
  State.claimFrom (Bank.indices 2) { s with wmu := { s.wmu with claim := none } }

/-- The CLAIM in course is checked again after an addition to the map (R69). -/
def State.recheckClaim (s : State) : State :=
  match s.wmu.claim with
  | none => s
  | some c =>
    if s.mc.state = .claiming ∧ claimFits s.wmu.map (s.ownWindow c.slot) = false then
      (s.refuseClaim c.slot).nextClaim
    else s

/-! ### Sync (R47, R52, R54) -/

/-- The own SYNC was taken in SYNC_WAIT: the station enters SYNCING and its bookkeeping starts (R47, R48, R52). -/
def State.enterSyncing (s : State) : State :=
  { s with mc := { s.mc with
    sync := none
    peers := s.mc.peers.insert s.mc.sid
    answered := StationSet.empty, late := StationSet.empty, expected := StationSet.empty, attempts := 0
    settle := some (4 * s.timeout) } }.enter .syncing

/-- Sync is complete: the settle timer stops and the station enters CLAIMING, begins claiming and may prepare a head (R54,
R68, R101). -/
def State.completeSync (s : State) : State :=
  ({ s with mc := { s.mc with settle := none } }.enter .claiming).nextClaim.prepareHead

/-- Sync is complete alone: the peer set becomes the own number, no EVICT is pending, the map is empty (R54, R77). -/
def State.completeAlone (s : State) : State :=
  { s with
    mc := { s.mc with peers := StationSet.single s.mc.sid, evicts := [] }
    wmu := { s.wmu with map := [] } }.completeSync

/-- A station in SYNCING completes its sync when somebody answered and everybody expected has (R54). -/
def State.testSync (s : State) : State :=
  if s.mc.state = .syncing ∧ s.mc.answered ≠ StationSet.empty ∧
      s.mc.expected.minus s.mc.answered = StationSet.empty then
    s.completeSync
  else s

/-! ### Leaving (R57) -/

/-- The frame in flight is the CLAIM of slot n. -/
def Tif.claimInFlight (t : Tif) (n : Slot) : Bool :=
  match t.flight with
  | some f => f.source == .claim n
  | none => false

/-- An own-window record at entry into LEAVING (R57). -/
def leaveRecord (inFlight : Bool) (r : OwnRecord) : OwnRecord :=
  match r.state with
  | .wanted => if inFlight then r else ⟨.idle, none⟩
  | .held => ⟨.releasing, some Counts.zero⟩
  | _ => r

/-- The own-window records at entry into LEAVING (R57). -/
def State.leaveRecords (s : State) : Bank 2 OwnRecord :=
  (Bank.indices 2).foldl (fun b n => b.put n (leaveRecord (s.tif.claimInFlight n) (b.at n))) s.wmu.own

/-- Entry into LEAVING (R57): the leave deadline runs for 8 × T_R, a SYNC flag is withdrawn, HELD windows are released, a
CLAIM not in flight is withdrawn, and the leave condition is tested. -/
def State.enterLeaving (s : State) : State :=
  ({ s with
    mc := { s.mc with deadline := some (8 * s.timeout), settle := none, sync := none }
    wmu := { s.wmu with
      own := s.leaveRecords
      claim := s.wmu.claim.filter (fun c => s.tif.claimInFlight c.slot) } }.enter .leaving).testLeave

/-! ### Departure (R85 to R88) -/

/-- The three departure frames (R85). -/
inductive DepartureCause where
  | evict | bye | sync
deriving DecidableEq, Repr

/-- The MC's part of the departure of d (R53, R86). -/
def Mc.departure (d : Station) (cause : DepartureCause) (m : Mc) : Mc :=
  let m₁ := { m with
    miss := m.miss.put d 0
    evicts := dropEvict d m.evicts
    peers := if cause = .sync then (m.peers.erase d).insert d else m.peers.erase d
    roster := if cause = .sync then some (m.roster.getD Counts.zero) else m.roster }
  if m.state = .syncing then
    { m₁ with
      expected := m.expected.erase d
      answered := m.answered.erase d
      late := if cause = .sync then m.late.insert d else m.late }
  else m₁

/-- Every block cleans up its state for d, and an EVICT is recorded PEER_EVICTED (R86, R88, R94, R113, R126, R148). -/
def State.cleaned (d : Station) (cause : DepartureCause) (s : State) : State :=
  let ore := s.ore.departure d s.timeout
  let s₁ := { s with
    mc := s.mc.departure d cause
    wmu := { s.wmu with map := removeOwner d s.wmu.map }
    ore := ore
    isu := s.isu.departure d
    tif := { s.tif with holdoff := if ore.head.isSome then s.tif.holdoff else none } }
  if cause = .evict then s₁.fault .peerEvicted (some d) none none else s₁

/-- The departure of d at a member (R85 to R88): the cleanup, the test of the sync of a station in SYNCING, and what follows
where the cleanup let something go. It does not take place at station d itself (R85). The manual orders the WMU's removal
alone before the preparation of the next head (R87, R113): that a unicast SIGNAL to d becoming the head then is judged
against the peer set as already changed is the model's choice (log entry 28). -/
def State.departure (d : Station) (cause : DepartureCause) (s : State) : State :=
  if d = s.mc.sid then s else (s.cleaned d cause).testSync.afterHead.testFlush

end Sys2Proof.Machine
end

