-- ==== Sys2Proof/Machine/Trunk.lean ====
section
/-! DEFINITION. The transmitter: which frame is offered and with what content, the void limit, LOST and COLLIDED, and
what the station drives on the lines (spec/02_contention_outcomes_and_retransmission.md, R1, R3, R16). -/

namespace Sys2Proof.Machine

/-! ### Selecting the frame (R23, R24) -/

/-- The queued RELEASE of the lowest base (R24). -/
def State.lowestRelease (s : State) : Option Slot :=
  (Bank.indices 2).foldl
    (fun best n =>
      if (s.wmu.own.at n).release.isSome then
        match best with
        | none => some n
        | some b => if (s.ownWindow n).low < (s.ownWindow b).low then some n else some b
      else best)
    none

/-- The pending map frame to offer (R24). -/
def State.mapSource (s : State) : Option Source :=
  if s.mc.sync.isSome then some .sync
  else if s.mc.bye.isSome then some .bye
  else if s.mc.roster.isSome then some .roster
  else
    match s.mc.evicts with
    | e :: _ => some (.evict e.station)
    | [] =>
      match s.lowestRelease with
      | some n => some (.release n)
      | none => s.wmu.claim.map (fun c => .claim c.slot)

/-- The RQ head is prepared and not in busy holdoff (R23, R100). -/
def Ore.headReady (o : Ore) : Bool :=
  match o.head with
  | some h => h.phase == .ready
  | none => false

/-- The frame to offer: the SQ head, then the pending map frame, then the eligible RQ head (R23). -/
def State.select (s : State) : Option Source :=
  if !s.isu.sq.isEmpty then some .sqHead
  else
    match s.mapSource with
    | some src => some src
    | none => if s.ore.headReady then some .rqHead else none

/-! ### Counts of a candidate -/

/-- The counts of a candidate (R20). -/
def State.countsOf (src : Source) (s : State) : Option Counts :=
  match src with
  | .sqHead => if s.isu.sq.isEmpty then none else some s.isu.sqCounts
  | .sync => s.mc.sync
  | .bye => s.mc.bye
  | .roster => s.mc.roster
  | .evict d => (s.mc.evicts.find? (fun e => e.station == d)).map PendingEvict.counts
  | .release n => (s.wmu.own.at n).release
  | .claim n => (s.wmu.claim.filter (fun c => c.slot == n)).map ClaimInCourse.counts
  | .rqHead => s.ore.head.map PreparedHead.counts

/-- The counts of a candidate changed (R20); nothing happens where there is no such candidate. -/
def State.withCounts (src : Source) (c : Counts) (s : State) : State :=
  match src with
  | .sqHead => { s with isu := { s.isu with sqCounts := if s.isu.sq.isEmpty then s.isu.sqCounts else c } }
  | .sync => { s with mc := { s.mc with sync := s.mc.sync.map (fun _ => c) } }
  | .bye => { s with mc := { s.mc with bye := s.mc.bye.map (fun _ => c) } }
  | .roster => { s with mc := { s.mc with roster := s.mc.roster.map (fun _ => c) } }
  | .evict d =>
    { s with mc := { s.mc with
      evicts := s.mc.evicts.map (fun e => if e.station = d then { e with counts := c } else e) } }
  | .release n =>
    let r := s.wmu.own.at n
    { s with wmu := { s.wmu with own := s.wmu.own.put n { r with release := r.release.map (fun _ => c) } } }
  | .claim n =>
    { s with wmu := { s.wmu with
      claim := s.wmu.claim.map (fun k => if k.slot = n then { k with counts := c } else k) } }
  | .rqHead => { s with ore := { s.ore with head := s.ore.head.map (fun h => { h with counts := c }) } }

/-! ### The content of a frame (R8, R25, R51, R106, R146) -/

/-- The window pairs of the station's ROSTER: its own entries whose records are HELD or RELEASING, in ascending base order;
none in SYNCING (R51). -/
def State.rosterPairs (s : State) : List (Word × Word) :=
  if s.mc.state = .syncing then []
  else (s.wmu.map.filter s.activeOwn).map (fun e => (e.base, descriptorWord e.size e.writable))

/-- The body of a prepared head's frame (R106). -/
def Work.content : Work → Content
  | .read a n => .request (.read a (BitVec.ofNat 32 n))
  | .write a ds => .request (.write a ds)
  | .cwrite a ds => .request (.cwrite a ds)
  | .signal _ v => .signal v

/-- What the station sends for a source at this moment (R25). -/
def State.messageOf (src : Source) (s : State) : Option Message :=
  let map (c : Content) : Option Message := some ⟨s.mc.sid, allStations, 0, c⟩
  match src with
  | .sqHead => s.isu.sq.head?.map (fun r => ⟨s.mc.sid, r.dest, r.tag, .response r.body⟩)
  | .sync => map .sync
  | .bye => map .bye
  | .roster => map (.roster (StationSet.ofPeerWord s.mc.peers) s.rosterPairs)
  | .evict d => map (.evict (d.setWidth 32))
  | .release n => map (.release (s.ownWindow n).base)
  | .claim n => map (.claim (s.ownWindow n).base (descriptorWord (s.ownWindow n).size (s.ownWindow n).writable))
  | .rqHead =>
    match s.ore.rq, s.ore.head with
    | d :: _, some h => some ⟨s.mc.sid, h.dest, h.tag.getD 0, d.work.content⟩
    | _, _ => none

/-- The frame offered for a source: its message with the urgency its counts give (R25, R28). -/
def State.frameOf (src : Source) (s : State) : Option Frame :=
  match s.messageOf src, s.countsOf src with
  | some m, some c => some (m.frame c.urgent)
  | _, _ => none

/-! ### Beginning a frame (R21, R22) -/

/-- The station may begin a frame: listening, idle reported, receiver READY, no frame in flight (R20, R21, R22). -/
def State.mayBegin (s : State) : Bool :=
  s.mc.state.isListening && s.tif.idleCount == Config.idleBits && s.tif.receiver == .ready && s.tif.flight.isNone

/-- The station begins a frame: the start bit ends the idle report and the receiver takes it (R5, R6, R22). -/
def State.begin (s : State) : State :=
  if s.mayBegin then
    match s.select with
    | none => s
    | some src =>
      match s.frameOf src with
      | none => s
      | some f =>
        { s with tif := { s.tif with
          idleCount := 0, receiver := .receiving, collidedHere := false, spent := none, rx := none
          flight := some ⟨src, f, false⟩ } }
  else s

/-! ### What the station drives (R1, R3, R16) -/

/-- The slots a verdict drives (R16). -/
def Verdict.drives : Verdict → Slots
  | .malformed => ⟨true, false, false⟩
  | .silent _ => Slots.none
  | .reject _ => ⟨false, true, false⟩
  | .accept _ _ => ⟨false, false, true⟩

/-- The slots driven on a frame being received: those of the verdict, but none after the edge at which the clock was found out
of tolerance (R4, R15; log entry 31). -/
def Reception.drives (r : Reception) : Slots :=
  match r.late with
  | none => r.verdict.drives
  | some .error => { r.verdict.drives with reject := false, accept := false }
  | some .reject => { r.verdict.drives with accept := false }

/-- The slots the station drives on the frame it is receiving (R16). -/
def State.drivesSlots (s : State) : Slots :=
  match s.tif.rx with
  | some r => r.drives
  | none => Slots.none

/-- The station drives TCLK while it transmits a frame, and at no other time (R1, R3). -/
def State.drivesTclk (s : State) : Bool := s.tif.flight.isSome

/-- The station drives TDAT dominant at bit p of the frame on the trunk: as its transmitter, where its bit is dominant; as a
listener, in the trailer slots, which the count received places (R1, R9, R16, R182). -/
def State.drivesTdat (s : State) (p : Nat) : Bool :=
  match s.tif.flight, s.tif.rx with
  | some f, _ => f.frame.bitAt p == some false
  | none, none => false
  | none, some r =>
    (p == errorPosition r.count && r.drives.error) || (p == rejectPosition r.count && r.drives.reject) ||
      (p == acceptPosition r.count && r.drives.accept)

/-- A line is dominant in any bit time in which at least one station drives it (R1). -/
def lineDominant (drives : List Bool) : Bool := drives.any id

/-! ### The void limit (R35) -/

/-- The end of the own frame at its trailer: no frame in flight, the receiver UNSYNCED, and the consecutive-collision count
0 (R6, R30). -/
def State.endFlight (s : State) : State :=
  { s with tif := { s.tif with flight := none, receiver := .unsynced, collisions := 0 } }

/-- The RQ head is completed with a status towards its destination and leaves; a holdoff stops (R36, R108 to R110). -/
def State.giveUpHead (st : Status) (s : State) : State :=
  match s.ore.head with
  | none => s
  | some h => { s with ore := s.ore.completeHead st (some h.dest), tif := { s.tif with holdoff := none } }

/-- The CLAIM in flight at a LEAVE ends neither TAKEN nor REJECTED: the record becomes IDLE (R57). -/
def State.dropClaim (n : Slot) (s : State) : State :=
  { s with wmu := { s.wmu.setRecord n .idle with claim := none } }

/-- The eighth void: the TIF abandons the frame, records VOID_LIMIT for the kinds that carry one, and the owner's rule
for an abandoned frame applies (R35; R47, R50, R59, R70, R75, R93, R110, R147). A CLAIM given up in LEAVING (R57) is recorded
too, which is the model's choice (log entry 9). -/
def State.abandon (src : Source) (s : State) : State :=
  match src with
  | .sqHead =>
    match s.isu.sq with
    | [] => s
    | r :: _ =>
      ({ s with isu := s.isu.popSq }.fault .voidLimit (some r.dest) (some (r.handle.setWidth 5)) none).afterResponse
  | .sync => s.fatal .syncIncomplete none
  | .bye => (s.fault .voidLimit none none none).enterDetached
  | .roster => { s with mc := { s.mc with roster := none } }.fault .voidLimit none none none
  | .evict d =>
    { s with mc := { s.mc with evicts := dropEvict d s.mc.evicts } }.fault .voidLimit (some d) none none
  | .release n =>
    { s with wmu := { s.wmu with own := s.wmu.own.put n { s.wmu.own.at n with release := none } } }.fault
      .voidLimit none none (some (s.ownWindow n).base)
  | .claim n =>
    let base := some (s.ownWindow n).base
    if s.mc.state = .leaving then (s.dropClaim n).fault .voidLimit none none base
    else ({ s with wmu := s.wmu.setRecord n .refused }.fault .voidLimit none none base).nextClaim
  | .rqHead => (s.giveUpHead .trunkError).afterHead

/-- The void count of a candidate rises; at 8 the frame is abandoned (R35). -/
def State.voidFrame (src : Source) (s : State) : State :=
  match s.countsOf src with
  | none => s
  | some c =>
    if c.raiseVoids.voids < Config.voidLimit then s.withCounts src c.raiseVoids else s.abandon src

/-- The Fault List as given, and what is owed at the end of the frame on the trunk. -/
def State.owing (faults : List FaultRecord) (a : Aftermath) (s : State) : State :=
  { s with lpu := { s.lpu with faults := faults }, tif := { s.tif with spent := some a } }

/-- A frame is abandoned at a collision bit: its owner's rule applies at once (R35, R70), and the fault records wait for the end
of the frame on the trunk (R165). -/
def State.abandonAtBit (src : Source) (s : State) : State :=
  let t := State.abandon src { s with lpu := { s.lpu with faults := [] } }
  t.owing s.lpu.faults (.faults t.lpu.faults)

/-- The eighth void by COLLIDED: the frame is abandoned on this rise of its void count (R35). A request or signal frame makes no
fault record (R110). The fault SYNC_INCOMPLETE with the entry into FAULTED, and the entry into DETACHED, come at the end of the
frame on the trunk (R59, R61, R165; log entry 10). -/
def State.collideLimit (src : Source) (c : Counts) (s : State) : State :=
  match src with
  | .sync => State.withCounts .sync c { s with tif := { s.tif with spent := some .syncIncomplete } }
  | .bye => State.withCounts .bye c { s with tif := { s.tif with spent := some .detach } }
  | .rqHead => s.abandon .rqHead
  | src => s.abandonAtBit src

/-- A COLLIDED frame: its void count rises at this bit (R29, R35). -/
def State.collideVoid (src : Source) (s : State) : State :=
  match s.countsOf src with
  | none => s
  | some c =>
    if c.raiseVoids.voids < Config.voidLimit then s.withCounts src c.raiseVoids else s.collideLimit src c.raiseVoids

/-- The end of the frame on which an own frame was abandoned (R35, R47, R59, R165). -/
def State.finishSpent (s : State) : State :=
  match s.tif.spent with
  | none => s
  | some (.faults _) => s.appendDue
  | some .syncIncomplete => State.abandon .sync { s with tif := { s.tif with spent := none } }
  | some .detach => State.abandon .bye { s with tif := { s.tif with spent := none } }

/-- The void count a candidate would have after one more void. -/
def State.voidsAfter (src : Source) (s : State) : Nat :=
  match s.countsOf src with
  | some c => c.voids + 1
  | none => 0

/-! ### LOST and COLLIDED (R27 to R30) -/

/-- A LEAVE waits for the SYNC in flight (R44). -/
def State.leaveWaitsForSync (s : State) : Bool :=
  s.mc.state == .syncWait && s.lpu.running == some .leave

/-- The frame in flight loses arbitration (R27, R28): the station becomes a listener and the frame stays a candidate. A
SYNC in flight after a LEAVE in SYNC_WAIT ends in HALTED (R44); a CLAIM in flight after a LEAVE is given up (R57). -/
def State.lose (f : Flight) (s : State) : State :=
  let s₁ := { s with tif := { s.tif with flight := none, collisions := 0 } }
  if f.discarded then s₁
  else
    match f.source with
    | .sync =>
      if s.leaveWaitsForSync then s₁.leaveToHalted
      else
        match s.countsOf .sync with
        | none => s₁
        | some c => s₁.withCounts .sync (c.lose s.lpu.setup.agingThreshold)
    | .claim n =>
      if s.mc.state = .leaving then s₁.dropClaim n
      else
        match s.countsOf (.claim n) with
        | none => s₁
        | some c => s₁.withCounts (.claim n) (c.lose s.lpu.setup.agingThreshold)
    | src =>
      match s.countsOf src with
      | none => s₁
      | some c => s₁.withCounts src (c.lose s.lpu.setup.agingThreshold)

/-- The frame in flight collides (R29, R30): the station becomes a listener that counts the frame malformed, also where the bit
is its own start bit, which R6 would let its receiver drop (log entry 32). The second consecutive collision is FATAL;
otherwise the void count rises, with the exceptions of R44 and R57. -/
def State.collide (f : Flight) (s : State) : State :=
  let n := s.tif.collisions + 1
  let s₁ := { s with tif := { s.tif with flight := none, collisions := n, collidedHere := true } }
  if Config.collisionLimit ≤ n then s₁.fatal .collision (some s.mc.sid)
  else if f.discarded then s₁
  else
    match f.source with
    | .sync => if s.leaveWaitsForSync then s₁.leaveToHalted else s₁.collideVoid .sync
    | .claim k =>
      if s.mc.state = .leaving ∧ s.voidsAfter (.claim k) < Config.voidLimit then s₁.dropClaim k
      else s₁.collideVoid (.claim k)
    | src => s₁.collideVoid src

end Sys2Proof.Machine
end

