-- ==== Sys2Proof/Machine/Outcomes.lean ====
section
/-! DEFINITION. What the owners do with the outcomes of the station's own frames at the end of the trailer (R33 and the
table of spec/02 2.10). -/

namespace Sys2Proof.Machine

/-- The state after an own frame of the given source ends at its trailer with the given levels; a row whose frame is not
the one in flight is an event that cannot happen (log entry 2). -/
def State.atTrailer (src : Source → Bool) (levels : Slots) (f : Flight → Outcome → State → State) (s : State) :
    State :=
  match s.tif.flight with
  | none => s
  | some fl =>
    if src fl.source then f fl (outcomeOf fl.frame.dest levels) s.endFlight else s

/-- The edge that samples the last check bit of an own frame of the given source: the receiver of the transmitter, which samples
every edge as a listener's does, goes to SLOTS (R6). It decides nothing, since the frame is its own (R14). -/
def State.ownLastCheckBit (src : Source → Bool) (s : State) : State :=
  if s.tif.receiver = .receiving ∧ s.tif.flight.any (fun fl => src fl.source) = true then
    { s with tif := { s.tif with receiver := .slots } }
  else s

/-- A moment of an own frame of the given source: its last check bit, or the end of its trailer, whose levels and outcome its
owner takes (R6, R33). -/
def State.ownFrame (src : Source → Bool) (moment : TxMoment) (ends : Slots → Flight → Outcome → State → State)
    (s : State) : State :=
  match moment with
  | .lastCheckBit => s.ownLastCheckBit src
  | .endOfTrailer levels => s.atTrailer src levels (ends levels)

/-- The own SYNC's outcome when a LEAVE has waited for it in SYNC_WAIT (R44). -/
def State.waitedSyncEnds (o : Outcome) (s : State) : State :=
  if o = .taken then s.enterSyncing.enterLeaving else s.leaveToHalted

/-- The own SYNC was TAKEN, by a member or by none (R47, R48, R54; R57 for LEAVING; log entry 8 for CLAIMING and JOINED). -/
def State.syncTaken (accept : Bool) (s : State) : State :=
  match s.mc.state with
  | .syncWait => if accept then s.enterSyncing else s.enterSyncing.completeAlone
  | .syncing =>
    if accept then { s with mc := { s.mc with sync := none, settle := some (4 * s.timeout) } }
    else { s with mc := { s.mc with sync := none } }.completeAlone
  | _ => { s with mc := { s.mc with sync := none } }

/-- The own SYNC's outcome (R44, R47). -/
def State.syncEnds (accept : Bool) (o : Outcome) (s : State) : State :=
  if s.leaveWaitsForSync then s.waitedSyncEnds o
  else
    match o with
    | .rejected => s.fatal .idConflict (some s.mc.sid)
    | .taken => s.syncTaken accept
    | _ => s.voidFrame .sync

/-- The own ROSTER's outcome (R50). A conforming trunk never rejects it (log entry 7). -/
def State.rosterEnds (o : Outcome) (s : State) : State :=
  match o with
  | .taken => { s with mc := { s.mc with roster := none } }
  | .voided => s.voidFrame .roster
  | _ => s

/-- The own CLAIM's outcome for the record of slot n (R57, R70). -/
def State.claimEnds (n : Slot) (o : Outcome) (s : State) : State :=
  let entry := s.ownWindow n
  if s.mc.state = .leaving then
    match o with
    | .taken =>
      { s with wmu := { s.wmu.queueRelease n with map := addEntry entry s.wmu.map, claim := none } }
    | .rejected => { s with wmu := { s.wmu with claim := none } }.refuseClaim n
    | _ => if s.voidsAfter (.claim n) < Config.voidLimit then s.dropClaim n else s.abandon (.claim n)
  else
    match o with
    | .taken =>
      ({ s with wmu := { s.wmu.setRecord n .held with map := addEntry entry s.wmu.map } } : State).nextClaim
    | .rejected => (s.refuseClaim n).nextClaim
    | _ => s.voidFrame (.claim n)

/-- The own RELEASE's outcome for the record of slot n (R74, R75); after the leave deadline only the map changes (R75). -/
def State.releaseEnds (n : Slot) (f : Flight) (o : Outcome) (s : State) : State :=
  match o with
  | .taken =>
    let s₁ := { s with wmu := { s.wmu with map := removeEntry (s.ownWindow n).base s.mc.sid s.wmu.map } }
    if f.discarded then s₁ else ({ s₁ with wmu := s₁.wmu.setRecord n .idle } : State).testLeave
  | .voided => if f.discarded then s else s.voidFrame (.release n)
  | _ => s

/-- The own EVICT(d)'s outcome (R93). -/
def State.evictEnds (d : Station) (o : Outcome) (s : State) : State :=
  match o with
  | .taken => s.departure d .evict
  | .rejected => { s with mc := { s.mc with evicts := dropEvict d s.mc.evicts }.clearMiss d }
  | .voided => s.voidFrame (.evict d)
  | _ => s

/-- The own BYE's outcome (R59). -/
def State.byeEnds (o : Outcome) (s : State) : State :=
  match o with
  | .taken => s.enterDetached
  | .voided => s.voidFrame .bye
  | _ => s

/-- A PENDING entry goes to SENT and its response timer starts (R107, R119). -/
def OrtEntry.send (timeout : Nat) : OrtEntry → OrtEntry
  | .pending r => .sent r (some timeout)
  | e => e

/-- The head's frame was TAKEN (R107): a tagged head's entry goes to SENT, and the descriptor leaves the RQ. -/
def Ore.headTaken (timeout : Nat) (o : Ore) : Ore :=
  match o.head.bind PreparedHead.tag with
  | some t => { o with ort := o.ort.put t ((o.ort.at t).send timeout) }.retireHead
  | none => o.retireHead

/-- The busy holdoff of 256 bit times in nanoseconds (R36). -/
def State.holdoffNs (s : State) : Nat := Config.holdoffBits * Config.bitTimeNs s.tif.rate

/-- The head's frame was REJECTED: the busy count rises, and the head goes into holdoff, or at the sixteenth is completed
BUSY_LIMIT (R36, R108). -/
def State.headRejected (s : State) : State :=
  match s.ore.head with
  | none => s
  | some h =>
    if h.busy + 1 < Config.busyLimit then
      { s with
        ore := { s.ore with head := some { h with busy := h.busy + 1, phase := .holdoff } }
        tif := { s.tif with holdoff := some s.holdoffNs } }
    else (s.giveUpHead .busyLimit).afterHead

/-- The RQ head's request or signal frame ends (R89, R107 to R110, R115). -/
def State.requestEnds (f : Flight) (o : Outcome) (s : State) : State :=
  let s₁ := { s with mc := s.mc.reportOutcome f.frame.dest o }
  if f.discarded then s₁
  else
    match o with
    | .taken => ({ s₁ with ore := s₁.ore.headTaken s₁.timeout } : State).afterHead
    | .rejected => s₁.headRejected
    | .unanswered => (s₁.giveUpHead .noPeer).afterHead
    | _ => s₁.voidFrame .rqHead

/-- The SQ head's response frame ends (R89, R147, R150). A REJECTED response counts as a void (R35). -/
def State.responseEnds (f : Flight) (o : Outcome) (s : State) : State :=
  let s₁ := { s with mc := s.mc.reportOutcome f.frame.dest o }
  if f.discarded then s₁
  else
    match o with
    | .taken => ({ s₁ with isu := s₁.isu.popSq } : State).afterResponse
    | .unanswered => ({ s₁ with isu := s₁.isu.popSq } : State).afterResponse
    | _ => s₁.voidFrame .sqHead

end Sys2Proof.Machine
end

