-- ==== Sys2Proof/Machine/Inbound.lean ====
section
/-! DEFINITION. Reception: the receiver's phases, the decision at the last check bit, and the application of a taken frame
at the end of its trailer (R5, R6, R15 to R19, R34, and the owning rules of chapters 3 to 9). -/

namespace Sys2Proof.Machine

/-! ### The decision (R16, R49, R71, R92, R120, R137, R153) -/

/-- The decision on a request addressed to the station; none is REJECT (R137). -/
def State.servicePlan (s : State) (b : RequestBody) : Option ServicePlan :=
  if s.flushing then none
  else
    let handleFree := requestPosted b || s.isu.freeHandle.isSome
    match s.ownership b with
    | .serve => if s.isu.iq.length < Config.iqDepth ∧ handleFree = true then some .deliver else none
    | .notOwner =>
      if requestPosted b then some .drop else if handleFree then some (.answer .notOwner) else none
    | .readOnly =>
      if requestPosted b then some .drop else if handleFree then some (.answer .readOnly) else none

/-- What a member decides on a well-formed frame addressed to it or to all stations. -/
def State.decideAddressed (s : State) (m : Message) : Verdict :=
  match m.content with
  | .sync => if m.source = s.mc.sid then .reject m else .accept m none
  | .claim b d => if claimRefusedBy s.wmu.map (pairEntry (b, d) m.source) then .reject m else .accept m none
  | .evict w => if w.setWidth 5 = s.mc.sid then .reject m else .accept m none
  | .request b =>
    match s.servicePlan b with
    | some p => .accept m (some p)
    | none => .reject m
  | .signal _ => if s.isu.nq.length < Config.nqDepth then .accept m none else .reject m
  | .roster _ _ => .accept m none
  | .release _ => .accept m none
  | .bye => .accept m none
  | .response _ => .accept m none

/-- What a listening station decides (R15, R17, R19, R29): none stands for a frame malformed here. A station that collided on
the frame drives ERROR whatever its kind (R29); that it does so on a CLAIM too, where R72 speaks of a member that drove ACCEPT
after its own collision, is the model's choice (log entry 34). -/
def State.decide (s : State) (m : Option Message) : Verdict :=
  match m with
  | none => .malformed
  | some m =>
    if s.tif.collidedHere then .malformed
    else if s.mc.state.isMember = false then .silent m
    else if m.dest = s.mc.sid ∨ m.dest = allStations then s.decideAddressed m
    else .silent m

/-! ### What a taken frame does at a member -/

/-- A taken SYNC from another station (R48, R50, R53, R85). The departure sets the ROSTER flag. -/
def State.applySync (src : Station) (s : State) : State := s.departure src .sync

/-- The bits of a peer word that count at this station: neither the own number nor late joiners (R53). -/
def Mc.peerBits (m : Mc) (w : Word) : StationSet :=
  ((StationSet.ofPeerWord w).erase m.sid).minus m.late

/-- The bookkeeping of a taken ROSTER (R53). The source joins the peer set (R76) also where its own bit is not in its peer word
(log entry 35). -/
def State.noteRoster (src : Station) (w : Word) (s : State) : State :=
  let bits := s.mc.peerBits w
  { s with mc := { s.mc with
    answered := s.mc.answered.insert src
    expected := s.mc.expected.union bits
    peers := (s.mc.peers.union bits).insert src
    settle := some (4 * s.timeout) } }

/-- A taken ROSTER: a member in SYNCING notes it, merges its pairs and tests its sync; another member ignores it (R51,
R53, R54, R76, R77). -/
def State.applyRoster (src : Station) (w : Word) (pairs : List (Word × Word)) (s : State) : State :=
  if s.mc.state = .syncing then (mergePairs src pairs (s.noteRoster src w)).testSync else s

/-- A member in SYNCING adds a claimant it does not know (R53). -/
def Mc.noteClaimant (c : Station) (m : Mc) : Mc :=
  if m.state = .syncing ∧ m.peers.has c = false then
    { m with
      peers := m.peers.insert c
      expected := if m.late.has c then m.expected else m.expected.insert c }
  else m

/-- A taken CLAIM: its entry is added, and the own CLAIM in course is checked again (R53, R69, R72). -/
def State.applyClaim (src : Station) (base descriptor : Word) (s : State) : State :=
  ({ s with
    mc := s.mc.noteClaimant src
    wmu := { s.wmu with
      map := addEntry (pairEntry (base, descriptor) src) s.wmu.map } } : State).testSync.recheckClaim

/-- A taken RELEASE removes the sender's entry of that base (R74). -/
def State.applyRelease (src : Station) (base : Word) (s : State) : State :=
  { s with wmu := { s.wmu with map := removeEntry base src s.wmu.map } }

/-- The plan as it stands at the end of the trailer: a FLUSH start or the leave deadline since the decision replaces a
delivery (R138). -/
def Reception.planNow (r : Reception) (b : RequestBody) (p : ServicePlan) : ServicePlan :=
  match p with
  | .deliver =>
    if r.flushedSince then (if requestPosted b then .drop else .answer .flushed)
    else if r.deadlineSince then (if requestPosted b then .drop else .answer .notOwner)
    else .deliver
  | other => other

/-- The ITT entry of a READ or CWRITE taken (R142). -/
def ittRecord (m : Message) (b : RequestBody) (st : IttState) : IttRecord :=
  { source := m.source, tag := m.tag
    cwrite := match b with
      | .cwrite _ _ => true
      | _ => false
    length := requestLength b, state := st, orphaned := false }

/-- The IQ record of a request (R140). -/
def iqRecord (m : Message) (b : RequestBody) (h : Option Handle) : IqRecord :=
  { source := m.source, address := requestAddress b
    work := match b with
      | .read _ l => .read l.toNat
      | .write _ ds => .write ds
      | .cwrite _ ds => .cwrite ds
    handle := h }

/-- A delivery (R137, R138): an IQ record, and for a READ or CWRITE the lowest FREE handle in DELIVERED. -/
def Isu.deliver (m : Message) (b : RequestBody) (i : Isu) : Isu :=
  if requestPosted b then { i with iq := i.iq ++ [iqRecord m b none] }
  else
    match i.freeHandle with
    | none => i
    | some h =>
      { i with
        itt := i.itt.put h (some (ittRecord m b .delivered))
        iq := i.iq ++ [iqRecord m b (some h)] }

/-- A hardware answer (R137, R143): the lowest FREE handle in ANSWERING and a FAIL record at the SQ tail. -/
def Isu.answer (m : Message) (b : RequestBody) (st : Status) (i : Isu) : Isu :=
  match i.freeHandle with
  | none => i
  | some h =>
    ({ i with itt := i.itt.put h (some (ittRecord m b .answering)) } : Isu).pushSq
      ⟨h, m.source, m.tag, .fail (BitVec.ofNat 32 st.code)⟩

/-- A taken request the station accepted (R138, R139); it may have held a FLUSH (R163). -/
def State.applyRequest (m : Message) (b : RequestBody) (p : ServicePlan) (s : State) : State :=
  (match p with
    | .deliver => { s with isu := s.isu.deliver m b }
    | .answer st => { s with isu := s.isu.answer m b st }
    | .drop => s.fault .postedDropped (some m.source) none (some (requestAddress b))).testFlush

/-- How a response fits an entry: the status and data of its completion (R121, R122). -/
def OrtRecord.fits (r : OrtRecord) (b : ResponseBody) : Option (Status × List Word) :=
  match b with
  | .data ws => if r.cwrite = false ∧ ws.length = r.length then some (.ok, ws) else none
  | .done => if r.cwrite then some (.ok, []) else none
  | .fail w => (failStatus w).map (fun st => (st, []))

/-- The completion a taken response makes when it is a matching response (R121, R122). -/
def OrtEntry.matching (e : OrtEntry) (src : Station) (b : ResponseBody) : Option Completion :=
  match e with
  | .sent r _ => if r.dest = src then (r.fits b).map (fun x => r.completion x.1 x.2) else none
  | _ => none

/-- A taken response completes its SENT entry or is a stray (R122, R123). -/
def State.applyResponse (src : Station) (tag : Tag) (b : ResponseBody) (s : State) : State :=
  match (s.ore.ort.at tag).matching src b with
  | some c => ({ s with ore := { s.ore with ort := s.ore.ort.put tag .free, cq := s.ore.cq ++ [c] } } : State).afterHead
  | none => s.fault .strayResponse (some src) (some tag) none

/-- A taken SIGNAL joins the NQ (R154). -/
def State.applySignal (m : Message) (v : Word) (s : State) : State :=
  { s with isu := { s.isu with nq := s.isu.nq ++ [⟨m.source, v, m.dest == allStations⟩] } }

/-- A frame with source p was taken: the miss counter of p returns to 0 (R89). -/
def State.hear (p : Station) (s : State) : State := { s with mc := s.mc.clearMiss p }

/-- What a member that drove ACCEPT applies from a taken frame (R34). -/
def State.applyAccepted (r : Reception) (m : Message) (p : Option ServicePlan) (s : State) : State :=
  match m.content with
  | .sync => s.applySync m.source
  | .roster w ps => s.applyRoster m.source w ps
  | .claim b d => s.applyClaim m.source b d
  | .release b => s.applyRelease m.source b
  | .evict w => s.departure (w.setWidth 5) .evict
  | .bye => s.departure m.source .bye
  | .request b =>
    match p with
    | some p => s.applyRequest m b (r.planNow b p)
    | none => s
  | .response b => s.applyResponse m.source m.tag b
  | .signal v => s.applySignal m v

/-- What the end of a trailer does with the verdict (R19, R34): a member applies a taken frame it accepted, and a taken frame
for another station only resets the miss counter of its source; an accepted frame that is not taken may have held a FLUSH
(R163). -/
def State.applyVerdict (r : Reception) (taken : Bool) (s : State) : State :=
  match r.verdict with
  | .accept m p => if taken then (s.hear m.source).applyAccepted r m p else s.testFlush
  | .silent m => if taken then s.hear m.source else s
  | .malformed => s
  | .reject _ => s

/-! ### The moments of a reception (R6) -/

/-- What a listener has of a frame: the count, which places the trailer (R9); what it understands at the last check bit, none
where the frame is malformed here; and whether the clock periods that end in the three slots are in tolerance (R4). -/
structure Heard where
  count : BitVec 5
  message : Option Message
  errorClock : Bool
  rejectClock : Bool
  acceptClock : Bool
deriving DecidableEq, Repr

/-- The period that ends at the edge sampling an early slot is in tolerance. -/
def Heard.clockAt (h : Heard) : EarlySlot → Bool
  | .error => h.errorClock
  | .reject => h.rejectClock

/-- Every period that ends in the trailer is in tolerance. -/
def Heard.clockHeld (h : Heard) : Bool := h.errorClock && h.rejectClock && h.acceptClock

/-- The start bit of another station's frame: the idle report ends, and a receiver in READY takes the frame (R5, R6). -/
def State.rxStart (s : State) : State :=
  { s with tif :=
    if s.tif.receiver = .ready then
      { s.tif with idleCount := 0, receiver := .receiving, collidedHere := false, spent := none, rx := none }
    else { s.tif with idleCount := 0 } }

/-- The edge that samples the last check bit: a listening station decides (R6, R14, R136, R153). -/
def State.rxDecide (h : Heard) (s : State) : State :=
  if s.tif.receiver = .receiving ∧ s.tif.flight = none then
    { s with tif := { s.tif with
      receiver := .slots
      rx := if s.mc.state.isListening then some ⟨s.decide h.message, h.count, false, false, none⟩ else none } }
  else s

/-- The edge that samples the ERROR or the REJECT slot: a period out of tolerance makes the frame malformed from here on, so no
later slot is driven and nothing will be applied (R4, R15). -/
def State.rxSlot (h : Heard) (slot : EarlySlot) (s : State) : State :=
  if s.tif.receiver = .slots ∧ s.tif.flight = none ∧ h.clockAt slot = false then
    { s with tif := { s.tif with rx := s.tif.rx.map (fun r => { r with late := r.late.or (some slot) }) } }
  else s

/-- The slot levels show a frame of that destination TAKEN (R32, R34). -/
def takenBy (dest : Station) (levels : Slots) : Bool := outcomeOf dest levels == .taken

/-- The destination of the frame a verdict is about. -/
def Verdict.dest : Verdict → Station
  | .malformed => 0
  | .silent m => m.dest
  | .reject m => m.dest
  | .accept m _ => m.dest

/-- The frame a reception is about is TAKEN for this station: it is a member, found the clock in tolerance throughout, and the
slots say so (R4, R15, R32, R34). -/
def State.takesAtEnd (h : Heard) (others : Slots) (r : Reception) (s : State) : Bool :=
  s.mc.state.isMember && r.late.isNone && h.clockHeld && takenBy r.verdict.dest (others.wired r.drives)

/-- The end of the trailer: a member applies the frame if it is TAKEN (R6, R34), and what an own frame abandoned
on it still owes takes place (R35, R165; log entry 10). -/
def State.rxEnd (h : Heard) (others : Slots) (s : State) : State :=
  if s.tif.receiver = .slots ∧ s.tif.flight = none then
    let s₁ :=
      { s with tif := { s.tif with receiver := .unsynced, rx := none, collidedHere := false } }.finishSpent
    match s.tif.rx with
    | none => s₁
    | some r => s₁.applyVerdict r (s.takesAtEnd h others r)
  else s

/-- A frame is received, at the moment given. In a whole frame nothing falls between the slots' edges, so that the end, which
sees the same clock periods, says it all. -/
def State.receive (h : Heard) (moment : RxMoment) (s : State) : State :=
  match moment with
  | .startBit => s.rxStart
  | .lastCheckBit => s.rxDecide h
  | .slotSampled slot => s.rxSlot h slot
  | .endOfTrailer others => s.rxEnd h others
  | .whole others => ((s.rxStart).rxDecide h).rxEnd h others

/-- What a listener understands of a frame with these fields and a passing check (R15). -/
def heard (source dest : Station) (tag : Tag) (c : Content) : Option Message :=
  ((Message.mk source dest tag c).frame false).message

/-- What a listener has of a frame with these fields, a passing check and a clock in tolerance. -/
def Heard.ofFields (source dest : Station) (tag : Tag) (c : Content) : Heard :=
  ⟨((Message.mk source dest tag c).frame false).count, heard source dest tag c, true, true, true⟩

/-- What this station has of sampled bits and measured clock periods, by the count it received (R4, R9, R14, R15): the periods
up to the last check bit, and those that end in the slots; none is a frame whose clock stops before its last check bit. -/
def State.heardBits (s : State) (bits : List Bool) (periods : List Nat) : Option Heard :=
  let bt := Config.bitTimeNs s.tif.rate
  (Frame.read bits).map (fun fc =>
    { count := fc.1.count
      message := understand bt fc.1 fc.2 (periods.take (errorPosition fc.1.count - 1))
      errorClock := periodHeld bt periods (errorPosition fc.1.count)
      rejectClock := periodHeld bt periods (rejectPosition fc.1.count)
      acceptClock := periodHeld bt periods (acceptPosition fc.1.count) })

/-- The idle detector reaches ten: a frame cut off is abandoned, the receiver goes to READY, and a station in LISTEN enters
SYNC_WAIT with its SYNC flag set (R5, R6, R46). What an own frame abandoned on the frame cut off still owes takes place here (log
entry 10). A station that transmits drives TCLK, so it cannot see idle. -/
def State.idleObserved (s : State) : State :=
  if s.tif.flight = none then
    let s₁ := { s with tif := { s.tif with
      idleCount := Config.idleBits, receiver := .ready, rx := none, collidedHere := false } }
    if s.mc.state = .listen then { s₁ with mc := { s₁.mc with sync := some Counts.zero } }.enter .syncWait
    else s₁.testFlush.finishSpent
  else s

/-- A burst that is not a frame: TCLK reads dominant, which ends an idle report in every phase of the receiver (R5), and a
receiver in READY goes to UNSYNCED, driving and recording nothing (R6). -/
def State.burst (s : State) : State :=
  { s with tif := { s.tif with
    idleCount := 0, receiver := if s.tif.receiver = .ready then .unsynced else s.tif.receiver } }

end Sys2Proof.Machine
end

