-- ==== Sys2Proof/Machine/LocalPort.lean ====
section
/-! DEFINITION. The local port as a writer sees it: the map of its words, the four commands, the pushes and pops, and the
writes of Setup, cause, mask, enable and staging words (R39 to R45, R98, R134, R141, R144, R145, R156, R158 to R160, R167,
R168, R170, R171, R173 to R178, R181). -/

namespace Sys2Proof.Machine

/-! ### The map of the local space (R174) -/

/-- The view words. -/
inductive ViewWord where
  | status | results | outbound | tags | peers | inbound | ownWindows
  | cqHead (i : Fin 18)
  | iqHead (i : Fin 18)
  | nqHead (i : Fin 2)
  | faultHead (i : Fin 3)
  | map (position : Fin 64) (descriptor : Bool)
deriving DecidableEq, Repr

/-- The words of the local space by kind. -/
inductive PortWord where
  | view (v : ViewWord)
  | command | cause | mask | severityEnable
  | setup (i : Fin 9)
  | rqStage (i : Fin 18)
  | sqStage (i : Fin 17)
  | rqPush | sqPush | cqPop | iqPop | nqPop | faultPop
  | unassigned
deriving DecidableEq, Repr

/-- The word a number A[11:2] selects: the offset of the table of R174 divided by 4. -/
def portWordAt (n : Nat) : PortWord :=
  if n = 0 then .view .status
  else if n = 1 then .command
  else if n = 2 then .view .results
  else if n = 3 then .cause
  else if n = 4 then .mask
  else if n = 5 then .severityEnable
  else if n = 6 then .view .outbound
  else if n = 7 then .view .tags
  else if n = 8 then .view .peers
  else if n = 9 then .view .inbound
  else if h : 16 ≤ n ∧ n < 25 then .setup ⟨n - 16, by omega⟩
  else if n = 25 then .view .ownWindows
  else if h : 64 ≤ n ∧ n < 82 then .rqStage ⟨n - 64, by omega⟩
  else if n = 82 then .rqPush
  else if h : 128 ≤ n ∧ n < 146 then .view (.cqHead ⟨n - 128, by omega⟩)
  else if n = 146 then .cqPop
  else if h : 160 ≤ n ∧ n < 178 then .view (.iqHead ⟨n - 160, by omega⟩)
  else if n = 178 then .iqPop
  else if h : 192 ≤ n ∧ n < 194 then .view (.nqHead ⟨n - 192, by omega⟩)
  else if n = 194 then .nqPop
  else if h : 224 ≤ n ∧ n < 241 then .sqStage ⟨n - 224, by omega⟩
  else if n = 241 then .sqPush
  else if h : 256 ≤ n ∧ n < 259 then .view (.faultHead ⟨n - 256, by omega⟩)
  else if n = 259 then .faultPop
  else if h : 512 ≤ n ∧ n < 640 then .view (.map ⟨(n - 512) / 2, by omega⟩ (n % 2 = 1))
  else .unassigned

/-- The word that A[11:2] selects (R173, R174). -/
def portWord (a : BitVec 10) : PortWord := portWordAt a.toNat

/-! ### Results of pushes and pops (R178) -/

/-- The RQ result is recorded; the other five fields stay. -/
def State.rqResult (r : PortResult) (s : State) : State :=
  { s with lpu := { s.lpu with results := { s.lpu.results with rq := r } } }

/-- The SQ result is recorded. -/
def State.sqResult (r : PortResult) (s : State) : State :=
  { s with lpu := { s.lpu with results := { s.lpu.results with sq := r } } }

/-- The CQ result is recorded. -/
def State.cqResult (r : PortResult) (s : State) : State :=
  { s with lpu := { s.lpu with results := { s.lpu.results with cq := r } } }

/-- The IQ result is recorded. -/
def State.iqResult (r : PortResult) (s : State) : State :=
  { s with lpu := { s.lpu with results := { s.lpu.results with iq := r } } }

/-- The NQ result is recorded. -/
def State.nqResult (r : PortResult) (s : State) : State :=
  { s with lpu := { s.lpu with results := { s.lpu.results with nq := r } } }

/-- The fault result is recorded. -/
def State.faultResult (r : PortResult) (s : State) : State :=
  { s with lpu := { s.lpu with results := { s.lpu.results with fault := r } } }

/-! ### Commands (R41) -/

/-- How a command write is treated (R41). -/
inductive Admission where
  | refusedBusy | refusedState | accepted
deriving DecidableEq, Repr

/-- The states in which a command is accepted (R41). -/
def Command.acceptedIn (c : Command) (st : StationState) : Bool :=
  match c, st with
  | .join, .halted => true
  | .leave, .listen | .leave, .syncWait | .leave, .syncing | .leave, .claiming | .leave, .joined => true
  | .flush, .joined => true
  | .restart, .faulted | .restart, .detached => true
  | _, _ => false

/-- The treatment of a command write: a running command refuses it, but for a LEAVE during a JOIN; then the state decides
(R41). -/
def State.admission (c : Command) (s : State) : Admission :=
  if s.lpu.running.isSome && !(c == .leave && s.lpu.running == some .join) then .refusedBusy
  else if c.acceptedIn s.mc.state then .accepted
  else .refusedState

/-- A command write: refused with its result, or accepted with the given effect (R41). -/
def State.takeCommand (c : Command) (effect : State → State) (s : State) : State :=
  match s.admission c with
  | .refusedBusy => s.refuse c .refusedBusy
  | .refusedState => s.refuse c .refusedState
  | .accepted => effect s

/-- The own-window records when a JOIN passes its checks: WANTED for each valid slot, IDLE for the others (R42). -/
def Setup.wantedRecords (u : Setup) : Bank 2 OwnRecord :=
  u.slots.map (fun w => ⟨if w.valid then .wanted else .idle, none⟩)

/-- JOIN accepted in HALTED (R39, R42, R67): straps, Setup, and on a pass the move to LISTEN with the idle count at 0. -/
def State.joinAccepted (s : State) : State :=
  let s₁ := { s with lpu := { s.lpu with locked := false } }.accept .join
  if !validStation s.mc.sid then s₁.finish .badStrap
  else if !s.lpu.setup.passes then s₁.finish .badSetup
  else
    { s₁ with
      wmu := { s₁.wmu with own := s.lpu.setup.wantedRecords }
      tif := { s₁.tif with idleCount := 0 } }.enter .listen

/-- The JOIN command (R41, R42). -/
def State.join (s : State) : State := s.takeCommand .join State.joinAccepted

/-- LEAVE accepted (R41, R43, R44, R57): a running JOIN ends ABORTED; before membership the station returns to HALTED, in
SYNC_WAIT once a SYNC in flight has ended; a member enters LEAVING. -/
def State.leaveAccepted (s : State) : State :=
  let s₁ := (s.finish .aborted).accept .leave
  match s.mc.state with
  | .listen => s₁.leaveToHalted
  | .syncWait => if s.tif.flight.isNone then s₁.leaveToHalted else s₁
  | _ => s₁.enterLeaving

/-- The LEAVE command (R41, R44, R57). -/
def State.leave (s : State) : State := s.takeCommand .leave State.leaveAccepted

/-- The frame in flight after the RQ was discarded: an RQ head's work has gone (R115). -/
def Tif.discardHead (t : Tif) : Tif :=
  { t with
    holdoff := none
    flight := t.flight.map (fun f => if f.source = .rqHead then { f with discarded := true } else f) }

/-- The ORE's part of a FLUSH start (R115, R127). -/
def Ore.flush (timeout : Nat) (o : Ore) : Ore :=
  let o₁ := o.discardQueue
  { o₁ with
    cq := []
    ort := o₁.ort.map (fun e =>
      match e with
      | .pending _ => .free
      | e => e.quarantine timeout) }

/-- The frame being received has met a FLUSH start (R138). -/
def Tif.markFlush (t : Tif) : Tif := { t with rx := t.rx.map (fun r => { r with flushedSince := true }) }

/-- FLUSH accepted in JOINED: its start, in one step on every structure (R159, R160), and its end at once when nothing
holds it (R163). -/
def State.flushAccepted (s : State) : State :=
  let s₁ := s.accept .flush
  { s₁ with
    tif := s₁.tif.discardHead.markFlush
    ore := s₁.ore.flush s₁.timeout
    isu := s₁.isu.flush }.testFlush

/-- The FLUSH command (R41, R158, R159). -/
def State.flush (s : State) : State := s.takeCommand .flush State.flushAccepted

/-- The TIF after RESTART (R2, R6, R18, R37): the rate and the idle count stay. -/
def Tif.restart (t : Tif) : Tif := { Tif.reset t.rate with idleCount := t.idleCount }

/-- RESTART accepted in FAULTED or DETACHED (R45, R82, R117, R130, R152, R157, R172): every block but the LPU is emptied,
the straps stay as sampled, and the command ends DONE. -/
def State.restartAccepted (s : State) : State :=
  (({ s with
      tif := s.tif.restart
      mc := Mc.reset s.mc.sid
      wmu := Wmu.reset
      ore := Ore.reset
      isu := Isu.reset }.enter .halted).accept .restart).finish .done

/-- The RESTART command (R41, R45). -/
def State.restart (s : State) : State := s.takeCommand .restart State.restartAccepted

/-! ### Pushes (R98, R144, R145) -/

/-- An RQ push: its checks in order, and on a pass a copy at the RQ tail, prepared at once if it is the head (R98, R101). -/
def State.rqPush (s : State) : State :=
  if s.mc.state = .leaving then s.rqResult .leaving
  else if !(s.mc.state = .claiming ∨ s.mc.state = .joined : Bool) then s.rqResult .notReady
  else if s.flushing then s.rqResult .flushing
  else
    match stagedDescriptor s.mc.sid s.lpu.rqStage with
    | none => s.rqResult .badDescriptor
    | some d =>
      if s.ore.rq.length < Config.rqDepth then
        ({ s with ore := { s.ore with rq := s.ore.rq ++ [d] } }.rqResult .accepted).prepareHead
      else s.rqResult .full

/-- The AWAITING entry a pushed handle names; a handle of 16 to 31 names none (R144, R182). -/
def Isu.awaiting (i : Isu) (h : BitVec 5) : Option IttRecord :=
  if h.toNat < 16 then
    match i.itt.at (h.setWidth 4) with
    | some r => if r.state = .awaiting then some r else none
    | none => none
  else none

/-- The count fits the entry (R144): the length for a READ answered OK, 0 for every other answer. -/
def StagedResponse.countFits (p : StagedResponse) (r : IttRecord) : Bool :=
  if p.status = 0 ∧ r.cwrite = false then p.count == r.length else p.count == 0

/-- The response frame body of an accepted push (R146). -/
def StagedResponse.body (p : StagedResponse) (r : IttRecord) : ResponseBody :=
  if p.status = 0 then (if r.cwrite then .done else .data p.data)
  else .fail (BitVec.ofNat 32 Status.targetError.code)

/-- An accepted response push (R145): an orphaned entry goes to FREE; any other goes to ANSWERING with a record at the SQ
tail. -/
def Isu.answerPushed (p : StagedResponse) (r : IttRecord) (i : Isu) : Isu :=
  let h : Handle := p.handle.setWidth 4
  if r.orphaned then { i with itt := i.itt.put h none }
  else ({ i with itt := i.itt.put h (some { r with state := .answering }) } : Isu).pushSq ⟨h, r.source, r.tag, p.body r⟩

/-- An SQ push: its checks in order, then the effect of R145 and the leave test (R58, R144, R145). -/
def State.sqPush (s : State) : State :=
  let p := stagedResponse s.lpu.sqStage
  if !s.mc.state.isMember then s.sqResult .notReady
  else if !(p.status = 0 ∨ p.status = 5 : Bool) then s.sqResult .badDescriptor
  else
    match s.isu.awaiting p.handle with
    | none => s.sqResult .badHandle
    | some r =>
      if p.countFits r then ({ s with isu := s.isu.answerPushed p r }.sqResult .accepted).testLeave
      else s.sqResult .badLength

/-! ### Pops (R134, R141, R156, R167) -/

/-- A CQ pop; the sum falls, so a WAITING head may be prepared (R101, R134). -/
def State.cqPop (s : State) : State :=
  match s.ore.cq with
  | [] => s.cqResult .empty
  | _ :: cs => ({ s with ore := { s.ore with cq := cs } }.cqResult .accepted).afterHead

/-- A DELIVERED entry goes to AWAITING (R141). -/
def awaitEntry (e : IttEntry) : IttEntry :=
  match e with
  | some r => if r.state = .delivered then some { r with state := .awaiting } else some r
  | none => none

/-- The ISU when the IQ record r is popped (R141). -/
def Isu.popIq (r : IqRecord) (rest : List IqRecord) (i : Isu) : Isu :=
  match r.handle with
  | none => { i with iq := rest }
  | some h => { i with iq := rest, itt := i.itt.put h (awaitEntry (i.itt.at h)) }

/-- An IQ pop (R141). -/
def State.iqPop (s : State) : State :=
  match s.isu.iq with
  | [] => s.iqResult .empty
  | r :: rest => { s with isu := s.isu.popIq r rest }.iqResult .accepted

/-- An NQ pop (R156). -/
def State.nqPop (s : State) : State :=
  match s.isu.nq with
  | [] => s.nqResult .empty
  | _ :: rest => { s with isu := { s.isu with nq := rest } }.nqResult .accepted

/-- A fault pop (R167): the oldest record leaves with its overflow mark. -/
def State.faultPop (s : State) : State :=
  match s.lpu.faults with
  | [] => s.faultResult .empty
  | _ :: rest => { s with lpu := { s.lpu with faults := rest } }.faultResult .accepted

/-! ### Plain writes -/

/-- A Setup write: taken in HALTED, elsewhere ignored with SETUP_LOCKED set (R39, R176). -/
def State.setupWrite (i : Fin 9) (v : Word) (s : State) : State :=
  if s.mc.state = .halted then { s with lpu := { s.lpu with setup := s.lpu.setup.setWord i v } }
  else { s with lpu := { s.lpu with locked := true } }

/-- A cause write: a 1 in bit 4 or 5 clears CMD_DONE or STATE_CHANGE (R170, R181). -/
def State.causeWrite (v : Word) (s : State) : State :=
  { s with lpu := { s.lpu with
    cmdDone := s.lpu.cmdDone && !v.getLsbD 4
    stateChange := s.lpu.stateChange && !v.getLsbD 5 } }

/-- A mask write: bits above the six ignore writes (R171, R181). -/
def State.maskWrite (v : Word) (s : State) : State := { s with lpu := { s.lpu with masks := v.setWidth 6 } }

/-- A severity enable write: bits above the three ignore writes (R168, R181). -/
def State.severityEnableWrite (v : Word) (s : State) : State :=
  { s with lpu := { s.lpu with enables := v.setWidth 3 } }

/-- A write of the command word: codes 1 to 4 are commands, the others start nothing (R175). -/
def State.commandWrite (v : Word) (s : State) : State :=
  let code : BitVec 3 := v.setWidth 3
  if code = 1 then s.join
  else if code = 2 then s.leave
  else if code = 3 then s.flush
  else if code = 4 then s.restart
  else s

/-- A write to one word of the local space, by its kind (R174, R175, R177). -/
def State.writeWord (w : PortWord) (v : Word) (s : State) : State :=
  match w with
  | .view _ => s
  | .command => s.commandWrite v
  | .cause => s.causeWrite v
  | .mask => s.maskWrite v
  | .severityEnable => s.severityEnableWrite v
  | .setup i => s.setupWrite i v
  | .rqStage i => { s with lpu := { s.lpu with rqStage := s.lpu.rqStage.set i v } }
  | .sqStage i => { s with lpu := { s.lpu with sqStage := s.lpu.sqStage.set i v } }
  | .rqPush => s.rqPush
  | .sqPush => s.sqPush
  | .cqPop => s.cqPop
  | .iqPop => s.iqPop
  | .nqPop => s.nqPop
  | .faultPop => s.faultPop
  | .unassigned => s

/-- A write access; one with RD_N asserted too writes nothing (R173). -/
def State.registerWrite (a : BitVec 10) (v : Word) (readStrobe : Bool) (s : State) : State :=
  if readStrobe then s else s.writeWord (portWord a) v

end Sys2Proof.Machine
end

