-- ==== Sys2Proof/Machine/Timers.lean ====
section
/-! DEFINITION. What the expiries of the station's timers do (R36, R55, R60, R75, R115, R124, R125, R128, R150). An expiry
of a timer that is not running is no event (log entry 2). -/

namespace Sys2Proof.Machine

/-- The busy holdoff expires: the head is READY again (R36, R100). -/
def State.holdoffExpires (s : State) : State :=
  if s.tif.holdoff.isSome then
    { s with
      tif := { s.tif with holdoff := none }
      ore := { s.ore with head := s.ore.head.map (fun h => { h with phase := .ready }) } }
  else s

/-- The response timer of a tag expires: TIMEOUT, then quarantine (R58, R124). -/
def State.responseTimerExpires (tag : Tag) (s : State) : State :=
  match s.ore.ort.at tag with
  | .sent r (some _) =>
    ({ s with ore := { s.ore with
      cq := s.ore.cq ++ [r.completion .timeout []]
      ort := s.ore.ort.put tag (.quarantined r (some s.timeout)) } } : State).testLeave
  | _ => s

/-- The quarantine of a tag expires: FREE, and a WAITING head that lacks a tag may be prepared (R101, R125). -/
def State.quarantineExpires (tag : Tag) (s : State) : State :=
  match s.ore.ort.at tag with
  | .quarantined _ (some _) =>
    { s with ore := { s.ore with ort := s.ore.ort.put tag .free } }.afterHead
  | _ => s

/-- The pending-EVICT set with an EVICT of every station of a list added (R91). -/
def addEvicts (ds : List Station) (es : List PendingEvict) : List PendingEvict :=
  ds.foldl (fun acc d => addEvict d acc) es

/-- A settle expiry that is not the third (R55): with nobody answered the SYNC is repeated, else the silent stations
expected are to be evicted; the timer restarts. -/
def Mc.settleAgain (timeout : Nat) (m : Mc) : Mc :=
  if m.answered = StationSet.empty then
    { m with attempts := m.attempts + 1, sync := some (m.sync.getD Counts.zero), settle := some (4 * timeout) }
  else
    { m with
      attempts := m.attempts + 1
      evicts := addEvicts (m.expected.minus m.answered).toList m.evicts
      settle := some (4 * timeout) }

/-- The settle timer expires in SYNCING (R55). A station that enters FAULTED leaves the frame it was receiving (R18), so that the
fault records waiting for the end of that frame are appended first (log entry 10). -/
def State.settleExpires (s : State) : State :=
  if s.mc.state = .syncing ∧ s.mc.settle.isSome = true then
    if s.mc.attempts + 1 < Config.settleLimit then { s with mc := s.mc.settleAgain s.timeout }
    else { s with mc := { s.mc with attempts := s.mc.attempts + 1 } }.appendDue.fatal .syncIncomplete none
  else s

/-- The ORE at the leave deadline: the RQ discarded, PENDING and SENT entries FREE without completion (R60, R115, R128). -/
def Ore.deadline (o : Ore) : Ore :=
  let o₁ := o.discardQueue
  { o₁ with ort := o₁.ort.map (fun e => if e.reserved then .free else e) }

/-- An own-window record at the leave deadline (R60, R75). -/
def OwnRecord.deadline (r : OwnRecord) : OwnRecord :=
  match r.state with
  | .releasing => ⟨.idle, none⟩
  | st => ⟨st, none⟩

/-- A frame in flight whose work the deadline discards: the RQ head, the SQ head or a RELEASE (R60). -/
def Source.discardedAtDeadline : Source → Bool
  | .rqHead => true
  | .sqHead => true
  | .release _ => true
  | _ => false

/-- The TIF at the leave deadline (R36, R60, R138). -/
def Tif.deadline (t : Tif) : Tif :=
  { t with
    holdoff := none
    flight := t.flight.map (fun f => if f.source.discardedAtDeadline then { f with discarded := true } else f)
    rx := t.rx.map (fun r => { r with deadlineSince := true }) }

/-- The outbound count of FORCED: descriptors in the RQ plus SENT entries (R60). -/
def Ore.outboundCount (o : Ore) : Nat := o.rq.length + o.ort.count OrtEntry.isSent

/-- The leave deadline expires in LEAVING (R60). -/
def State.leaveDeadlineExpires (s : State) : State :=
  if s.mc.state = .leaving ∧ s.mc.deadline.isSome = true then
    { s with
      tif := s.tif.deadline
      mc := { s.mc with deadline := none, bye := some (s.mc.bye.getD Counts.zero) }
      wmu := { s.wmu with own := s.wmu.own.map OwnRecord.deadline }
      ore := s.ore.deadline
      isu := s.isu.dropService }.finish (.forced s.ore.outboundCount s.isu.live)
  else s

end Sys2Proof.Machine
end

