-- ==== Sys2Proof/Machine/PortRows.lean ====
section
/-! DEFINITION. The meanings of the rows that reach the station through its pins and its local port: reset, commands,
pushes, pops and writes. -/

namespace Sys2Proof.Machine

/-- What exec answers. -/
abbrev Answer := Host.Outcome State Fault Refusal

/-- The answer of a row that only has its effect while RESET_N is released (R62, R173). -/
def released (effect : State → State) (s : State) : Answer := .next (if s.resetAsserted then s else effect s)

/-- RESET_N asserted (R62, R83, R172): whatever runs is abandoned, and every item shows its reset value; the straps are not
held, so the own number and the rate are free values (log entries 5 and 17). -/
def execResetNAsserted (s : State) : Answer :=
  .next { State.afterReset (Config.sidUnderReset s.freeUsed) (Config.rateUnderReset s.freeUsed) (s.freeUsed + 1)
      s.pending with resetAsserted := true }

/-- RESET_N released (R2, R38, R63): the straps are sampled and every block takes its reset values. -/
def execResetNReleased (sid : BitVec 5) (rate : BitVec 2) (s : State) : Answer :=
  .next (State.afterReset sid rate s.freeUsed s.pending)

/-- JOIN (R41, R42). -/
def execJoin (s : State) : Answer := released State.join s

/-- LEAVE (R41, R44, R57). -/
def execLeave (s : State) : Answer := released State.leave s

/-- FLUSH (R41, R158, R159). -/
def execFlush (s : State) : Answer := released State.flush s

/-- RESTART (R41, R45). -/
def execRestart (s : State) : Answer := released State.restart s

/-- RQ_PUSH (R98). -/
def execRqPush (s : State) : Answer := released State.rqPush s

/-- SQ_PUSH (R144, R145). -/
def execSqPush (s : State) : Answer := released State.sqPush s

/-- CQ_POP (R134). -/
def execCqPop (s : State) : Answer := released State.cqPop s

/-- IQ_POP (R141). -/
def execIqPop (s : State) : Answer := released State.iqPop s

/-- NQ_POP (R156). -/
def execNqPop (s : State) : Answer := released State.nqPop s

/-- FAULT_POP (R167). -/
def execFaultPop (s : State) : Answer := released State.faultPop s

/-- SETUP_WRITE (R39, R176). -/
def execSetupWrite (index : Fin 9) (value : Word) (s : State) : Answer := released (State.setupWrite index value) s

/-- CAUSE_WRITE (R170, R181). -/
def execCauseWrite (value : Word) (s : State) : Answer := released (State.causeWrite value) s

/-- MASK_WRITE (R171, R181). -/
def execMaskWrite (value : Word) (s : State) : Answer := released (State.maskWrite value) s

/-- SEVERITY_ENABLE_WRITE (R168, R181). -/
def execSeverityEnableWrite (value : Word) (s : State) : Answer := released (State.severityEnableWrite value) s

/-- REGISTER_WRITE (R173, R174, R175, R177). -/
def execRegisterWrite (address : BitVec 10) (value : Word) (readStrobe : Bool) (s : State) : Answer :=
  released (State.registerWrite address value readStrobe) s

end Sys2Proof.Machine
end

