-- ==== Sys2Proof/Machine/TrunkRows.lean ====
section
/-! DEFINITION. The meanings of the rows that reach the station from its trunk, its timers and its own RQ head. -/

namespace Sys2Proof.Machine

/-! ### The idle detector and the transmitter -/

/-- TRUNK_IDLE_OBSERVED (R5, R6, R46). -/
def execTrunkIdleObserved (s : State) : Answer := released State.idleObserved s

/-- BEGINNING_A_FRAME (R21 to R25). -/
def execBeginningAFrame (s : State) : Answer := released State.begin s

/-- The frame in flight and the level it has at the given position, the start bit being 0, while its bits are still being
compared: a transmitter compares up to its last check bit, at which its receiver goes to SLOTS (R6, R26). -/
def State.comparedAt (position : Nat) (s : State) : Option (Flight × Bool) :=
  if s.tif.receiver = .receiving then
    s.tif.flight.bind (fun f => (f.frame.bitAt position).map (fun sent => (f, sent)))
  else none

/-- The transmitter reads a dominant bit at the given position, and loses if its own bit there is a recessive arbitration bit
(R26, R27); any other bit is no LOST. -/
def State.lostAt (position : Nat) (s : State) : State :=
  match s.comparedAt position with
  | none => s
  | some (f, sent) => if compareBit position sent false = some .lost then s.lose f else s

/-- The transmitter reads the other level than it sent at the given position, and collides if R26 says so there; any other
bit is no COLLIDED. -/
def State.collidedAt (position : Nat) (s : State) : State :=
  match s.comparedAt position with
  | none => s
  | some (f, sent) => if compareBit position sent (!sent) = some .collided then s.collide f else s

/-- LOST at an arbitration bit, the class's first bit being 0 (R27, R28). -/
def execLost (bit : BitVec 3) (s : State) : Answer := released (State.lostAt (bit.toNat + 1)) s

/-- COLLIDED at a bit from the start bit to the last check bit (R29, R30). -/
def execCollided (bit : Nat) (s : State) : Answer := released (State.collidedAt bit) s

/-! ### Outcomes of own frames (R32, R33) -/

/-- SYNC_OUTCOME (R47); the ACCEPT level tells whether the station is alone. -/
def execSyncOutcome (moment : TxMoment) (s : State) : Answer :=
  released (State.ownFrame (fun src => src == .sync) moment (fun levels _ o t => t.syncEnds levels.accept o)) s

/-- ROSTER_OUTCOME (R50). -/
def execRosterOutcome (moment : TxMoment) (s : State) : Answer :=
  released (State.ownFrame (fun src => src == .roster) moment (fun _ _ o t => t.rosterEnds o)) s

/-- The own CLAIM ends. -/
def State.claimFrameEnds (f : Flight) (o : Outcome) (s : State) : State :=
  match f.source with
  | .claim n => s.claimEnds n o
  | _ => s

/-- The source is a CLAIM. -/
def Source.isClaim : Source → Bool
  | .claim _ => true
  | _ => false

/-- CLAIM_OUTCOME (R70). -/
def execClaimOutcome (moment : TxMoment) (s : State) : Answer :=
  released (State.ownFrame Source.isClaim moment (fun _ => State.claimFrameEnds)) s

/-- The own RELEASE ends. -/
def State.releaseFrameEnds (f : Flight) (o : Outcome) (s : State) : State :=
  match f.source with
  | .release n => s.releaseEnds n f o
  | _ => s

/-- The source is a RELEASE. -/
def Source.isRelease : Source → Bool
  | .release _ => true
  | _ => false

/-- RELEASE_OUTCOME (R74, R75). -/
def execReleaseOutcome (moment : TxMoment) (s : State) : Answer :=
  released (State.ownFrame Source.isRelease moment (fun _ => State.releaseFrameEnds)) s

/-- The own EVICT ends. -/
def State.evictFrameEnds (f : Flight) (o : Outcome) (s : State) : State :=
  match f.source with
  | .evict d => s.evictEnds d o
  | _ => s

/-- The source is an EVICT. -/
def Source.isEvict : Source → Bool
  | .evict _ => true
  | _ => false

/-- EVICT_OUTCOME (R93). -/
def execEvictOutcome (moment : TxMoment) (s : State) : Answer :=
  released (State.ownFrame Source.isEvict moment (fun _ => State.evictFrameEnds)) s

/-- BYE_OUTCOME (R59). -/
def execByeOutcome (moment : TxMoment) (s : State) : Answer :=
  released (State.ownFrame (fun src => src == .bye) moment (fun _ _ o t => t.byeEnds o)) s

/-- REQUEST_FRAME_OUTCOME (R107 to R110). -/
def execRequestFrameOutcome (moment : TxMoment) (s : State) : Answer :=
  released (State.ownFrame (fun src => src == .rqHead) moment (fun _ => State.requestEnds)) s

/-- RESPONSE_FRAME_OUTCOME (R147). -/
def execResponseFrameOutcome (moment : TxMoment) (s : State) : Answer :=
  released (State.ownFrame (fun src => src == .sqHead) moment (fun _ => State.responseEnds)) s

/-! ### Frames received (R15 to R19, R34) -/

/-- Sampled bits are received at the moment given: a frame whose clock stops before its last check bit only has its start
(R6, R9). -/
def State.receiveBits (bits : List Bool) (periods : List Nat) (moment : RxMoment) (s : State) : State :=
  match s.heardBits bits periods, moment with
  | some h, _ => s.receive h moment
  | none, .startBit => s.rxStart
  | none, .whole _ => s.rxStart
  | none, _ => s

/-- MALFORMED_FRAME (R4, R9, R13 to R15): the sampled bits and the measured clock periods; where they pass every test of
R15 the frame is received as it reads. -/
def execMalformedFrame (bits : List Bool) (periods : List Nat) (moment : RxMoment) (s : State) : Answer :=
  released (State.receiveBits bits periods moment) s

/-- SYNC_RECEIVED (R48 to R50, R85). -/
def execSyncReceived (source : Station) (moment : RxMoment) (s : State) : Answer :=
  released (State.receive (Heard.ofFields source allStations 0 .sync) moment) s

/-- ROSTER_RECEIVED (R51, R53, R76). -/
def execRosterReceived (source : Station) (peers : Word) (pairs : List (Word × Word)) (moment : RxMoment) (s : State) :
    Answer :=
  released (State.receive (Heard.ofFields source allStations 0 (.roster peers pairs)) moment) s

/-- CLAIM_RECEIVED (R71, R72). -/
def execClaimReceived (source : Station) (base descriptor : Word) (moment : RxMoment) (s : State) : Answer :=
  released (State.receive (Heard.ofFields source allStations 0 (.claim base descriptor)) moment) s

/-- RELEASE_RECEIVED (R74). -/
def execReleaseReceived (source : Station) (base : Word) (moment : RxMoment) (s : State) : Answer :=
  released (State.receive (Heard.ofFields source allStations 0 (.release base)) moment) s

/-- EVICT_RECEIVED (R92, R94). -/
def execEvictReceived (source : Station) (station : Word) (moment : RxMoment) (s : State) : Answer :=
  released (State.receive (Heard.ofFields source allStations 0 (.evict station)) moment) s

/-- BYE_RECEIVED (R95). -/
def execByeReceived (source : Station) (moment : RxMoment) (s : State) : Answer :=
  released (State.receive (Heard.ofFields source allStations 0 .bye) moment) s

/-- REQUEST_RECEIVED (R136 to R139). -/
def execRequestReceived (source : Station) (tag : Tag) (body : RequestBody) (moment : RxMoment) (s : State) : Answer :=
  released (fun t => t.receive (Heard.ofFields source t.mc.sid tag (.request body)) moment) s

/-- RESPONSE_RECEIVED (R120 to R123). -/
def execResponseReceived (source : Station) (tag : Tag) (body : ResponseBody) (moment : RxMoment) (s : State) : Answer :=
  released (fun t => t.receive (Heard.ofFields source t.mc.sid tag (.response body)) moment) s

/-- SIGNAL_RECEIVED (R153, R154), to this station or to all. -/
def execSignalReceived (source : Station) (broadcast : Bool) (value : Word) (moment : RxMoment) (s : State) : Answer :=
  released (fun t =>
    t.receive (Heard.ofFields source (if broadcast then allStations else t.mc.sid) 0 (.signal value)) moment) s

/-- FRAME_FOR_ANOTHER_STATION (R19). -/
def execFrameForAnotherStation (source destination : Station) (body : UnicastBody) (moment : RxMoment) (s : State) :
    Answer :=
  released (State.receive (Heard.ofFields source destination body.tag body.content) moment) s

/-! ### The RQ head and the timers -/

/-- HEAD_PREPARATION (R101 to R105); a local completion may let the leave condition hold (R58). -/
def execHeadPreparation (s : State) : Answer := released State.afterHead s

/-- HOLDOFF_EXPIRY (R36). -/
def execHoldoffExpiry (s : State) : Answer := released State.holdoffExpires s

/-- RESPONSE_TIMER_EXPIRY (R124). -/
def execResponseTimerExpiry (tag : Tag) (s : State) : Answer := released (State.responseTimerExpires tag) s

/-- QUARANTINE_EXPIRY (R125). -/
def execQuarantineExpiry (tag : Tag) (s : State) : Answer := released (State.quarantineExpires tag) s

/-- SETTLE_TIMER_EXPIRY (R55). -/
def execSettleTimerExpiry (s : State) : Answer := released State.settleExpires s

/-- LEAVE_DEADLINE_EXPIRY (R60). -/
def execLeaveDeadlineExpiry (s : State) : Answer := released State.leaveDeadlineExpires s

/-- BURST_NOT_A_FRAME (R6). -/
def execBurstNotAFrame (s : State) : Answer := released State.burst s

end Sys2Proof.Machine
end

