-- ==== Sys2Proof/Machine/Dispatch.lean ====
section
/-! DEFINITION. exec: one direct call of a meaning per command. -/

namespace Sys2Proof.Machine

def exec (i : Instr) (s : State) : Host.Outcome State Fault Refusal :=
  match i with
  | .resetNAsserted => Sys2Proof.Machine.execResetNAsserted s
  | .resetNReleased sid rate => Sys2Proof.Machine.execResetNReleased sid rate s
  | .join => Sys2Proof.Machine.execJoin s
  | .leave => Sys2Proof.Machine.execLeave s
  | .flush => Sys2Proof.Machine.execFlush s
  | .restart => Sys2Proof.Machine.execRestart s
  | .rqPush => Sys2Proof.Machine.execRqPush s
  | .sqPush => Sys2Proof.Machine.execSqPush s
  | .cqPop => Sys2Proof.Machine.execCqPop s
  | .iqPop => Sys2Proof.Machine.execIqPop s
  | .nqPop => Sys2Proof.Machine.execNqPop s
  | .faultPop => Sys2Proof.Machine.execFaultPop s
  | .setupWrite index value => Sys2Proof.Machine.execSetupWrite index value s
  | .causeWrite value => Sys2Proof.Machine.execCauseWrite value s
  | .maskWrite value => Sys2Proof.Machine.execMaskWrite value s
  | .severityEnableWrite value => Sys2Proof.Machine.execSeverityEnableWrite value s
  | .registerWrite address value readStrobe => Sys2Proof.Machine.execRegisterWrite address value readStrobe s
  | .trunkIdleObserved => Sys2Proof.Machine.execTrunkIdleObserved s
  | .beginningAFrame => Sys2Proof.Machine.execBeginningAFrame s
  | .lost bit => Sys2Proof.Machine.execLost bit s
  | .collided bit => Sys2Proof.Machine.execCollided bit s
  | .syncOutcome moment => Sys2Proof.Machine.execSyncOutcome moment s
  | .rosterOutcome moment => Sys2Proof.Machine.execRosterOutcome moment s
  | .claimOutcome moment => Sys2Proof.Machine.execClaimOutcome moment s
  | .releaseOutcome moment => Sys2Proof.Machine.execReleaseOutcome moment s
  | .evictOutcome moment => Sys2Proof.Machine.execEvictOutcome moment s
  | .byeOutcome moment => Sys2Proof.Machine.execByeOutcome moment s
  | .requestFrameOutcome moment => Sys2Proof.Machine.execRequestFrameOutcome moment s
  | .responseFrameOutcome moment => Sys2Proof.Machine.execResponseFrameOutcome moment s
  | .malformedFrame bits periods moment => Sys2Proof.Machine.execMalformedFrame bits periods moment s
  | .syncReceived source moment => Sys2Proof.Machine.execSyncReceived source moment s
  | .rosterReceived source peers pairs moment => Sys2Proof.Machine.execRosterReceived source peers pairs moment s
  | .claimReceived source base descriptor moment => Sys2Proof.Machine.execClaimReceived source base descriptor moment s
  | .releaseReceived source base moment => Sys2Proof.Machine.execReleaseReceived source base moment s
  | .evictReceived source station moment => Sys2Proof.Machine.execEvictReceived source station moment s
  | .byeReceived source moment => Sys2Proof.Machine.execByeReceived source moment s
  | .requestReceived source tag body moment => Sys2Proof.Machine.execRequestReceived source tag body moment s
  | .responseReceived source tag body moment => Sys2Proof.Machine.execResponseReceived source tag body moment s
  | .signalReceived source broadcast value moment => Sys2Proof.Machine.execSignalReceived source broadcast value moment s
  | .frameForAnotherStation source destination body moment => Sys2Proof.Machine.execFrameForAnotherStation source destination body moment s
  | .headPreparation => Sys2Proof.Machine.execHeadPreparation s
  | .holdoffExpiry => Sys2Proof.Machine.execHoldoffExpiry s
  | .responseTimerExpiry tag => Sys2Proof.Machine.execResponseTimerExpiry tag s
  | .quarantineExpiry tag => Sys2Proof.Machine.execQuarantineExpiry tag s
  | .settleTimerExpiry => Sys2Proof.Machine.execSettleTimerExpiry s
  | .leaveDeadlineExpiry => Sys2Proof.Machine.execLeaveDeadlineExpiry s
  | .burstNotAFrame => Sys2Proof.Machine.execBurstNotAFrame s

end Sys2Proof.Machine
end

