-- ==== Sys2Proof/Machine/Views.lean ====
section
/-! DEFINITION. The local port as a reader sees it: every view, status, Setup and staging word as a function of the state
(R66, R134, R141, R156, R167, R173 to R182). No row of the command table is a read (log entry 15). -/

namespace Sys2Proof.Machine

/-- A field of a word: its lowest bit, its width and its value. -/
structure Field where
  bit : Nat
  width : Nat
  value : Nat
deriving DecidableEq, Repr

/-- The word that holds the given fields and 0 elsewhere. The manual lists the fields and says of the other bits that they read 0
for the mask and the enable word (R181) and after reset alone: 0 everywhere else is the model's choice (log entry 30). -/
def packFields (fs : List Field) : Word :=
  fs.foldl (fun w f => w ||| ((BitVec.ofNat f.width f.value).setWidth 32 <<< f.bit)) 0

/-! ### Codes -/

/-- The station state codes (R180). -/
def StationState.code : StationState → Nat
  | .halted => 0 | .listen => 1 | .syncWait => 2 | .syncing => 3 | .claiming => 4 | .joined => 5 | .leaving => 6
  | .detached => 7 | .faulted => 8

/-- The command codes (R175). -/
def Command.code : Command → Nat
  | .join => 1 | .leave => 2 | .flush => 3 | .restart => 4

/-- The command result codes (R175). -/
def CommandResult.code : CommandResult → Nat
  | .done => 1 | .failed => 2 | .aborted => 3 | .forced _ _ => 4 | .badStrap => 5 | .badSetup => 6
  | .refusedBusy => 7 | .refusedState => 8

/-- The two counts of a result: set only with FORCED (R175). -/
def CommandResult.counts : CommandResult → Nat × Nat
  | .forced o i => (o, i)
  | _ => (0, 0)

/-- The push and pop result codes (R178). -/
def PortResult.code : PortResult → Nat
  | .none => 0 | .accepted => 1 | .full => 2 | .badDescriptor => 3 | .notReady => 4 | .leaving => 5
  | .flushing => 6 | .badHandle => 7 | .badLength => 8 | .empty => 9

/-- The op codes (R182). -/
def Op.code : Op → Nat
  | .read => 1 | .write => 2 | .cwrite => 3 | .signal => 4

/-- The own-window state codes (R176). -/
def WindowState.code : WindowState → Nat
  | .idle => 0 | .wanted => 1 | .held => 2 | .releasing => 3 | .refused => 4

/-- The fault kind codes (R182). -/
def FaultKind.code : FaultKind → Nat
  | .strayResponse => 1 | .postedDropped => 2 | .peerEvicted => 3 | .claimRefused => 4 | .mapOverlap => 5
  | .voidLimit => 6 | .idConflict => 7 | .syncIncomplete => 8 | .collision => 9

/-- The severity codes of the fault head view (R182). -/
def Severity.code : Severity → Nat
  | .note => 1 | .degraded => 2 | .fatal => 3

/-- The RQ head codes of the outbound occupancy word (R180). -/
def Ore.headCode (o : Ore) : Nat :=
  match o.rq, o.head with
  | [], _ => 0
  | _ :: _, none => 1
  | _ :: _, some h => if h.phase = .ready then 2 else 3

/-! ### Status words (R175, R178, R180) -/

/-- The station status word. -/
def State.statusWord (s : State) : Word :=
  packFields [⟨0, 4, s.mc.state.code⟩, ⟨4, 5, s.mc.sid.toNat⟩, ⟨9, 1, s.mc.state.isMember.toNat⟩,
    ⟨10, 1, s.lpu.locked.toNat⟩, ⟨12, 2, s.mc.attempts⟩, ⟨16, 5, s.mc.peers.card⟩, ⟨24, 3, s.wmu.heldCount⟩]

/-- The command word as read. -/
def Lpu.commandWord (l : Lpu) : Word :=
  let running :=
    match l.running with
    | none => []
    | some c => [⟨0, 3, c.code⟩, ⟨3, 1, 1⟩]
  let last :=
    match l.last with
    | none => []
    | some e =>
      [⟨4, 3, e.command.code⟩, ⟨8, 4, e.result.code⟩, ⟨16, 6, e.result.counts.1⟩, ⟨24, 5, e.result.counts.2⟩]
  packFields (running ++ last)

/-- The push/pop result word. -/
def PortResults.word (r : PortResults) : Word :=
  packFields [⟨0, 4, r.rq.code⟩, ⟨4, 4, r.sq.code⟩, ⟨8, 4, r.cq.code⟩, ⟨12, 4, r.iq.code⟩, ⟨16, 4, r.nq.code⟩,
    ⟨20, 4, r.fault.code⟩]

/-- The outbound occupancy word. -/
def Ore.outboundWord (o : Ore) : Word :=
  packFields [⟨0, 5, o.rq.length⟩, ⟨8, 2, o.headCode⟩, ⟨16, 6, o.cq.length⟩, ⟨24, 6, o.cqSum⟩]

/-- The tag occupancy word. -/
def Ore.tagWord (o : Ore) : Word :=
  packFields [⟨0, 6, o.ort.count OrtEntry.reserved⟩, ⟨8, 6, o.ort.count OrtEntry.isQuarantined⟩]

/-- The inbound occupancy word. -/
def Isu.inboundWord (i : Isu) : Word :=
  packFields [⟨0, 5, i.iq.length⟩, ⟨8, 5, i.live⟩, ⟨16, 5, i.sq.length⟩, ⟨24, 4, i.nq.length⟩]

/-- The own-window state view (R176). -/
def Wmu.ownWord (w : Wmu) : Word :=
  packFields ((Bank.indices 2).map (fun n => ⟨4 * n.toNat, 3, (w.own.at n).state.code⟩))

/-! ### Head views (R179, R182) -/

/-- Word 0 of a head view of an empty queue. -/
def emptyMark : Word := 0x80000000

/-- Data word i of a view: 0 beyond the record's count. -/
def dataWord (ds : List Word) (i : Nat) : Word := ds.getD i 0

/-- A word of the CQ head view. The destination field of a record without destination reads 0, which is the model's choice (log
entry 29). -/
def Ore.cqHeadWord (o : Ore) (i : Fin 18) : Word :=
  match o.cq with
  | [] => if i.val = 0 then emptyMark else 0
  | c :: _ =>
    if i.val = 0 then
      packFields [⟨0, 4, c.status.code⟩, ⟨4, 3, c.op.code⟩, ⟨8, 5, (c.dest.getD 0).toNat⟩,
        ⟨13, 1, c.dest.isSome.toNat⟩, ⟨16, 5, c.data.length⟩]
    else if i.val = 1 then c.ticket.setWidth 32
    else dataWord c.data (i.val - 2)

/-- The op of an inbound request. -/
def InboundWork.op : InboundWork → Op
  | .read _ => .read
  | .write _ => .write
  | .cwrite _ => .cwrite

/-- The length of an inbound request (R140). -/
def InboundWork.length : InboundWork → Nat
  | .read n => n
  | .write ds => ds.length
  | .cwrite ds => ds.length

/-- The data of an inbound request; none for READ (R140). -/
def InboundWork.data : InboundWork → List Word
  | .read _ => []
  | .write ds => ds
  | .cwrite ds => ds

/-- A word of the IQ head view. The handle field of a WRITE, which has no handle, reads 0, which is the model's choice (log entry
29). -/
def Isu.iqHeadWord (s : Isu) (i : Fin 18) : Word :=
  match s.iq with
  | [] => if i.val = 0 then emptyMark else 0
  | r :: _ =>
    if i.val = 0 then
      packFields [⟨0, 3, r.work.op.code⟩, ⟨4, 5, r.source.toNat⟩, ⟨12, 5, r.work.length⟩,
        ⟨20, 4, (r.handle.getD 0).toNat⟩, ⟨24, 1, r.handle.isSome.toNat⟩]
    else if i.val = 1 then r.address
    else dataWord r.work.data (i.val - 2)

/-- A word of the NQ head view. -/
def Isu.nqHeadWord (s : Isu) (i : Fin 2) : Word :=
  match s.nq with
  | [] => if i.val = 0 then emptyMark else 0
  | r :: _ => if i.val = 0 then packFields [⟨0, 5, r.source.toNat⟩, ⟨8, 1, r.broadcast.toNat⟩] else r.value

/-- A word of the fault head view. -/
def Lpu.faultHeadWord (l : Lpu) (i : Fin 3) : Word :=
  match l.faults with
  | [] => if i.val = 0 then emptyMark else 0
  | r :: _ =>
    if i.val = 0 then
      packFields [⟨0, 4, r.kind.code⟩, ⟨4, 2, r.kind.severity.code⟩, ⟨8, 1, r.station.isSome.toNat⟩,
        ⟨9, 1, r.tagOrHandle.isSome.toNat⟩, ⟨10, 1, r.base.isSome.toNat⟩, ⟨16, 1, r.overflow.toNat⟩]
    else if i.val = 1 then
      packFields [⟨0, 5, (r.station.getD 0).toNat⟩, ⟨8, 5, (r.tagOrHandle.getD 0).toNat⟩]
    else r.base.getD 0

/-! ### The map view (R66, R180) -/

/-- The entry descriptor word of a valid position. -/
def MapEntry.viewWord (e : MapEntry) : Word :=
  packFields [⟨0, 5, e.size.toNat⟩, ⟨8, 5, e.owner.toNat⟩, ⟨30, 1, 1⟩, ⟨31, 1, e.writable.toNat⟩]

/-- A word of the map view: a position that is not valid reads 0 in both words. -/
def Wmu.mapWord (w : Wmu) (position : Fin 64) (descriptor : Bool) : Word :=
  match w.map[position.val]? with
  | none => 0
  | some e => if descriptor then e.viewWord else e.base

/-! ### Reads -/

/-- A view word (R174). -/
def State.viewWord (s : State) : ViewWord → Word
  | .status => s.statusWord
  | .results => s.lpu.results.word
  | .outbound => s.ore.outboundWord
  | .tags => s.ore.tagWord
  | .peers => StationSet.ofPeerWord s.mc.peers
  | .inbound => s.isu.inboundWord
  | .ownWindows => s.wmu.ownWord
  | .cqHead i => s.ore.cqHeadWord i
  | .iqHead i => s.isu.iqHeadWord i
  | .nqHead i => s.isu.nqHeadWord i
  | .faultHead i => s.lpu.faultHeadWord i
  | .map p d => s.wmu.mapWord p d

/-- What a read of a word returns (R174); action and unassigned words read 0. -/
def State.readPortWord (s : State) : PortWord → Word
  | .view v => s.viewWord v
  | .command => s.lpu.commandWord
  | .cause => s.causes.setWidth 32
  | .mask => s.lpu.masks.setWidth 32
  | .severityEnable => s.lpu.enables.setWidth 32
  | .setup i => s.lpu.setup.word i
  | .rqStage i => s.lpu.rqStage[i]
  | .sqStage i => s.lpu.sqStage[i]
  | .rqPush | .sqPush | .cqPop | .iqPop | .nqPop | .faultPop | .unassigned => 0

/-- What a read access of A[11:2] returns (R173); one with WR_N asserted too returns 0. Under RESET_N the state holds the
reset values, so the read returns them. -/
def State.readWord (s : State) (a : BitVec 10) (writeStrobe : Bool) : Word :=
  if writeStrobe then 0 else s.readPortWord (portWord a)

end Sys2Proof.Machine
end

