-- ==== Sys2Proof/WellFormed.lean ====
section
/-! DEFINITION. Which operands a command can have. A received-frame command other than MALFORMED_FRAME stands for a
frame that passes every test of R15; MALFORMED_FRAME carries at least the bits of the shortest frame; a collision falls
on a bit of a frame. -/

namespace Sys2Proof

/-- The frame these fields make passes R15. -/
def passes (source dest : Station) (tag : Tag) (c : Content) : Bool :=
  ((Message.frame ⟨source, dest, tag, c⟩ false).message).isSome

/-- The shortest frame a listener can locate: 27 header bits and 16 check bits (R7). -/
abbrev shortestFrame : Nat := 43

/-- The last position a transmitter compares: start, 27 header bits, 17 words, 16 check bits (R7, R26). -/
abbrev lastComparedBit : Nat := 587

/-- The operands are ones the command can have. -/
def Instr.wellFormed : Instr → Bool
  | .collided bit => bit ≤ lastComparedBit
  | .malformedFrame bits _ _ => shortestFrame ≤ bits.length
  | .syncReceived src _ => passes src allStations 0 .sync
  | .rosterReceived src p ps _ => passes src allStations 0 (.roster p ps)
  | .claimReceived src b d _ => passes src allStations 0 (.claim b d)
  | .releaseReceived src b _ => passes src allStations 0 (.release b)
  | .evictReceived src w _ => passes src allStations 0 (.evict w)
  | .byeReceived src _ => passes src allStations 0 .bye
  | .requestReceived src t b _ => passes src 1 t (.request b)
  | .responseReceived src t b _ => passes src 1 t (.response b)
  | .signalReceived src _ v _ => passes src allStations 0 (.signal v)
  | .frameForAnotherStation src d b _ => validStation d && passes src d b.tag b.content
  | .resetNAsserted | .resetNReleased _ _ | .join | .leave | .flush | .restart | .rqPush | .sqPush | .cqPop
  | .iqPop | .nqPop | .faultPop | .setupWrite _ _ | .causeWrite _ | .maskWrite _ | .severityEnableWrite _
  | .registerWrite _ _ _ | .trunkIdleObserved | .beginningAFrame | .lost _ | .syncOutcome _ | .rosterOutcome _
  | .claimOutcome _ | .releaseOutcome _ | .evictOutcome _ | .byeOutcome _ | .requestFrameOutcome _
  | .responseFrameOutcome _ | .headPreparation | .holdoffExpiry | .responseTimerExpiry _ | .quarantineExpiry _
  | .settleTimerExpiry | .leaveDeadlineExpiry | .burstNotAFrame => true

/-- The moment of a received frame that a row stands for; none for the other rows, and for bits that end before the last check
bit of their frame (R9). -/
def Instr.moment : Instr → Option RxMoment
  | .malformedFrame bits _ m => if (Frame.read bits).isSome then some m else none
  | .syncReceived _ m | .rosterReceived _ _ _ m | .claimReceived _ _ _ m | .releaseReceived _ _ m
  | .evictReceived _ _ m | .byeReceived _ m | .requestReceived _ _ _ m | .responseReceived _ _ _ m
  | .signalReceived _ _ _ m | .frameForAnotherStation _ _ _ m => some m
  | _ => none

end Sys2Proof
end

