-- ==== Sys2Proof/Safety.lean ====
section
/-! DEFINITION. The laws that every step keeps, block by block, and the words the statements are written in. -/

namespace Sys2Proof.Machine

/-! ### Laws -/

/-- The window map holds at most 64 entries, in ascending base order, no address lies in two of them, and no station owns more
than four (R65). -/
structure MapLaws (map : List MapEntry) : Prop where
  share : ∀ p, ownedBy map p ≤ Config.ownedLimit
  depth : map.length ≤ Config.mapDepth
  ascending : map.Pairwise (fun a b => a.low < b.low)
  disjoint : map.Pairwise (fun a b => a.overlaps b = false)

/-- Records plus reservations never exceed 32 (R102), the RQ holds at most 16 descriptors (R99), a prepared head is the head
of a queue that is not empty, and the PENDING entry is that of the prepared head's tag (R104, R118). -/
structure CompletionLaws (o : Ore) : Prop where
  sum : o.cqSum ≤ Config.cqDepth
  queue : o.rq.length ≤ Config.rqDepth
  headQueued : o.head.isSome = true → o.rq ≠ []
  headTag : ∀ h t, o.head = some h → h.tag = some t → ∃ r, o.ort.at t = .pending r
  pendingHead : ∀ t r, o.ort.at t = .pending r → ∃ h, o.head = some h ∧ h.tag = some t

/-- Each ANSWERING entry has exactly one SQ record and each SQ record one ANSWERING entry, of its source and tag (R142,
R145). -/
structure ResponseLaws (i : Isu) : Prop where
  distinct : (i.sq.map SqRecord.handle).Nodup
  answering : ∀ r ∈ i.sq, ∃ e, i.itt.at r.handle = some e ∧ e.state = .answering ∧ e.source = r.dest ∧ e.tag = r.tag
  recorded : ∀ h e, i.itt.at h = some e → e.state = .answering → ∃ r ∈ i.sq, r.handle = h

/-- The IQ and the NQ hold at most 16 and 8 records (R140, R155), and a frame accepted into one of them still finds its slot
at its end of trailer (R138, R154). -/
structure InboundLaws (t : Tif) (i : Isu) : Prop where
  iq : i.iq.length ≤ Config.iqDepth
  nq : i.nq.length ≤ Config.nqDepth
  iqRoom : ∀ r m, t.rx = some r → r.verdict = .accept m (some .deliver) → i.iq.length < Config.iqDepth
  nqRoom : ∀ r m v p, t.rx = some r → r.verdict = .accept m p → m.content = .signal v → i.nq.length < Config.nqDepth

/-- The peer set holds the own number exactly in the member states (R48); the pending EVICTs are in ascending order, without
duplicates and without the own number (R24, R91); the station does not expect itself (R53); a miss counter that reaches 3
returns to 0 (R89, R90). -/
structure MembershipLaws (m : Mc) : Prop where
  own : m.peers.has m.sid = m.state.isMember
  ascending : m.evicts.Pairwise (fun a b => a.station.toNat < b.station.toNat)
  ownEvict : ∀ e ∈ m.evicts, e.station ≠ m.sid
  ownExpected : m.expected.has m.sid = false
  miss : ∀ p, m.miss.at p < Config.missLimit

/-- Which command can be in progress in which state (R41, R43, R44, R59, R60, R158). -/
def commandFits : StationState → Option Command → Bool
  | .halted, none => true
  | .listen, some .join => true
  | .syncWait, some .join => true
  | .syncWait, some .leave => true
  | .syncing, some .join => true
  | .claiming, some .join => true
  | .joined, none => true
  | .joined, some .flush => true
  | .leaving, none => true
  | .leaving, some .leave => true
  | .detached, none => true
  | .faulted, none => true
  | _, _ => false

/-- What the state, the command in progress, the timers and the receiver say of one another: a station that left HALTED has
a valid number (R42), a frame is in flight or decided only while the station listens (R6, R17, R21), the settle timer runs
only in SYNCING (R52), the deadline only in LEAVING (R57, R59), a BYE is pending only in LEAVING or frozen in FAULTED (R58,
R61), the busy holdoff runs only for a head in HOLDOFF (R36), a frame on which the station collided is malformed at it
(R29), a request accepted before a FLUSH holds that FLUSH while it is being received (R163), what an abandoned own frame is
owed waits only until the end of the frame on which it collided, and an abandoned BYE is never offered again and ends in
DETACHED from LEAVING (R35, R59, R165; log entry 10), and the RQ is empty once the BYE is pending, and with the SQ and the
ITT in DETACHED (R37, R58, R115, R150; log entry 27). -/
structure ControlLaws (s : State) : Prop where
  strap : s.mc.state ≠ .halted → validStation s.mc.sid = true
  idle : s.tif.idleCount ≤ Config.idleBits
  flight : ∀ f, s.tif.flight = some f →
    s.mc.state.isListening = true ∧ (s.tif.receiver = .receiving ∨ s.tif.receiver = .slots) ∧ s.tif.rx = none
  reception : s.tif.rx.isSome = true → s.mc.state.isListening = true ∧ s.tif.receiver = .slots
  command : commandFits s.mc.state s.lpu.running = true
  settle : s.mc.settle.isSome = true → s.mc.state = .syncing
  deadline : s.mc.deadline.isSome = true → s.mc.state = .leaving
  bye : s.mc.bye.isSome = true → s.mc.state = .leaving ∨ s.mc.state = .faulted
  byeFlight : ∀ f, s.tif.flight = some f → f.source = .bye → s.mc.state = .leaving ∧ s.mc.bye.isSome = true
  holdoff : s.tif.holdoff.isSome = true → ∃ h, s.ore.head = some h ∧ h.phase = .holdoff
  headFlight : ∀ f, s.tif.flight = some f → f.source = .rqHead → f.discarded = false →
    ∃ h, s.ore.head = some h ∧ h.phase = .ready
  collided : s.tif.collidedHere = true → ∀ r, s.tif.rx = some r → r.verdict = .malformed
  flushHeld : ∀ r m p, s.tif.rx = some r → r.verdict = .accept m (some p) → r.flushedSince = true →
    s.lpu.running = some .flush
  spent : s.tif.spent.isSome = true →
    s.mc.state.isListening = true ∧ s.tif.collidedHere = true ∧ s.tif.flight = none ∧ s.tif.receiver ≠ .ready
  byeSpent : ∀ c, s.mc.state = .leaving → s.mc.bye = some c → Config.voidLimit ≤ c.voids → s.tif.spent = some .detach
  detachWaits : s.tif.spent = some .detach → s.mc.state = .leaving ∧ s.mc.bye.isSome = true
  byeDrained : s.mc.state = .leaving → s.mc.bye.isSome = true → s.ore.rq = []
  detached : s.mc.state = .detached → s.ore.rq = [] ∧ s.isu.sq = [] ∧ ∀ h, s.isu.itt.at h = none

/-! ### Words for the statements -/

/-- The row of a local command. -/
def Command.row : Command → Instr
  | .join => .join
  | .leave => .leave
  | .flush => .flush
  | .restart => .restart

/-- The states in which R41 accepts a command. -/
def Command.states : Command → List StationState
  | .join => [.halted]
  | .leave => [.listen, .syncWait, .syncing, .claiming, .joined]
  | .flush => [.joined]
  | .restart => [.faulted, .detached]

/-- The row of a moment of an own frame of the given source. -/
def Source.row (moment : TxMoment) : Source → Instr
  | .sqHead => .responseFrameOutcome moment
  | .sync => .syncOutcome moment
  | .bye => .byeOutcome moment
  | .roster => .rosterOutcome moment
  | .evict _ => .evictOutcome moment
  | .release _ => .releaseOutcome moment
  | .claim _ => .claimOutcome moment
  | .rqHead => .requestFrameOutcome moment

/-- A word shows the given fields, each with its lowest bit, its width and its value, and 0 in every other bit. -/
def shows (w : Word) (fields : List (Nat × Nat × Nat)) : Prop :=
  (∀ f ∈ fields, w.toNat / 2 ^ f.1 % 2 ^ f.2.1 = f.2.2 % 2 ^ f.2.1) ∧
  ∀ i, (∀ f ∈ fields, ¬(f.1 ≤ i ∧ i < f.1 + f.2.1)) → w.getLsbD i = false

/-- The RQ staging area of station sid holds the well-formed descriptor d (R97, R182): op in bits 2:0 of word 0, length in 8:4,
destination in 14:10, ticket in 31:16, the address in word 1, the data from word 2 on, the value of a SIGNAL in word 2. -/
def describes (sid : Station) (stage : Vector Word 18) (d : Descriptor) : Prop :=
  let word := stage[0].toNat
  let op := word % 8
  let length := word / 16 % 32
  let dest := word / 1024 % 32
  let ranged : Prop := stage[1].toNat % 4 = 0 ∧ 1 ≤ length ∧ length ≤ 16
  d.ticket.toNat = word / 65536 ∧
  match d.work with
  | .read a n => op = 1 ∧ ranged ∧ a = stage[1] ∧ n = length
  | .write a ds => op = 2 ∧ ranged ∧ a = stage[1] ∧ ds = (stage.toList.drop 2).take length
  | .cwrite a ds => op = 3 ∧ ranged ∧ a = stage[1] ∧ ds = (stage.toList.drop 2).take length
  | .signal p v => op = 4 ∧ p.toNat = dest ∧ (dest = 31 ∨ (dest ≠ 0 ∧ dest ≠ sid.toNat)) ∧ v = stage[2]

/-- Every entry of the map names as owner a station of the peer set (R65). -/
def State.ownersPresent (s : State) : Prop := ∀ e ∈ s.wmu.map, s.mc.peers.has e.owner = true

/-- A frame of the given source is in flight, its work not discarded, RESET_N released. -/
def State.sends (s : State) (src : Source) (f : Frame) : Prop :=
  s.resetAsserted = false ∧ s.tif.flight = some ⟨src, f, false⟩

/-- A frame of the given source is in flight whose work has been discarded or withdrawn since it began, so that its outcome is
handed to no owner (R57, R60, R75, R115, R150), RESET_N released. -/
def State.sendsForNobody (s : State) (src : Source) (f : Frame) : Prop :=
  s.resetAsserted = false ∧ ∃ gone, s.tif.flight = some ⟨src, f, gone⟩ ∧
    (gone = true ∨ (src = .sync ∧ s.mc.state = .leaving ∧ s.mc.sync = none))

/-- The miss counters after an own frame to dest has ended at its trailer with these levels (R89): a broadcast and a voided
frame leave them; TAKEN and REJECTED put that of dest at 0; UNANSWERED raises it. -/
def Mc.afterFrame (m : Mc) (dest : Station) (levels : Slots) : Mc :=
  if dest = 31 ∨ levels.error = true then m
  else if levels.reject = true ∨ levels.accept = true then { m with miss := m.miss.put dest 0 }
  else m.raiseMiss dest

/-- A member whose receiver is READY and which sends nothing, RESET_N released. -/
def State.hears (s : State) : Prop :=
  s.resetAsserted = false ∧ s.mc.state.isMember = true ∧ s.tif.receiver = .ready ∧ s.tif.flight = none

/-- The TIF after a frame of another station has run to the end of its trailer (R5, R6). -/
def Tif.heard (t : Tif) : Tif :=
  { t with idleCount := 0, receiver := .unsynced, collidedHere := false, spent := none, rx := none }

/-- The TIF after an own frame has run to the end of its trailer (R6, R30). -/
def Tif.sent (t : Tif) : Tif := { t with flight := none, receiver := .unsynced, collisions := 0 }

/-- What entry into FAULTED from s with a fault record leaves (R36, R61, R81, R116, R129, R151): lines released, timers
stopped, map, peer set and miss counters emptied, everything else as it stood, the command in progress ended FAILED. -/
def State.faultedFrom (s : State) (r : FaultRecord) (t : State) : Prop :=
  t.mc = { s.mc with
    state := .faulted, settle := none, deadline := none, peers := StationSet.empty, miss := Bank.all 5 0 } ∧
  t.wmu = { s.wmu with map := [] } ∧ t.isu = s.isu ∧ t.ore.rq = s.ore.rq ∧ t.ore.head = s.ore.head ∧
  t.ore.cq = s.ore.cq ∧
  (∀ tag, t.ore.ort.at tag =
    match s.ore.ort.at tag with
    | .sent x _ => .sent x none
    | .quarantined x _ => .quarantined x none
    | e => e) ∧
  t.tif.flight = none ∧ t.tif.rx = none ∧ t.tif.holdoff = none ∧ t.drivesTclk = false ∧
  (∀ p, t.drivesTdat p = false) ∧
  t.lpu = { s.lpu with
    faults := addFault r s.lpu.faults, stateChange := true, running := none
    last :=
      match s.lpu.running with
      | some c => some ⟨c, .failed⟩
      | none => s.lpu.last
    cmdDone := s.lpu.running.isSome || s.lpu.cmdDone }

/-- What the abandonment of the BYE leaves from s (R35, R59, R80, R128): VOID_LIMIT recorded, the station in DETACHED, LEAVE
ended DONE if it still runs, and what was left in the ITT and the SQ dropped (log entry 27). -/
def State.detachedFrom (s t : State) : Prop :=
  t.tif = { s.tif with rx := none, holdoff := none } ∧ t.mc.state = .detached ∧ t.mc.peers = StationSet.empty ∧
  t.mc.bye = none ∧ t.wmu = Wmu.reset ∧ t.ore.cq = s.ore.cq ∧
  t.isu = { s.isu with itt := Bank.all 4 none, sq := [], sqCounts := Counts.zero } ∧
  t.lpu = { s.lpu with
    stateChange := true, running := none
    faults := addFault ⟨.voidLimit, none, none, none, false⟩ s.lpu.faults
    last := if s.lpu.running = some .leave then some ⟨.leave, .done⟩ else s.lpu.last
    cmdDone := s.lpu.running = some .leave || s.lpu.cmdDone }

/-- The PEER_LOST records of the SENT entries to d, in ascending order of tag (R126). -/
def Ore.lostTo (o : Ore) (d : Station) : List Completion :=
  (Bank.indices 5).filterMap (fun tag =>
    match o.ort.at tag with
    | .sent r _ => if r.dest = d then some ⟨r.ticket, if r.cwrite then .cwrite else .read, .peerLost, some d, []⟩ else none
    | _ => none)

/-- The entry answers d and has its response queued (R148). -/
def answers (d : Station) (e : IttEntry) : Bool :=
  match e with
  | some r => r.source == d && r.state == .answering
  | none => false

/-- What the departure of d leaves in the map, the miss counters, the pending EVICTs, the BYE flag, the ORT, the CQ, the RQ head
with its holdoff and the ISU, at a member that is not d: a member in LEAVING tests the leave condition once the cleanup is
done (R58, R86, R88, R113, R126, R148). -/
def State.cleanedOf (s : State) (d : Station) (t : State) : Prop :=
  t.wmu.map = s.wmu.map.filter (fun e => e.owner != d) ∧
  t.mc.miss = s.mc.miss.put d 0 ∧ t.mc.evicts = s.mc.evicts.filter (fun e => e.station != d) ∧
  t.mc.bye = (if s.mc.state = .leaving ∧ s.mc.bye = none ∧ t.leaveCondition = true then some Counts.zero else s.mc.bye) ∧
  (∀ tag r x, s.ore.ort.at tag = .sent r x →
    t.ore.ort.at tag =
      if r.dest = d then .quarantined r (some (Config.responseTimeoutNs s.lpu.setup.timeoutCode)) else .sent r x) ∧
  (∀ tag r x, s.ore.ort.at tag = .quarantined r x → t.ore.ort.at tag = .quarantined r x) ∧
  (s.ore.cq ++ s.ore.lostTo d <+: t.ore.cq) ∧
  (∀ h w, s.ore.head = some h → h.dest = d → s.ore.rq.head? = some w →
    s.ore.cq ++ s.ore.lostTo d ++ [⟨w.ticket, w.work.op, .peerLost, some d, []⟩] <+: t.ore.cq) ∧
  (∀ h, s.ore.head = some h → h.dest = d → s.ore.rq ≠ [] → t.tif.holdoff = none) ∧
  (∀ h, s.ore.head = some h → h.dest ≠ d →
    t.ore.head = some h ∧ t.ore.rq = s.ore.rq ∧ t.tif.holdoff = s.tif.holdoff) ∧
  (∀ h, t.isu.itt.at h =
    match s.isu.itt.at h with
    | some e =>
      if e.source = d then (if e.state = .answering then none else some { e with orphaned := true }) else some e
    | none => none) ∧
  t.isu.sq = s.isu.sq.filter (fun r => !answers d (s.isu.itt.at r.handle)) ∧
  (∀ r rs, ResponseLaws s.isu → s.isu.sq = r :: rs →
    t.isu.sqCounts = if answers d (s.isu.itt.at r.handle) then Counts.zero else s.isu.sqCounts) ∧
  t.isu.iq = s.isu.iq ∧ t.isu.nq = s.isu.nq

/-- What the departure of d does at a member that is not d (R53, R54, R85 to R88): the cleanup, with faults the Fault List
as the departure frame itself leaves it, and outside SYNCING nothing else, but that a FLUSH ends DONE where the cleanup leaves
the SQ empty (R162, R163); in SYNCING d leaves Expected and Answered, the late joiners are those given, and the sync completes
when somebody has answered and everybody expected has, which can refuse own windows. That the fault of the departure frame
stands before those CLAIM_REFUSED is the model's choice (log entry 12). -/
def State.departed (s : State) (d : Station) (faults : List FaultRecord) (late : StationSet) (t : State) : Prop :=
  let complete : Prop := s.mc.answered.erase d ≠ StationSet.empty ∧
    (s.mc.expected.erase d).minus (s.mc.answered.erase d) = StationSet.empty
  s.cleanedOf d t ∧
  (s.mc.state ≠ .syncing → t.mc.state = s.mc.state ∧ t.wmu.own = s.wmu.own ∧ t.wmu.claim = s.wmu.claim ∧
    t.lpu =
      if s.lpu.running = some .flush ∧ t.isu.sq = [] ∧ t.tif.acceptedRequest = false then
        { s.lpu with running := none, last := some ⟨.flush, .done⟩, cmdDone := true, faults := faults }
      else { s.lpu with faults := faults }) ∧
  (s.mc.state = .syncing →
    t.mc.expected = s.mc.expected.erase d ∧ t.mc.answered = s.mc.answered.erase d ∧ t.mc.late = late ∧
    (¬complete → t.mc.state = .syncing ∧ t.wmu.own = s.wmu.own ∧ t.wmu.claim = s.wmu.claim ∧ t.lpu.faults = faults) ∧
    (complete → t.mc.state = (if t.wmu.claim.isSome then .claiming else .joined) ∧ t.mc.settle = none ∧
      ∃ refused : List FaultRecord, (∀ r ∈ refused, r.kind = .claimRefused) ∧
        t.lpu.faults = refused.foldl (fun fs r => addFault r fs) faults))

/-- The claims go on after that of record n, with this map and Fault List (R56, R68, R69): the next-numbered record WANTED
becomes the CLAIM in course with counts of 0, or is REFUSED with CLAIM_REFUSED where its window does not fit; after the last
the station enters JOINED and JOIN ends DONE. -/
def State.claimsOn (s : State) (n : Slot) (map : List MapEntry) (faults : List FaultRecord) (t : State) : Prop :=
  let joined (faults : List FaultRecord) : Prop :=
    t.mc = { s.mc with state := .joined } ∧ t.wmu.claim = none ∧
    t.lpu = { s.lpu with
      running := none, last := some ⟨.join, .done⟩, cmdDone := true, stateChange := true, faults := faults }
  (∀ m, m ≠ n → (s.wmu.own.at m).state = .wanted →
    (∀ k : Slot, k ≠ n → k.toNat < m.toNat → (s.wmu.own.at k).state ≠ .wanted) →
    (claimFits map (s.lpu.setup.window m s.mc.sid) = true →
      t.wmu.claim = some ⟨m, ⟨0, 0, false⟩⟩ ∧ t.wmu.own.at m = s.wmu.own.at m ∧ t.mc = s.mc ∧
      t.lpu = { s.lpu with faults := faults }) ∧
    (claimFits map (s.lpu.setup.window m s.mc.sid) = false →
      t.wmu.own.at m = ⟨.refused, none⟩ ∧
      ((∀ k, k ≠ n → k ≠ m → (s.wmu.own.at k).state ≠ .wanted) → s.lpu.running = some .join →
        joined (addFault ⟨.claimRefused, none, none, some (s.lpu.setup.slots.at m).base, false⟩ faults)))) ∧
  (∀ m, m ≠ n → (s.wmu.own.at m).state ≠ .wanted → t.wmu.own.at m = s.wmu.own.at m) ∧
  ((∀ m, m ≠ n → (s.wmu.own.at m).state ≠ .wanted) → s.lpu.running = some .join → joined faults)

/-- A response fits the entry of a request: DATA of the length read, DONE of a conditional write, FAIL with a status of 3, 4, 5
or 11; and the status and the data of the completion it makes (R121, R122). -/
def OrtRecord.answeredBy (r : OrtRecord) (b : ResponseBody) (st : Status) (data : List Word) : Prop :=
  match b with
  | .data ws => r.cwrite = false ∧ ws.length = r.length ∧ st = .ok ∧ data = ws
  | .done => r.cwrite = true ∧ st = .ok ∧ data = []
  | .fail w => data = [] ∧
      ((w = 3 ∧ st = .notOwner) ∨ (w = 4 ∧ st = .readOnly) ∨ (w = 5 ∧ st = .targetError) ∨ (w = 11 ∧ st = .flushed))

/-- A station that can decide on a frame: RESET_N released, listening, RECEIVING with nothing in flight and no collision of its
own on the frame, its number valid (R6, R15, R29, R38). -/
def State.decides (s : State) : Prop :=
  s.resetAsserted = false ∧ s.mc.state.isListening = true ∧ s.tif.receiver = .receiving ∧ s.tif.flight = none ∧
  s.tif.collidedHere = false ∧ validStation s.mc.sid = true

/-- A station in LEAVING that meets the leave condition sets its BYE flag; once set it stays set (R58). -/
def State.byeTested (s : State) : State :=
  { s with mc := { s.mc with bye :=
    if s.mc.state = .leaving ∧ s.mc.bye = none ∧ s.leaveCondition = true then some Counts.zero else s.mc.bye } }

/-- What follows at once where the RQ head, a tag or a CQ slot has gone: the preparation of the head is attempted, as
HEAD_PREPARATION attempts it (R99, R101), and the leave condition is tested (R58). -/
def State.followed (s : State) : State := s.prepareHead.byeTested

/-- A FLUSH in progress ends DONE when the SQ is empty and no request accepted before it is being received (R163). -/
def State.flushTested (s : State) : State :=
  { s with lpu :=
    if s.lpu.running = some .flush ∧ s.isu.sq = [] ∧ s.tif.acceptedRequest = false then
      { s.lpu with running := none, last := some ⟨.flush, .done⟩, cmdDone := true }
    else s.lpu }

/-- What follows at once where an SQ record has gone: the leave condition is tested (R58), and the end of a FLUSH (R163). -/
def State.responded (s : State) : State := s.byeTested.flushTested

/-- All the laws of the station. -/
structure StationLaws (s : State) : Prop where
  map : MapLaws s.wmu.map
  completion : CompletionLaws s.ore
  response : ResponseLaws s.isu
  inbound : InboundLaws s.tif s.isu
  membership : MembershipLaws s.mc
  control : ControlLaws s

end Sys2Proof.Machine
end

