-- ==== Sys2Proof/Certificates/Slice0/Obligations.lean ====
section
/-! DEFINITION. The statements for the provers. Each docstring names the rules it formalises, and where a clause is the
model's own choice, the log entry that makes it. -/

section

open Sys2Proof Sys2Proof.Machine

/-! ### The step and the pins -/

/-- One step runs the command at the front of the queue on the state with the queue's rest; with no command waiting the
block idles, which is the model's choice (log entry 3). -/
def Obligations.StepRunsTheFrontCommand : Prop :=
  (∀ (c : Instr) (q : List Instr) (s : State),
    step { s with pending := c :: q } = exec c { s with pending := q }) ∧
  (∀ s : State, s.pending = [] → step s = .next s)

/-- Every command answers a next state, whatever the state, and leaves the commands that wait as they are (log entry 22).
While RESET_N is asserted no command but the two reset rows does anything: writes are ignored (R173), and nothing is sent or
received (R62; log entry 17). -/
def Obligations.EveryCommandAnswersNext : Prop :=
  (∀ (c : Instr) (s : State), ∃ t, exec c s = .next t ∧ t.pending = s.pending) ∧
  (∀ (c : Instr) (s : State), s.resetAsserted = true → c ≠ .resetNAsserted →
    (∀ sid rate, c ≠ .resetNReleased sid rate) → exec c s = .next s)

/-- RESET_N released: the values of R63 and the reset values of the other blocks. -/
def Obligations.ResetReleasedLeaves : Prop :=
  ∀ (sid : BitVec 5) (rate : BitVec 2) (s : State), ∃ t, exec (.resetNReleased sid rate) s = .next t ∧
    t.resetAsserted = false ∧
    (t.mc.state = .halted ∧ t.mc.sid = sid ∧ t.mc.peers = StationSet.empty ∧ (∀ p, t.mc.miss.at p = 0) ∧
      t.mc.evicts = [] ∧ t.mc.sync = none ∧ t.mc.roster = none ∧ t.mc.bye = none ∧
      t.mc.answered = StationSet.empty ∧ t.mc.late = StationSet.empty ∧ t.mc.expected = StationSet.empty ∧
      t.mc.attempts = 0 ∧ t.mc.settle = none ∧ t.mc.deadline = none) ∧
    (t.lpu.running = none ∧ t.lpu.last = none ∧ t.lpu.locked = false ∧
      (∀ i : Fin 9, t.lpu.setup.word i = if i.val = 8 then 0x00000803 else 0) ∧
      t.lpu.results = ⟨.none, .none, .none, .none, .none, .none⟩ ∧
      (∀ i : Fin 18, t.lpu.rqStage[i] = 0) ∧ (∀ i : Fin 17, t.lpu.sqStage[i] = 0) ∧
      t.lpu.faults = [] ∧ t.lpu.enables = 4 ∧ t.lpu.masks = 0x3F ∧ t.causes = 0 ∧ t.lirq = false) ∧
    (t.tif.rate = rate ∧ t.tif.idleCount = 0 ∧ t.tif.receiver = .unsynced ∧ t.tif.flight = none ∧
      t.tif.collisions = 0 ∧ t.tif.holdoff = none) ∧
    (t.wmu.map = [] ∧ (∀ n, t.wmu.own.at n = ⟨.idle, none⟩) ∧ t.wmu.claim = none) ∧
    (t.ore.rq = [] ∧ t.ore.head = none ∧ (∀ tag, t.ore.ort.at tag = .free) ∧ t.ore.cq = [] ∧ t.ore.cqSum = 0) ∧
    (t.isu.iq = [] ∧ (∀ h, t.isu.itt.at h = none) ∧ t.isu.sq = [] ∧ t.isu.nq = [])

/-- RESET_N asserted: both lines are released, the frame in flight is cut short, the command in progress ends without a
result, every timer stops, and the local port shows HALTED (R62, R171). That the last command is gone and every tag FREE
already at the assertion is the model's reading: the reset values appear there (log entry 17). -/
def Obligations.ResetAssertedAbandonsEverything : Prop :=
  ∀ s : State, ∃ t, exec .resetNAsserted s = .next t ∧ t.resetAsserted = true ∧
    t.tif.flight = none ∧ t.tif.rx = none ∧ t.drivesTclk = false ∧ (∀ p, t.drivesTdat p = false) ∧
    t.lpu.running = none ∧ t.lpu.last = none ∧
    t.tif.holdoff = none ∧ t.mc.settle = none ∧ t.mc.deadline = none ∧ (∀ tag, t.ore.ort.at tag = .free) ∧
    t.mc.state = .halted ∧ (t.readWord 0 false).extractLsb' 0 4 = 0 ∧ t.lirq = false

/-! ### Commands -/

/-- JOIN accepted in HALTED clears SETUP_LOCKED and then ends BAD_STRAP, ends BAD_SETUP, or sets each valid slot's record
WANTED and every other IDLE, puts the idle count at 0 and enters LISTEN with JOIN in progress (R39, R42). -/
def Obligations.JoinInHalted : Prop :=
  ∀ s : State, s.resetAsserted = false → s.mc.state = .halted → s.lpu.running = none →
    (validStation s.mc.sid = false →
      exec .join s = .next { s with lpu := { s.lpu with
        locked := false, running := none, last := some ⟨.join, .badStrap⟩, cmdDone := true } }) ∧
    (validStation s.mc.sid = true → s.lpu.setup.passes = false →
      exec .join s = .next { s with lpu := { s.lpu with
        locked := false, running := none, last := some ⟨.join, .badSetup⟩, cmdDone := true } }) ∧
    (validStation s.mc.sid = true → s.lpu.setup.passes = true →
      exec .join s = .next { s with
        tif := { s.tif with idleCount := 0 }
        mc := { s.mc with state := .listen }
        wmu := { s.wmu with
          own := s.lpu.setup.slots.map (fun w => ⟨if w.valid then .wanted else .idle, none⟩) }
        lpu := { s.lpu with locked := false, running := some .join, stateChange := true } })

/-- The Setup check passes exactly when every valid slot has a size code of at most 18 and a base that is a whole multiple of
its size, no two valid slots share a byte address, and the aging threshold is at least 2 (R42). -/
def Obligations.SetupCheckConditions : Prop :=
  ∀ u : Setup, u.passes = true ↔
    (∀ n, (u.slots.at n).valid = true →
      (u.slots.at n).size.toNat ≤ 18 ∧ 4096 * 2 ^ (u.slots.at n).size.toNat ∣ (u.slots.at n).base.toNat) ∧
    (∀ n m, n ≠ m → (u.slots.at n).valid = true → (u.slots.at m).valid = true → ¬ ∃ a : Nat,
      (u.slots.at n).base.toNat ≤ a ∧ a < (u.slots.at n).base.toNat + 4096 * 2 ^ (u.slots.at n).size.toNat ∧
      (u.slots.at m).base.toNat ≤ a ∧ a < (u.slots.at m).base.toNat + 4096 * 2 ^ (u.slots.at m).size.toNat) ∧
    2 ≤ u.agingThreshold

/-- A command written while another runs is refused with REFUSED_BUSY, but for a LEAVE during a JOIN; one written in a state
that does not accept it is refused with REFUSED_STATE. A refused command changes no block; it ends at once, with CMD_DONE
(R41). -/
def Obligations.CommandsRefused : Prop :=
  ∀ (c : Command) (s : State), s.resetAsserted = false →
    (∀ r, s.lpu.running = some r → ¬(c = .leave ∧ r = .join) →
      exec c.row s = .next { s with lpu := { s.lpu with last := some ⟨c, .refusedBusy⟩, cmdDone := true } }) ∧
    (s.lpu.running = none ∨ (c = .leave ∧ s.lpu.running = some .join) → s.mc.state ∉ c.states →
      exec c.row s = .next { s with lpu := { s.lpu with last := some ⟨c, .refusedState⟩, cmdDone := true } })

/-- LEAVE in LISTEN, and in SYNC_WAIT with no SYNC in flight, returns the station to HALTED and ends DONE; with the SYNC in
flight the station waits for its end; a running JOIN ends ABORTED first (R41, R44). -/
def Obligations.LeaveBeforeMembership : Prop :=
  ∀ s : State, s.resetAsserted = false → s.lpu.running = none ∨ s.lpu.running = some .join →
    (s.mc.state = .listen ∨ (s.mc.state = .syncWait ∧ s.tif.flight = none) →
      exec .leave s = .next { s with
        tif := { s.tif with flight := none, rx := none, collidedHere := false, spent := none }
        mc := { s.mc with state := .halted, sync := none }
        wmu := { s.wmu with own := Bank.all 2 ⟨.idle, none⟩, claim := none }
        lpu := { s.lpu with
          running := none, last := some ⟨.leave, .done⟩, cmdDone := true, stateChange := true } }) ∧
    (s.mc.state = .syncWait → s.tif.flight ≠ none → s.lpu.running = some .join →
      exec .leave s = .next { s with lpu := { s.lpu with
        running := some .leave, last := some ⟨.join, .aborted⟩, cmdDone := true } })

/-- LEAVE in SYNCING, CLAIMING or JOINED enters LEAVING: the deadline runs for 8 × T_R, the settle timer stops, a SYNC flag
is cleared, HELD records become RELEASING with a RELEASE queued, WANTED records become IDLE unless their CLAIM is in flight,
and the BYE flag is set at once when the leave condition holds; the map, the ORE, the ISU and the TIF do not change (R41,
R57). The leave condition is that the RQ is empty, no ORT entry PENDING or SENT, no own-window record HELD or RELEASING, no ITT
entry live, and the SQ empty (R58). -/
def Obligations.LeaveAsMember : Prop :=
  (∀ s : State, s.leaveCondition = true ↔
    s.ore.rq = [] ∧ (∀ tag r x, s.ore.ort.at tag ≠ .pending r ∧ s.ore.ort.at tag ≠ .sent r x) ∧
    (∀ n, (s.wmu.own.at n).state ≠ .held ∧ (s.wmu.own.at n).state ≠ .releasing) ∧
    (∀ h, s.isu.itt.at h = none) ∧ s.isu.sq = []) ∧
  ∀ s : State, s.resetAsserted = false → s.lpu.running = none ∨ s.lpu.running = some .join →
    s.mc.state = .syncing ∨ s.mc.state = .claiming ∨ s.mc.state = .joined →
    ∃ t, exec .leave s = .next t ∧
      t.mc = { s.mc with
        state := .leaving, sync := none, settle := none
        deadline := some (8 * Config.responseTimeoutNs s.lpu.setup.timeoutCode)
        bye := if s.mc.bye = none ∧ t.leaveCondition = true then some Counts.zero else s.mc.bye } ∧
      t.wmu.map = s.wmu.map ∧
      (∀ n, t.wmu.own.at n =
        match (s.wmu.own.at n).state with
        | .held => ⟨.releasing, some Counts.zero⟩
        | .wanted => if s.tif.claimInFlight n then s.wmu.own.at n else ⟨.idle, none⟩
        | _ => s.wmu.own.at n) ∧
      t.wmu.claim = s.wmu.claim.filter (fun c => s.tif.claimInFlight c.slot) ∧
      t.ore = s.ore ∧ t.isu = s.isu ∧ t.tif = s.tif ∧ t.resetAsserted = false ∧
      t.lpu = { s.lpu with
        running := some .leave, stateChange := true
        last := if s.lpu.running = some .join then some ⟨.join, .aborted⟩ else s.lpu.last
        cmdDone := s.lpu.running = some .join || s.lpu.cmdDone }

/-- FLUSH in JOINED: the RQ, the CQ, the IQ and the NQ are emptied, SENT tags are quarantined for T_R without completion,
PENDING ones go FREE, the reservations are gone, handles not yet answered are answered FLUSHED in ascending order or freed if
orphaned, and what was ANSWERING keeps its record; the map, the membership and the Fault List do not change. The FLUSH ends
at once when the SQ is empty and no request accepted before is being received (R115, R127, R158 to R160, R163). -/
def Obligations.FlushStart : Prop :=
  ∀ s : State, s.resetAsserted = false → s.lpu.running = none → s.mc.state = .joined → CompletionLaws s.ore →
    ∃ t, exec .flush s = .next t ∧ t.mc = s.mc ∧ t.wmu = s.wmu ∧ t.lpu.faults = s.lpu.faults ∧
      t.ore.rq = [] ∧ t.ore.head = none ∧ t.ore.cq = [] ∧ t.ore.cqSum = 0 ∧ t.tif.holdoff = none ∧
      (∀ tag, t.ore.ort.at tag =
        match s.ore.ort.at tag with
        | .sent r _ => .quarantined r (some (Config.responseTimeoutNs s.lpu.setup.timeoutCode))
        | .quarantined r x => .quarantined r x
        | .pending _ => .free
        | .free => .free) ∧
      t.isu.iq = [] ∧ t.isu.nq = [] ∧
      (∀ h, t.isu.itt.at h =
        match s.isu.itt.at h with
        | none => none
        | some r =>
          if r.state = .answering then some r
          else if r.orphaned then none else some { r with state := .answering }) ∧
      (∃ answers : List SqRecord, t.isu.sq = s.isu.sq ++ answers ∧
        answers.Pairwise (fun a b => a.handle.toNat < b.handle.toNat) ∧
        ∀ a, a ∈ answers ↔ ∃ r, s.isu.itt.at a.handle = some r ∧ r.state ≠ .answering ∧ r.orphaned = false ∧
          a = ⟨a.handle, r.source, r.tag, .fail 11⟩) ∧
      (∀ f, s.tif.flight = some f → t.tif.flight = some { f with discarded := f.discarded || f.source = .rqHead }) ∧
      t.tif.rx = s.tif.rx.map (fun r => { r with flushedSince := true }) ∧
      t.lpu =
        if t.isu.sq = [] ∧ s.tif.acceptedRequest = false then
          { s.lpu with running := none, last := some ⟨.flush, .done⟩, cmdDone := true }
        else { s.lpu with running := some .flush }

/-- RESTART in FAULTED or DETACHED returns the station to HALTED and ends DONE: every table and queue is emptied; the straps
as sampled, the Setup block, the staging areas, the results, the Fault List, the enables and the masks are kept, and the idle
count is not disturbed (R18, R37, R45, R82, R117, R130, R152, R157, R172). -/
def Obligations.RestartReturnsToHalted : Prop :=
  ∀ s : State, s.resetAsserted = false → s.lpu.running = none → s.mc.state = .faulted ∨ s.mc.state = .detached →
    exec .restart s = .next { s with
      tif := { Tif.reset s.tif.rate with idleCount := s.tif.idleCount }
      mc := Mc.reset s.mc.sid
      wmu := Wmu.reset
      ore := Ore.reset
      isu := Isu.reset
      lpu := { s.lpu with
        running := none, last := some ⟨.restart, .done⟩, cmdDone := true, stateChange := true } }

/-! ### The local port -/

/-- An RQ push is refused by the first check of R98 that fails, and a refused push changes its own result field only. What a
well-formed descriptor in the staging area is, R97 says and `describes` spells out word by word (R182). -/
def Obligations.RqPushRefused : Prop :=
  ∀ s : State, s.resetAsserted = false →
    let answer (r : PortResult) : State := { s with lpu := { s.lpu with results := { s.lpu.results with rq := r } } }
    let open_ : Prop := s.mc.state = .claiming ∨ s.mc.state = .joined
    (s.mc.state = .leaving → exec .rqPush s = .next (answer .leaving)) ∧
    (s.mc.state ≠ .leaving → ¬open_ → exec .rqPush s = .next (answer .notReady)) ∧
    (open_ → s.lpu.running = some .flush → exec .rqPush s = .next (answer .flushing)) ∧
    (open_ → s.lpu.running ≠ some .flush → (∀ d, ¬describes s.mc.sid s.lpu.rqStage d) →
      exec .rqPush s = .next (answer .badDescriptor)) ∧
    (open_ → s.lpu.running ≠ some .flush → (∃ d, describes s.mc.sid s.lpu.rqStage d) →
      16 ≤ s.ore.rq.length → exec .rqPush s = .next (answer .full))

/-- An RQ push that passes its checks is ACCEPTED and a copy of the descriptor in the staging area (R97, R182) joins the RQ
tail; what follows is the preparation of the head, as HEAD_PREPARATION does it on that state (R98, R99, R101): behind a
prepared head nothing else of the ORE changes, and with no other descriptor a WRITE is completed LOCAL_WINDOW or NO_WINDOW,
routed, or left WAITING. -/
def Obligations.RqPushAccepted : Prop :=
  ∀ (s : State) (d : Descriptor), s.resetAsserted = false → s.mc.state = .claiming ∨ s.mc.state = .joined →
    s.lpu.running ≠ some .flush → describes s.mc.sid s.lpu.rqStage d → s.ore.rq.length < 16 →
    ∃ t, exec .rqPush s = .next t ∧
      exec .headPreparation { s with
        ore := { s.ore with rq := s.ore.rq ++ [d] }
        lpu := { s.lpu with results := { s.lpu.results with rq := .accepted } } } = .next t ∧
      t.tif = s.tif ∧ t.mc = s.mc ∧ t.wmu = s.wmu ∧ t.isu = s.isu ∧
      t.lpu = { s.lpu with results := { s.lpu.results with rq := .accepted } } ∧
      (s.ore.head.isSome = true → t.ore = { s.ore with rq := s.ore.rq ++ [d] }) ∧
      (s.ore.rq = [] → s.ore.head = none → s.ore.cqSum < 32 →
        ∀ a ds, d.work = .write a ds →
          match routeLookup s.wmu.map s.mc.sid a ds.length with
          | .owner p => t.ore = { s.ore with rq := [d], head := some ⟨p, none, .ready, 0, Counts.zero⟩ }
          | .self => t.ore = { s.ore with cq := s.ore.cq ++ [⟨d.ticket, .write, .localWindow, none, []⟩] }
          | .none => t.ore = { s.ore with cq := s.ore.cq ++ [⟨d.ticket, .write, .noWindow, none, []⟩] }) ∧
      (s.ore.rq = [] → s.ore.head = none → 32 ≤ s.ore.cqSum → t.ore = { s.ore with rq := [d] })

/-- A response push is refused by the first check of R144 that fails; the AWAITING entry stays. One that passes frees an
orphaned handle, or puts the handle in ANSWERING and a record at the SQ tail: DATA, DONE or FAIL 5 (R144 to R146). -/
def Obligations.SqPush : Prop :=
  ∀ s : State, s.resetAsserted = false →
    let p := stagedResponse s.lpu.sqStage
    let h : Handle := p.handle.setWidth 4
    let answer (r : PortResult) : State := { s with lpu := { s.lpu with results := { s.lpu.results with sq := r } } }
    (s.mc.state.isMember = false → exec .sqPush s = .next (answer .notReady)) ∧
    (s.mc.state.isMember = true → p.status ≠ 0 → p.status ≠ 5 → exec .sqPush s = .next (answer .badDescriptor)) ∧
    (s.mc.state.isMember = true → p.status = 0 ∨ p.status = 5 →
      16 ≤ p.handle.toNat ∨ (∀ r, s.isu.itt.at h = some r → r.state ≠ .awaiting) →
      exec .sqPush s = .next (answer .badHandle)) ∧
    (∀ r, s.mc.state.isMember = true → p.status = 0 ∨ p.status = 5 → p.handle.toNat < 16 →
      s.isu.itt.at h = some r → r.state = .awaiting →
      p.count ≠ (if p.status = 0 ∧ r.cwrite = false then r.length else 0) →
      exec .sqPush s = .next (answer .badLength)) ∧
    (∀ r, s.mc.state.isMember = true → p.status = 0 ∨ p.status = 5 → p.handle.toNat < 16 →
      s.isu.itt.at h = some r → r.state = .awaiting →
      p.count = (if p.status = 0 ∧ r.cwrite = false then r.length else 0) →
      ∃ t, exec .sqPush s = .next t ∧ t.tif = s.tif ∧ t.wmu = s.wmu ∧ t.ore = s.ore ∧
        t.lpu = (answer .accepted).lpu ∧
        t.mc = { s.mc with bye :=
          if s.mc.state = .leaving ∧ s.mc.bye = none ∧ t.leaveCondition = true then some Counts.zero
          else s.mc.bye } ∧
        (r.orphaned = true → t.isu = { s.isu with itt := s.isu.itt.put h none }) ∧
        (r.orphaned = false → t.isu = { s.isu with
          itt := s.isu.itt.put h (some { r with state := .answering })
          sq := s.isu.sq ++ [⟨h, r.source, r.tag,
            if p.status = 0 then (if r.cwrite then .done else .data p.data) else .fail 5⟩]
          sqCounts := if s.isu.sq.isEmpty then Counts.zero else s.isu.sqCounts }))

/-- A pop of a queue that holds a record removes the head and answers ACCEPTED; of an empty queue it changes nothing but its
own result, EMPTY. The IQ pop moves the DELIVERED entry its record names to AWAITING. After a CQ pop a WAITING head may be
prepared (R101, R134, R141, R156, R167, R178). -/
def Obligations.Pops : Prop :=
  ∀ s : State, s.resetAsserted = false →
    (s.ore.cq = [] → exec .cqPop s =
      .next { s with lpu := { s.lpu with results := { s.lpu.results with cq := .empty } } }) ∧
    (s.isu.iq = [] → exec .iqPop s =
      .next { s with lpu := { s.lpu with results := { s.lpu.results with iq := .empty } } }) ∧
    (s.isu.nq = [] → exec .nqPop s =
      .next { s with lpu := { s.lpu with results := { s.lpu.results with nq := .empty } } }) ∧
    (s.lpu.faults = [] → exec .faultPop s =
      .next { s with lpu := { s.lpu with results := { s.lpu.results with fault := .empty } } }) ∧
    (∀ c cs, s.ore.cq = c :: cs → exec .cqPop s = .next (State.followed { s with
      ore := { s.ore with cq := cs }
      lpu := { s.lpu with results := { s.lpu.results with cq := .accepted } } })) ∧
    (∀ r rs, s.isu.iq = r :: rs → exec .iqPop s = .next { s with
      isu := { s.isu with
        iq := rs
        itt :=
          match r.handle with
          | none => s.isu.itt
          | some h => s.isu.itt.put h
            (match s.isu.itt.at h with
              | some e => some (if e.state = .delivered then { e with state := .awaiting } else e)
              | none => none) }
      lpu := { s.lpu with results := { s.lpu.results with iq := .accepted } } }) ∧
    (∀ r rs, s.isu.nq = r :: rs → exec .nqPop s = .next { s with
      isu := { s.isu with nq := rs }
      lpu := { s.lpu with results := { s.lpu.results with nq := .accepted } } }) ∧
    (∀ r rs, s.lpu.faults = r :: rs → exec .faultPop s = .next { s with
      lpu := { s.lpu with faults := rs, results := { s.lpu.results with fault := .accepted } } })

/-- A Setup write replaces its word in HALTED and no other; in any other state it is ignored and SETUP_LOCKED is set (R39,
R176). -/
def Obligations.SetupWrite : Prop :=
  ∀ (i : Fin 9) (v : Word) (s : State), s.resetAsserted = false →
    (s.mc.state ≠ .halted → exec (.setupWrite i v) s = .next { s with lpu := { s.lpu with locked := true } }) ∧
    (s.mc.state = .halted → ∃ u, exec (.setupWrite i v) s = .next { s with lpu := { s.lpu with setup := u } } ∧
      ∀ j, u.word j = if j = i then v else s.lpu.setup.word j)

/-- A cause write clears CMD_DONE and STATE_CHANGE where bits 4 and 5 are 1 and does nothing else; a mask write takes the
six low bits, an enable write the three low bits, and LIRQ follows at once: it is asserted exactly while an unmasked cause
is active. The causes are, from bit 0: CQ_READY, IQ_READY and NQ_READY while their queue holds a record, FAULT while a
record of an enabled severity stands in the Fault List, CMD_DONE and STATE_CHANGE (R164, R168 to R171, R181). -/
def Obligations.CauseMaskAndEnableWrites : Prop :=
  ∀ (v : Word) (s : State), s.resetAsserted = false →
    exec (.causeWrite v) s = .next { s with lpu := { s.lpu with
      cmdDone := s.lpu.cmdDone && !v.getLsbD 4, stateChange := s.lpu.stateChange && !v.getLsbD 5 } } ∧
    exec (.severityEnableWrite v) s = .next { s with lpu := { s.lpu with enables := v.setWidth 3 } } ∧
    (∃ t, exec (.maskWrite v) s = .next t ∧ t = { s with lpu := { s.lpu with masks := v.setWidth 6 } } ∧
      (t.lirq = true ↔ ∃ i, i < 6 ∧ s.causes.getLsbD i = true ∧ v.getLsbD i = false)) ∧
    (s.lirq = true ↔ ∃ i, i < 6 ∧ s.causes.getLsbD i = true ∧ s.lpu.masks.getLsbD i = false) ∧
    let enabledBit : FaultKind → Nat
      | .strayResponse | .postedDropped => 0
      | .peerEvicted | .claimRefused | .mapOverlap | .voidLimit => 1
      | .idConflict | .syncIncomplete | .collision => 2
    (s.causes.getLsbD 0 = true ↔ s.ore.cq ≠ []) ∧ (s.causes.getLsbD 1 = true ↔ s.isu.iq ≠ []) ∧
    (s.causes.getLsbD 2 = true ↔ s.isu.nq ≠ []) ∧
    (s.causes.getLsbD 3 = true ↔ ∃ r ∈ s.lpu.faults, s.lpu.enables.getLsbD (enabledBit r.kind) = true) ∧
    (s.causes.getLsbD 4 = true ↔ s.lpu.cmdDone = true) ∧ (s.causes.getLsbD 5 = true ↔ s.lpu.stateChange = true)

/-- REGISTER_WRITE: an access with RD_N asserted too writes nothing; a staging word stores the value; views, unassigned
words and the command codes 0, 5, 6 and 7 do nothing (R173 to R175, R177). -/
def Obligations.RegisterWrite : Prop :=
  ∀ (v : Word) (s : State), s.resetAsserted = false →
    (∀ a, exec (.registerWrite a v true) s = .next s) ∧
    (∀ i : Fin 18, exec (.registerWrite (BitVec.ofNat 10 (64 + i.val)) v false) s =
      .next { s with lpu := { s.lpu with rqStage := s.lpu.rqStage.set i v } }) ∧
    (∀ i : Fin 17, exec (.registerWrite (BitVec.ofNat 10 (224 + i.val)) v false) s =
      .next { s with lpu := { s.lpu with sqStage := s.lpu.sqStage.set i v } }) ∧
    (∀ a, (∃ w, portWord a = .view w) ∨ portWord a = .unassigned → exec (.registerWrite a v false) s = .next s) ∧
    (v.toNat % 8 = 0 ∨ 5 ≤ v.toNat % 8 → exec (.registerWrite 1 v false) s = .next s)

/-- A write to a word that has a row of its own is that row: the command word with the codes 1 to 4, the cause, mask and
enable words, the nine Setup words, the PUSH and the POP words, at their offsets (R174, R175). The choice to let
REGISTER_WRITE reach them is the model's (log entry 21). -/
def Obligations.RegisterWriteIsItsRow : Prop :=
  ∀ (v : Word) (s : State),
    (v.toNat % 8 = 1 → exec (.registerWrite 1 v false) s = exec .join s) ∧
    (v.toNat % 8 = 2 → exec (.registerWrite 1 v false) s = exec .leave s) ∧
    (v.toNat % 8 = 3 → exec (.registerWrite 1 v false) s = exec .flush s) ∧
    (v.toNat % 8 = 4 → exec (.registerWrite 1 v false) s = exec .restart s) ∧
    exec (.registerWrite 3 v false) s = exec (.causeWrite v) s ∧
    exec (.registerWrite 4 v false) s = exec (.maskWrite v) s ∧
    exec (.registerWrite 5 v false) s = exec (.severityEnableWrite v) s ∧
    (∀ i : Fin 9, exec (.registerWrite (BitVec.ofNat 10 (16 + i.val)) v false) s = exec (.setupWrite i v) s) ∧
    exec (.registerWrite 82 v false) s = exec .rqPush s ∧
    exec (.registerWrite 146 v false) s = exec .cqPop s ∧
    exec (.registerWrite 178 v false) s = exec .iqPop s ∧
    exec (.registerWrite 194 v false) s = exec .nqPop s ∧
    exec (.registerWrite 241 v false) s = exec .sqPush s ∧
    exec (.registerWrite 259 v false) s = exec .faultPop s

/-- What every read returns: 0 for action and unassigned words and with WR_N asserted too; the last value written for
staging and Setup words; the cause, mask and enable words as plain words; the status, command, result, occupancy, own-window
and peer words field by field; each head view the record at the head of its queue, or the EMPTY mark and nothing else; and
in the map view the entries in order, 0 beyond them (R66, R164, R173 to R182). That bits no table lists read 0, and the
fields of an absent destination or handle, is the model's choice (log entries 29 and 30). Numbers are stated up to their
field's width. -/
def Obligations.PortReads : Prop :=
  ∀ s : State,
    let read (n : Nat) : Word := s.readWord (BitVec.ofNat 10 n) false
    let data (ws : List Word) (i : Nat) : Word := ws.getD i 0
    -- action and unassigned words, both strobes, plain words
    (∀ a, s.readWord a true = 0) ∧
    (∀ n, n ∈ [82, 146, 178, 194, 241, 259] → read n = 0) ∧
    (∀ n, 10 ≤ n ∧ n < 16 ∨ 26 ≤ n ∧ n < 64 ∨ 83 ≤ n ∧ n < 128 ∨ 147 ≤ n ∧ n < 160 ∨ 179 ≤ n ∧ n < 192 ∨
      195 ≤ n ∧ n < 224 ∨ 242 ≤ n ∧ n < 256 ∨ 260 ≤ n ∧ n < 512 ∨ 640 ≤ n ∧ n < 1024 → read n = 0) ∧
    (∀ i : Fin 18, read (64 + i.val) = s.lpu.rqStage[i]) ∧ (∀ i : Fin 17, read (224 + i.val) = s.lpu.sqStage[i]) ∧
    (∀ i : Fin 9, read (16 + i.val) = s.lpu.setup.word i) ∧
    read 3 = s.causes.setWidth 32 ∧ read 4 = s.lpu.masks.setWidth 32 ∧ read 5 = s.lpu.enables.setWidth 32 ∧
    -- the status words
    (let state : StationState → Nat
      | .halted => 0 | .listen => 1 | .syncWait => 2 | .syncing => 3 | .claiming => 4 | .joined => 5 | .leaving => 6
      | .detached => 7 | .faulted => 8
    let member : Bool := s.mc.state = .syncing ∨ s.mc.state = .claiming ∨ s.mc.state = .joined ∨ s.mc.state = .leaving
    shows (read 0) [(0, 4, state s.mc.state), (4, 5, s.mc.sid.toNat), (9, 1, member.toNat),
      (10, 1, s.lpu.locked.toNat), (12, 2, s.mc.attempts),
      (16, 5, (List.range 32).countP (fun n => s.mc.peers.has (BitVec.ofNat 5 n))),
      (24, 3, s.wmu.own.count (fun r => r.state == .held || r.state == .releasing))]) ∧
    (let code : Command → Nat
      | .join => 1 | .leave => 2 | .flush => 3 | .restart => 4
    let result : CommandResult → Nat
      | .done => 1 | .failed => 2 | .aborted => 3 | .forced _ _ => 4 | .badStrap => 5 | .badSetup => 6
      | .refusedBusy => 7 | .refusedState => 8
    let running : Nat :=
      match s.lpu.running with
      | none => 0
      | some c => code c
    (s.lpu.last = none → shows (read 1) [(0, 3, running), (3, 1, s.lpu.running.isSome.toNat)]) ∧
    (∀ c r, s.lpu.last = some ⟨c, r⟩ →
      (∀ o i, r = .forced o i → shows (read 1)
        [(0, 3, running), (3, 1, s.lpu.running.isSome.toNat), (4, 3, code c), (8, 4, 4), (16, 6, o), (24, 5, i)]) ∧
      ((∀ o i, r ≠ .forced o i) → shows (read 1)
        [(0, 3, running), (3, 1, s.lpu.running.isSome.toNat), (4, 3, code c), (8, 4, result r)]))) ∧
    (let code : PortResult → Nat
      | .none => 0 | .accepted => 1 | .full => 2 | .badDescriptor => 3 | .notReady => 4 | .leaving => 5
      | .flushing => 6 | .badHandle => 7 | .badLength => 8 | .empty => 9
    let r := s.lpu.results
    shows (read 2) [(0, 4, code r.rq), (4, 4, code r.sq), (8, 4, code r.cq), (12, 4, code r.iq), (16, 4, code r.nq),
      (20, 4, code r.fault)]) ∧
    (let head : Nat :=
      match s.ore.rq, s.ore.head with
      | [], _ => 0
      | _ :: _, none => 1
      | _ :: _, some h => if h.phase = .ready then 2 else 3
    shows (read 6) [(0, 5, s.ore.rq.length), (8, 2, head), (16, 6, s.ore.cq.length), (24, 6, s.ore.cqSum)]) ∧
    shows (read 7) [(0, 6, s.ore.ort.count OrtEntry.reserved), (8, 6, s.ore.ort.count OrtEntry.isQuarantined)] ∧
    read 8 = (s.mc.peers &&& 0x7FFFFFFE) ∧
    shows (read 9) [(0, 5, s.isu.iq.length), (8, 5, s.isu.itt.count Option.isSome), (16, 5, s.isu.sq.length),
      (24, 4, s.isu.nq.length)] ∧
    (let state : WindowState → Nat
      | .idle => 0 | .wanted => 1 | .held => 2 | .releasing => 3 | .refused => 4
    shows (read 25) [(0, 3, state (s.wmu.own.at 0).state), (4, 3, state (s.wmu.own.at 1).state),
      (8, 3, state (s.wmu.own.at 2).state), (12, 3, state (s.wmu.own.at 3).state)]) ∧
    -- the head views
    (s.ore.cq = [] → ∀ i : Fin 18, read (128 + i.val) = if i.val = 0 then 0x80000000 else 0) ∧
    (s.isu.iq = [] → ∀ i : Fin 18, read (160 + i.val) = if i.val = 0 then 0x80000000 else 0) ∧
    (s.isu.nq = [] → read 192 = 0x80000000 ∧ read 193 = 0) ∧
    (s.lpu.faults = [] → read 256 = 0x80000000 ∧ read 257 = 0 ∧ read 258 = 0) ∧
    (let op : Op → Nat
      | .read => 1 | .write => 2 | .cwrite => 3 | .signal => 4
    let status : Status → Nat
      | .ok => 0 | .noWindow => 1 | .localWindow => 2 | .notOwner => 3 | .readOnly => 4 | .targetError => 5
      | .timeout => 6 | .peerLost => 7 | .noPeer => 8 | .busyLimit => 9 | .trunkError => 10 | .flushed => 11
    (∀ c cs, s.ore.cq = c :: cs →
      shows (read 128) [(0, 4, status c.status), (4, 3, op c.op), (8, 5, (c.dest.getD 0).toNat),
        (13, 1, c.dest.isSome.toNat), (16, 5, c.data.length)] ∧
      read 129 = c.ticket.setWidth 32 ∧ ∀ i, i < 16 → read (130 + i) = data c.data i) ∧
    (∀ r rs, s.isu.iq = r :: rs →
      let head (code length : Nat) : Prop := shows (read 160) [(0, 3, code), (4, 5, r.source.toNat), (12, 5, length),
        (20, 4, (r.handle.getD 0).toNat), (24, 1, r.handle.isSome.toNat)]
      read 161 = r.address ∧
      (∀ n, r.work = .read n → head 1 n ∧ ∀ i, i < 16 → read (162 + i) = 0) ∧
      (∀ ds, r.work = .write ds → head 2 ds.length ∧ ∀ i, i < 16 → read (162 + i) = data ds i) ∧
      (∀ ds, r.work = .cwrite ds → head 3 ds.length ∧ ∀ i, i < 16 → read (162 + i) = data ds i))) ∧
    (∀ r rs, s.isu.nq = r :: rs →
      shows (read 192) [(0, 5, r.source.toNat), (8, 1, r.broadcast.toNat)] ∧ read 193 = r.value) ∧
    (let kind : FaultKind → Nat × Nat
      | .strayResponse => (1, 1) | .postedDropped => (2, 1) | .peerEvicted => (3, 2) | .claimRefused => (4, 2)
      | .mapOverlap => (5, 2) | .voidLimit => (6, 2) | .idConflict => (7, 3) | .syncIncomplete => (8, 3)
      | .collision => (9, 3)
    ∀ r rs, s.lpu.faults = r :: rs →
      shows (read 256) [(0, 4, (kind r.kind).1), (4, 2, (kind r.kind).2), (8, 1, r.station.isSome.toNat),
        (9, 1, r.tagOrHandle.isSome.toNat), (10, 1, r.base.isSome.toNat), (16, 1, r.overflow.toNat)] ∧
      shows (read 257) [(0, 5, (r.station.getD 0).toNat), (8, 5, (r.tagOrHandle.getD 0).toNat)] ∧
      read 258 = r.base.getD 0) ∧
    -- the map view
    (∀ (p : Fin 64) (e : MapEntry), s.wmu.map[p.val]? = some e →
      read (512 + 2 * p.val) = e.base ∧
      shows (read (513 + 2 * p.val)) [(0, 5, e.size.toNat), (8, 5, e.owner.toNat), (30, 1, 1),
        (31, 1, e.writable.toNat)]) ∧
    (∀ p : Fin 64, s.wmu.map.length ≤ p.val → read (512 + 2 * p.val) = 0 ∧ read (513 + 2 * p.val) = 0)

/-! ### The trunk: idle, beginning, losing, colliding -/

/-- Ten recessive bit times: the receiver goes to READY and a frame cut off is abandoned; a station in LISTEN enters SYNC_WAIT
with its SYNC flag set; a FLUSH that only waited for the abandoned request ends (R5, R6, R46, R163). What an own frame that
COLLIDED for the eighth time on the frame cut off is still owed is EighthVoidAbandons'. -/
def Obligations.TrunkIdleObserved : Prop :=
  ∀ s : State, s.resetAsserted = false → s.tif.flight = none → s.tif.spent = none →
    let tif : Tif := { s.tif with idleCount := 10, receiver := .ready, rx := none, collidedHere := false }
    (s.mc.state = .listen → exec .trunkIdleObserved s = .next { s with
      tif := tif
      mc := { s.mc with state := .syncWait, sync := some Counts.zero }
      lpu := { s.lpu with stateChange := true } }) ∧
    (s.mc.state ≠ .listen → s.lpu.running ≠ some .flush ∨ s.isu.sq ≠ [] →
      exec .trunkIdleObserved s = .next { s with tif := tif }) ∧
    (s.mc.state ≠ .listen → s.lpu.running = some .flush → s.isu.sq = [] →
      exec .trunkIdleObserved s = .next { s with
        tif := tif
        lpu := { s.lpu with running := none, last := some ⟨.flush, .done⟩, cmdDone := true } })

/-- A listening station on an idle trunk with its receiver in READY and a candidate begins the frame it selects, with the
content it has at that moment; in every other state, with the trunk not idle, or with nothing to offer it begins none (R20 to
R22, R25). -/
def Obligations.BeginningAFrame : Prop :=
  ∀ s : State, s.resetAsserted = false →
    (s.mc.state.isListening = false ∨ s.tif.idleCount ≠ 10 ∨ s.tif.receiver ≠ .ready ∨ s.select = none →
      exec .beginningAFrame s = .next s) ∧
    (∀ src, s.mc.state.isListening = true → s.tif.idleCount = 10 → s.tif.receiver = .ready → s.tif.flight = none →
      CompletionLaws s.ore → s.select = some src →
      ∃ f, s.frameOf src = some f ∧ exec .beginningAFrame s = .next { s with tif := { s.tif with
        idleCount := 0, receiver := .receiving, collidedHere := false, spent := none, rx := none
        flight := some ⟨src, f, false⟩ } })

/-- The frame selected: the SQ head; else the first pending map frame in the order SYNC, BYE, ROSTER, the EVICT of the lowest
station, the RELEASE of the lowest base, the CLAIM in course; else the READY RQ head (R23, R24). -/
def Obligations.TransmitSelection : Prop :=
  ∀ s : State, MembershipLaws s.mc →
    (s.isu.sq ≠ [] → s.select = some .sqHead) ∧
    (s.isu.sq = [] →
      (s.mc.sync.isSome = true → s.select = some .sync) ∧
      (s.mc.sync = none → s.mc.bye.isSome = true → s.select = some .bye) ∧
      (s.mc.sync = none → s.mc.bye = none → s.mc.roster.isSome = true → s.select = some .roster) ∧
      (s.mc.sync = none → s.mc.bye = none → s.mc.roster = none →
        (s.mc.evicts ≠ [] → ∃ e ∈ s.mc.evicts, s.select = some (.evict e.station) ∧
          ∀ x ∈ s.mc.evicts, e.station.toNat ≤ x.station.toNat) ∧
        (s.mc.evicts = [] →
          ((∃ n, (s.wmu.own.at n).release.isSome = true) →
            ∃ n, (s.wmu.own.at n).release.isSome = true ∧ s.select = some (.release n) ∧
              ∀ m, (s.wmu.own.at m).release.isSome = true →
                (s.lpu.setup.slots.at n).base.toNat ≤ (s.lpu.setup.slots.at m).base.toNat) ∧
          ((∀ n, (s.wmu.own.at n).release = none) →
            (∀ c, s.wmu.claim = some c → s.select = some (.claim c.slot)) ∧
            (s.wmu.claim = none →
              (∀ h, s.ore.head = some h → h.phase = .ready → s.select = some .rqHead) ∧
              ((∀ h, s.ore.head = some h → h.phase = .holdoff) → s.select = none))))))

/-- The fields of the frames a station offers: class, source, destination, kind, tag, body and urgency (R8, R11, R28, R46,
R51, R58, R68, R73, R91, R106, R146). A ROSTER lists no window in SYNCING, and else the own entries whose record is HELD or
RELEASING, in the ascending order of the map. -/
def Obligations.OfferedFrames : Prop :=
  ∀ (s : State) (src : Source) (f : Frame), s.frameOf src = some f →
    f.source = s.mc.sid ∧ f.count = BitVec.ofNat 5 f.body.length ∧
    (∀ c, s.countsOf src = some c → f.urgency = if c.urgent then 0 else 1) ∧
    match src with
    | .sqHead => ∃ r, s.isu.sq.head? = some r ∧ f.cls = 0 ∧ f.dest = r.dest ∧ f.tag = r.tag ∧
        (match r.body with
          | .data ws => f.kind = 0 ∧ f.body = ws
          | .done => f.kind = 1 ∧ f.body = []
          | .fail w => f.kind = 2 ∧ f.body = [w])
    | .rqHead => ∃ d h, s.ore.rq.head? = some d ∧ s.ore.head = some h ∧ f.dest = h.dest ∧
        (match d.work with
          | .read a n => f.cls = 2 ∧ f.kind = 10 ∧ f.tag = h.tag.getD 0 ∧ f.body = [a, BitVec.ofNat 32 n]
          | .write a ws => f.cls = 2 ∧ f.kind = 11 ∧ f.tag = 0 ∧ f.body = a :: ws
          | .cwrite a ws => f.cls = 2 ∧ f.kind = 12 ∧ f.tag = h.tag.getD 0 ∧ f.body = a :: ws
          | .signal _ v => f.cls = 3 ∧ f.kind = 13 ∧ f.tag = 0 ∧ f.body = [v])
    | mapFrame => f.cls = 1 ∧ f.dest = 31 ∧ f.tag = 0 ∧
        (match mapFrame with
          | .sync => f.kind = 4 ∧ f.body = []
          | .roster => f.kind = 5 ∧ ∃ es : List MapEntry,
              f.body = (s.mc.peers &&& 0x7FFFFFFE) :: es.flatMap (fun e =>
                [e.base, e.size.setWidth 32 ||| (if e.writable then 0x80000000 else 0)]) ∧
              (s.mc.state = .syncing → es = []) ∧
              (s.mc.state ≠ .syncing → es.Sublist s.wmu.map ∧ ∀ e ∈ s.wmu.map, e ∈ es ↔
                e.owner = s.mc.sid ∧ ∃ n, (s.lpu.setup.slots.at n).base = e.base ∧
                  ((s.wmu.own.at n).state = .held ∨ (s.wmu.own.at n).state = .releasing))
          | .claim n => f.kind = 6 ∧ f.body = [(s.lpu.setup.slots.at n).base,
              descriptorWord (s.lpu.setup.slots.at n).size (s.lpu.setup.slots.at n).writable]
          | .release n => f.kind = 7 ∧ f.body = [(s.lpu.setup.slots.at n).base]
          | .evict d => f.kind = 8 ∧ f.body = [d.setWidth 32]
          | .bye => f.kind = 9 ∧ f.body = []
          | _ => True)

/-- LOST: the station releases both lines and listens on, the consecutive-collision count is 0, and the loss count of the
frame rises up to the aging threshold, where the frame becomes urgent; nothing else changes (R27, R28, R30). A SYNC for which
a LEAVE waits returns the station to HALTED (R44), and a CLAIM in LEAVING is given up, its record IDLE (R57). The loss of a
frame whose work was discarded or withdrawn meanwhile is handed to nobody (R57, R60, R115, R150). Past the own last check bit,
where the receiver has left RECEIVING, no bit is compared, and LOST is no event (R6, R26; log entry 2). -/
def Obligations.LostFrameAges : Prop :=
  (∀ (s : State) (bit : BitVec 3), s.tif.receiver ≠ .receiving → exec (.lost bit) s = .next s) ∧
  (∀ (s : State) (src : Source) (f : Frame) (bit : BitVec 3), s.sendsForNobody src f → s.tif.receiver = .receiving →
    f.bitAt (bit.toNat + 1) = some true →
    exec (.lost bit) s = .next { s with tif := { s.tif with flight := none, collisions := 0 } }) ∧
  ∀ (s : State) (src : Source) (f : Frame) (bit : BitVec 3) (c : Counts), s.sends src f →
    s.tif.receiver = .receiving → f.bitAt (bit.toNat + 1) = some true → s.countsOf src = some c →
    let limit := s.lpu.setup.agingThreshold
    let losses := if c.losses < limit then c.losses + 1 else c.losses
    let released : State := { s with tif := { s.tif with flight := none, collisions := 0 } }
    let waits : Prop := src = .sync ∧ s.mc.state = .syncWait ∧ s.lpu.running = some .leave
    (¬waits → (∀ n, src = .claim n → s.mc.state ≠ .leaving) →
      exec (.lost bit) s =
        .next (State.withCounts src ⟨losses, c.voids, c.urgent || decide (limit ≤ losses)⟩ released)) ∧
    (waits → exec (.lost bit) s = .next { released with
      tif := { released.tif with rx := none, collidedHere := false, spent := none }
      mc := { s.mc with state := .halted, sync := none }
      wmu := { s.wmu with own := Bank.all 2 ⟨.idle, none⟩, claim := none }
      lpu := { s.lpu with running := none, last := some ⟨.leave, .done⟩, cmdDone := true, stateChange := true } }) ∧
    (∀ n, src = .claim n → s.mc.state = .leaving → exec (.lost bit) s = .next { released with
      wmu := { s.wmu with own := s.wmu.own.put n ⟨.idle, none⟩, claim := none } })

/-- COLLIDED, on the start bit, on a bit the station sent dominant, or after the arbitration field: the station releases
both lines and counts the frame malformed. The first raises the void count of the frame below the limit, and ends a SYNC or
a CLAIM that a LEAVE waits for as LOST does (R44, R57); the second in a row is the FATAL fault COLLISION (R26, R29, R30,
R35, R61). On the rest of that frame the station drives ERROR alone, whatever the frame says, and at its end nothing of it
is applied (R15, R29). Of a frame whose work was discarded or withdrawn meanwhile the collision alone counts (R57, R60,
R115, R150). The eighth void is EighthVoidAbandons'. That the station listens on after a collision on its own start bit is
the model's choice (log entry 32), and that it drives ERROR on a CLAIM too (log entry 34). Past the own last check bit,
where the receiver has left RECEIVING, no bit is compared, and COLLIDED is no event (R6, R26; log entry 2). -/
def Obligations.CollidedFrame : Prop :=
  (∀ (s : State) (p : Nat), s.tif.receiver ≠ .receiving → exec (.collided p) s = .next s) ∧
  (∀ (s : State) (c : Instr), s.resetAsserted = false → s.mc.state.isListening = true → s.tif.receiver = .receiving →
    s.tif.flight = none → s.tif.collidedHere = true → c.moment = some .lastCheckBit →
    ∃ r, exec c s = .next { s with tif := { s.tif with receiver := .slots, rx := some r } } ∧ r.verdict = .malformed ∧
      r.drives = ⟨true, false, false⟩) ∧
  (∀ (s : State) (c : Instr) (r : Reception) (others : Slots), s.resetAsserted = false → s.tif.receiver = .slots →
    s.tif.flight = none → s.tif.rx = some r → r.verdict = .malformed → s.tif.spent = none →
    c.moment = some (.endOfTrailer others) →
    exec c s = .next { s with tif := { s.tif with receiver := .unsynced, rx := none, collidedHere := false } }) ∧
  (∀ (s : State) (src : Source) (f : Frame) (p : Nat) (b : Bool), s.sendsForNobody src f →
    s.tif.receiver = .receiving → f.bitAt p = some b → p = 0 ∨ 9 ≤ p ∨ b = false →
    (s.tif.collisions = 0 → exec (.collided p) s =
      .next { s with tif := { s.tif with flight := none, collisions := 1, collidedHere := true } }) ∧
    (1 ≤ s.tif.collisions → ∃ t, exec (.collided p) s = .next t ∧
      s.faultedFrom ⟨.collision, some s.mc.sid, none, none, false⟩ t)) ∧
  ∀ (s : State) (src : Source) (f : Frame) (p : Nat) (b : Bool), s.sends src f → s.tif.receiver = .receiving →
    f.bitAt p = some b → p = 0 ∨ 9 ≤ p ∨ b = false →
    let released : State := { s with tif := { s.tif with flight := none, collisions := 1, collidedHere := true } }
    let waits : Prop := src = .sync ∧ s.mc.state = .syncWait ∧ s.lpu.running = some .leave
    (∀ c, s.tif.collisions = 0 → s.countsOf src = some c → c.voids < 7 →
      (¬waits → (∀ n, src = .claim n → s.mc.state ≠ .leaving) →
        exec (.collided p) s = .next (State.withCounts src ⟨c.losses, c.voids + 1, c.urgent⟩ released)) ∧
      (waits → exec (.collided p) s = .next { released with
        tif := { released.tif with rx := none, collidedHere := false, spent := none }
        mc := { s.mc with state := .halted, sync := none }
        wmu := { s.wmu with own := Bank.all 2 ⟨.idle, none⟩, claim := none }
        lpu := { s.lpu with
          running := none, last := some ⟨.leave, .done⟩, cmdDone := true, stateChange := true } }) ∧
      (∀ n, src = .claim n → s.mc.state = .leaving → exec (.collided p) s = .next { released with
        wmu := { s.wmu with own := s.wmu.own.put n ⟨.idle, none⟩, claim := none } })) ∧
    (1 ≤ s.tif.collisions → ∃ t, exec (.collided p) s = .next t ∧
      s.faultedFrom ⟨.collision, some s.mc.sid, none, none, false⟩ t)

/-! ### Outcomes of own frames -/

/-- The own SYNC (R44, R47, R48, R52, R54, R56): TAKEN with ACCEPT makes the station a member in SYNCING, or restarts the
settle timer there; TAKEN without ACCEPT completes the sync alone; REJECTED is the FATAL fault ID_CONFLICT; and a LEAVE
waiting for it ends in LEAVING on TAKEN and in HALTED otherwise. A repeated SYNC in flight when a LEAVE was accepted in
SYNCING has, unless REJECTED, no effect any more (R57). -/
def Obligations.SyncOutcome : Prop :=
  ∀ (s : State) (f : Frame) (levels : Slots), s.sends .sync f → f.dest = 31 →
    let tr := Config.responseTimeoutNs s.lpu.setup.timeoutCode
    let waits : Prop := s.mc.state = .syncWait ∧ s.lpu.running = some .leave
    (¬waits → levels.clear → levels.accept = true → s.mc.state = .syncWait →
      exec (.syncOutcome (.endOfTrailer levels)) s = .next { s with
        tif := s.tif.sent
        mc := { s.mc with
          state := .syncing, sync := none, peers := s.mc.peers.insert s.mc.sid, answered := StationSet.empty
          late := StationSet.empty, expected := StationSet.empty, attempts := 0, settle := some (4 * tr) }
        lpu := { s.lpu with stateChange := true } }) ∧
    (levels.clear → levels.accept = true → s.mc.state = .syncing →
      exec (.syncOutcome (.endOfTrailer levels)) s = .next { s with
        tif := s.tif.sent, mc := { s.mc with sync := none, settle := some (4 * tr) } }) ∧
    (¬waits → levels.clear → levels.accept = false → s.mc.state = .syncWait ∨ s.mc.state = .syncing → s.ore.rq = [] →
      ∃ t, exec (.syncOutcome (.endOfTrailer levels)) s = .next t ∧ t.mc.peers = StationSet.single s.mc.sid ∧ t.mc.evicts = [] ∧
        t.mc.settle = none ∧ t.mc.sync = none ∧ t.wmu.map = [] ∧ t.wmu.own = s.wmu.own ∧ t.ore = s.ore ∧ t.isu = s.isu ∧
        (∀ n, (s.wmu.own.at n).state = .wanted → (∀ m : Slot, m.toNat < n.toNat → (s.wmu.own.at m).state ≠ .wanted) →
          t.mc.state = .claiming ∧ t.wmu.claim = some ⟨n, Counts.zero⟩ ∧ t.lpu = { s.lpu with stateChange := true }) ∧
        ((∀ n, (s.wmu.own.at n).state ≠ .wanted) → s.lpu.running = some .join →
          t.mc.state = .joined ∧ t.wmu.claim = none ∧ t.lpu = { s.lpu with
            running := none, last := some ⟨.join, .done⟩, cmdDone := true, stateChange := true })) ∧
    (s.mc.state = .leaving → s.mc.sync = none → levels.error = true ∨ levels.clear →
      exec (.syncOutcome (.endOfTrailer levels)) s = .next { s with tif := s.tif.sent }) ∧
    (¬waits → levels.error = false → levels.reject = true →
      ∃ t, exec (.syncOutcome (.endOfTrailer levels)) s = .next t ∧
        s.faultedFrom ⟨.idConflict, some s.mc.sid, none, none, false⟩ t) ∧
    (waits → levels.clear → ∃ t, exec (.syncOutcome (.endOfTrailer levels)) s = .next t ∧ t.mc.state = .leaving ∧
      t.mc.peers = s.mc.peers.insert s.mc.sid ∧ t.mc.deadline = some (8 * tr) ∧ t.lpu.running = some .leave) ∧
    (waits → ¬levels.clear → exec (.syncOutcome (.endOfTrailer levels)) s = .next { s with
      tif := { s.tif.sent with rx := none, collidedHere := false, spent := none }
      mc := { s.mc with state := .halted, sync := none }
      wmu := { s.wmu with own := Bank.all 2 ⟨.idle, none⟩, claim := none }
      lpu := { s.lpu with running := none, last := some ⟨.leave, .done⟩, cmdDone := true, stateChange := true } })

/-- The own ROSTER TAKEN clears the ROSTER flag and nothing else (R50). The own RELEASE TAKEN removes the own entry of its
base, returns the record to IDLE and tests the leave condition; the other records, the ORE, the ISU and the LPU stay (R58,
R74, R75). Of a RELEASE dropped at the leave deadline while in flight TAKEN removes the own entry alone, and every other outcome
nothing (R60, R75; log entry 23). -/
def Obligations.RosterAndReleaseTaken : Prop :=
  (∀ (s : State) (n : Slot) (f : Frame) (levels : Slots), s.sendsForNobody (.release n) f → f.dest = 31 →
    (levels.clear → exec (.releaseOutcome (.endOfTrailer levels)) s = .next { s with
      tif := s.tif.sent
      wmu := { s.wmu with map := s.wmu.map.filter (fun e =>
        !(e.base == (s.lpu.setup.slots.at n).base && e.owner == s.mc.sid)) } }) ∧
    (¬levels.clear → exec (.releaseOutcome (.endOfTrailer levels)) s = .next { s with tif := s.tif.sent })) ∧
  ∀ (s : State) (f : Frame) (levels : Slots), levels.clear → f.dest = 31 →
    (s.sends .roster f → exec (.rosterOutcome (.endOfTrailer levels)) s = .next { s with
      tif := s.tif.sent, mc := { s.mc with roster := none } }) ∧
    (∀ n, s.sends (.release n) f → ∃ t, exec (.releaseOutcome (.endOfTrailer levels)) s = .next t ∧ t.tif = s.tif.sent ∧
      t.wmu = { s.wmu with
        own := s.wmu.own.put n ⟨.idle, none⟩
        map := s.wmu.map.filter (fun e =>
          !(e.base == (s.lpu.setup.slots.at n).base && e.owner == s.mc.sid)) } ∧
      t.ore = s.ore ∧ t.isu = s.isu ∧ t.lpu = s.lpu ∧
      t.mc = { s.mc with bye :=
        if s.mc.state = .leaving ∧ s.mc.bye = none ∧ t.leaveCondition = true then some Counts.zero else s.mc.bye })

/-- The own CLAIM in CLAIMING (R68 to R70): TAKEN adds the own entry in base order and makes the record HELD; REJECTED makes
it REFUSED with CLAIM_REFUSED. Records that are not WANTED stay; the next-numbered WANTED record becomes the CLAIM in course
with counts of 0, or is refused in its turn with CLAIM_REFUSED if its window no longer fits; when none is left WANTED the
station enters JOINED and JOIN ends DONE. In LEAVING a TAKEN one is released at once (R57), and a REJECTED one is recorded
as in CLAIMING, which is the model's choice (log entry 9). The hypothesis on the map says what the check of R69 and the four
records leave: the window fits, and fewer than four entries are the station's (R65; log entry 13). -/
def Obligations.ClaimOutcome : Prop :=
  ∀ (s : State) (n : Slot) (f : Frame) (levels : Slots), s.sends (.claim n) f → f.dest = 31 →
    let entry : MapEntry := s.lpu.setup.window n s.mc.sid
    let refused : List FaultRecord :=
      addFault ⟨.claimRefused, none, none, some entry.base, false⟩ s.lpu.faults
    (s.mc.state = .claiming → levels.clear → claimRefusedBy s.wmu.map entry = false →
      ∃ t, exec (.claimOutcome (.endOfTrailer levels)) s = .next t ∧ t.tif = s.tif.sent ∧ t.ore = s.ore ∧ t.isu = s.isu ∧
        t.wmu.map = insertEntry entry s.wmu.map ∧ t.wmu.own.at n = ⟨.held, none⟩ ∧
        s.claimsOn n (insertEntry entry s.wmu.map) s.lpu.faults t) ∧
    (s.mc.state = .claiming → levels.error = false → levels.reject = true →
      ∃ t, exec (.claimOutcome (.endOfTrailer levels)) s = .next t ∧ t.tif = s.tif.sent ∧ t.ore = s.ore ∧ t.isu = s.isu ∧
        t.wmu.map = s.wmu.map ∧ t.wmu.own.at n = ⟨.refused, none⟩ ∧ s.claimsOn n s.wmu.map refused t) ∧
    (s.mc.state = .leaving → levels.clear → claimRefusedBy s.wmu.map entry = false →
      exec (.claimOutcome (.endOfTrailer levels)) s = .next { s with
        tif := s.tif.sent
        wmu := {
          map := insertEntry entry s.wmu.map, own := s.wmu.own.put n ⟨.releasing, some Counts.zero⟩, claim := none } }) ∧
    (s.mc.state = .leaving → levels.error = false → levels.reject = true →
      exec (.claimOutcome (.endOfTrailer levels)) s = .next { s with
        tif := s.tif.sent
        wmu := { s.wmu with own := s.wmu.own.put n ⟨.refused, none⟩, claim := none }
        lpu := { s.lpu with faults := refused } })

/-- The own EVICT(d): TAKEN is the departure of d at the sender too, with PEER_EVICTED, in every member state; REJECTED
drops the EVICT and puts the miss counter of d at 0, and nothing else changes (R53, R54, R58, R85 to R88, R93, R113, R126, R148,
R162, R163). That PEER_EVICTED stands before the CLAIM_REFUSED of a sync the departure completes is the model's choice (log
entry 12). -/
def Obligations.EvictOutcome : Prop :=
  ∀ (s : State) (d : Station) (f : Frame) (levels : Slots), s.sends (.evict d) f → f.dest = 31 → d ≠ s.mc.sid →
    (levels.clear → CompletionLaws s.ore →
      ∃ t, exec (.evictOutcome (.endOfTrailer levels)) s = .next t ∧ t.mc.peers = s.mc.peers.erase d ∧
        s.departed d (addFault ⟨.peerEvicted, some d, none, none, false⟩ s.lpu.faults) s.mc.late t) ∧
    (levels.error = false → levels.reject = true →
      exec (.evictOutcome (.endOfTrailer levels)) s = .next { s with
        tif := s.tif.sent
        mc := { s.mc with evicts := s.mc.evicts.filter (fun e => e.station != d), miss := s.mc.miss.put d 0 } })

/-- The own BYE TAKEN: the station enters DETACHED; peer set, miss counters, pending EVICTs, flags, map and records are
emptied, quarantined tags go FREE, the CQ, IQ and NQ keep their records, no ITT entry is live and the SQ is empty, and LEAVE,
if it still runs, ends DONE (R37, R59, R80, R128, R150). That the entry itself drops what is left in the ITT and the SQ is the
model's reading (log entry 27). -/
def Obligations.ByeTaken : Prop :=
  ∀ (s : State) (f : Frame) (levels : Slots), s.sends .bye f → f.dest = 31 → levels.clear →
    s.lpu.running = none ∨ s.lpu.running = some .leave →
    ∃ t, exec (.byeOutcome (.endOfTrailer levels)) s = .next t ∧
      t.isu = { s.isu with itt := Bank.all 4 none, sq := [], sqCounts := Counts.zero } ∧ t.wmu = Wmu.reset ∧
      t.tif = { s.tif.sent with rx := none, holdoff := none } ∧
      t.mc = { s.mc with
        state := .detached, peers := StationSet.empty, miss := Bank.all 5 0, evicts := [], roster := none, bye := none
        settle := none, deadline := none } ∧
      t.ore.rq = s.ore.rq ∧ t.ore.head = s.ore.head ∧ t.ore.cq = s.ore.cq ∧
      (∀ tag, t.ore.ort.at tag =
        match s.ore.ort.at tag with
        | .quarantined _ _ => .free
        | e => e) ∧
      t.lpu = { s.lpu with
        stateChange := true, running := none
        last := if s.lpu.running = some .leave then some ⟨.leave, .done⟩ else s.lpu.last
        cmdDone := s.lpu.running = some .leave || s.lpu.cmdDone }

/-- The request or signal frame of the RQ head (R36, R89, R107 to R109): TAKEN moves a tagged head's entry from PENDING to SENT
with its response timer at T_R and the descriptor leaves the RQ, with no completion; UNANSWERED completes it NO_PEER and
raises the miss counter; REJECTED puts it in holdoff for 256 bit times, or at the sixteenth completes it BUSY_LIMIT. Where the
descriptor leaves, the next head is prepared at once. The outcome of a frame whose descriptor was discarded meanwhile changes
the miss counter alone (R30, R60, R115). -/
def Obligations.RequestFrameOutcome : Prop :=
  (∀ (s : State) (f : Frame) (levels : Slots), s.sendsForNobody .rqHead f →
    exec (.requestFrameOutcome (.endOfTrailer levels)) s =
      .next { s with tif := s.tif.sent, mc := s.mc.afterFrame f.dest levels }) ∧
  ∀ (s : State) (f : Frame) (d : Descriptor) (ds : List Descriptor) (h : PreparedHead) (levels : Slots),
    s.sends .rqHead f → s.ore.rq = d :: ds → s.ore.head = some h → f.dest = h.dest →
    let sentMc : Mc := if h.dest = 31 then s.mc else { s.mc with miss := s.mc.miss.put h.dest 0 }
    let freed : Bank 5 OrtEntry :=
      match h.tag with
      | some t => s.ore.ort.put t .free
      | none => s.ore.ort
    let ended (st : Status) : Ore :=
      { s.ore with
        rq := ds, head := none, ort := freed
        cq := s.ore.cq ++ [⟨d.ticket, d.work.op, st, some h.dest, []⟩] }
    let answers (t : State) : Prop := exec (.requestFrameOutcome (.endOfTrailer levels)) s = .next t
    (levels.clear → levels.accept = true ∨ h.dest = 31 →
      (∀ t r, h.tag = some t → s.ore.ort.at t = .pending r → answers (State.followed { s with
        tif := s.tif.sent, mc := sentMc
        ore := { s.ore with
          rq := ds, head := none
          ort := s.ore.ort.put t (.sent r (some (Config.responseTimeoutNs s.lpu.setup.timeoutCode))) } })) ∧
      (h.tag = none → answers (State.followed { s with
        tif := s.tif.sent, mc := sentMc, ore := { s.ore with rq := ds, head := none } }))) ∧
    (levels = ⟨false, false, false⟩ → h.dest ≠ 31 → answers (State.followed { s with
      tif := { s.tif.sent with holdoff := none }, mc := s.mc.raiseMiss h.dest, ore := ended .noPeer })) ∧
    (levels.error = false → levels.reject = true → h.busy < 15 → answers { s with
      tif := { s.tif.sent with holdoff := some (256 * Config.bitTimeNs s.tif.rate) }
      mc := sentMc
      ore := { s.ore with head := some { h with busy := h.busy + 1, phase := .holdoff } } }) ∧
    (levels.error = false → levels.reject = true → 15 ≤ h.busy → answers (State.followed { s with
      tif := { s.tif.sent with holdoff := none }, mc := sentMc, ore := ended .busyLimit }))

/-- The response frame of the SQ head (R35, R89, R147): TAKEN and UNANSWERED remove the record and free its handle, and the next
record becomes the head with counts of 0; REJECTED counts as a void, and the eighth drops the record with VOID_LIMIT. The miss
counter of the destination follows, and then the leave condition and the end of a FLUSH are tested (R58, R163). The outcome of
a frame whose record was discarded meanwhile changes the miss counter alone (R30, R60, R150). -/
def Obligations.ResponseFrameOutcome : Prop :=
  (∀ (s : State) (f : Frame) (levels : Slots), s.sendsForNobody .sqHead f →
    exec (.responseFrameOutcome (.endOfTrailer levels)) s =
      .next { s with tif := s.tif.sent, mc := s.mc.afterFrame f.dest levels }) ∧
  ∀ (s : State) (f : Frame) (r : SqRecord) (rs : List SqRecord) (levels : Slots),
    s.sends .sqHead f → s.isu.sq = r :: rs → f.dest ≠ 31 →
    let gone : Isu := { s.isu with sq := rs, itt := s.isu.itt.put r.handle none, sqCounts := Counts.zero }
    let alive : Mc := { s.mc with miss := s.mc.miss.put f.dest 0 }
    (levels.clear → levels.accept = true → exec (.responseFrameOutcome (.endOfTrailer levels)) s = .next (State.responded { s with
      tif := s.tif.sent, mc := alive, isu := gone })) ∧
    (levels = ⟨false, false, false⟩ → exec (.responseFrameOutcome (.endOfTrailer levels)) s = .next (State.responded { s with
      tif := s.tif.sent, mc := s.mc.raiseMiss f.dest, isu := gone })) ∧
    (levels.error = false → levels.reject = true → s.isu.sqCounts.voids < 7 →
      exec (.responseFrameOutcome (.endOfTrailer levels)) s = .next { s with
        tif := s.tif.sent, mc := alive
        isu := { s.isu with sqCounts := { s.isu.sqCounts with voids := s.isu.sqCounts.voids + 1 } } }) ∧
    (levels.error = false → levels.reject = true → s.isu.sqCounts.voids = 7 →
      exec (.responseFrameOutcome (.endOfTrailer levels)) s = .next (State.responded { s with
        tif := s.tif.sent, mc := alive, isu := gone
        lpu := { s.lpu with
          faults := addFault ⟨.voidLimit, some r.dest, some (r.handle.setWidth 5), none, false⟩ s.lpu.faults } }))

/-- A frame of any source that ends VOIDED below the limit stays a candidate: its void count rises by 1 and nothing else of
the station changes but the end of the transmission (R35). A CLAIM in LEAVING is given up, its record IDLE (R57); a SYNC
for which a LEAVE waits is SyncOutcome's (R44). -/
def Obligations.VoidedFrameStaysACandidate : Prop :=
  ∀ (s : State) (src : Source) (f : Frame) (levels : Slots) (c : Counts), s.sends src f → levels.error = true →
    s.countsOf src = some c → c.voids < 7 →
    (¬(src = .sync ∧ s.mc.state = .syncWait ∧ s.lpu.running = some .leave) →
      (∀ n, src = .claim n → s.mc.state ≠ .leaving) →
      exec (src.row (.endOfTrailer levels)) s =
        .next (State.withCounts src ⟨c.losses, c.voids + 1, c.urgent⟩ { s with tif := s.tif.sent })) ∧
    (∀ n, src = .claim n → s.mc.state = .leaving → exec (src.row (.endOfTrailer levels)) s = .next { s with
      tif := s.tif.sent, wmu := { s.wmu with own := s.wmu.own.put n ⟨.idle, none⟩, claim := none } })

/-- The eighth void abandons a frame on the rise of its void count (R35): at the end of its trailer where it was VOIDED, at
the bit where it was COLLIDED. Its owner's rule applies: a ROSTER, an EVICT, a RELEASE and a response are dropped, the
RELEASE's record stays RELEASING (R75), and the response's handle goes FREE (R147); a CLAIM in CLAIMING makes its record
REFUSED and the next WANTED one is taken in course (R68, R70), one in LEAVING leaves its record IDLE (R57; that it is
recorded there is the model's choice, log entry 9); the RQ head completes TRUNK_ERROR, its tag goes FREE and the next head
is prepared, with no fault record (R110). VOID_LIMIT, with the fields of R35, is appended at the end of the trailer (R165),
after a COLLIDED one at that of the frame it collided with, and where that frame is cut off at the next idle, which is the
model's choice (log entry 10). At that end too a SYNC is the FATAL fault SYNC_INCOMPLETE (R47), and a BYE ends in DETACHED
(R59), where what is left in the ITT and the SQ is dropped (log entry 27). A response brought to the eighth by REJECTED is
ResponseFrameOutcome's. -/
def Obligations.EighthVoidAbandons : Prop :=
  (∀ (s : State) (f : Frame) (levels : Slots), levels.error = true →
    let record (d : Option Station) (h : Option (BitVec 5)) (b : Option Word) : FaultRecord :=
      ⟨.voidLimit, d, h, b, false⟩
    let base (n : Slot) : Option Word := some (s.lpu.setup.slots.at n).base
    let voided (src : Source) (i : Instr) (tif : Tif) : Prop :=
      i = src.row (.endOfTrailer levels) ∧ tif = s.tif.sent
    let collided (i : Instr) (owed : Option Aftermath) (tif : Tif) : Prop :=
      s.tif.receiver = .receiving ∧ s.tif.collisions = 0 ∧
      (∃ p b, i = .collided p ∧ f.bitAt p = some b ∧ (p = 0 ∨ 9 ≤ p ∨ b = false)) ∧
      tif = { s.tif with flight := none, collisions := 1, collidedHere := true, spent := owed }
    let ends (src : Source) (c : Counts) (r : FaultRecord) (i : Instr) (tif : Tif) (faults : List FaultRecord) : Prop :=
      s.sends src f ∧ c.voids = 7 ∧
      ((voided src i tif ∧ faults = addFault r s.lpu.faults) ∨
        (collided i (some (.faults [r])) tif ∧ faults = s.lpu.faults))
    (∀ c i tif faults, ends .roster c (record none none none) i tif faults → s.mc.roster = some c →
      exec i s = .next { s with
        tif := tif
        mc := { s.mc with roster := none }
        lpu := { s.lpu with faults := faults } }) ∧
    (∀ d c i tif faults, ends (.evict d) c (record (some d) none none) i tif faults → s.countsOf (.evict d) = some c →
      exec i s = .next { s with
        tif := tif
        mc := { s.mc with evicts := s.mc.evicts.filter (fun e => e.station != d) }
        lpu := { s.lpu with faults := faults } }) ∧
    (∀ n c i tif faults, ends (.release n) c (record none none (base n)) i tif faults →
      (s.wmu.own.at n).release = some c →
      exec i s = .next { s with
        tif := tif
        wmu := { s.wmu with own := s.wmu.own.put n { s.wmu.own.at n with release := none } }
        lpu := { s.lpu with faults := faults } }) ∧
    (∀ r rs i tif faults,
      ends .sqHead s.isu.sqCounts (record (some r.dest) (some (r.handle.setWidth 5)) none) i tif faults →
      s.isu.sq = r :: rs →
      exec i s = .next (State.responded { s with
        tif := tif
        isu := { s.isu with sq := rs, itt := s.isu.itt.put r.handle none, sqCounts := Counts.zero }
        lpu := { s.lpu with faults := faults } })) ∧
    (∀ n k i tif faults, ends (.claim n) k (record none none (base n)) i tif faults → s.wmu.claim = some ⟨n, k⟩ →
      s.mc.state = .leaving →
      exec i s = .next { s with
        tif := tif
        wmu := { s.wmu with own := s.wmu.own.put n ⟨.idle, none⟩, claim := none }
        lpu := { s.lpu with faults := faults } }) ∧
    (∀ n k, s.sends (.claim n) f → k.voids = 7 → s.wmu.claim = some ⟨n, k⟩ → s.mc.state = .claiming →
      let refused (t : State) : Prop := t.ore = s.ore ∧ t.isu = s.isu ∧ t.wmu.map = s.wmu.map ∧
        t.wmu.own.at n = ⟨.refused, none⟩
      (∀ i tif, voided (.claim n) i tif → ∃ t, exec i s = .next t ∧ t.tif = tif ∧ refused t ∧
        s.claimsOn n s.wmu.map (addFault (record none none (base n)) s.lpu.faults) t) ∧
      (∀ i tif rs, collided i (some (.faults rs)) tif → ∃ t, exec i s = .next t ∧
        t.tif = { tif with spent := some (.faults t.tif.due) } ∧ refused t ∧ t.lpu.faults = s.lpu.faults ∧
        s.claimsOn n s.wmu.map [record none none (base n)]
          { t with lpu := { t.lpu with faults := t.tif.due } })) ∧
    (∀ d ds h i tif, s.sends .rqHead f → s.ore.rq = d :: ds → s.ore.head = some h → h.counts.voids = 7 →
      voided .rqHead i tif ∨ collided i s.tif.spent tif →
      exec i s = .next (State.followed { s with
        tif := { tif with holdoff := none }
        ore := { s.ore with
          rq := ds, head := none
          ort :=
            match h.tag with
            | some t => s.ore.ort.put t .free
            | none => s.ore.ort
          cq := s.ore.cq ++ [⟨d.ticket, d.work.op, .trunkError, some h.dest, []⟩] } })) ∧
    (∀ c i tif, s.sends .sync f → s.mc.sync = some c → c.voids = 7 →
      ¬(s.mc.state = .syncWait ∧ s.lpu.running = some .leave) →
      (voided .sync i tif → ∃ t, exec i s = .next t ∧
        { s with tif := tif }.faultedFrom ⟨.syncIncomplete, none, none, none, false⟩ t) ∧
      (collided i (some .syncIncomplete) tif → exec i s = .next { s with
        tif := tif, mc := { s.mc with sync := some ⟨c.losses, 8, c.urgent⟩ } })) ∧
    (∀ c i tif, s.sends .bye f → s.mc.bye = some c → c.voids = 7 →
      s.lpu.running = none ∨ s.lpu.running = some .leave →
      (voided .bye i tif → ∃ t, exec i s = .next t ∧ { s with tif := tif }.detachedFrom t) ∧
      (collided i (some .detach) tif → exec i s = .next { s with
        tif := tif, mc := { s.mc with bye := some ⟨c.losses, 8, c.urgent⟩ } }))) ∧
  ∀ (s : State) (i : Instr) (tif : Tif), s.resetAsserted = false → s.tif.flight = none →
    let cutOff : Prop :=
      i = .trunkIdleObserved ∧ s.mc.state ≠ .listen ∧ (s.lpu.running ≠ some .flush ∨ s.isu.sq ≠ []) ∧
      tif = { s.tif with idleCount := 10, receiver := .ready, rx := none, collidedHere := false, spent := none }
    let ended : Prop :=
      s.tif.receiver = .slots ∧ (∃ r, s.tif.rx = some r ∧ r.verdict = .malformed) ∧
      (∃ others, i.moment = some (.endOfTrailer others)) ∧
      tif = { s.tif with receiver := .unsynced, rx := none, collidedHere := false, spent := none }
    cutOff ∨ ended →
    (∀ rs, s.tif.spent = some (.faults rs) → exec i s = .next { s with
      tif := tif, lpu := { s.lpu with faults := rs.foldl (fun fs r => addFault r fs) s.lpu.faults } }) ∧
    (s.tif.spent = some .syncIncomplete → ∃ t, exec i s = .next t ∧
      { s with tif := tif }.faultedFrom ⟨.syncIncomplete, none, none, none, false⟩ t) ∧
    (s.tif.spent = some .detach → s.lpu.running = none ∨ s.lpu.running = some .leave →
      ∃ t, exec i s = .next t ∧ { s with tif := tif }.detachedFrom t)

/-! ### Received frames: the decision -/

/-- The slot a listening station drives on a well-formed frame from the last check bit on (R16, R17, R19, R49, R51, R71,
R92, R95, R120, R153): ACCEPT or REJECT on a frame that concerns a member, none on a frame for another station or in
SYNC_WAIT; a station that does not listen drives none and decides nothing. The count received places the slots: ERROR at bit
44 + 32 × count, REJECT and ACCEPT behind it (R9, R182). Requests are RequestDecision's. The receiver of a transmitter goes to
SLOTS too at the edge that samples its own last check bit, which an outcome row gives (R6; log entry 33); it decides nothing
there, and the transmitter drives its own bits alone, none of them in a slot. -/
def Obligations.SlotDriven : Prop :=
  let accept : Slots := ⟨false, false, true⟩
  let reject : Slots := ⟨false, true, false⟩
  let decides (c : Instr) (s : State) (count : Nat) (l : Slots) : Prop :=
    ∃ t r, exec c s = .next t ∧ t.tif.receiver = .slots ∧ t.tif.rx = some r ∧ r.count.toNat = count ∧ t.drivesSlots = l
  (∀ (s : State) (p : Station), s.decides → validStation p = true → s.mc.state.isMember = true →
      decides (.syncReceived p .lastCheckBit) s 0 (if p = s.mc.sid then reject else accept) ∧
      (∀ b d, windowWellFormed b d = true →
        decides (.claimReceived p b d .lastCheckBit) s 2
          (if s.wmu.map.any (fun x => x.overlaps ⟨b, d.setWidth 5, d.getLsbD 31, p⟩) = true ∨ 64 ≤ s.wmu.map.length ∨
              4 ≤ s.wmu.map.countP (fun x => x.owner == p)
            then reject else accept)) ∧
      (∀ d : Station, validStation d = true → d ≠ p →
        decides (.evictReceived p (d.setWidth 32) .lastCheckBit) s 1 (if d = s.mc.sid then reject else accept)) ∧
      (∀ w ps, (Instr.rosterReceived p w ps .lastCheckBit).wellFormed = true →
        decides (.rosterReceived p w ps .lastCheckBit) s (1 + 2 * ps.length) accept) ∧
      (∀ b : Word, 4096 ∣ b.toNat → decides (.releaseReceived p b .lastCheckBit) s 1 accept) ∧
      decides (.byeReceived p .lastCheckBit) s 0 accept ∧
      (∀ tag b, (Instr.responseReceived p tag b .lastCheckBit).wellFormed = true →
        decides (.responseReceived p tag b .lastCheckBit) s (Content.response b).body.length accept) ∧
      (∀ broadcast v, decides (.signalReceived p broadcast v .lastCheckBit) s 1
        (if s.isu.nq.length < 8 then accept else reject)) ∧
      (∀ d u, (Instr.frameForAnotherStation p d u .lastCheckBit).wellFormed = true → d ≠ s.mc.sid →
        decides (.frameForAnotherStation p d u .lastCheckBit) s u.content.body.length Slots.none)) ∧
  (∀ (s : State) (c : Instr), s.decides → s.mc.state = .syncWait → c.moment = some .lastCheckBit → c.wellFormed = true →
    (∀ bits periods m, c ≠ .malformedFrame bits periods m) →
    ∃ t, exec c s = .next t ∧ t.tif.receiver = .slots ∧ t.drivesSlots = Slots.none) ∧
  (∀ (s : State) (c : Instr), s.resetAsserted = false → s.mc.state.isListening = false → s.tif.receiver = .receiving →
    s.tif.flight = none → c.moment = some .lastCheckBit →
    exec c s = .next { s with tif := { s.tif with receiver := .slots, rx := none } }) ∧
  (∀ (s : State) (src : Source) (f : Frame), s.sends src f ∨ s.sendsForNobody src f → s.tif.receiver = .receiving →
    exec (src.row .lastCheckBit) s = .next { s with tif := { s.tif with receiver := .slots } }) ∧
  (∀ (s : State) (src : Source), s.tif.receiver ≠ .receiving → exec (src.row .lastCheckBit) s = .next s) ∧
  (∀ (s : State) (src : Source) (f : Frame), s.sends src f ∨ s.sendsForNobody src f → f.count.toNat = f.body.length →
    (∀ p, s.drivesTdat p = true ↔ f.bitAt p = some false) ∧
    (∀ p, 44 + 32 * f.count.toNat ≤ p → s.drivesTdat p = false) ∧ s.drivesTclk = true) ∧
  (∀ s : State, s.tif.flight = none → s.tif.rx = none → ∀ p, s.drivesTdat p = false) ∧
  (∀ (s : State) (r : Reception), s.tif.flight = none → s.tif.rx = some r → ∀ p, s.drivesTdat p = true ↔
    (p = 44 + 32 * r.count.toNat ∧ s.drivesSlots.error = true) ∨
    (p = 45 + 32 * r.count.toNat ∧ s.drivesSlots.reject = true) ∨
    (p = 46 + 32 * r.count.toNat ∧ s.drivesSlots.accept = true))

/-- The decision on a request addressed to the station (R137): a FLUSH in progress rejects it; one it may serve is accepted
for delivery when the IQ has room and, for READ and CWRITE, a handle is FREE, and rejected otherwise; one it may not serve is
accepted to be answered when a handle is FREE, rejected when none is, and a WRITE is accepted to be dropped. Nothing but the
receiver changes. -/
def Obligations.RequestDecision : Prop :=
  ∀ (s : State) (p : Station) (tag : Tag) (b : RequestBody), s.decides → s.mc.state.isMember = true →
    (Instr.requestReceived p tag b .lastCheckBit).wellFormed = true →
    let m : Message := ⟨p, s.mc.sid, if requestPosted b then 0 else tag, .request b⟩
    let decided (v : Verdict) : Prop := exec (.requestReceived p tag b .lastCheckBit) s =
      .next { s with tif := { s.tif with
        receiver := .slots
        rx := some ⟨v, BitVec.ofNat 5 (Content.request b).body.length, false, false, none⟩ } }
    let handleFree : Prop := ∃ h, s.isu.itt.at h = none
    let serve : Prop := s.ownership b = .serve
    let posted : Prop := requestPosted b = true
    (s.lpu.running = some .flush → decided (.reject m)) ∧
    (s.lpu.running ≠ some .flush →
      (serve → s.isu.iq.length < 16 → posted ∨ handleFree → decided (.accept m (some .deliver))) ∧
      (serve → 16 ≤ s.isu.iq.length ∨ (¬posted ∧ ¬handleFree) → decided (.reject m)) ∧
      (s.ownership b = .notOwner → ¬posted → handleFree → decided (.accept m (some (.answer .notOwner)))) ∧
      (s.ownership b = .readOnly → ¬posted → handleFree → decided (.accept m (some (.answer .readOnly)))) ∧
      (¬serve → ¬posted → ¬handleFree → decided (.reject m)) ∧
      (¬serve → posted → decided (.accept m (some .drop))))

/-- At the end of the trailer of a request accepted and TAKEN the plan is carried out (R138 to R140, R142, R143): a delivery
appends the IQ record and, for READ and CWRITE, puts the lowest FREE handle in DELIVERED; an answer puts it in ANSWERING
with a FAIL record at the SQ tail; a drop records POSTED_DROPPED. A FLUSH start or the leave deadline since the decision
turns a delivery into an answer or a drop. With ERROR or REJECT dominant nothing is applied. A FLUSH that the request held
is then tested for its end (R161, R163): it goes on while the SQ holds the answer, and ends DONE where nothing was queued.
-/
def Obligations.RequestTaken : Prop :=
  ∀ (s : State) (m : Message) (b : RequestBody) (plan : ServicePlan) (count : BitVec 5) (fl dl : Bool) (others : Slots),
    s.resetAsserted = false → s.mc.state.isMember = true → s.tif.receiver = .slots → s.tif.flight = none →
    s.tif.spent = none → s.tif.rx = some ⟨.accept m (some plan), count, fl, dl, none⟩ → m.content = .request b →
    let ended : State := { s with tif := { s.tif with receiver := .unsynced, rx := none, collidedHere := false } }
    let alive : Mc := { s.mc with miss := s.mc.miss.put m.source 0 }
    let runs (t : State) : Prop :=
      exec (.requestReceived m.source m.tag b (.endOfTrailer others)) s = .next t.flushTested
    let lowest (h : Handle) : Prop := s.isu.itt.at h = none ∧ ∀ k : Handle, k.toNat < h.toNat → s.isu.itt.at k ≠ none
    let entry (cwrite : Bool) (n : Nat) (st : IttState) : IttEntry := some ⟨m.source, m.tag, cwrite, n, st, false⟩
    let dropped : State := { ended with
      mc := alive
      lpu := { s.lpu with
        faults := addFault ⟨.postedDropped, some m.source, none, some (requestAddress b), false⟩ s.lpu.faults } }
    let answered (h : Handle) (cwrite : Bool) (n : Nat) (code : Word) : State := { ended with
      mc := alive
      isu := { s.isu with
        itt := s.isu.itt.put h (entry cwrite n .answering)
        sq := s.isu.sq ++ [⟨h, m.source, m.tag, .fail code⟩]
        sqCounts := if s.isu.sq.isEmpty then Counts.zero else s.isu.sqCounts } }
    let answersWith (code : Word) : Prop :=
      (∀ h a l, lowest h → b = .read a l → runs (answered h false l.toNat code)) ∧
      (∀ h a ds, lowest h → b = .cwrite a ds → runs (answered h true ds.length code))
    (¬others.clear → runs ended) ∧
    (others.clear → plan = .deliver → fl = false → dl = false →
      (∀ h a l, lowest h → b = .read a l → runs { ended with
        mc := alive
        isu := { s.isu with
          itt := s.isu.itt.put h (entry false l.toNat .delivered)
          iq := s.isu.iq ++ [⟨m.source, a, .read l.toNat, some h⟩] } }) ∧
      (∀ h a ds, lowest h → b = .cwrite a ds → runs { ended with
        mc := alive
        isu := { s.isu with
          itt := s.isu.itt.put h (entry true ds.length .delivered)
          iq := s.isu.iq ++ [⟨m.source, a, .cwrite ds, some h⟩] } }) ∧
      (∀ a ds, b = .write a ds → runs { ended with
        mc := alive
        isu := { s.isu with iq := s.isu.iq ++ [⟨m.source, a, .write ds, none⟩] } })) ∧
    (others.clear → plan = .deliver → fl = true → answersWith 11 ∧ ∀ a ds, b = .write a ds → runs dropped) ∧
    (others.clear → plan = .deliver → fl = false → dl = true →
      answersWith 3 ∧ ∀ a ds, b = .write a ds → runs dropped) ∧
    (others.clear → plan = .answer .notOwner → answersWith 3) ∧
    (others.clear → plan = .answer .readOnly → answersWith 4) ∧
    (others.clear → plan = .drop → runs dropped)

/-! ### Received frames: what a taken frame does -/

/-- A taken DATA, DONE or FAIL completes the SENT entry it answers: the tag goes FREE, its timer with it, and the completion
joins the CQ tail; every other is a stray, which changes nothing in the ORE and records STRAY_RESPONSE (R121 to R123). A head
that waited for a tag may then be prepared (R101). A response on which another station drives ERROR or REJECT is applied nowhere
(R34). -/
def Obligations.ResponseReceived : Prop :=
  ∀ (s : State) (p : Station) (tag : Tag) (b : ResponseBody) (others : Slots), s.hears → validStation s.mc.sid = true →
    (Instr.responseReceived p tag b (.whole others)).wellFormed = true →
    let alive : Mc := { s.mc with miss := s.mc.miss.put p 0 }
    (¬others.clear → exec (.responseReceived p tag b (.whole others)) s =
      .next (State.flushTested { s with tif := s.tif.heard })) ∧
    (others.clear → ∀ r x st data, s.ore.ort.at tag = .sent r x → r.dest = p → r.answeredBy b st data →
      exec (.responseReceived p tag b (.whole others)) s = .next (State.followed { s with
        tif := s.tif.heard
        mc := alive
        ore := { s.ore with
          ort := s.ore.ort.put tag .free
          cq := s.ore.cq ++ [⟨r.ticket, if r.cwrite then .cwrite else .read, st, some p, data⟩] } })) ∧
    (others.clear →
      (∀ r x st data, s.ore.ort.at tag = .sent r x → r.dest = p → ¬r.answeredBy b st data) →
      exec (.responseReceived p tag b (.whole others)) s = .next { s with
        tif := s.tif.heard
        mc := alive
        lpu := { s.lpu with
          faults := addFault ⟨.strayResponse, some p, some tag, none, false⟩ s.lpu.faults } })

/-- A SIGNAL to this station or to all joins the NQ tail when the NQ has room and the frame is taken, during a FLUSH as well
(R161); with the NQ full, or where another station drives ERROR or REJECT, nothing is applied (R34, R153, R154). -/
def Obligations.SignalReceived : Prop :=
  ∀ (s : State) (p : Station) (broadcast : Bool) (v : Word) (others : Slots), s.hears → validStation s.mc.sid = true →
    validStation p = true →
    (s.isu.nq.length < 8 → others.clear → exec (.signalReceived p broadcast v (.whole others)) s = .next { s with
      tif := s.tif.heard
      mc := { s.mc with miss := s.mc.miss.put p 0 }
      isu := { s.isu with nq := s.isu.nq ++ [⟨p, v, broadcast⟩] } }) ∧
    (s.isu.nq.length < 8 → ¬others.clear →
      exec (.signalReceived p broadcast v (.whole others)) s = .next (State.flushTested { s with tif := s.tif.heard })) ∧
    (8 ≤ s.isu.nq.length →
      exec (.signalReceived p broadcast v (.whole others)) s = .next { s with tif := s.tif.heard })

/-- A taken BYE from d, SYNC from d or EVICT naming d is the departure of d at a member that is not d, in every member state
(R50, R53, R54, R58, R85 to R88, R94, R95, R113, R126, R148, R162, R163), with PEER_EVICTED for the EVICT; that it stands before
the CLAIM_REFUSED of a sync the departure completes is the model's choice (log entry 12). An EVICT naming the station itself and
a SYNC with its number are rejected and applied nowhere (R49, R92), and so is each of the three on which another station
drives ERROR or REJECT (R34). -/
def Obligations.DepartureFrames : Prop :=
  ∀ (s : State) (d p : Station) (others : Slots), s.hears → validStation d = true → validStation p = true → p ≠ d →
    (d ≠ s.mc.sid → others.clear → CompletionLaws s.ore →
      (∃ t, exec (.byeReceived d (.whole others)) s = .next t ∧ t.mc.peers = s.mc.peers.erase d ∧
        s.departed d s.lpu.faults s.mc.late t) ∧
      (∃ t, exec (.syncReceived d (.whole others)) s = .next t ∧ t.mc.peers = (s.mc.peers.erase d).insert d ∧
        t.mc.roster = some (s.mc.roster.getD Counts.zero) ∧ s.departed d s.lpu.faults (s.mc.late.insert d) t) ∧
      (∃ t, exec (.evictReceived p (d.setWidth 32) (.whole others)) s = .next t ∧ t.mc.peers = s.mc.peers.erase d ∧
        { s with mc := { s.mc with miss := s.mc.miss.put p 0 } }.departed d
          (addFault ⟨.peerEvicted, some d, none, none, false⟩ s.lpu.faults) s.mc.late t)) ∧
    (d ≠ s.mc.sid → ¬others.clear →
      ∀ c ∈ [Instr.byeReceived d (.whole others), .syncReceived d (.whole others),
          .evictReceived p (d.setWidth 32) (.whole others)],
        exec c s = .next (State.flushTested { s with tif := s.tif.heard })) ∧
    (d = s.mc.sid →
      exec (.evictReceived p (d.setWidth 32) (.whole others)) s = .next { s with tif := s.tif.heard } ∧
      exec (.syncReceived d (.whole others)) s = .next { s with tif := s.tif.heard })

/-- A ROSTER (R51, R53, R54, R76, R77): not taken, it is applied nowhere (R34). Taken, outside SYNCING its contents are
ignored; in SYNCING it is noted, its pairs are merged in order, and the sync completes when everybody expected has answered;
its source joins the peer set (R76), by the model's reading also where its own bit is not in its peer word (log entry 35). A
pair already in the map is passed over; one that overlaps, or finds 64 entries or four of that owner, records MAP_OVERLAP;
any other is added. -/
def Obligations.RosterReceived : Prop :=
  (∀ (s : State) (p : Station) (w : Word) (pairs : List (Word × Word)) (others : Slots), s.hears →
    (Instr.rosterReceived p w pairs (.whole others)).wellFormed = true →
    let bits : StationSet := (w &&& 0x7FFFFFFE &&& ~~~BitVec.twoPow 32 s.mc.sid.toNat) &&& ~~~s.mc.late
    let noted : State := { s with
      tif := s.tif.heard
      mc := { s.mc with
        miss := s.mc.miss.put p 0
        answered := s.mc.answered ||| BitVec.twoPow 32 p.toNat
        expected := s.mc.expected ||| bits
        peers := s.mc.peers ||| bits ||| BitVec.twoPow 32 p.toNat
        settle := some (4 * Config.responseTimeoutNs s.lpu.setup.timeoutCode) } }
    let everybody : Prop := noted.mc.expected &&& ~~~noted.mc.answered = 0
    (¬others.clear → exec (.rosterReceived p w pairs (.whole others)) s =
      .next (State.flushTested { s with tif := s.tif.heard })) ∧
    (s.mc.state ≠ .syncing → others.clear → exec (.rosterReceived p w pairs (.whole others)) s = .next { s with
      tif := s.tif.heard, mc := { s.mc with miss := s.mc.miss.put p 0 } }) ∧
    (s.mc.state = .syncing → others.clear → ¬everybody →
      exec (.rosterReceived p w pairs (.whole others)) s = .next (mergePairs p pairs noted)) ∧
    (s.mc.state = .syncing → others.clear → everybody →
      ∃ t, exec (.rosterReceived p w pairs (.whole others)) s = .next t ∧ t.mc.settle = none ∧
        t.mc.answered = noted.mc.answered ∧ t.wmu.map = (mergePairs p pairs noted).wmu.map ∧
        t.mc.state = (if t.wmu.claim.isSome then .claiming else .joined))) ∧
  (∀ (s : State) (p : Station) (b d : Word), windowWellFormed b d = true →
    let e : MapEntry := ⟨b, d.setWidth 5, d.getLsbD 31, p⟩
    let known : Prop := ∃ x ∈ s.wmu.map, x.base = b ∧ x.owner = p
    let refused : Prop := (∃ x ∈ s.wmu.map, x.overlaps e = true) ∨ 64 ≤ s.wmu.map.length ∨
      4 ≤ s.wmu.map.countP (fun x => x.owner == p)
    (known → mergePairs p [(b, d)] s = s) ∧
    (¬known → refused → mergePairs p [(b, d)] s = { s with lpu := { s.lpu with
      faults := addFault ⟨.mapOverlap, some p, none, some b, false⟩ s.lpu.faults } }) ∧
    (¬known → ¬refused → mergePairs p [(b, d)] s = { s with wmu := { s.wmu with map := insertEntry e s.wmu.map } })) ∧
  (∀ (s : State) (p : Station), mergePairs p [] s = s) ∧
  (∀ (s : State) (p : Station) (x : Word × Word) (xs : List (Word × Word)),
    mergePairs p (x :: xs) s = mergePairs p xs (mergePairs p [x] s))

/-- A taken CLAIM adds its entry in base order; one this member refuses changes nothing; in SYNCING an unknown claimant joins
the peer set and, unless it joined late, Expected; in CLAIMING an own CLAIM in course that no longer fits is refused with
CLAIM_REFUSED. A taken RELEASE removes the sender's entry of its base, and where another station drives ERROR or REJECT nothing
is applied (R34, R53, R69, R71, R72, R74). -/
def Obligations.ClaimAndReleaseReceived : Prop :=
  (∀ (s : State) (p : Station) (b d : Word) (others : Slots), s.hears → validStation p = true →
    windowWellFormed b d = true →
    let e : MapEntry := ⟨b, d.setWidth 5, d.getLsbD 31, p⟩
    let refused : Prop := (∃ x ∈ s.wmu.map, x.overlaps e = true) ∨ 64 ≤ s.wmu.map.length ∨
      4 ≤ s.wmu.map.countP (fun x => x.owner == p)
    let taken : State := { s with
      tif := s.tif.heard
      mc := { s.mc with miss := s.mc.miss.put p 0 }
      wmu := { s.wmu with map := insertEntry e s.wmu.map } }
    let runs (t : State) : Prop := exec (.claimReceived p b d (.whole others)) s = .next t
    (refused → runs { s with tif := s.tif.heard }) ∧
    (¬refused → ¬others.clear → runs (State.flushTested { s with tif := s.tif.heard })) ∧
    (¬refused → others.clear →
      (s.mc.state = .joined ∨ s.mc.state = .leaving → runs taken) ∧
      (s.mc.state = .claiming →
        (∀ c, s.wmu.claim = some c → claimFits taken.wmu.map (s.lpu.setup.window c.slot s.mc.sid) = true →
          runs taken) ∧
        (∀ c, s.wmu.claim = some c → claimFits taken.wmu.map (s.lpu.setup.window c.slot s.mc.sid) = false →
          ∃ t, runs t ∧ t.wmu.map = taken.wmu.map ∧ t.wmu.own.at c.slot = ⟨.refused, none⟩ ∧
            ((∀ n, n ≠ c.slot → (s.wmu.own.at n).state ≠ .wanted) →
              t.mc.state = .joined ∧ t.wmu.claim = none ∧ t.lpu.faults =
                addFault ⟨.claimRefused, none, none, some (s.lpu.setup.slots.at c.slot).base, false⟩
                  s.lpu.faults))) ∧
      (s.mc.state = .syncing → ∃ t, runs t ∧ t.wmu.map = taken.wmu.map ∧
        t.mc.peers = (if s.mc.peers.has p then s.mc.peers else s.mc.peers.insert p) ∧
        t.mc.expected =
          if s.mc.peers.has p ∨ s.mc.late.has p then s.mc.expected else s.mc.expected.insert p))) ∧
  (∀ (s : State) (p : Station) (b : Word) (others : Slots), s.hears → validStation p = true → 4096 ∣ b.toNat →
    (others.clear → exec (.releaseReceived p b (.whole others)) s = .next { s with
      tif := s.tif.heard
      mc := { s.mc with miss := s.mc.miss.put p 0 }
      wmu := { s.wmu with map := s.wmu.map.filter (fun x => !(x.base == b && x.owner == p)) } }) ∧
    (¬others.clear →
      exec (.releaseReceived p b (.whole others)) s = .next (State.flushTested { s with tif := s.tif.heard })))

/-- A frame for another station: taken, it resets the miss counter of its source at a member and does nothing else; not taken,
or at a station in SYNC_WAIT, nothing is applied; a receiver in UNSYNCED takes no part in it (R6, R19, R34, R89). -/
def Obligations.FrameForAnotherStation : Prop :=
  ∀ (s : State) (p d : Station) (u : UnicastBody) (others : Slots), s.resetAsserted = false → s.tif.flight = none →
    (Instr.frameForAnotherStation p d u (.whole others)).wellFormed = true → d ≠ s.mc.sid →
    let runs (t : State) : Prop := exec (.frameForAnotherStation p d u (.whole others)) s = .next t
    (s.mc.state.isMember = true → s.tif.receiver = .ready → others.clear → others.accept = true →
      runs { s with tif := s.tif.heard, mc := { s.mc with miss := s.mc.miss.put p 0 } }) ∧
    (s.tif.receiver = .ready → ¬others.clear ∨ others.accept = false ∨ s.mc.state.isMember = false →
      runs { s with tif := s.tif.heard }) ∧
    (s.tif.receiver = .unsynced → runs { s with tif := { s.tif with idleCount := 0 } })

/-- A frame whose check fails, one of whose measured clock periods is out of tolerance, or whose fields meet a condition of R15
is malformed: a listening station drives ERROR and nothing is applied (R4, R9, R14, R15, R34). A period that ends only in the
trailer still makes the frame malformed: no later slot is driven and nothing is applied; that ERROR, whose slot is being sampled
then, is not driven any more is the model's reading (log entry 31). The conditions on the fields are all of R15's (R10 to R12),
and a frame that meets none of them is well-formed. -/
def Obligations.MalformedFrame : Prop :=
  (∀ (s : State) (bits : List Bool) (periods : List Nat) (f : Frame) (c : BitVec 16),
    Frame.read bits = some (f, c) →
    let bt := Config.bitTimeNs s.tif.rate
    let out (x : Nat) : Prop := 4 * x < 3 * bt ∨ 3 * bt < 2 * x
    let n := 43 + 32 * f.count.toNat
    let row (moment : RxMoment) : Instr := .malformedFrame bits periods moment
    let ended : State := { s with tif := { s.tif with receiver := .unsynced, rx := none, collidedHere := false } }
    (crc16 f.coveredBits ≠ c ∨ (∃ x ∈ periods.take n, out x) ∨ f.message = none →
      (s.decides → ∃ t, exec (row .lastCheckBit) s = .next t ∧ t.drivesSlots = ⟨true, false, false⟩ ∧
        t = { s with tif := { s.tif with
          receiver := .slots, rx := some ⟨.malformed, f.count, false, false, none⟩ } }) ∧
      (s.resetAsserted = false → s.tif.receiver = .ready → s.tif.flight = none → ∀ others,
        exec (row (.whole others)) s = .next { s with tif := s.tif.heard })) ∧
    (∀ r, s.resetAsserted = false → s.tif.receiver = .slots → s.tif.flight = none → s.tif.rx = some r →
      let marked (slot : EarlySlot) : State := { s with tif := { s.tif with rx := some { r with late := some slot } } }
      (r.late = none → (∃ x, periods[n]? = some x ∧ out x) →
        exec (row (.slotSampled .error)) s = .next (marked .error) ∧
        (marked .error).drivesSlots = ⟨r.verdict.drives.error, false, false⟩) ∧
      (r.late = none → (∃ x, periods[n + 1]? = some x ∧ out x) →
        exec (row (.slotSampled .reject)) s = .next (marked .reject) ∧
        (marked .reject).drivesSlots = ⟨r.verdict.drives.error, r.verdict.drives.reject, false⟩) ∧
      (s.tif.spent = none → (∃ i x, i < 3 ∧ periods[n + i]? = some x ∧ out x) → ∀ others,
        ((∃ m p, r.verdict = .accept m p) → exec (row (.endOfTrailer others)) s = .next ended.flushTested) ∧
        ((∀ m p, r.verdict ≠ .accept m p) → exec (row (.endOfTrailer others)) s = .next ended)))) ∧
  (∀ (s : State) (c : Instr) (r : Reception) (others : Slots), s.resetAsserted = false → s.tif.receiver = .slots →
    s.tif.flight = none → s.tif.spent = none → s.tif.rx = some r → r.late.isSome = true →
    c.moment = some (.endOfTrailer others) →
    let ended : State := { s with tif := { s.tif with receiver := .unsynced, rx := none, collidedHere := false } }
    ((∃ m p, r.verdict = .accept m p) → exec c s = .next ended.flushTested) ∧
    ((∀ m p, r.verdict ≠ .accept m p) → exec c s = .next ended)) ∧
  (∀ f : Frame, f.count.toNat = f.body.length →
    let k := f.kind.toNat
    let n := f.body.length
    let window (b d : Word) : Prop := 18 < d.toNat % 32 ∨ b.toNat % (4096 * 2 ^ (d.toNat % 32)) ≠ 0
    (f.message = none ↔
      -- the kind, its class, the source, the destination
      (k = 3 ∨ k = 14 ∨ k = 15) ∨
      (k ≤ 2 ∧ f.cls ≠ 0) ∨ (4 ≤ k ∧ k ≤ 9 ∧ f.cls ≠ 1) ∨ (10 ≤ k ∧ k ≤ 12 ∧ f.cls ≠ 2) ∨ (k = 13 ∧ f.cls ≠ 3) ∨
      f.source = 0 ∨ f.source = 31 ∨ f.dest = 0 ∨ (4 ≤ k ∧ k ≤ 9 ∧ f.dest ≠ 31) ∨
      ((k ≤ 2 ∨ (10 ≤ k ∧ k ≤ 12)) ∧ f.dest = 31) ∨
      -- the count
      (k = 0 ∧ ¬(1 ≤ n ∧ n ≤ 16)) ∨ ((k = 1 ∨ k = 4 ∨ k = 9) ∧ n ≠ 0) ∨
      ((k = 2 ∨ k = 7 ∨ k = 8 ∨ k = 13) ∧ n ≠ 1) ∨ ((k = 6 ∨ k = 10) ∧ n ≠ 2) ∨
      ((k = 11 ∨ k = 12) ∧ ¬(2 ≤ n ∧ n ≤ 17)) ∨ (k = 5 ∧ ¬(n % 2 = 1 ∧ n ≤ 9)) ∨
      -- the words
      (k = 6 ∧ ∃ b d, f.body = [b, d] ∧ window b d) ∨
      (k = 5 ∧ ∃ p ps, f.body = p :: flattenPairs ps ∧ ∃ x ∈ ps, window x.1 x.2) ∨
      (k = 7 ∧ ∃ b, f.body = [b] ∧ b.toNat % 4096 ≠ 0) ∨
      (k = 8 ∧ ∃ w, f.body = [w] ∧ (w.toNat = 0 ∨ 30 < w.toNat ∨ w.toNat = f.source.toNat)) ∨
      (k = 10 ∧ ∃ a l, f.body = [a, l] ∧ (a.toNat % 4 ≠ 0 ∨ l.toNat = 0 ∨ 16 < l.toNat)) ∨
      ((k = 11 ∨ k = 12) ∧ ∃ a ds, f.body = a :: ds ∧ a.toNat % 4 ≠ 0)))

/-- The bits of a frame on the trunk and the row of its fields are one event: MALFORMED_FRAME given the bits of a well-formed
frame, in tolerance, does what the row of that frame does, whatever its urgency and at every moment (R7, R8, R13, R15). That
MALFORMED_FRAME takes such bits at all is the model's choice (log entry 25). -/
def Obligations.RawBitsAreTheTypedRow : Prop :=
  ∀ (s : State) (p : Station) (urgent : Bool) (periods : List Nat) (moment : RxMoment),
    (∀ x ∈ periods, 3 * Config.bitTimeNs s.tif.rate ≤ 4 * x ∧ 2 * x ≤ 3 * Config.bitTimeNs s.tif.rate) →
    let raw (dest : Station) (tag : Tag) (c : Content) : Host.Outcome State Fault Refusal :=
      exec (.malformedFrame ((Message.mk p dest tag c).frame urgent).bits periods moment) s
    raw 31 0 .sync = exec (.syncReceived p moment) s ∧
    (∀ w ps, ps.length ≤ 4 → raw 31 0 (.roster w ps) = exec (.rosterReceived p w ps moment) s) ∧
    (∀ b d, raw 31 0 (.claim b d) = exec (.claimReceived p b d moment) s) ∧
    (∀ b, raw 31 0 (.release b) = exec (.releaseReceived p b moment) s) ∧
    (∀ w, raw 31 0 (.evict w) = exec (.evictReceived p w moment) s) ∧
    raw 31 0 .bye = exec (.byeReceived p moment) s ∧
    (∀ tag b, (Content.request b).body.length ≤ 17 →
      raw s.mc.sid tag (.request b) = exec (.requestReceived p tag b moment) s) ∧
    (∀ tag b, (Content.response b).body.length ≤ 16 →
      raw s.mc.sid tag (.response b) = exec (.responseReceived p tag b moment) s) ∧
    (∀ v, raw s.mc.sid 0 (.signal v) = exec (.signalReceived p false v moment) s) ∧
    (∀ v, raw 31 0 (.signal v) = exec (.signalReceived p true v moment) s) ∧
    (∀ d u, u.content.body.length ≤ 17 →
      raw d u.tag u.content = exec (.frameForAnotherStation p d u moment) s)

/-! ### The RQ head and the timers -/

/-- HEAD_PREPARATION: a WAITING head stays WAITING while the state, the CQ sum or the tags forbid it, and a prepared head is
not prepared again; otherwise it is routed, and a READ or CWRITE takes the lowest FREE tag, or is completed NO_WINDOW,
LOCAL_WINDOW or NO_PEER, and the next descriptor is prepared in its turn (R99, R101 to R105). -/
def Obligations.HeadPreparation : Prop :=
  ∀ (s : State) (d : Descriptor) (ds : List Descriptor), s.resetAsserted = false → s.ore.rq = d :: ds →
    let prepares : Prop := s.mc.state = .claiming ∨ s.mc.state = .joined ∨ s.mc.state = .leaving
    let lowest (t : Tag) : Prop := s.ore.ort.at t = .free ∧ ∀ k : Tag, k.toNat < t.toNat → s.ore.ort.at k ≠ .free
    let runs (o : Ore) : Prop := exec .headPreparation s = .next { s with ore := o }
    let readyFor (p : Station) (t : Option Tag) : PreparedHead := ⟨p, t, .ready, 0, Counts.zero⟩
    let completes (st : Status) (dest : Option Station) : Prop :=
      exec .headPreparation s = .next (State.followed { s with
        ore := { s.ore with rq := ds, cq := s.ore.cq ++ [⟨d.ticket, d.work.op, st, dest, []⟩] } })
    (s.ore.head.isSome = true ∨ ¬prepares ∨ 32 ≤ s.ore.cqSum ∨
        ((d.work.op = .read ∨ d.work.op = .cwrite) ∧ ∀ t, s.ore.ort.at t ≠ .free) →
      runs s.ore) ∧
    (s.ore.head = none → prepares → s.ore.cqSum < 32 →
      (∀ a n p t, d.work = .read a n → routeLookup s.wmu.map s.mc.sid a n = .owner p → lowest t →
        runs { s.ore with
          head := some (readyFor p (some t)), ort := s.ore.ort.put t (.pending ⟨false, p, n, d.ticket⟩) }) ∧
      (∀ a ws p t, d.work = .cwrite a ws → routeLookup s.wmu.map s.mc.sid a ws.length = .owner p → lowest t →
        runs { s.ore with
          head := some (readyFor p (some t)), ort := s.ore.ort.put t (.pending ⟨true, p, ws.length, d.ticket⟩) }) ∧
      (∀ a ws p, d.work = .write a ws → routeLookup s.wmu.map s.mc.sid a ws.length = .owner p →
        runs { s.ore with head := some (readyFor p none) }) ∧
      (∀ p v, d.work = .signal p v → p = 31 ∨ s.mc.peers.has p = true →
        runs { s.ore with head := some (readyFor p none) }) ∧
      (∀ a ws, d.work = .write a ws → routeLookup s.wmu.map s.mc.sid a ws.length = .none → completes .noWindow none) ∧
      (∀ a ws, d.work = .write a ws → routeLookup s.wmu.map s.mc.sid a ws.length = .self → completes .localWindow none) ∧
      (∀ a n t, d.work = .read a n → lowest t → routeLookup s.wmu.map s.mc.sid a n = .none → completes .noWindow none) ∧
      (∀ a n t, d.work = .read a n → lowest t → routeLookup s.wmu.map s.mc.sid a n = .self →
        completes .localWindow none) ∧
      (∀ a ws t, d.work = .cwrite a ws → lowest t → routeLookup s.wmu.map s.mc.sid a ws.length = .none →
        completes .noWindow none) ∧
      (∀ a ws t, d.work = .cwrite a ws → lowest t → routeLookup s.wmu.map s.mc.sid a ws.length = .self →
        completes .localWindow none) ∧
      (∀ p v, d.work = .signal p v → p ≠ 31 → s.mc.peers.has p = false → completes .noPeer (some p)))

/-- The expiries of a head's and a tag's timers, and a burst that is not a frame (R6, R36, R100, R124, R125): the holdoff
makes the head READY again; the response timer completes its SENT tag TIMEOUT and quarantines it for T_R; the quarantine
sets its tag FREE, and a head that waited for one may be prepared; a burst moves the receiver from READY to UNSYNCED and, in
every phase, ends the idle report (R5). An expiry of a timer that does not run is no event (log entry 2). -/
def Obligations.TimersOfTheRequests : Prop :=
  ∀ (s : State) (tag : Tag), s.resetAsserted = false →
    (∀ h, s.tif.holdoff.isSome = true → s.ore.head = some h → exec .holdoffExpiry s = .next { s with
      tif := { s.tif with holdoff := none }, ore := { s.ore with head := some { h with phase := .ready } } }) ∧
    (s.tif.holdoff = none → exec .holdoffExpiry s = .next s) ∧
    (∀ r x, s.ore.ort.at tag = .sent r (some x) →
      exec (.responseTimerExpiry tag) s = .next (State.byeTested { s with ore := { s.ore with
        cq := s.ore.cq ++ [⟨r.ticket, if r.cwrite then .cwrite else .read, .timeout, some r.dest, []⟩]
        ort := s.ore.ort.put tag
          (.quarantined r (some (Config.responseTimeoutNs s.lpu.setup.timeoutCode))) } })) ∧
    ((∀ r x, s.ore.ort.at tag ≠ .sent r (some x)) → exec (.responseTimerExpiry tag) s = .next s) ∧
    (∀ r x, s.ore.ort.at tag = .quarantined r (some x) →
      exec (.quarantineExpiry tag) s =
        .next (State.followed { s with ore := { s.ore with ort := s.ore.ort.put tag .free } })) ∧
    ((∀ r x, s.ore.ort.at tag ≠ .quarantined r (some x)) → exec (.quarantineExpiry tag) s = .next s) ∧
    (s.tif.receiver = .ready → exec .burstNotAFrame s = .next { s with
      tif := { s.tif with receiver := .unsynced, idleCount := 0 } }) ∧
    (s.tif.receiver ≠ .ready → exec .burstNotAFrame s = .next { s with tif := { s.tif with idleCount := 0 } })

/-- The settle timer in SYNCING (R55): the first and the second expiry set the SYNC flag when nobody has answered, else they
queue an EVICT of each station expected that has not answered; the timer restarts for 4 × T_R. The third is the FATAL fault
SYNC_INCOMPLETE; fault records that wait for the end of the frame on the trunk are appended before it, which is the model's
choice (log entry 10). An expiry outside SYNCING or of a stopped timer is no event, which the model deduces (log entry 2).
-/
def Obligations.SettleTimerExpiry : Prop :=
  ∀ s : State, s.resetAsserted = false →
    let again : Timer := some (4 * Config.responseTimeoutNs s.lpu.setup.timeoutCode)
    (s.mc.state = .syncing → s.mc.settle.isSome = true →
      (s.mc.attempts < 2 → s.mc.answered = StationSet.empty →
        exec .settleTimerExpiry s = .next { s with mc := { s.mc with
          attempts := s.mc.attempts + 1, settle := again, sync := some (s.mc.sync.getD ⟨0, 0, false⟩) } }) ∧
      (s.mc.attempts < 2 → s.mc.answered ≠ StationSet.empty →
        ∃ es, exec .settleTimerExpiry s = .next { s with mc := { s.mc with
            attempts := s.mc.attempts + 1, settle := again, evicts := es } } ∧
          (∀ d, (∃ e ∈ es, e.station = d) ↔
            (∃ e ∈ s.mc.evicts, e.station = d) ∨ (s.mc.expected.has d = true ∧ s.mc.answered.has d = false)) ∧
          (∀ e ∈ s.mc.evicts, e ∈ es) ∧ (∀ e ∈ es, e ∈ s.mc.evicts ∨ e.counts = ⟨0, 0, false⟩)) ∧
      (2 ≤ s.mc.attempts → ∃ t, exec .settleTimerExpiry s = .next t ∧
        { s with
          mc := { s.mc with attempts := s.mc.attempts + 1 }
          lpu := { s.lpu with faults := addFaults s.tif.due s.lpu.faults } }.faultedFrom
          ⟨.syncIncomplete, none, none, none, false⟩ t)) ∧
    (s.mc.state ≠ .syncing ∨ s.mc.settle = none → exec .settleTimerExpiry s = .next s)

/-- The leave deadline in LEAVING (R60, R75, R115, R128, R150): the RQ, the SQ and the ITT are emptied, PENDING and SENT tags go
FREE without completion, RELEASING records return to IDLE and no RELEASE stays queued, the BYE flag is set, and LEAVE ends
FORCED with its two counts; the CQ, the IQ, the NQ and the map stay, and a frame being received is marked (R138). An expiry
outside LEAVING or of a stopped timer is no event, which the model deduces (log entry 2). -/
def Obligations.LeaveDeadlineExpiry : Prop :=
  ∀ s : State, s.resetAsserted = false →
    (s.mc.state = .leaving → s.mc.deadline.isSome = true → s.lpu.running = some .leave → CompletionLaws s.ore →
      ∃ t, exec .leaveDeadlineExpiry s = .next t ∧
        t.mc = { s.mc with deadline := none, bye := some (s.mc.bye.getD Counts.zero) } ∧
        t.ore.rq = [] ∧ t.ore.head = none ∧ t.ore.cq = s.ore.cq ∧ t.ore.cqSum = s.ore.cq.length ∧
        (∀ tag, t.ore.ort.at tag =
          match s.ore.ort.at tag with
          | .quarantined r x => .quarantined r x
          | _ => .free) ∧
        (∀ h, t.isu.itt.at h = none) ∧ t.isu.sq = [] ∧ t.isu.iq = s.isu.iq ∧ t.isu.nq = s.isu.nq ∧
        t.wmu.map = s.wmu.map ∧ t.wmu.claim = s.wmu.claim ∧
        (∀ n, t.wmu.own.at n =
          ⟨if (s.wmu.own.at n).state = .releasing then .idle else (s.wmu.own.at n).state, none⟩) ∧
        t.tif.holdoff = none ∧ t.tif.rx = s.tif.rx.map (fun r => { r with deadlineSince := true }) ∧
        (∀ f, s.tif.flight = some f → t.tif.flight = some { f with discarded :=
          match f.source with
          | .rqHead | .sqHead | .release _ => true
          | _ => f.discarded }) ∧
        t.lpu = { s.lpu with
          running := none, cmdDone := true
          last := some ⟨.leave, .forced (s.ore.rq.length + s.ore.ort.count OrtEntry.isSent)
            (s.isu.itt.count Option.isSome)⟩ }) ∧
    (s.mc.state ≠ .leaving ∨ s.mc.deadline = none → exec .leaveDeadlineExpiry s = .next s)

/-! ### Lookups, the Fault List and the miss counters -/

/-- The route lookup and the ownership check (R78, R79): a range that runs past FFFF_FFFFh or lies wholly within no entry finds
none; within an entry it is routed to the entry's owner, or is the station's own; the station serves what lies within an own
entry whose record is HELD or RELEASING, a write only if the window is WRITABLE. -/
def Obligations.RouteAndOwnership : Prop :=
  (∀ (map : List MapEntry) (sid : Station) (a : Word) (n : Nat), MapLaws map → 1 ≤ n →
    let within (e : MapEntry) : Prop := e.base.toNat ≤ a.toNat ∧
      a.toNat + 4 * n ≤ e.base.toNat + 4096 * 2 ^ e.size.toNat ∧ a.toNat + 4 * n ≤ 4294967296
    ((∀ e ∈ map, ¬within e) → routeLookup map sid a n = .none) ∧
    (∀ e ∈ map, within e → routeLookup map sid a n = if e.owner = sid then .self else .owner e.owner)) ∧
  (∀ (s : State) (b : RequestBody), MapLaws s.wmu.map → 1 ≤ requestLength b →
    let a := (requestAddress b).toNat
    let bytes := 4 * requestLength b
    let own (e : MapEntry) : Prop := e ∈ s.wmu.map ∧ e.owner = s.mc.sid ∧
      (∃ n, ((s.wmu.own.at n).state = .held ∨ (s.wmu.own.at n).state = .releasing) ∧
        (s.lpu.setup.slots.at n).base = e.base) ∧
      e.base.toNat ≤ a ∧ a + bytes ≤ e.base.toNat + 4096 * 2 ^ e.size.toNat ∧ a + bytes ≤ 4294967296
    ((∀ e, ¬own e) → s.ownership b = .notOwner) ∧
    (∀ e, own e →
      (∀ x l, b = .read x l → s.ownership b = .serve) ∧
      (∀ x ds, b = .write x ds ∨ b = .cwrite x ds →
        s.ownership b = if e.writable then .serve else .readOnly)))

/-- The Fault List (R165, R166): below 8 records a new one joins at the newest end; at 8 a FATAL one replaces a newest record
that is not FATAL, with its overflow mark set, and any other is discarded, with the newest record's mark set; the seven older
records stay. -/
def Obligations.FaultListOverflow : Prop :=
  ∀ (r newest : FaultRecord) (older : List FaultRecord),
    (older.length < 8 → addFault r older = older ++ [r]) ∧
    (older.length = 7 →
      (r.kind.severity = .fatal → newest.kind.severity ≠ .fatal →
        addFault r (older ++ [newest]) = older ++ [{ r with overflow := true }]) ∧
      (r.kind.severity = .fatal → newest.kind.severity = .fatal →
        addFault r (older ++ [newest]) = older ++ [{ newest with overflow := true }]) ∧
      (r.kind.severity ≠ .fatal → addFault r (older ++ [newest]) = older ++ [{ newest with overflow := true }]))

/-- An own frame to p that ends UNANSWERED (R89, R90): the miss counter of p rises by 1; at 3 it returns to 0, and an EVICT of p
is queued with counts of 0 when p is in the peer set and none is pending; a pending one keeps its place and its counts, and
for a p not in the peer set nothing is queued. -/
def Obligations.MissCounterReachesThree : Prop :=
  ∀ (s : State) (f : Frame) (h : PreparedHead), s.sends .rqHead f → s.ore.rq ≠ [] → s.ore.head = some h →
    f.dest = h.dest → h.dest ≠ 31 → h.dest ≠ s.mc.sid →
    ∃ t, exec (.requestFrameOutcome (.endOfTrailer ⟨false, false, false⟩)) s = .next t ∧
      (s.mc.miss.at h.dest < 2 → t.mc.miss.at h.dest = s.mc.miss.at h.dest + 1 ∧ t.mc.evicts = s.mc.evicts) ∧
      (s.mc.miss.at h.dest = 2 →
        t.mc.miss.at h.dest = 0 ∧
        (s.mc.peers.has h.dest = true → (∀ e ∈ s.mc.evicts, e.station ≠ h.dest) →
          (∀ e, e ∈ t.mc.evicts ↔ e ∈ s.mc.evicts ∨ e = ⟨h.dest, ⟨0, 0, false⟩⟩)) ∧
        (s.mc.peers.has h.dest = true → MembershipLaws s.mc → (∃ e ∈ s.mc.evicts, e.station = h.dest) →
          t.mc.evicts = s.mc.evicts) ∧
        (s.mc.peers.has h.dest = false → t.mc.evicts = s.mc.evicts)) ∧
      (∀ q, q ≠ h.dest → t.mc.miss.at q = s.mc.miss.at q)

/-! ### The frame on the trunk -/

/-- What a station sends, a listener reads: the bits of a frame whose count is the length of its body read back as the frame
and its check, whatever bits follow (R7 to R9, R13, R14). -/
def Obligations.FrameReadsBack : Prop :=
  ∀ (f : Frame) (after : List Bool), f.count.toNat = f.body.length →
    Frame.read (f.bits ++ after) = some (f, f.check)

/-! ### The laws -/

/-- The laws hold at reset, and after RESET_N is released with any straps. -/
def Obligations.LawsHoldAtReset : Prop :=
  StationLaws State.reset ∧
  ∀ (sid : BitVec 5) (rate : BitVec 2) (s : State), ∃ t, exec (.resetNReleased sid rate) s = .next t ∧ StationLaws t

/-- Every step keeps the map at no more than 64 entries, in ascending base order, with no address in two of them and no more
than four of one owner (R65). It holds from every state, and not only from those a run reaches, by the guard of addEntry (log
entry 13, DEDUCED). Every step keeps each entry's owner in the peer set too (R65): in SYNCING without condition, since a
claimant and the source of a ROSTER join it (R53, R76); elsewhere where the entries the step adds are of peers, as they are of
stations whose SYNC was taken; ControlLaws, kept as ControlLawsKept says, rule out that one end of trailer abandons an own SYNC
and applies an accepted frame. That in LEAVING a CLAIM of a station still unknown is added all the same is the model's reading
(log entry 36). -/
def Obligations.MapLawsKept : Prop :=
  (∀ s t : State, step s = .next t → MapLaws s.wmu.map → MapLaws t.wmu.map) ∧
  (∀ s t : State, step s = .next t → MembershipLaws s.mc → ControlLaws s → s.ownersPresent →
    s.mc.state = .syncing ∨ (∀ e ∈ t.wmu.map, e ∈ s.wmu.map ∨ s.mc.peers.has e.owner = true) → t.ownersPresent)

/-- Every step keeps records plus reservations at no more than 32 and the PENDING entry that of the prepared head (R99, R102,
R104, R118). -/
def Obligations.CompletionLawsKept : Prop :=
  ∀ s t : State, step s = .next t → CompletionLaws s.ore → CompletionLaws t.ore

/-- Every step keeps each ANSWERING entry with exactly one SQ record and each SQ record with its entry (R142), and the IQ and
the NQ within their depths with a slot for what was accepted (R138, R140, R154, R155). -/
def Obligations.ServiceLawsKept : Prop :=
  ∀ s t : State, step s = .next t →
    (ResponseLaws s.isu → ResponseLaws t.isu) ∧ (InboundLaws s.tif s.isu → InboundLaws t.tif t.isu)

/-- Every step keeps the own number in the peer set exactly while the station is a member, the pending EVICTs in order and
without it, and the miss counters below 3 (R24, R48, R53, R89 to R91). -/
def Obligations.MembershipLawsKept : Prop :=
  ∀ s t : State, step s = .next t → MembershipLaws s.mc → MembershipLaws t.mc

/-- Every step keeps what the state, the command in progress, the timers, the receiver, the frame being received and the
frame in flight say of one another (R6, R17, R21, R29, R35 to R37, R41 to R44, R52, R57 to R61, R115, R150, R158, R163). That
what an abandoned frame is owed after a collision waits for the end of the frame on the trunk, a BYE with its flag set and 8
voids, is the model's reading, with a choice for a frame cut off (log entry 10), and that DETACHED drops the ITT and the SQ too
(log entry 27). -/
def Obligations.ControlLawsKept : Prop :=
  ∀ s t : State, step s = .next t → ControlLaws s → ControlLaws t

end
end

