-- ==== Sys2Proof/Laws/Bank.lean ====
section
/-! SUPPORT. What reading, writing, mapping, counting and searching a bank give. -/

namespace Sys2Proof

/-- Two banks that agree at every index are equal. -/
theorem Bank.ext_at {w : Nat} {α : Type} {a b : Bank w α} (h : ∀ i, a.at i = b.at i) : a = b := by
  cases a with
  | mk xs hx =>
    cases b with
    | mk ys hy =>
      simp only [Bank.mk.injEq]
      apply List.ext_getElem (by rw [hx, hy])
      intro n h₁ h₂
      have hn : n < 2 ^ w := by rw [← hx]; exact h₁
      have := h (BitVec.ofNat w n)
      simpa [Bank.at, BitVec.toNat_ofNat, Nat.mod_eq_of_lt hn] using this

/-- Reading after a write. -/
theorem Bank.at_put {w : Nat} {α : Type} (b : Bank w α) (i j : BitVec w) (x : α) :
    (b.put i x).at j = if i = j then x else b.at j := by
  simp only [Bank.at, Bank.put, List.getElem_set, BitVec.toNat_inj]

/-- Reading where it was written. -/
@[simp] theorem Bank.at_put_same {w : Nat} {α : Type} (b : Bank w α) (i : BitVec w) (x : α) :
    (b.put i x).at i = x := by simp [Bank.at_put]

/-- Reading elsewhere. -/
theorem Bank.at_put_ne {w : Nat} {α : Type} (b : Bank w α) {i j : BitVec w} (x : α) (h : i ≠ j) :
    (b.put i x).at j = b.at j := by simp [Bank.at_put, h]

/-- The later of two writes to one cell counts. -/
@[simp] theorem Bank.put_put {w : Nat} {α : Type} (b : Bank w α) (i : BitVec w) (x y : α) :
    (b.put i x).put i y = b.put i y := by
  apply Bank.ext_at; intro j; by_cases h : i = j <;> simp [Bank.at_put, h]

/-- Writing back what stands there changes nothing. -/
@[simp] theorem Bank.put_at {w : Nat} {α : Type} (b : Bank w α) (i : BitVec w) : b.put i (b.at i) = b := by
  apply Bank.ext_at; intro j; by_cases h : i = j <;> simp [Bank.at_put, h]

/-- Reading a mapped bank. -/
@[simp] theorem Bank.at_map {w : Nat} {α β : Type} (f : α → β) (b : Bank w α) (i : BitVec w) :
    (b.map f).at i = f (b.at i) := by simp [Bank.at, Bank.map]

/-- Reading a bank of equal cells. -/
@[simp] theorem Bank.at_all {w : Nat} {α : Type} (x : α) (i : BitVec w) : (Bank.all w x).at i = x := by
  simp [Bank.at, Bank.all]

/-- Every index is among the indices. -/
@[simp] theorem Bank.mem_indices {w : Nat} (i : BitVec w) : i ∈ Bank.indices w := by
  simp only [Bank.indices, List.mem_map, List.mem_range]
  exact ⟨i.toNat, i.isLt, by simp⟩

/-- The indices are in ascending order. -/
theorem Bank.indices_ascending (w : Nat) : (Bank.indices w).Pairwise (fun i j => i.toNat < j.toNat) := by
  simp only [Bank.indices, List.pairwise_map]
  refine List.Pairwise.imp_of_mem ?_ (List.pairwise_lt_range (n := 2 ^ w))
  intro a b ha hb hab
  have ha' := List.mem_range.mp ha
  have hb' := List.mem_range.mp hb
  simpa [BitVec.toNat_ofNat, Nat.mod_eq_of_lt ha', Nat.mod_eq_of_lt hb'] using hab

/-- The cells are what the indices read, in ascending order. -/
theorem Bank.cells_eq {w : Nat} {α : Type} (b : Bank w α) : b.cells = (Bank.indices w).map b.at := by
  apply List.ext_getElem
  · simp [Bank.indices, b.size]
  · intro n h₁ h₂
    have hn : n < 2 ^ w := by rw [← b.size]; exact h₁
    simp [Bank.indices, Bank.at, BitVec.toNat_ofNat, Nat.mod_eq_of_lt hn]

/-- A count is one over the indices. -/
theorem Bank.count_eq {w : Nat} {α : Type} (p : α → Bool) (b : Bank w α) :
    b.count p = (Bank.indices w).countP (fun i => p (b.at i)) := by
  rw [Bank.count, Bank.cells_eq, List.countP_map]; rfl

/-- Nothing counts exactly where no cell satisfies p. -/
theorem Bank.count_eq_zero {w : Nat} {α : Type} (p : α → Bool) (b : Bank w α) :
    b.count p = 0 ↔ ∀ i, p (b.at i) = false := by
  rw [Bank.count_eq, List.countP_eq_zero]
  simp

/-- Cells that agree on p count alike. -/
theorem Bank.count_congr {w : Nat} {α β : Type} {p : α → Bool} {q : β → Bool} {a : Bank w α} {b : Bank w β}
    (h : ∀ i, p (a.at i) = q (b.at i)) : a.count p = b.count q := by
  rw [Bank.count_eq, Bank.count_eq]; simp only [h]

/-- A write changes a count by what it changes at its cell. -/
theorem Bank.count_put {w : Nat} {α : Type} (p : α → Bool) (b : Bank w α) (i : BitVec w) (x : α) :
    (b.put i x).count p + (p (b.at i)).toNat = b.count p + (p x).toNat := by
  have h : i.toNat < b.cells.length := by rw [b.size]; exact i.isLt
  have hs : b.cells = b.cells.take i.toNat ++ b.cells[i.toNat] :: b.cells.drop (i.toNat + 1) := by
    rw [List.getElem_cons_drop, List.take_append_drop]
  simp only [Bank.count, Bank.put, Bank.at]
  rw [List.set_eq_take_append_cons_drop, if_pos h]
  conv => rhs; rw [hs]
  simp only [List.countP_append, List.countP_cons]
  cases p x <;> cases p b.cells[i.toNat] <;> simp <;> omega

/-- Nothing is found exactly where no cell satisfies p. -/
theorem Bank.lowest_eq_none {w : Nat} {α : Type} (p : α → Bool) (b : Bank w α) :
    b.lowest p = none ↔ ∀ i, p (b.at i) = false := by
  simp [Bank.lowest, List.find?_eq_none]

/-- What is found satisfies p, and nothing below it does. -/
theorem Bank.lowest_eq_some {w : Nat} {α : Type} (p : α → Bool) (b : Bank w α) (i : BitVec w) :
    b.lowest p = some i ↔ p (b.at i) = true ∧ ∀ j, j.toNat < i.toNat → p (b.at j) = false := by
  rw [Bank.lowest, List.find?_eq_some_iff_append]
  constructor
  · rintro ⟨hp, as, bs, heq, hno⟩
    refine ⟨hp, fun j hj => ?_⟩
    have hmem : j ∈ Bank.indices w := Bank.mem_indices j
    rw [heq, List.mem_append] at hmem
    rcases hmem with hm | hm
    · simpa using hno j hm
    · have hpw := Bank.indices_ascending w
      rw [heq, List.pairwise_append] at hpw
      have hc := hpw.2.1
      rw [List.pairwise_cons] at hc
      rcases List.mem_cons.mp hm with rfl | hm'
      · omega
      · have := hc.1 j hm'; omega
  · rintro ⟨hp, hno⟩
    refine ⟨hp, ?_⟩
    obtain ⟨as, bs, heq⟩ := List.append_of_mem (Bank.mem_indices i)
    refine ⟨as, bs, heq, fun j hj => ?_⟩
    have hpw := Bank.indices_ascending w
    rw [heq, List.pairwise_append] at hpw
    have := hpw.2.2 j hj i (by simp)
    simp [hno j this]

end Sys2Proof
end

