-- ==== Sys2Proof/Laws/Isu.lean ====
section
/-! SUPPORT. The ITT and the SQ: what a push, a pop, a departure, a FLUSH start and the leave deadline do, and that they keep
the response laws. -/

namespace Sys2Proof.Machine

/-- No entry ANSWERING and no record: the laws hold. -/
theorem ResponseLaws.of_empty {i : Isu} (hs : i.sq = []) (hi : ∀ h e, i.itt.at h = some e → e.state ≠ .answering) :
    ResponseLaws i :=
  ⟨by simp [hs], by simp [hs], fun h e he ha => absurd ha (hi h e he)⟩

/-- The laws speak of the ITT and the SQ alone. -/
theorem ResponseLaws.congr {i j : Isu} (h : ResponseLaws i) (hs : j.sq = i.sq) (ht : j.itt = i.itt) : ResponseLaws j :=
  ⟨by rw [hs]; exact h.distinct, by rw [hs, ht]; exact h.answering, by rw [hs, ht]; exact h.recorded⟩

/-- A handle in another state than ANSWERING has no record. -/
theorem ResponseLaws.no_record {i : Isu} (hl : ResponseLaws i) {h : Handle}
    (hn : ∀ e, i.itt.at h = some e → e.state ≠ .answering) : ∀ r ∈ i.sq, r.handle ≠ h := by
  rintro r hr rfl
  obtain ⟨e, he, ha, _⟩ := hl.answering r hr
  exact hn e he ha

/-- A change among entries that are not ANSWERING keeps the laws. -/
theorem ResponseLaws.put {i : Isu} (hl : ResponseLaws i) {h : Handle} {x : IttEntry}
    (hn : ∀ e, i.itt.at h = some e → e.state ≠ .answering) (hx : ∀ e, x = some e → e.state ≠ .answering) :
    ResponseLaws { i with itt := i.itt.put h x } := by
  have hne := hl.no_record hn
  refine ⟨hl.distinct, fun r hr => ?_, fun k e he ha => ?_⟩
  · rw [Bank.at_put_ne _ _ (Ne.symm (hne r hr))]
    exact hl.answering r hr
  · by_cases hk : h = k
    · subst hk; rw [Bank.at_put_same] at he; exact absurd ha (hx e he)
    · rw [Bank.at_put_ne _ _ hk] at he; exact hl.recorded k e he ha

/-- An entry that goes to ANSWERING together with its record keeps the laws. -/
theorem ResponseLaws.push {i : Isu} (hl : ResponseLaws i) {r : SqRecord} {e : IttRecord}
    (hn : ∀ e, i.itt.at r.handle = some e → e.state ≠ .answering) (ha : e.state = .answering)
    (hs : e.source = r.dest) (ht : e.tag = r.tag) :
    ResponseLaws (({ i with itt := i.itt.put r.handle (some e) } : Isu).pushSq r) := by
  have hne := hl.no_record hn
  refine ⟨?_, fun x hx => ?_, fun k y hy hya => ?_⟩
  · simp only [Isu.pushSq, List.map_append, List.map_cons, List.map_nil]
    rw [List.nodup_append]
    refine ⟨hl.distinct, by simp, ?_⟩
    intro a ha' b hb
    obtain ⟨x, hx, rfl⟩ := List.mem_map.mp ha'
    rw [List.mem_singleton] at hb
    subst hb
    exact hne x hx
  · simp only [Isu.pushSq, List.mem_append, List.mem_singleton] at hx ⊢
    rcases hx with hx | rfl
    · rw [Bank.at_put_ne _ _ (Ne.symm (hne x hx))]; exact hl.answering x hx
    · exact ⟨e, Bank.at_put_same _ _ _, ha, hs, ht⟩
  · simp only [Isu.pushSq, List.mem_append, List.mem_singleton] at hy ⊢
    by_cases hk : r.handle = k
    · exact ⟨r, Or.inr rfl, hk⟩
    · rw [Bank.at_put_ne _ _ hk] at hy
      obtain ⟨x, hx, hxk⟩ := hl.recorded k y hy hya
      exact ⟨x, Or.inl hx, hxk⟩

/-- The removal of the SQ head keeps the laws. -/
theorem ResponseLaws.pop {i : Isu} (hl : ResponseLaws i) : ResponseLaws i.popSq := by
  rw [Isu.popSq]
  cases hs : i.sq with
  | nil => exact hl
  | cons r rs =>
    have hd := hl.distinct
    rw [hs, List.map_cons, List.nodup_cons] at hd
    have hne : ∀ x ∈ rs, x.handle ≠ r.handle := fun x hx heq => hd.1 (heq ▸ List.mem_map_of_mem hx)
    refine ⟨hd.2, fun x hx => ?_, fun k e he ha => ?_⟩
    · rw [Bank.at_put_ne _ _ (Ne.symm (hne x hx))]
      exact hl.answering x (by rw [hs]; simp [hx])
    · by_cases hk : r.handle = k
      · subst hk; rw [Bank.at_put_same] at he; cases he
      · rw [Bank.at_put_ne _ _ hk] at he
        obtain ⟨x, hx, hxk⟩ := hl.recorded k e he ha
        rw [hs, List.mem_cons] at hx
        rcases hx with rfl | hx
        · exact absurd hxk hk
        · exact ⟨x, hx, hxk⟩

/-- The departure of a requester keeps the laws. -/
theorem ResponseLaws.departure (d : Station) {i : Isu} (hl : ResponseLaws i) : ResponseLaws (i.departure d) := by
  refine ⟨?_, fun r hr => ?_, fun h e he ha => ?_⟩
  · exact hl.distinct.sublist (List.Sublist.map _ List.filter_sublist)
  · simp only [Isu.departure, List.mem_filter, Bool.not_eq_true'] at hr
    obtain ⟨e, he, ha, hs, ht⟩ := hl.answering r hr.1
    have hne : e.source ≠ d := by
      rintro rfl
      simp [answeringTo, he, ha] at hr
    exact ⟨e, by simp [Isu.departure, departEntry, he, hne], ha, hs, ht⟩
  · simp only [Isu.departure, Bank.at_map] at he
    cases hx : i.itt.at h with
    | none => simp [hx, departEntry] at he
    | some x =>
      have hxs : x.state = .answering ∧ x.source ≠ d := by
        by_cases hsrc : x.source = d
        · by_cases hst : x.state = .answering
          · simp [hx, departEntry, hsrc, hst] at he
          · simp only [hx, departEntry, hsrc, if_true, hst, if_false, Option.some.injEq] at he
            rw [← he] at ha; exact absurd ha hst
        · simp only [hx, departEntry, hsrc, if_false, Option.some.injEq] at he
          rw [← he] at ha; exact ⟨ha, hsrc⟩
      obtain ⟨r, hr, hrh⟩ := hl.recorded h x hx hxs.1
      refine ⟨r, ?_, hrh⟩
      simp only [Isu.departure, List.mem_filter, hr, true_and]
      rw [hrh, hx]
      simp [answeringTo, hxs.2]

/-- The leave deadline and the entry into DETACHED keep the laws. -/
theorem ResponseLaws.dropService (i : Isu) : ResponseLaws i.dropService :=
  ResponseLaws.of_empty rfl (by simp [Isu.dropService])

/-- What dropping the service leaves: no live entry, no response, the two inbound queues as they were. -/
@[simp] theorem Isu.dropService_fields (i : Isu) :
    i.dropService.sq = [] ∧ (∀ h, i.dropService.itt.at h = none) ∧ i.dropService.sqCounts = Counts.zero ∧
    i.dropService.iq = i.iq ∧ i.dropService.nq = i.nq := by simp [Isu.dropService]

/-- What a FLUSH start appends: for each handle not yet answered and not orphaned, its FLUSHED record. -/
theorem flushedRecord_eq_some (i : Isu) (h : Handle) (r : SqRecord) :
    flushedRecord i h = some r ↔ ∃ e, i.itt.at h = some e ∧ e.state ≠ .answering ∧ e.orphaned = false ∧
      r = ⟨h, e.source, e.tag, .fail 11⟩ := by
  rw [flushedRecord]
  cases hx : i.itt.at h with
  | none => simp
  | some e =>
    by_cases hc : e.state = .answering ∨ e.orphaned = true
    · simp only [hc, if_true, Option.some.injEq]
      constructor
      · intro hh; cases hh
      · rintro ⟨x, rfl, h1, h2, _⟩
        rcases hc with hc | hc
        · exact absurd hc h1
        · rw [hc] at h2; cases h2
    · simp only [hc, if_false, Option.some.injEq, exists_eq_left']
      push Not at hc
      constructor
      · rintro rfl; exact ⟨hc.1, by simpa using hc.2, rfl⟩
      · rintro ⟨_, _, rfl⟩; rfl

/-- A FLUSH start keeps the laws. -/
theorem ResponseLaws.flush {i : Isu} (hl : ResponseLaws i) : ResponseLaws i.flush := by
  have hold : ∀ {h : Handle} {e : IttRecord}, i.itt.at h = some e → e.state = .answering →
      i.flush.itt.at h = some e := by
    intro h e he ha
    simp [Isu.flush, flushEntry, he, ha]
  refine ⟨?_, fun r hr => ?_, fun h e he ha => ?_⟩
  · simp only [Isu.flush, List.map_append]
    rw [List.nodup_append]
    refine ⟨hl.distinct, ?_, ?_⟩
    · rw [List.map_filterMap]
      have hasc : (Bank.indices 4).Nodup :=
        (Bank.indices_ascending 4).imp (fun hab heq => by rw [heq] at hab; exact lt_irrefl _ hab)
      refine hasc.filterMap ?_
      intro a b c ha hb
      simp only [Option.mem_def, Option.map_eq_some_iff] at ha hb
      obtain ⟨x, hx, rfl⟩ := ha
      obtain ⟨y, hy, hxy⟩ := hb
      obtain ⟨_, _, _, _, rfl⟩ := (flushedRecord_eq_some i a x).mp hx
      obtain ⟨_, _, _, _, rfl⟩ := (flushedRecord_eq_some i b y).mp hy
      exact hxy.symm
    · intro a ha b hb
      obtain ⟨x, hx, rfl⟩ := List.mem_map.mp ha
      obtain ⟨y, hy, rfl⟩ := List.mem_map.mp hb
      obtain ⟨k, _, hk⟩ := List.mem_filterMap.mp hy
      obtain ⟨e, he, hne, _, rfl⟩ := (flushedRecord_eq_some i k y).mp hk
      exact hl.no_record (fun z hz => by rw [he] at hz; cases hz; exact hne) x hx
  · simp only [Isu.flush, List.mem_append, List.mem_filterMap] at hr
    rcases hr with hr | ⟨k, _, hk⟩
    · obtain ⟨e, he, ha, hs, ht⟩ := hl.answering r hr
      exact ⟨e, hold he ha, ha, hs, ht⟩
    · obtain ⟨e, he, hne, ho, rfl⟩ := (flushedRecord_eq_some i k r).mp hk
      exact ⟨{ e with state := .answering }, by simp [Isu.flush, flushEntry, he, hne, ho], rfl, rfl, rfl⟩
  · simp only [Isu.flush, Bank.at_map] at he
    cases hx : i.itt.at h with
    | none => simp [hx, flushEntry] at he
    | some x =>
      by_cases hst : x.state = .answering
      · obtain ⟨r, hr, hrh⟩ := hl.recorded h x hx hst
        exact ⟨r, by simp [Isu.flush, hr], hrh⟩
      · by_cases ho : x.orphaned = true
        · simp [hx, flushEntry, hst, ho] at he
        · refine ⟨_, List.mem_append_right _ (List.mem_filterMap.mpr ⟨h, Bank.mem_indices h,
            (flushedRecord_eq_some i h _).mpr ⟨x, hx, hst, by simpa using ho, rfl⟩⟩), rfl⟩

end Sys2Proof.Machine
end

