-- ==== Sys2Proof/Laws/Sets.lean ====
section
/-! SUPPORT. Membership in sets of station numbers after each operation. -/

namespace Sys2Proof.StationSet

/-- Two sets with the same stations are equal. -/
theorem ext_has {s t : StationSet} (h : ∀ n, s.has n = t.has n) : s = t := by
  apply BitVec.eq_of_getLsbD_eq
  intro i hi
  simpa [has, BitVec.toNat_ofNat, Nat.mod_eq_of_lt hi] using h (BitVec.ofNat 5 i)

@[simp] theorem has_empty (n : Station) : has empty n = false := by simp [has, empty]

@[simp] theorem has_single (m n : Station) : has (single m) n = decide (m = n) := by
  have := n.isLt
  simp only [has, single, BitVec.getLsbD_twoPow, ← BitVec.toNat_inj]
  by_cases h : m.toNat = n.toNat
  · simp [h, n.isLt]
  · simp [h]

@[simp] theorem has_union (s t : StationSet) (n : Station) : has (union s t) n = (has s n || has t n) := by
  simp [has, union]

@[simp] theorem has_minus (s t : StationSet) (n : Station) : has (minus s t) n = (has s n && !has t n) := by
  simp only [has, minus, BitVec.getLsbD_and, BitVec.getLsbD_not, decide_eq_true n.isLt, Bool.true_and]

@[simp] theorem has_insert (s : StationSet) (m n : Station) : has (insert s m) n = (has s n || decide (m = n)) := by
  simp [insert]

@[simp] theorem has_erase (s : StationSet) (m n : Station) : has (erase s m) n = (has s n && !decide (m = n)) := by
  simp [erase]

/-- The stations of the list are those of the set. -/
@[simp] theorem mem_toList (s : StationSet) (n : Station) : n ∈ toList s ↔ has s n = true := by simp [toList]

/-- A set without stations is empty. -/
theorem eq_empty_iff (s : StationSet) : s = empty ↔ ∀ n, has s n = false :=
  ⟨fun h n => by rw [h]; simp, fun h => ext_has (fun n => by rw [h n, has_empty])⟩

/-- A peer word names stations 1-30 by its bits. -/
theorem has_ofPeerWord (w : Word) (n : Station) :
    has (ofPeerWord w) n = (w.getLsbD n.toNat && decide (n ≠ 0 ∧ n ≠ 31)) := by
  have key : ∀ n : Station, (0x7FFFFFFE : Word).getLsbD n.toNat = decide (n ≠ 0 ∧ n ≠ 31) := by decide
  simp only [has, ofPeerWord, BitVec.getLsbD_and, key]

end Sys2Proof.StationSet
end

