-- ==== Sys2Proof/Laws/State.lean ====
section
/-! SUPPORT. What each shared update of the state leaves as it was, field by field, and what it writes. -/

namespace Sys2Proof.Machine

/-! ### Updates of the LPU alone -/

/-- A fault record touches the LPU alone. -/
@[simp] theorem State.fault_frame (k : FaultKind) (a : Option Station) (b : Option (BitVec 5)) (c : Option Word)
    (s : State) :
    (s.fault k a b c).resetAsserted = s.resetAsserted ∧ (s.fault k a b c).tif = s.tif ∧
    (s.fault k a b c).mc = s.mc ∧ (s.fault k a b c).wmu = s.wmu ∧ (s.fault k a b c).ore = s.ore ∧
    (s.fault k a b c).isu = s.isu ∧ (s.fault k a b c).freeUsed = s.freeUsed ∧ (s.fault k a b c).pending = s.pending :=
  ⟨rfl, rfl, rfl, rfl, rfl, rfl, rfl, rfl⟩

/-- A fault record joins the list. -/
@[simp] theorem State.fault_lpu (k : FaultKind) (a : Option Station) (b : Option (BitVec 5)) (c : Option Word)
    (s : State) :
    (s.fault k a b c).lpu = { s.lpu with faults := addFault ⟨k, a, b, c, false⟩ s.lpu.faults } := rfl

/-- The end of a command touches the LPU alone. -/
@[simp] theorem State.finish_frame (r : CommandResult) (s : State) :
    (s.finish r).resetAsserted = s.resetAsserted ∧ (s.finish r).tif = s.tif ∧ (s.finish r).mc = s.mc ∧
    (s.finish r).wmu = s.wmu ∧ (s.finish r).ore = s.ore ∧ (s.finish r).isu = s.isu ∧
    (s.finish r).freeUsed = s.freeUsed ∧ (s.finish r).pending = s.pending := by
  simp only [State.finish]; cases s.lpu.running <;> exact ⟨rfl, rfl, rfl, rfl, rfl, rfl, rfl, rfl⟩

/-- The end of a command: it is the last command, and CMD_DONE is set; with none in progress nothing happens. -/
theorem State.finish_lpu (r : CommandResult) (s : State) :
    (s.finish r).lpu = match s.lpu.running with
      | none => s.lpu
      | some c => { s.lpu with running := none, last := some ⟨c, r⟩, cmdDone := true } := by
  simp only [State.finish]; cases s.lpu.running <;> rfl

/-- The end of a command writes three fields of the LPU. -/
@[simp] theorem State.finish_lpu_frame (r : CommandResult) (s : State) :
    (s.finish r).lpu.faults = s.lpu.faults ∧ (s.finish r).lpu.setup = s.lpu.setup ∧
    (s.finish r).lpu.locked = s.lpu.locked ∧ (s.finish r).lpu.results = s.lpu.results ∧
    (s.finish r).lpu.rqStage = s.lpu.rqStage ∧ (s.finish r).lpu.sqStage = s.lpu.sqStage ∧
    (s.finish r).lpu.enables = s.lpu.enables ∧ (s.finish r).lpu.masks = s.lpu.masks ∧
    (s.finish r).lpu.stateChange = s.lpu.stateChange ∧ (s.finish r).lpu.running = none := by
  simp only [State.finish]; cases h : s.lpu.running <;> simp [h]

/-- A refused command touches the LPU alone. -/
@[simp] theorem State.refuse_frame (c : Command) (r : CommandResult) (s : State) :
    (s.refuse c r).resetAsserted = s.resetAsserted ∧ (s.refuse c r).tif = s.tif ∧ (s.refuse c r).mc = s.mc ∧
    (s.refuse c r).wmu = s.wmu ∧ (s.refuse c r).ore = s.ore ∧ (s.refuse c r).isu = s.isu ∧
    (s.refuse c r).freeUsed = s.freeUsed ∧ (s.refuse c r).pending = s.pending :=
  ⟨rfl, rfl, rfl, rfl, rfl, rfl, rfl, rfl⟩

/-- The acceptance of a command touches the LPU alone. -/
@[simp] theorem State.accept_frame (c : Command) (s : State) :
    (s.accept c).resetAsserted = s.resetAsserted ∧ (s.accept c).tif = s.tif ∧ (s.accept c).mc = s.mc ∧
    (s.accept c).wmu = s.wmu ∧ (s.accept c).ore = s.ore ∧ (s.accept c).isu = s.isu ∧
    (s.accept c).freeUsed = s.freeUsed ∧ (s.accept c).pending = s.pending :=
  ⟨rfl, rfl, rfl, rfl, rfl, rfl, rfl, rfl⟩

/-- An accepted command is the one in progress. -/
@[simp] theorem State.accept_lpu (c : Command) (s : State) :
    (s.accept c).lpu = { s.lpu with running := some c } := rfl

/-- The RQ result touches the LPU alone. -/
@[simp] theorem State.rqResult_frame (r : PortResult) (s : State) :
    (s.rqResult r).resetAsserted = s.resetAsserted ∧ (s.rqResult r).tif = s.tif ∧ (s.rqResult r).mc = s.mc ∧
    (s.rqResult r).wmu = s.wmu ∧ (s.rqResult r).ore = s.ore ∧ (s.rqResult r).isu = s.isu ∧
    (s.rqResult r).freeUsed = s.freeUsed ∧ (s.rqResult r).pending = s.pending :=
  ⟨rfl, rfl, rfl, rfl, rfl, rfl, rfl, rfl⟩

/-- The RQ result is recorded in its own field. -/
@[simp] theorem State.rqResult_lpu (r : PortResult) (s : State) :
    (s.rqResult r).lpu = { s.lpu with results := { s.lpu.results with rq := r } } := rfl

/-- The SQ result touches the LPU alone. -/
@[simp] theorem State.sqResult_frame (r : PortResult) (s : State) :
    (s.sqResult r).resetAsserted = s.resetAsserted ∧ (s.sqResult r).tif = s.tif ∧ (s.sqResult r).mc = s.mc ∧
    (s.sqResult r).wmu = s.wmu ∧ (s.sqResult r).ore = s.ore ∧ (s.sqResult r).isu = s.isu ∧
    (s.sqResult r).freeUsed = s.freeUsed ∧ (s.sqResult r).pending = s.pending :=
  ⟨rfl, rfl, rfl, rfl, rfl, rfl, rfl, rfl⟩

/-- The SQ result is recorded in its own field. -/
@[simp] theorem State.sqResult_lpu (r : PortResult) (s : State) :
    (s.sqResult r).lpu = { s.lpu with results := { s.lpu.results with sq := r } } := rfl

/-- The CQ result touches the LPU alone. -/
@[simp] theorem State.cqResult_frame (r : PortResult) (s : State) :
    (s.cqResult r).resetAsserted = s.resetAsserted ∧ (s.cqResult r).tif = s.tif ∧ (s.cqResult r).mc = s.mc ∧
    (s.cqResult r).wmu = s.wmu ∧ (s.cqResult r).ore = s.ore ∧ (s.cqResult r).isu = s.isu ∧
    (s.cqResult r).freeUsed = s.freeUsed ∧ (s.cqResult r).pending = s.pending :=
  ⟨rfl, rfl, rfl, rfl, rfl, rfl, rfl, rfl⟩

/-- The CQ result is recorded in its own field. -/
@[simp] theorem State.cqResult_lpu (r : PortResult) (s : State) :
    (s.cqResult r).lpu = { s.lpu with results := { s.lpu.results with cq := r } } := rfl

/-- The IQ result touches the LPU alone. -/
@[simp] theorem State.iqResult_frame (r : PortResult) (s : State) :
    (s.iqResult r).resetAsserted = s.resetAsserted ∧ (s.iqResult r).tif = s.tif ∧ (s.iqResult r).mc = s.mc ∧
    (s.iqResult r).wmu = s.wmu ∧ (s.iqResult r).ore = s.ore ∧ (s.iqResult r).isu = s.isu ∧
    (s.iqResult r).freeUsed = s.freeUsed ∧ (s.iqResult r).pending = s.pending :=
  ⟨rfl, rfl, rfl, rfl, rfl, rfl, rfl, rfl⟩

/-- The IQ result is recorded in its own field. -/
@[simp] theorem State.iqResult_lpu (r : PortResult) (s : State) :
    (s.iqResult r).lpu = { s.lpu with results := { s.lpu.results with iq := r } } := rfl

/-- The NQ result touches the LPU alone. -/
@[simp] theorem State.nqResult_frame (r : PortResult) (s : State) :
    (s.nqResult r).resetAsserted = s.resetAsserted ∧ (s.nqResult r).tif = s.tif ∧ (s.nqResult r).mc = s.mc ∧
    (s.nqResult r).wmu = s.wmu ∧ (s.nqResult r).ore = s.ore ∧ (s.nqResult r).isu = s.isu ∧
    (s.nqResult r).freeUsed = s.freeUsed ∧ (s.nqResult r).pending = s.pending :=
  ⟨rfl, rfl, rfl, rfl, rfl, rfl, rfl, rfl⟩

/-- The NQ result is recorded in its own field. -/
@[simp] theorem State.nqResult_lpu (r : PortResult) (s : State) :
    (s.nqResult r).lpu = { s.lpu with results := { s.lpu.results with nq := r } } := rfl

/-- The fault result touches the LPU alone. -/
@[simp] theorem State.faultResult_frame (r : PortResult) (s : State) :
    (s.faultResult r).resetAsserted = s.resetAsserted ∧ (s.faultResult r).tif = s.tif ∧
    (s.faultResult r).mc = s.mc ∧ (s.faultResult r).wmu = s.wmu ∧ (s.faultResult r).ore = s.ore ∧
    (s.faultResult r).isu = s.isu ∧ (s.faultResult r).freeUsed = s.freeUsed ∧ (s.faultResult r).pending = s.pending :=
  ⟨rfl, rfl, rfl, rfl, rfl, rfl, rfl, rfl⟩

/-- The fault result is recorded in its own field. -/
@[simp] theorem State.faultResult_lpu (r : PortResult) (s : State) :
    (s.faultResult r).lpu = { s.lpu with results := { s.lpu.results with fault := r } } := rfl

/-! ### The change of state -/

/-- A change of state touches the MC and the LPU. -/
@[simp] theorem State.enter_frame (st : StationState) (s : State) :
    (s.enter st).resetAsserted = s.resetAsserted ∧ (s.enter st).tif = s.tif ∧ (s.enter st).wmu = s.wmu ∧
    (s.enter st).ore = s.ore ∧ (s.enter st).isu = s.isu ∧ (s.enter st).freeUsed = s.freeUsed ∧
    (s.enter st).pending = s.pending :=
  ⟨rfl, rfl, rfl, rfl, rfl, rfl, rfl⟩

/-- A change of state: the new state, and STATE_CHANGE. -/
@[simp] theorem State.enter_mc_lpu (st : StationState) (s : State) :
    (s.enter st).mc = { s.mc with state := st } ∧ (s.enter st).lpu = { s.lpu with stateChange := true } := ⟨rfl, rfl⟩

/-! ### The tests that follow an event -/

/-- The leave test sets the BYE flag or does nothing. -/
theorem State.testLeave_eq (s : State) :
    s.testLeave = { s with mc := { s.mc with bye :=
      if s.mc.state = .leaving ∧ s.mc.bye = none ∧ s.leaveCondition = true then some Counts.zero else s.mc.bye } } := by
  simp only [State.testLeave]; split <;> rfl

/-- The leave test touches the MC alone. -/
@[simp] theorem State.testLeave_frame (s : State) :
    (s.testLeave).resetAsserted = s.resetAsserted ∧ (s.testLeave).tif = s.tif ∧ (s.testLeave).wmu = s.wmu ∧
    (s.testLeave).ore = s.ore ∧ (s.testLeave).isu = s.isu ∧ (s.testLeave).lpu = s.lpu ∧
    (s.testLeave).freeUsed = s.freeUsed ∧ (s.testLeave).pending = s.pending := by
  simp [State.testLeave_eq]

/-- The leave test writes the BYE flag alone. -/
@[simp] theorem State.testLeave_mc (s : State) :
    s.testLeave.mc = { s.mc with bye :=
      if s.mc.state = .leaving ∧ s.mc.bye = none ∧ s.leaveCondition = true then some Counts.zero
      else s.mc.bye } := by rw [State.testLeave_eq]

/-- Outside LEAVING the leave test does nothing. -/
theorem State.testLeave_of_ne {s : State} (h : s.mc.state ≠ .leaving) : s.testLeave = s := by
  simp [State.testLeave, h]

/-- The test of a FLUSH touches the LPU alone. -/
@[simp] theorem State.testFlush_frame (s : State) :
    (s.testFlush).resetAsserted = s.resetAsserted ∧ (s.testFlush).tif = s.tif ∧ (s.testFlush).mc = s.mc ∧
    (s.testFlush).wmu = s.wmu ∧ (s.testFlush).ore = s.ore ∧ (s.testFlush).isu = s.isu ∧
    (s.testFlush).freeUsed = s.freeUsed ∧ (s.testFlush).pending = s.pending := by
  simp only [State.testFlush]; split <;> simp

/-- The test of a FLUSH leaves the Fault List and the Setup block. -/
@[simp] theorem State.testFlush_lpu_frame (s : State) :
    s.testFlush.lpu.faults = s.lpu.faults ∧ s.testFlush.lpu.setup = s.lpu.setup ∧
    s.testFlush.lpu.stateChange = s.lpu.stateChange ∧ s.testFlush.lpu.results = s.lpu.results := by
  simp only [State.testFlush]; split <;> simp

/-- Without a FLUSH in progress its test does nothing. -/
theorem State.testFlush_of_ne {s : State} (h : s.lpu.running ≠ some .flush) : s.testFlush = s := by
  simp [State.testFlush, State.flushing, h]

/-- The preparation of a head touches the ORE alone. -/
@[simp] theorem State.prepareHead_frame (s : State) :
    (s.prepareHead).resetAsserted = s.resetAsserted ∧ (s.prepareHead).tif = s.tif ∧ (s.prepareHead).mc = s.mc ∧
    (s.prepareHead).wmu = s.wmu ∧ (s.prepareHead).isu = s.isu ∧ (s.prepareHead).lpu = s.lpu ∧
    (s.prepareHead).freeUsed = s.freeUsed ∧ (s.prepareHead).pending = s.pending :=
  ⟨rfl, rfl, rfl, rfl, rfl, rfl, rfl, rfl⟩

/-- The preparation of a head and the leave test touch the ORE and the BYE flag. -/
@[simp] theorem State.afterHead_frame (s : State) :
    (s.afterHead).resetAsserted = s.resetAsserted ∧ (s.afterHead).tif = s.tif ∧ (s.afterHead).wmu = s.wmu ∧
    (s.afterHead).isu = s.isu ∧ (s.afterHead).lpu = s.lpu ∧ (s.afterHead).freeUsed = s.freeUsed ∧
    (s.afterHead).pending = s.pending := by
  simp [State.afterHead]

/-- They write the BYE flag alone in the MC. -/
theorem State.afterHead_mc (s : State) : ∃ b, s.afterHead.mc = { s.mc with bye := b } := by
  simp [State.afterHead]

/-- The ORE is that of the preparation. -/
@[simp] theorem State.afterHead_ore (s : State) : s.afterHead.ore = s.prepareHead.ore := by simp [State.afterHead]

/-- The leave test and the test of a FLUSH touch the BYE flag and the LPU. -/
@[simp] theorem State.afterResponse_frame (s : State) :
    (s.afterResponse).resetAsserted = s.resetAsserted ∧ (s.afterResponse).tif = s.tif ∧
    (s.afterResponse).wmu = s.wmu ∧ (s.afterResponse).ore = s.ore ∧ (s.afterResponse).isu = s.isu ∧
    (s.afterResponse).freeUsed = s.freeUsed ∧ (s.afterResponse).pending = s.pending := by
  simp [State.afterResponse]

/-- They write the BYE flag alone in the MC, and the end of the command alone in the LPU. -/
theorem State.afterResponse_mc (s : State) : ∃ b, s.afterResponse.mc = { s.mc with bye := b } := by
  simp [State.afterResponse]

end Sys2Proof.Machine
end

