-- ==== Sys2Proof/Laws/Membership.lean ====
section
/-! SUPPORT. What the changes of station state do: the FATAL fault, claiming and JOINED, the completion of sync, the pending
EVICTs, the miss counters, and the tables after a departure. -/

namespace Sys2Proof.Machine

/-! ### FAULTED -/

/-- A FATAL fault leaves what R61 gives. -/
theorem State.fatal_faultedFrom (k : FaultKind) (st : Option Station) (s : State) :
    s.faultedFrom ⟨k, st, none, none, false⟩ (s.fatal k st) := by
  simp only [State.faultedFrom, State.fatal, State.enterFaulted]
  refine ⟨by simp, by simp, by simp, by simp, by simp, by simp, ?_, by simp, by simp, by simp,
    by simp [State.drivesTclk], ?_, ?_⟩
  · intro tag; simp; cases s.ore.ort.at tag <;> rfl
  · intro p; simp [State.drivesTdat]
  · simp [State.finish, State.enter, State.fault]
    cases s.lpu.running <;> simp

/-! ### Claiming -/

/-- The entry into JOINED touches the station state and the LPU. -/
@[simp] theorem State.enterJoined_frame (s : State) :
    s.enterJoined.resetAsserted = s.resetAsserted ∧ s.enterJoined.tif = s.tif ∧ s.enterJoined.wmu = s.wmu ∧
    s.enterJoined.ore = s.ore ∧ s.enterJoined.isu = s.isu ∧ s.enterJoined.freeUsed = s.freeUsed ∧
    s.enterJoined.pending = s.pending := by
  simp only [State.enterJoined]
  split
  · split <;> simp
  · simp

/-- It writes the station state alone in the MC. -/
@[simp] theorem State.enterJoined_mc (s : State) :
    s.enterJoined.mc = { s.mc with state := if s.mc.state = .claiming then .joined else s.mc.state } := by
  simp only [State.enterJoined]
  split
  · split <;> simp_all
  · simp_all

/-- The Fault List and the Setup block stay. -/
@[simp] theorem State.enterJoined_lpu_frame (s : State) :
    s.enterJoined.lpu.faults = s.lpu.faults ∧ s.enterJoined.lpu.setup = s.lpu.setup := by
  simp only [State.enterJoined]
  split
  · split <;> simp
  · simp

/-- A claim refused before its offer touches its record and the Fault List. -/
@[simp] theorem State.refuseClaim_frame (n : Slot) (s : State) :
    (s.refuseClaim n).resetAsserted = s.resetAsserted ∧ (s.refuseClaim n).tif = s.tif ∧
    (s.refuseClaim n).mc = s.mc ∧ (s.refuseClaim n).ore = s.ore ∧ (s.refuseClaim n).isu = s.isu ∧
    (s.refuseClaim n).freeUsed = s.freeUsed ∧ (s.refuseClaim n).pending = s.pending ∧
    (s.refuseClaim n).wmu.map = s.wmu.map ∧ (s.refuseClaim n).wmu.claim = s.wmu.claim ∧
    (s.refuseClaim n).wmu.own = s.wmu.own.put n ⟨.refused, none⟩ ∧
    (s.refuseClaim n).lpu.setup = s.lpu.setup ∧ (s.refuseClaim n).lpu.running = s.lpu.running :=
  ⟨rfl, rfl, rfl, rfl, rfl, rfl, rfl, rfl, rfl, rfl, rfl, rfl⟩

/-- Claiming leaves the TIF, the ORE, the ISU, the map and every record that is not WANTED. -/
theorem State.claimFrom_frame (l : List Slot) (s : State) :
    (State.claimFrom l s).resetAsserted = s.resetAsserted ∧ (State.claimFrom l s).tif = s.tif ∧
    (State.claimFrom l s).ore = s.ore ∧ (State.claimFrom l s).isu = s.isu ∧
    (State.claimFrom l s).freeUsed = s.freeUsed ∧ (State.claimFrom l s).pending = s.pending ∧
    (State.claimFrom l s).wmu.map = s.wmu.map ∧
    (∃ st, (State.claimFrom l s).mc = { s.mc with state := st }) ∧
    (∀ m, (s.wmu.own.at m).state ≠ .wanted → (State.claimFrom l s).wmu.own.at m = s.wmu.own.at m) := by
  induction l generalizing s with
  | nil => simp [State.claimFrom]
  | cons n ns ih =>
    rw [State.claimFrom]
    split
    · rename_i hw
      split
      · simp only [true_and, implies_true, and_true]
        exact ⟨s.mc.state, rfl⟩
      · obtain ⟨h1, h2, h3, h4, h5, h6, h7, h8, h9⟩ := ih (s.refuseClaim n)
        refine ⟨h1, h2, h3, h4, h5, h6, h7, h8, fun m hm => ?_⟩
        have hne : n ≠ m := by rintro rfl; exact hm hw
        have heq : (s.refuseClaim n).wmu.own.at m = s.wmu.own.at m := by
          rw [(State.refuseClaim_frame n s).2.2.2.2.2.2.2.2.2.1, Bank.at_put_ne _ _ hne]
        rw [h9 m (by rw [heq]; exact hm), heq]
    · exact ih s

/-- With no record WANTED the station enters JOINED. -/
theorem State.claimFrom_none (l : List Slot) {s : State} (h : ∀ n, (s.wmu.own.at n).state ≠ .wanted) :
    State.claimFrom l s = s.enterJoined := by
  induction l with
  | nil => rfl
  | cons n ns ih => simp [State.claimFrom, h n, ih]

/-- Claiming touches neither the TIF, the ORE and the ISU nor the map, and in the MC the station state alone. -/
theorem State.nextClaim_frame (s : State) :
    s.nextClaim.resetAsserted = s.resetAsserted ∧ s.nextClaim.tif = s.tif ∧ s.nextClaim.ore = s.ore ∧
    s.nextClaim.isu = s.isu ∧ s.nextClaim.freeUsed = s.freeUsed ∧ s.nextClaim.pending = s.pending ∧
    s.nextClaim.wmu.map = s.wmu.map ∧ (∃ st, s.nextClaim.mc = { s.mc with state := st }) ∧
    (∀ m, (s.wmu.own.at m).state ≠ .wanted → s.nextClaim.wmu.own.at m = s.wmu.own.at m) :=
  State.claimFrom_frame _ { s with wmu := { s.wmu with claim := none } }

/-- The repeated check of the CLAIM in course touches what claiming touches. -/
theorem State.recheckClaim_frame (s : State) :
    s.recheckClaim.resetAsserted = s.resetAsserted ∧ s.recheckClaim.tif = s.tif ∧ s.recheckClaim.ore = s.ore ∧
    s.recheckClaim.isu = s.isu ∧ s.recheckClaim.freeUsed = s.freeUsed ∧ s.recheckClaim.pending = s.pending ∧
    s.recheckClaim.wmu.map = s.wmu.map ∧ (∃ st, s.recheckClaim.mc = { s.mc with state := st }) := by
  rw [State.recheckClaim]
  cases s.wmu.claim with
  | none => exact ⟨rfl, rfl, rfl, rfl, rfl, rfl, rfl, s.mc.state, rfl⟩
  | some c =>
    simp only
    split
    · obtain ⟨h1, h2, h3, h4, h5, h6, h7, h8, _⟩ := (s.refuseClaim c.slot).nextClaim_frame
      exact ⟨h1, h2, h3, h4, h5, h6, h7, h8⟩
    · exact ⟨rfl, rfl, rfl, rfl, rfl, rfl, rfl, s.mc.state, rfl⟩

/-! ### The completion of sync -/

/-- The completion of sync touches neither the TIF, the ISU nor the map, and in the MC the settle timer and the state. -/
theorem State.completeSync_frame (s : State) :
    s.completeSync.resetAsserted = s.resetAsserted ∧ s.completeSync.tif = s.tif ∧ s.completeSync.isu = s.isu ∧
    s.completeSync.freeUsed = s.freeUsed ∧ s.completeSync.pending = s.pending ∧
    s.completeSync.wmu.map = s.wmu.map ∧
    (∃ st, s.completeSync.mc = { s.mc with settle := none, state := st }) := by
  rw [State.completeSync]
  obtain ⟨h1, h2, h3, h4, h5, h6, h7, ⟨st, h8⟩, _⟩ :=
    (State.nextClaim_frame (State.enter .claiming { s with mc := { s.mc with settle := none } }))
  simp only [State.prepareHead_frame]
  exact ⟨h1, h2, h4, h5, h6, h7, st, by rw [h8]; rfl⟩

/-- The test of the sync touches what its completion touches. -/
theorem State.testSync_frame (s : State) :
    s.testSync.resetAsserted = s.resetAsserted ∧ s.testSync.tif = s.tif ∧ s.testSync.isu = s.isu ∧
    s.testSync.freeUsed = s.freeUsed ∧ s.testSync.pending = s.pending ∧ s.testSync.wmu.map = s.wmu.map ∧
    (∃ st x, s.testSync.mc = { s.mc with settle := x, state := st }) := by
  rw [State.testSync]
  split
  · obtain ⟨h1, h2, h3, h4, h5, h6, st, h7⟩ := s.completeSync_frame
    exact ⟨h1, h2, h3, h4, h5, h6, st, none, h7⟩
  · exact ⟨rfl, rfl, rfl, rfl, rfl, rfl, s.mc.state, s.mc.settle, rfl⟩

/-- Outside SYNCING there is nothing to complete. -/
theorem State.testSync_of_ne {s : State} (h : s.mc.state ≠ .syncing) : s.testSync = s := by
  simp [State.testSync, h]

/-! ### The pending EVICTs (R91) -/

/-- An addition keeps what stands, and adds at most an EVICT of d with counts of 0. -/
theorem addEvict_mem (d : Station) (es : List PendingEvict) :
    (∀ e ∈ es, e ∈ addEvict d es) ∧ (∀ e ∈ addEvict d es, e ∈ es ∨ e = ⟨d, Counts.zero⟩) ∧
    (∃ e ∈ addEvict d es, e.station = d) := by
  induction es with
  | nil => simp [addEvict]
  | cons x xs ih =>
    simp only [addEvict]
    split
    · simp only [List.mem_cons, forall_eq_or_imp, exists_eq_or_imp]; tauto
    split
    · simp_all
    · simp only [List.mem_cons, forall_eq_or_imp, exists_eq_or_imp]
      refine ⟨⟨Or.inl trivial, fun e he => Or.inr (ih.1 e he)⟩, ⟨Or.inl (Or.inl trivial), fun e he => ?_⟩, Or.inr ih.2.2⟩
      rcases ih.2.1 e he with h | h
      · exact Or.inl (Or.inr h)
      · exact Or.inr h

/-- An addition keeps the ascending order. -/
theorem addEvict_ascending (d : Station) {es : List PendingEvict}
    (h : es.Pairwise (fun a b => a.station.toNat < b.station.toNat)) :
    (addEvict d es).Pairwise (fun a b => a.station.toNat < b.station.toNat) := by
  induction es with
  | nil => simp [addEvict]
  | cons x xs ih =>
    rw [List.pairwise_cons] at h
    simp only [addEvict]
    split
    · rename_i hlt
      rw [List.pairwise_cons, List.pairwise_cons]
      refine ⟨fun e he => ?_, h.1, h.2⟩
      rcases List.mem_cons.mp he with rfl | he
      · exact hlt
      · exact lt_trans hlt (h.1 e he)
    split
    · rw [List.pairwise_cons]; exact h
    · rename_i hge hne
      rw [List.pairwise_cons]
      refine ⟨fun e he => ?_, ih h.2⟩
      rcases (addEvict_mem d xs).2.1 e he with he | rfl
      · exact h.1 e he
      · have : d.toNat ≠ x.station.toNat := fun heq => hne (BitVec.eq_of_toNat_eq heq)
        simp only; omega

/-- In an ascending set, an addition of a station already there changes nothing. -/
theorem addEvict_present {d : Station} {es : List PendingEvict}
    (h : es.Pairwise (fun a b => a.station.toNat < b.station.toNat)) (hd : ∃ e ∈ es, e.station = d) :
    addEvict d es = es := by
  induction es with
  | nil => simp at hd
  | cons x xs ih =>
    rw [List.pairwise_cons] at h
    simp only [addEvict]
    obtain ⟨e, he, rfl⟩ := hd
    rcases List.mem_cons.mp he with rfl | he
    · simp
    · have hlt := h.1 e he
      have hne : e.station ≠ x.station := by intro heq; rw [heq] at hlt; omega
      rw [if_neg (by omega), if_neg hne, ih h.2 ⟨e, he, rfl⟩]

/-- The set without d. -/
@[simp] theorem mem_dropEvict (d : Station) (e : PendingEvict) (es : List PendingEvict) :
    e ∈ dropEvict d es ↔ e ∈ es ∧ e.station ≠ d := by simp [dropEvict]

/-! ### The miss counters (R89, R90) -/

/-- A raise keeps every counter below 3. -/
theorem Mc.raiseMiss_below (p q : Station) {m : Mc} (h : ∀ q, m.miss.at q < Config.missLimit) :
    (m.raiseMiss p).miss.at q < Config.missLimit := by
  simp only [Mc.raiseMiss]
  split
  · exact h q
  · split
    · rename_i hlt
      simp only [Bank.at_put]; split
      · exact hlt
      · exact h q
    · simp only [Bank.at_put]; split
      · decide
      · exact h q

/-- A raise touches the counters and the pending EVICTs alone. -/
@[simp] theorem Mc.raiseMiss_frame (p : Station) (m : Mc) :
    (m.raiseMiss p).sid = m.sid ∧ (m.raiseMiss p).state = m.state ∧ (m.raiseMiss p).peers = m.peers ∧
    (m.raiseMiss p).expected = m.expected ∧ (m.raiseMiss p).answered = m.answered ∧
    (m.raiseMiss p).late = m.late ∧ (m.raiseMiss p).attempts = m.attempts ∧
    (m.raiseMiss p).settle = m.settle ∧ (m.raiseMiss p).deadline = m.deadline ∧
    (m.raiseMiss p).sync = m.sync ∧ (m.raiseMiss p).roster = m.roster ∧ (m.raiseMiss p).bye = m.bye := by
  simp only [Mc.raiseMiss]; split
  · simp
  · split <;> simp

/-- A report touches the counters and the pending EVICTs alone. -/
@[simp] theorem Mc.reportOutcome_frame (p : Station) (o : Outcome) (m : Mc) :
    (m.reportOutcome p o).sid = m.sid ∧ (m.reportOutcome p o).state = m.state ∧
    (m.reportOutcome p o).peers = m.peers ∧ (m.reportOutcome p o).expected = m.expected ∧
    (m.reportOutcome p o).settle = m.settle ∧ (m.reportOutcome p o).deadline = m.deadline ∧
    (m.reportOutcome p o).sync = m.sync ∧ (m.reportOutcome p o).bye = m.bye := by
  simp only [Mc.reportOutcome]; split
  · simp
  · cases o <;> simp [Mc.clearMiss]

/-! ### The tables after a departure -/

/-- The PEER_LOST records of a departure, in ascending order of tag. -/
theorem Ore.lostTo_eq (o : Ore) (d : Station) :
    o.lostTo d = (o.ort.cells.filter (OrtEntry.sentTo d)).filterMap OrtEntry.peerLost := by
  rw [Bank.cells_eq, List.filter_map, List.filterMap_map, List.filterMap_filter, Ore.lostTo]
  refine congrArg (fun f => List.filterMap f (Bank.indices 5)) (funext fun t => ?_)
  simp only [Function.comp_apply]
  cases h : o.ort.at t with
  | sent r x =>
    by_cases hd : r.dest = d
    · simp [OrtEntry.sentTo, OrtEntry.peerLost, OrtRecord.completion, OrtRecord.op, hd]
    · simp [OrtEntry.sentTo, hd]
  | _ => simp [OrtEntry.sentTo]

/-- An entry after a departure that left the head where it is. -/
theorem Ore.departure_entry (d : Station) (timeout : Nat) (e : OrtEntry) :
    (if e.sentTo d then e.quarantine timeout else e) =
      match e with
      | .sent r x => if r.dest = d then .quarantined r (some timeout) else .sent r x
      | e => e := by
  cases e with
  | sent r x => by_cases h : r.dest = d <;> simp [OrtEntry.sentTo, OrtEntry.quarantine, h]
  | _ => simp [OrtEntry.sentTo]

end Sys2Proof.Machine
end

