-- ==== Sys2Proof/Laws/Outbound.lean ====
section
/-! SUPPORT. The RQ head and the ORT: completing, preparing and discarding, and that preparation keeps the completion laws. -/

namespace Sys2Proof.Machine

/-! ### Reservations -/

/-- The reservation a prepared head holds by itself: one when its op takes no tag (R102). -/
def headReservation (h : Option PreparedHead) : Nat :=
  match h with
  | some h => if h.tag.isNone then 1 else 0
  | none => 0

/-- The CQ sum, by its three parts. -/
theorem Ore.cqSum_eq (o : Ore) :
    o.cqSum = o.cq.length + (o.ort.count OrtEntry.reserved + headReservation o.head) := rfl

/-- A FREE entry reserves nothing; a lowest FREE entry is FREE. -/
theorem Ore.lowest_free {o : Ore} {t : Tag} (h : o.ort.lowest OrtEntry.isFree = some t) : o.ort.at t = .free := by
  have := ((Bank.lowest_eq_some _ _ _).mp h).1
  cases ht : o.ort.at t <;> simp_all [OrtEntry.isFree]

/-! ### One descriptor -/

/-- A WAITING head completed: a record at the CQ tail, the next descriptor the head. -/
theorem Ore.completeHead_waiting {o : Ore} {d : Descriptor} {ds : List Descriptor} (hq : o.rq = d :: ds)
    (hh : o.head = none) (st : Status) (dest : Option Station) :
    o.completeHead st dest =
      { o with rq := ds, head := none, cq := o.cq ++ [⟨d.ticket, d.work.op, st, dest, []⟩] } := by
  simp [Ore.completeHead, hq, Ore.freeHeadTag, hh, Ore.retireHead]

/-- A head that goes READY without a tag. -/
theorem Ore.makeReady_untagged {d : Descriptor} (h : d.work.tagged = false) (dest : Station) (o : Ore) :
    o.makeReady d dest = { o with head := some ⟨dest, none, .ready, 0, Counts.zero⟩ } := by
  simp [Ore.makeReady, h]

/-- A head that goes READY with the lowest FREE tag. -/
theorem Ore.makeReady_tagged {d : Descriptor} {t : Tag} {o : Ore} (h : d.work.tagged = true)
    (hl : o.ort.lowest OrtEntry.isFree = some t) (dest : Station) :
    o.makeReady d dest =
      { o with
        ort := o.ort.put t (.pending (recordOf d dest))
        head := some ⟨dest, some t, .ready, 0, Counts.zero⟩ } := by
  simp [Ore.makeReady, h, hl]

/-- Where a preparation is not blocked, the CQ has room, and a tagged descriptor finds a FREE tag. -/
theorem prepare_unblocked {m : Mc} {map : List MapEntry} {o : Ore} {d : Descriptor}
    (h : prepare m map o d ≠ .blocked) :
    m.state.prepares = true ∧ o.cqSum < 32 ∧
      (d.work.tagged = true → ∃ t, o.ort.lowest OrtEntry.isFree = some t) := by
  rw [prepare] at h
  split at h
  · rename_i hc
    simp only [Bool.and_eq_true, decide_eq_true_eq, Bool.or_eq_true, Bool.not_eq_true'] at hc
    refine ⟨hc.1.1, hc.1.2, fun ht => ?_⟩
    rcases hc.2 with h2 | h2
    · rw [ht] at h2; cases h2
    · exact Option.isSome_iff_exists.mp h2
  · exact absurd rfl h

/-! ### The preparation of the head -/

/-- Nothing is prepared behind a prepared head. -/
theorem Ore.prepareHead_of_head (m : Mc) (map : List MapEntry) (n : Nat) {o : Ore} (h : o.head.isSome = true) :
    o.prepareHead m map n = o := by
  cases n with
  | zero => rfl
  | succ n => simp only [Ore.prepareHead]; cases o.rq <;> simp [h]

/-- Nothing is prepared in an empty RQ. -/
theorem Ore.prepareHead_of_nil (m : Mc) (map : List MapEntry) (n : Nat) {o : Ore} (h : o.rq = []) :
    o.prepareHead m map n = o := by
  cases n with
  | zero => rfl
  | succ n => simp [Ore.prepareHead, h]

/-- What local completions and the routing of a WAITING head keep, the preparation keeps. -/
theorem Ore.prepareHead_ind {P : Ore → Prop} (m : Mc) (map : List MapEntry)
    (hc : ∀ o d ds st dest, P o → o.rq = d :: ds → o.head = none → prepare m map o d = .completed st dest →
      P (o.completeHead st dest))
    (hr : ∀ o d ds dest, P o → o.rq = d :: ds → o.head = none → prepare m map o d = .routed dest →
      P (o.makeReady d dest))
    (n : Nat) (o : Ore) (h : P o) : P (o.prepareHead m map n) := by
  induction n generalizing o with
  | zero => exact h
  | succ n ih =>
    simp only [Ore.prepareHead]
    cases hq : o.rq with
    | nil => exact h
    | cons d ds =>
      cases hh : o.head with
      | some x => simpa [hh] using h
      | none =>
        simp only [Option.isSome_none, Bool.false_eq_true, if_false]
        cases hp : prepare m map o d with
        | blocked => exact h
        | completed st dest => exact ih _ (hc o d ds st dest h hq hh hp)
        | routed dest => exact hr o d ds dest h hq hh hp

/-- The preparation changes a FREE entry at most, and that to PENDING. -/
theorem Ore.prepareHead_ort (m : Mc) (map : List MapEntry) (n : Nat) (o : Ore) (t : Tag) :
    (o.prepareHead m map n).ort.at t = o.ort.at t ∨
    (o.ort.at t = .free ∧ ∃ r, (o.prepareHead m map n).ort.at t = .pending r) := by
  refine Ore.prepareHead_ind (P := fun x => x.ort.at t = o.ort.at t ∨
    (o.ort.at t = .free ∧ ∃ r, x.ort.at t = .pending r)) m map ?_ ?_ n o (Or.inl rfl)
  · intro x d ds st dest hx hq hh _
    rw [Ore.completeHead_waiting hq hh]; exact hx
  · intro x d ds dest hx hq hh hp
    by_cases ht : d.work.tagged = true
    · obtain ⟨k, hk⟩ := (prepare_unblocked (by rw [hp]; simp)).2.2 ht
      rw [Ore.makeReady_tagged ht hk]
      by_cases hkt : k = t
      · subst hkt
        refine Or.inr ⟨?_, _, Bank.at_put_same _ _ _⟩
        rcases hx with hx | ⟨hx, _⟩
        · rw [← hx]; exact Ore.lowest_free hk
        · exact hx
      · simpa [Bank.at_put, hkt] using hx
    · rw [Ore.makeReady_untagged (by simpa using ht)]; exact hx

/-- The preparation only appends to the CQ and takes descriptors from the RQ's head. -/
theorem Ore.prepareHead_queues (m : Mc) (map : List MapEntry) (n : Nat) (o : Ore) :
    (o.cq <+: (o.prepareHead m map n).cq) ∧ ((o.prepareHead m map n).rq <:+ o.rq) := by
  refine Ore.prepareHead_ind (P := fun x => (o.cq <+: x.cq) ∧ (x.rq <:+ o.rq)) m map ?_ ?_ n o
    ⟨List.prefix_rfl, List.suffix_rfl⟩
  · intro x d ds st dest ⟨h1, h2⟩ hq hh _
    rw [Ore.completeHead_waiting hq hh]
    exact ⟨h1.trans (List.prefix_append _ _), (hq ▸ List.suffix_cons d ds : ds <:+ x.rq).trans h2⟩
  · intro x d ds dest h hq hh hp
    by_cases ht : d.work.tagged = true
    · obtain ⟨k, hk⟩ := (prepare_unblocked (by rw [hp]; simp)).2.2 ht
      rw [Ore.makeReady_tagged ht hk]; exact h
    · rw [Ore.makeReady_untagged (by simpa using ht)]; exact h

/-- The preparation keeps the completion laws. -/
theorem CompletionLaws.prepareHead (m : Mc) (map : List MapEntry) (n : Nat) {o : Ore} (h : CompletionLaws o) :
    CompletionLaws (o.prepareHead m map n) := by
  refine Ore.prepareHead_ind m map ?_ ?_ n o h
  · intro x d ds st dest hx hq hh hp
    have hu := prepare_unblocked (m := m) (map := map) (o := x) (d := d) (by rw [hp]; simp)
    rw [Ore.completeHead_waiting hq hh]
    have hs := hu.2.1
    rw [Ore.cqSum_eq, hh] at hs
    refine ⟨?_, ?_, by simp, by simp, ?_⟩
    · rw [Ore.cqSum_eq]
      simp only [headReservation, List.length_append, List.length_cons, List.length_nil, Config.cqDepth] at hs ⊢
      omega
    · have := hx.queue; rw [hq] at this; simp only [List.length_cons] at this; simp only; omega
    · intro t r hr
      obtain ⟨y, hy, _⟩ := hx.pendingHead t r hr
      rw [hh] at hy; cases hy
  · intro x d ds dest hx hq hh hp
    have hu := prepare_unblocked (m := m) (map := map) (o := x) (d := d) (by rw [hp]; simp)
    have hs := hu.2.1
    rw [Ore.cqSum_eq, hh] at hs
    by_cases ht : d.work.tagged = true
    · obtain ⟨k, hk⟩ := hu.2.2 ht
      have hfree := Ore.lowest_free hk
      rw [Ore.makeReady_tagged ht hk]
      have hcount := Bank.count_put OrtEntry.reserved x.ort k (.pending (recordOf d dest))
      refine ⟨?_, hx.queue, by simp [hq], ?_, ?_⟩
      · rw [Ore.cqSum_eq]
        simp only [headReservation, hfree, OrtEntry.reserved, Option.isNone_some, Bool.false_eq_true, if_false,
          Bool.toNat_false, Bool.toNat_true, Config.cqDepth] at hs hcount ⊢
        omega
      · intro y t hy hyt
        simp only [Option.some.injEq] at hy
        subst hy
        simp only [Option.some.injEq] at hyt
        subst hyt
        exact ⟨_, Bank.at_put_same _ _ _⟩
      · intro t r hr
        by_cases hkt : k = t
        · exact ⟨_, rfl, by rw [hkt]⟩
        · rw [Bank.at_put_ne _ _ hkt] at hr
          obtain ⟨y, hy, _⟩ := hx.pendingHead t r hr
          rw [hh] at hy; cases hy
    · rw [Ore.makeReady_untagged (by simpa using ht)]
      refine ⟨?_, hx.queue, by simp [hq], ?_, ?_⟩
      · rw [Ore.cqSum_eq]
        simp only [headReservation, Option.isNone_none, if_true, Config.cqDepth] at hs ⊢
        omega
      · intro y t hy hyt
        simp only [Option.some.injEq] at hy
        subst hy
        cases hyt
      · intro t r hr
        obtain ⟨y, hy, _⟩ := hx.pendingHead t r hr
        rw [hh] at hy; cases hy

/-- Without a WAITING head there is nothing to prepare. -/
theorem State.prepareHead_idle {s : State} (h : s.ore.rq = [] ∨ s.ore.head.isSome = true) : s.prepareHead = s := by
  simp only [State.prepareHead]
  rcases h with h | h
  · rw [Ore.prepareHead_of_nil _ _ _ h]
  · rw [Ore.prepareHead_of_head _ _ _ h]

/-! ### Freeing the head's tag -/

/-- The entries after the head's tag went FREE. -/
theorem Ore.freeHeadTag_ort (o : Ore) (t : Tag) :
    o.freeHeadTag.ort.at t = if o.head.bind PreparedHead.tag = some t then .free else o.ort.at t := by
  simp only [Ore.freeHeadTag]
  cases o.head.bind PreparedHead.tag with
  | none => simp
  | some k => simp only [Bank.at_put, Option.some.injEq]

/-- Only the ORT changes. -/
@[simp] theorem Ore.freeHeadTag_frame (o : Ore) :
    o.freeHeadTag.rq = o.rq ∧ o.freeHeadTag.head = o.head ∧ o.freeHeadTag.cq = o.cq := by
  simp only [Ore.freeHeadTag]; cases o.head.bind PreparedHead.tag <;> simp

/-- After the head's tag went FREE no entry is PENDING. -/
theorem CompletionLaws.freeHeadTag_pending {o : Ore} (h : CompletionLaws o) (t : Tag) (r : OrtRecord) :
    o.freeHeadTag.ort.at t ≠ .pending r := by
  rw [Ore.freeHeadTag_ort]
  split
  · simp
  · rename_i hne
    intro hp
    obtain ⟨x, hx, hxt⟩ := h.pendingHead t r hp
    exact hne (by simp [hx, hxt])

/-- The head's tag is PENDING, so that no SENT and no QUARANTINED entry goes FREE with it. -/
theorem CompletionLaws.freeHeadTag_ort {o : Ore} (h : CompletionLaws o) {t : Tag} (hp : ∀ r, o.ort.at t ≠ .pending r) :
    o.freeHeadTag.ort.at t = o.ort.at t := by
  rw [Ore.freeHeadTag_ort]
  split
  · rename_i hb
    cases hh : o.head with
    | none => simp [hh] at hb
    | some x =>
      obtain ⟨r, hr⟩ := h.headTag x t hh (by simpa [hh] using hb)
      exact absurd hr (hp r)
  · rfl

/-! ### What follows an event, in the words of the statements -/

/-- The leave test is the one the statements speak of. -/
theorem State.testLeave_eq_byeTested (s : State) : s.testLeave = s.byeTested := s.testLeave_eq

/-- After the head: its preparation and the leave test. -/
theorem State.afterHead_eq_followed (s : State) : s.afterHead = s.followed := s.prepareHead.testLeave_eq

/-- The test of a FLUSH is the one the statements speak of. -/
theorem State.testFlush_eq_flushTested (s : State) : s.testFlush = s.flushTested := by
  simp only [State.testFlush, State.flushTested, State.flushing, List.isEmpty_iff, beq_iff_eq]
  split
  next h => rw [State.finish]; simp [h.1]
  next h => rfl

/-- After a response: the leave test and the end of a FLUSH. -/
theorem State.afterResponse_eq_responded (s : State) : s.afterResponse = s.responded := by
  rw [State.afterResponse, State.testLeave_eq_byeTested, State.testFlush_eq_flushTested, State.responded]

end Sys2Proof.Machine
end

