-- ==== Sys2Proof/Laws/Departure.lean ====
section
/-! SUPPORT. Everything the departure of a station does at a member (R53, R54, R85 to R88, R113, R126, R148). -/

namespace Sys2Proof.Machine

/-! ### What claiming leaves -/

/-- Claiming ends with a CLAIM in course or in JOINED, and each window refused on the way is a CLAIM_REFUSED (R68, R69). -/
theorem State.claimFrom_end (l : List Slot) {s : State} (hc : s.wmu.claim = none) (hs : s.mc.state = .claiming) :
    (State.claimFrom l s).mc.state = (if (State.claimFrom l s).wmu.claim.isSome then .claiming else .joined) ∧
    ∃ refused : List FaultRecord, (∀ r ∈ refused, r.kind = .claimRefused) ∧
      (State.claimFrom l s).lpu.faults = refused.foldl (fun fs r => addFault r fs) s.lpu.faults := by
  induction l generalizing s with
  | nil => exact ⟨by simp [State.claimFrom, hc, hs], [], by simp, by simp [State.claimFrom]⟩
  | cons n ns ih =>
    rw [State.claimFrom]
    split
    · split
      · exact ⟨hs, [], by simp, rfl⟩
      · obtain ⟨h1, rs, h2, h3⟩ := ih (s := s.refuseClaim n) (by simpa [State.refuseClaim, Wmu.setRecord] using hc) hs
        exact ⟨h1, ⟨.claimRefused, none, none, some (s.ownWindow n).base, false⟩ :: rs, by simpa using h2,
          by rw [h3]; simp [State.refuseClaim, State.fault]⟩
    · exact ih hc hs

/-- The completion of sync ends with a CLAIM in course or in JOINED, the settle timer stopped (R54, R68, R69). -/
theorem State.completeSync_end (s : State) :
    s.completeSync.mc = { s.mc with
      settle := none, state := if s.completeSync.wmu.claim.isSome then .claiming else .joined } ∧
    ∃ refused : List FaultRecord, (∀ r ∈ refused, r.kind = .claimRefused) ∧
      s.completeSync.lpu.faults = refused.foldl (fun fs r => addFault r fs) s.lpu.faults := by
  let s₁ : State := State.enter .claiming { s with mc := { s.mc with settle := none } }
  obtain ⟨h1, h2⟩ := State.claimFrom_end (Bank.indices 2) (s := { s₁ with wmu := { s₁.wmu with claim := none } }) rfl rfl
  obtain ⟨_, _, _, _, _, _, st, h3⟩ := s.completeSync_frame
  have hst : st = if s.completeSync.wmu.claim.isSome then .claiming else .joined := by
    have h4 : s.completeSync.mc.state = st := by rw [h3]
    rw [← h4]
    exact h1
  exact ⟨by rw [h3, hst], h2⟩

/-! ### The tables -/

/-- A preparation leaves an entry that is not FREE. -/
theorem Ore.prepareHead_kept (m : Mc) (map : List MapEntry) (n : Nat) {o : Ore} {t : Tag} (h : o.ort.at t ≠ .free) :
    (o.prepareHead m map n).ort.at t = o.ort.at t := by
  rcases Ore.prepareHead_ort m map n o t with e | ⟨e, _⟩
  · exact e
  · exact absurd e h

/-- The departure of d leaves the entries that are neither PENDING nor FREE, but for the SENT ones to d, which it quarantines
(R126). -/
theorem Ore.departure_ort {o : Ore} (hl : CompletionLaws o) (d : Station) (timeout : Nat) {t : Tag}
    (hp : ∀ r, o.ort.at t ≠ .pending r) :
    (o.departure d timeout).ort.at t =
      if (o.ort.at t).sentTo d then (o.ort.at t).quarantine timeout else o.ort.at t := by
  simp only [Ore.departure]
  cases hh : o.head with
  | none => simp
  | some h =>
    have ht : h.tag ≠ some t := fun e => by
      obtain ⟨r, hr⟩ := hl.headTag h t hh e
      exact hp r hr
    simp only
    split
    · cases hq : o.rq with
      | nil => simp [Ore.completeHead]
      | cons w ws => simp [Ore.completeHead, Ore.retireHead, Ore.freeHeadTag_ort, ht]
    · simp

/-- The head of the SQ after the departure of d: a new one has counts of 0, and one that stays keeps its counts (R148). -/
theorem Isu.departure_sqCounts {i : Isu} (hl : ResponseLaws i) (d : Station) {r : SqRecord} {rs : List SqRecord}
    (h : i.sq = r :: rs) :
    (i.departure d).sqCounts = if answers d (i.itt.at r.handle) then Counts.zero else i.sqCounts := by
  have e : answeringTo d = answers d := funext fun x => by cases x <;> rfl
  simp only [Isu.departure, h, List.filter_cons, e]
  by_cases ha : answers d (i.itt.at r.handle) = true
  · simp only [ha, Bool.not_true, Bool.false_eq_true, if_false, if_true, List.head?_cons]
    split
    · rename_i hx
      have hd := hl.distinct
      rw [h, List.map_cons, List.nodup_cons] at hd
      exact absurd (List.mem_map_of_mem (List.mem_filter.1 (List.mem_of_mem_head? hx)).1) hd.1
    · rfl
  · simp [ha]

/-! ### The departure -/

/-- The MC's part, field by field. -/
theorem Mc.departure_eq (d : Station) (cause : DepartureCause) (m : Mc) :
    m.departure d cause = { m with
      miss := m.miss.put d 0
      evicts := dropEvict d m.evicts
      peers := if cause = .sync then (m.peers.erase d).insert d else m.peers.erase d
      roster := if cause = .sync then some (m.roster.getD Counts.zero) else m.roster
      expected := if m.state = .syncing then m.expected.erase d else m.expected
      answered := if m.state = .syncing then m.answered.erase d else m.answered
      late := if m.state = .syncing ∧ cause = .sync then m.late.insert d else m.late } := by
  by_cases h : m.state = .syncing <;> by_cases hc : cause = .sync <;> simp [Mc.departure, h, hc]

/-- A departure is the cleanup, the test of the sync and what follows (R87, R88). -/
theorem State.departure_eq {s : State} {d : Station} (hd : d ≠ s.mc.sid) (cause : DepartureCause) :
    s.departure d cause = (s.cleaned d cause).testSync.afterHead.testFlush := by
  simp only [State.departure, if_neg hd]

/-- The cleanup, field by field. -/
theorem State.cleaned_fields (d : Station) (cause : DepartureCause) (s : State) :
    (s.cleaned d cause).mc = s.mc.departure d cause ∧
    (s.cleaned d cause).wmu = { s.wmu with map := removeOwner d s.wmu.map } ∧
    (s.cleaned d cause).ore = s.ore.departure d s.timeout ∧ (s.cleaned d cause).isu = s.isu.departure d ∧
    (s.cleaned d cause).tif =
      { s.tif with holdoff := if (s.ore.departure d s.timeout).head.isSome then s.tif.holdoff else none } ∧
    (s.cleaned d cause).lpu = { s.lpu with
      faults :=
        if cause = .evict then addFault ⟨.peerEvicted, some d, none, none, false⟩ s.lpu.faults
        else s.lpu.faults } := by
  simp only [State.cleaned]
  split <;> simp [State.fault]

/-- What follows the cleanup attempts at most two preparations of the head, and does nothing else to the ORE. -/
theorem State.testSync_afterHead_ore (s : State) :
    ∃ m map n m' map' n',
      s.testSync.afterHead.testFlush.ore = (s.ore.prepareHead m' map' n').prepareHead m map n := by
  by_cases h : s.testSync = s
  · refine ⟨s.mc, s.wmu.map, s.ore.rq.length, s.mc, [], 0, ?_⟩
    simp [h, State.prepareHead, Ore.prepareHead]
  · have hc : s.testSync = s.completeSync := by
      rw [State.testSync] at h ⊢
      split <;> simp_all
    have ho := (State.nextClaim_frame (State.enter .claiming { s with mc := { s.mc with settle := none } })).2.2.1
    simp only [hc, State.testFlush_frame, State.afterHead_ore, State.prepareHead, State.completeSync, ho,
      State.enter_frame]
    exact ⟨_, _, _, _, _, _, rfl⟩

/-- The sync test moves a station in SYNCING alone, and nowhere else than to CLAIMING or JOINED. -/
theorem State.testSync_leaving (s : State) :
    (s.testSync.mc.state = .leaving ↔ s.mc.state = .leaving) ∧ s.testSync.mc.bye = s.mc.bye := by
  by_cases h : s.testSync = s
  · rw [h]; exact ⟨Iff.rfl, rfl⟩
  · have hc : s.testSync = s.completeSync ∧ s.mc.state = .syncing := by
      rw [State.testSync] at h ⊢
      split <;> simp_all
    rw [hc.1, s.completeSync_end.1, hc.2]
    refine ⟨?_, rfl⟩
    dsimp only
    split <;> simp

/-- After the cleanup a member in LEAVING tests the leave condition (R58, R86). -/
theorem State.departure_bye (d : Station) (cause : DepartureCause) (s : State) :
    let t := (s.cleaned d cause).testSync.afterHead.testFlush
    t.mc.bye = if s.mc.state = .leaving ∧ s.mc.bye = none ∧ t.leaveCondition = true then some Counts.zero
      else s.mc.bye := by
  obtain ⟨c1, _⟩ := s.cleaned_fields d cause
  obtain ⟨h1, h2⟩ := (s.cleaned d cause).testSync_leaving
  rw [c1, Mc.departure_eq] at h1 h2
  dsimp only at h1 h2
  simp [State.afterHead, State.leaveCondition, h1, h2]

/-- The cleanup as the statements say it, with all that follows. -/
theorem State.departure_cleanedOf {s : State} {d : Station} (hd : d ≠ s.mc.sid) (cause : DepartureCause)
    (hl : CompletionLaws s.ore) : s.cleanedOf d (s.departure d cause) := by
  rw [State.departure_eq hd]
  obtain ⟨c1, c2, c3, c4, c5, _⟩ := s.cleaned_fields d cause
  obtain ⟨_, t2, t3, _, _, t6, st, x, t7⟩ := (s.cleaned d cause).testSync_frame
  obtain ⟨b, hb⟩ := State.afterHead_mc (s.cleaned d cause).testSync
  obtain ⟨m, map, n, m', map', n', ho⟩ := (s.cleaned d cause).testSync_afterHead_ore
  rw [c3] at ho
  have hkept : ∀ tag, (∀ r, s.ore.ort.at tag ≠ .pending r) → s.ore.ort.at tag ≠ .free →
      (s.cleaned d cause).testSync.afterHead.testFlush.ore.ort.at tag =
        if (s.ore.ort.at tag).sentTo d then (s.ore.ort.at tag).quarantine s.timeout else s.ore.ort.at tag := by
    intro tag hp hf
    have hn : (s.ore.departure d s.timeout).ort.at tag ≠ .free := by
      rw [Ore.departure_ort hl d _ hp, Ore.departure_entry]
      cases he : s.ore.ort.at tag with
      | sent r x => by_cases h : r.dest = d <;> simp [h]
      | free => exact absurd he hf
      | _ => simp
    rw [ho, Ore.prepareHead_kept _ _ _ (by rwa [Ore.prepareHead_kept _ _ _ hn]), Ore.prepareHead_kept _ _ _ hn,
      Ore.departure_ort hl d _ hp]
  have hcq : (s.ore.departure d s.timeout).cq <+: (s.cleaned d cause).testSync.afterHead.testFlush.ore.cq := by
    rw [ho]
    exact (Ore.prepareHead_queues _ _ _ _).1.trans (Ore.prepareHead_queues _ _ _ _).1
  have hmc : (s.cleaned d cause).testSync.afterHead.testFlush.mc =
      { s.mc.departure d cause with settle := x, state := st, bye := b } := by simp [hb, t7, c1]
  have htif : (s.cleaned d cause).testSync.afterHead.testFlush.tif.holdoff =
      if (s.ore.departure d s.timeout).head.isSome then s.tif.holdoff else none := by simp [t2, c5]
  have hisu : (s.cleaned d cause).testSync.afterHead.testFlush.isu = s.isu.departure d := by simp [t3, c4]
  refine ⟨by simp [t6, c2, removeOwner], by rw [hmc, Mc.departure_eq], by rw [hmc, Mc.departure_eq]; rfl, ?_, ?_, ?_, ?_, ?_,
    ?_, ?_, ?_, ?_, ?_, by rw [hisu]; simp [Isu.departure], by rw [hisu]; simp [Isu.departure]⟩
  · exact State.departure_bye d cause s
  · intro tag r x hx
    rw [hkept tag (by simp [hx]) (by simp [hx]), hx, Ore.departure_entry]
    rfl
  · intro tag r x hx
    rw [hkept tag (by simp [hx]) (by simp [hx]), hx, Ore.departure_entry]
  · refine List.IsPrefix.trans ?_ hcq
    rw [Ore.lostTo_eq]
    simp only [Ore.departure]
    split
    · split
      · cases hq : s.ore.rq <;> simp [Ore.completeHead, Ore.retireHead]
      · simp
    · simp
  · intro h w hh hhd hw
    refine List.IsPrefix.trans ?_ hcq
    obtain ⟨ws, hq⟩ := List.head?_eq_some_iff.1 hw
    rw [Ore.lostTo_eq]
    simp [Ore.departure, hh, hhd, Ore.completeHead, Ore.retireHead, hq]
  · intro h hh hhd hq
    obtain ⟨w, ws, hq⟩ := List.exists_cons_of_ne_nil hq
    rw [htif]
    simp [Ore.departure, hh, hhd, Ore.completeHead, Ore.retireHead, hq]
  · intro h hh hhd
    have hs : (s.ore.departure d s.timeout).head = some h ∧ (s.ore.departure d s.timeout).rq = s.ore.rq := by
      simp [Ore.departure, hh, hhd]
    have hk : ∀ k map n, (s.ore.departure d s.timeout).prepareHead k map n = s.ore.departure d s.timeout :=
      fun k map n => Ore.prepareHead_of_head k map n (by simp [hs.1])
    rw [ho, hk, hk, htif]
    exact ⟨hs.1, hs.2, by simp [hs.1]⟩
  · intro h
    rw [hisu]
    refine (Bank.at_map _ _ _).trans ?_
    cases s.isu.itt.at h <;> rfl
  · rw [hisu]
    simp only [Isu.departure]
    rfl
  · intro r rs hr hq
    rw [hisu, Isu.departure_sqCounts hr d hq]

/-- Everything the departure of d does at a member that is not d. -/
theorem State.departure_departed {s : State} {d : Station} (hd : d ≠ s.mc.sid) (cause : DepartureCause)
    (hl : CompletionLaws s.ore) :
    s.departed d
      (if cause = .evict then addFault ⟨.peerEvicted, some d, none, none, false⟩ s.lpu.faults else s.lpu.faults)
      (if cause = .sync then s.mc.late.insert d else s.mc.late) (s.departure d cause) ∧
    (s.departure d cause).mc.peers = (if cause = .sync then (s.mc.peers.erase d).insert d else s.mc.peers.erase d) ∧
    (cause = .sync → (s.departure d cause).mc.roster = some (s.mc.roster.getD Counts.zero)) := by
  have hclean := State.departure_cleanedOf hd cause hl
  rw [State.departure_eq hd] at hclean ⊢
  obtain ⟨c1, c2, _, _, _, c6⟩ := s.cleaned_fields d cause
  obtain ⟨_, _, _, _, _, _, st, x, t7⟩ := (s.cleaned d cause).testSync_frame
  obtain ⟨b, hb⟩ := State.afterHead_mc (s.cleaned d cause).testSync
  have hmc : (s.cleaned d cause).testSync.afterHead.testFlush.mc =
      { s.mc.departure d cause with settle := x, state := st, bye := b } := by simp [hb, t7, c1]
  have hstate : (s.cleaned d cause).mc.state = s.mc.state := by rw [c1, Mc.departure_eq]
  have hidle : (s.cleaned d cause).testSync = s.cleaned d cause →
      (s.cleaned d cause).testSync.afterHead.testFlush.mc.state = s.mc.state ∧
      (s.cleaned d cause).testSync.afterHead.testFlush.wmu.own = s.wmu.own ∧
      (s.cleaned d cause).testSync.afterHead.testFlush.wmu.claim = s.wmu.claim ∧
      (s.cleaned d cause).testSync.afterHead.testFlush.lpu =
        (let faults := if cause = .evict then addFault ⟨.peerEvicted, some d, none, none, false⟩ s.lpu.faults
          else s.lpu.faults
        if s.lpu.running = some .flush ∧ (s.cleaned d cause).testSync.afterHead.testFlush.isu.sq = [] ∧
            (s.cleaned d cause).testSync.afterHead.testFlush.tif.acceptedRequest = false then
          { s.lpu with running := none, last := some ⟨.flush, .done⟩, cmdDone := true, faults := faults }
        else { s.lpu with faults := faults }) ∧
      (s.cleaned d cause).testSync.afterHead.testFlush.lpu.faults =
        if cause = .evict then addFault ⟨.peerEvicted, some d, none, none, false⟩ s.lpu.faults
        else s.lpu.faults := by
    intro h
    refine ⟨?_, by simp [h, c2], by simp [h, c2], ?_, by simp [h, c6]⟩
    swap
    · rw [h, State.testFlush_eq_flushTested]
      simp [State.flushTested, c6]
    obtain ⟨b, hb⟩ := State.afterHead_mc (s.cleaned d cause)
    rw [h, (State.testFlush_frame _).2.2.1, hb]
    exact hstate
  refine ⟨⟨hclean, fun hs => ?_, fun hs => ⟨?_, ?_, ?_, fun hn => ?_,
    fun hy => ?_⟩⟩, by rw [hmc, Mc.departure_eq], fun h => by rw [hmc, Mc.departure_eq, h]; rfl⟩
  · obtain ⟨h1, h2, h3, h4, _⟩ := hidle (State.testSync_of_ne (by rw [hstate]; exact hs))
    exact ⟨h1, h2, h3, h4⟩
  · rw [hmc, Mc.departure_eq]; simp [hs]
  · rw [hmc, Mc.departure_eq]; simp [hs]
  · rw [hmc, Mc.departure_eq]; simp [hs]
  · have h : (s.cleaned d cause).testSync = s.cleaned d cause := by
      rw [State.testSync, if_neg]
      rw [c1, Mc.departure_eq]
      simpa [hs] using hn
    obtain ⟨h1, h2, h3, _, h5⟩ := hidle h
    exact ⟨h1.trans hs, h2, h3, h5⟩
  · have h : (s.cleaned d cause).testSync = (s.cleaned d cause).completeSync := by
      rw [State.testSync, if_pos]
      rw [c1, Mc.departure_eq]
      simpa [hs] using hy
    obtain ⟨e1, rs, e2, e3⟩ := (s.cleaned d cause).completeSync_end
    obtain ⟨b, hb⟩ := State.afterHead_mc (s.cleaned d cause).completeSync
    refine ⟨by simp [h, hb, e1], by simp [h, hb, e1], rs, e2, ?_⟩
    simp only [h, State.testFlush_lpu_frame, State.afterHead_frame, e3, c6]

end Sys2Proof.Machine
end

