-- ==== Sys2Proof/Laws/Frames.lean ====
section
/-! SUPPORT. Reading back what is sent: bits and fields, body words, kinds and contents, and what a listener understands of
the typed rows. -/

namespace Sys2Proof

/-! ### Bits and fields -/

@[simp] theorem bitsOf_length {w : Nat} (x : BitVec w) : (bitsOf x).length = w := by simp [bitsOf]

/-- A run of n bits after an accumulated number. -/
theorem foldl_bits (bs : List Bool) (a : Nat) :
    bs.foldl (fun a b => 2 * a + b.toNat) a = a * 2 ^ bs.length + bs.foldl (fun a b => 2 * a + b.toNat) 0 := by
  induction bs generalizing a with
  | nil => simp
  | cons b bs ih =>
    simp only [List.foldl_cons, List.length_cons]
    rw [ih (2 * a + b.toNat), ih (2 * 0 + b.toNat)]
    rw [Nat.pow_succ]
    ring

/-- A field's bits spell the field. -/
theorem ofBits_bitsOf {w : Nat} (x : BitVec w) : ofBits w (bitsOf x) = x := by
  suffices h : ∀ n, n ≤ w →
      ((List.range n).map (fun i => x.getMsbD i)).foldl (fun a b => 2 * a + b.toNat) 0 = x.toNat / 2 ^ (w - n) by
    apply BitVec.eq_of_toNat_eq
    rw [ofBits, bitsOf, h w le_rfl]
    simp
  intro n
  induction n with
  | zero => intro _; simp [Nat.div_eq_of_lt x.isLt]
  | succ n ih =>
    intro hn
    rw [List.range_succ, List.map_append, List.foldl_append, ih (by omega)]
    have hb : x.getMsbD n = x.toNat.testBit (w - 1 - n) := by
      simp [BitVec.getMsbD, BitVec.getLsbD, show n < w by omega]
    simp only [List.map_cons, List.map_nil, List.foldl_cons, List.foldl_nil, hb]
    have h1 : w - n = (w - (n + 1)) + 1 := by omega
    have h2 : w - 1 - n = w - (n + 1) := by omega
    rw [h1, h2, Nat.pow_succ, ← Nat.div_div_eq_div_mul]
    have h3 : (x.toNat.testBit (w - (n + 1))).toNat = x.toNat / 2 ^ (w - (n + 1)) % 2 := Nat.toNat_testBit _ _
    rw [h3]
    omega

/-- A field reads back from its bits, and leaves the bits after it. -/
@[simp] theorem readField_bitsOf {w : Nat} (x : BitVec w) (rest : List Bool) :
    readField w (bitsOf x ++ rest) = some (x, rest) := by
  have ht : (bitsOf x ++ rest).take w = bitsOf x := by
    rw [List.take_append_of_le_length (by simp)]; exact List.take_of_length_le (by simp)
  have hd : (bitsOf x ++ rest).drop w = rest := by
    rw [List.drop_append_of_le_length (by simp), List.drop_of_length_le (by simp), List.nil_append]
  simp [readField, ht, hd, ofBits_bitsOf]

/-- Body words read back from their bits. -/
@[simp] theorem readWords_bodyBits (ws : List Word) (rest : List Bool) :
    readWords ws.length (bodyBits ws ++ rest) = some (ws, rest) := by
  induction ws with
  | nil => simp [readWords, bodyBits]
  | cons w ws ih =>
    have : bodyBits (w :: ws) ++ rest = bitsOf w ++ (bodyBits ws ++ rest) := by simp [bodyBits]
    rw [this, List.length_cons]
    simp [readWords, ih]

/-! ### Kinds and contents -/

/-- A kind reads back from its code. -/
@[simp] theorem FrameKind.ofCode_code (k : FrameKind) : FrameKind.ofCode k.code = some k := by cases k <;> rfl

/-- Window pairs read back from their words. -/
@[simp] theorem readPairs_flattenPairs (ps : List (Word × Word)) : readPairs (flattenPairs ps) = some ps := by
  induction ps with
  | nil => rfl
  | cons p ps ih => simp [flattenPairs, readPairs, ih]

/-- What reads from a content's own body is that content. -/
theorem readContent_body {c c' : Content} (h : readContent c.kind c.body = some c') : c' = c := by
  cases c with
  | request b =>
    cases b <;> simp_all [Content.kind, Content.body, readContent, readTwo, readData]
  | response b =>
    cases b <;> simp_all [Content.kind, Content.body, readContent, readOne, readNone]
  | roster p ps =>
    simp only [Content.kind, Content.body, readContent, readRoster, readPairs_flattenPairs] at h
    split at h <;> simp_all
  | _ => simp_all [Content.kind, Content.body, readContent, readOne, readNone, readTwo]

/-- What a frame is understood as: every condition of R15 but the check and the clock. -/
theorem Frame.message_eq_some (f : Frame) (x : Message) :
    f.message = some x ↔ ∃ k c, FrameKind.ofCode f.kind = some k ∧ f.cls = k.cls ∧ validStation f.source = true ∧
      k.destInRange f.dest = true ∧ f.count.toNat = f.body.length ∧ readContent k f.body = some c ∧
      c.inRange f.source = true ∧ x = ⟨f.source, f.dest, f.tag, c⟩ := by
  rw [Frame.message]
  constructor
  · intro h
    cases hk : FrameKind.ofCode f.kind with
    | none => simp [hk] at h
    | some k =>
      simp only [hk] at h
      split at h
      · rename_i hc
        simp only [Bool.and_eq_true, beq_iff_eq] at hc
        obtain ⟨⟨⟨h1, h2⟩, h3⟩, h4⟩ := hc
        cases hb : readContent k f.body with
        | none => simp [hb] at h
        | some c =>
          simp only [hb] at h
          split at h
          · rename_i hr
            exact ⟨k, c, rfl, h1, h2, h3, h4, hb, hr, (Option.some.inj h).symm⟩
          · cases h
      · cases h
  · rintro ⟨k, c, hk, h1, h2, h3, h4, hb, hr, rfl⟩
    simp [hk, h1, h2, h3, h4, hb, hr]

/-- A frame built for a message is understood as that message, tag 0 where the kind has none, or is malformed. -/
theorem Message.frame_message {m x : Message} {urgent : Bool} (h : (m.frame urgent).message = some x) :
    x = { m with tag := m.content.sentTag m.tag } := by
  obtain ⟨k, c, hk, _, _, _, _, hc, _, rfl⟩ := (Frame.message_eq_some _ _).mp h
  have hk' : k = m.content.kind := by
    rw [show (m.frame urgent).kind = m.content.kind.code from rfl, FrameKind.ofCode_code] at hk
    exact (Option.some.inj hk).symm
  subst hk'
  have : c = m.content := readContent_body hc
  rw [this]; rfl

/-- When a frame built for a message is understood, whatever its urgency. -/
theorem Message.frame_message_isSome (m : Message) (urgent : Bool) :
    (m.frame urgent).message.isSome = true ↔
      validStation m.source = true ∧ m.content.kind.destInRange m.dest = true ∧
      m.content.body.length < 32 ∧ (readContent m.content.kind m.content.body).isSome = true ∧
      m.content.inRange m.source = true := by
  rw [Option.isSome_iff_exists]
  simp only [Frame.message_eq_some]
  have hl : (BitVec.ofNat 5 m.content.body.length).toNat = m.content.body.length ↔ m.content.body.length < 32 := by
    rw [BitVec.toNat_ofNat]; constructor
    · intro h; have := Nat.mod_lt m.content.body.length (show 0 < 2 ^ 5 by decide); omega
    · intro h; exact Nat.mod_eq_of_lt h
  constructor
  · rintro ⟨x, k, c, hk, _, h2, h3, h4, hc, h5, _⟩
    rw [show (m.frame urgent).kind = m.content.kind.code from rfl, FrameKind.ofCode_code] at hk
    obtain rfl := Option.some.inj hk
    have hcc : c = m.content := readContent_body hc
    refine ⟨h2, h3, hl.mp h4, ?_, ?_⟩
    · rw [show m.content.body = (m.frame urgent).body from rfl, hc]; rfl
    · rw [← hcc]; exact h5
  · rintro ⟨h2, h3, h4, hb, h5⟩
    obtain ⟨c, hc⟩ := Option.isSome_iff_exists.mp hb
    have hcc : c = m.content := readContent_body hc
    refine ⟨_, m.content.kind, c, FrameKind.ofCode_code _, rfl, h2, h3, hl.mpr h4, hc, ?_, rfl⟩
    rw [hcc]; exact h5

namespace Machine

/-- A row's fields that pass are understood as they stand. -/
theorem heard_of_passes {p d : Station} {t : Tag} {c : Content} (h : passes p d t c = true) :
    heard p d t c = some ⟨p, d, c.sentTag t, c⟩ := by
  obtain ⟨x, hx⟩ := Option.isSome_iff_exists.mp h
  have := Message.frame_message hx
  rw [heard, hx, this]

/-- A unicast frame that passes towards one valid station passes towards every valid station. -/
theorem heard_of_passes_to {p d : Station} {t : Tag} {c : Content} (h : passes p 1 t c = true)
    (hk : c.kind.cls = 0 ∨ c.kind.cls = 2 ∨ c.kind = .signal) (hd : validStation d = true) :
    heard p d t c = some ⟨p, d, c.sentTag t, c⟩ := by
  apply heard_of_passes
  have h1 : c.kind.destInRange d = true := by
    have hd' : d ≠ 0#5 := by rintro rfl; simp [validStation] at hd
    rcases hk with hk | hk | hk
    · have hs : c.kind ≠ .signal := by intro hs; rw [hs] at hk; simp [FrameKind.cls] at hk
      simp [FrameKind.destInRange, hk, hd, hs]
    · have hs : c.kind ≠ .signal := by intro hs; rw [hs] at hk; simp [FrameKind.cls] at hk
      simp [FrameKind.destInRange, hk, hd, hs]
    · simp [FrameKind.destInRange, hk, FrameKind.cls, hd']
  obtain ⟨a, _, b, e, f⟩ := (Message.frame_message_isSome _ false).mp h
  exact (Message.frame_message_isSome _ false).mpr ⟨a, h1, b, e, f⟩

/-- What a listener understands of the fields does not depend on the urgency. -/
theorem heard_eq (p d : Station) (t : Tag) (c : Content) (urgent : Bool) :
    ((Message.mk p d t c).frame urgent).message = heard p d t c := by
  by_cases h : ((Message.mk p d t c).frame urgent).message.isSome = true
  · have h' : ((Message.mk p d t c).frame false).message.isSome = true :=
      (Message.frame_message_isSome _ false).mpr ((Message.frame_message_isSome _ urgent).mp h)
    obtain ⟨x, hx⟩ := Option.isSome_iff_exists.mp h
    obtain ⟨y, hy⟩ := Option.isSome_iff_exists.mp h'
    rw [heard, hx, hy, Message.frame_message hx, Message.frame_message hy]
  · have h' : ¬((Message.mk p d t c).frame false).message.isSome = true :=
      fun g => h ((Message.frame_message_isSome _ urgent).mpr ((Message.frame_message_isSome _ false).mp g))
    rw [Option.not_isSome_iff_eq_none] at h h'
    rw [heard, h, h']

/-! ### The rows, understood -/

/-- A SYNC of a valid station. -/
theorem heard_sync {p : Station} (hp : validStation p = true) (t : Tag) :
    heard p allStations t .sync = some ⟨p, allStations, 0, .sync⟩ :=
  heard_of_passes ((Message.frame_message_isSome _ _).mpr ⟨hp, rfl, by simp [Content.body], rfl, rfl⟩)

/-- A BYE of a valid station. -/
theorem heard_bye {p : Station} (hp : validStation p = true) (t : Tag) :
    heard p allStations t .bye = some ⟨p, allStations, 0, .bye⟩ :=
  heard_of_passes ((Message.frame_message_isSome _ _).mpr ⟨hp, rfl, by simp [Content.body], rfl, rfl⟩)

/-- A CLAIM of a window well formed. -/
theorem heard_claim {p : Station} {b d : Word} (hp : validStation p = true) (hw : windowWellFormed b d = true)
    (t : Tag) : heard p allStations t (.claim b d) = some ⟨p, allStations, 0, .claim b d⟩ :=
  heard_of_passes ((Message.frame_message_isSome _ _).mpr ⟨hp, rfl, by simp [Content.body], rfl, hw⟩)

/-- A RELEASE of a base that is a multiple of 4 KiB. -/
theorem heard_release {p : Station} {b : Word} (hp : validStation p = true) (hb : 4096 ∣ b.toNat) (t : Tag) :
    heard p allStations t (.release b) = some ⟨p, allStations, 0, .release b⟩ :=
  heard_of_passes ((Message.frame_message_isSome _ _).mpr
    ⟨hp, rfl, by simp [Content.body], rfl, by simpa [Content.inRange] using Nat.mod_eq_zero_of_dvd hb⟩)

/-- An EVICT of a valid station other than its sender. -/
theorem heard_evict {p d : Station} (hp : validStation p = true) (hd : validStation d = true) (hne : d ≠ p) (t : Tag) :
    heard p allStations t (.evict (d.setWidth 32)) = some ⟨p, allStations, 0, .evict (d.setWidth 32)⟩ := by
  refine heard_of_passes ((Message.frame_message_isSome _ _).mpr ⟨hp, rfl, by simp [Content.body], rfl, ?_⟩)
  simp only [Content.inRange]
  revert p d; decide

/-- A SIGNAL to a station or to all. -/
theorem heard_signal {p d : Station} (hp : validStation p = true) (hd : d ≠ 0#5) (t : Tag) (v : Word) :
    heard p d t (.signal v) = some ⟨p, d, 0, .signal v⟩ :=
  heard_of_passes ((Message.frame_message_isSome _ _).mpr
    ⟨hp, by simp [FrameKind.destInRange, Content.kind, FrameKind.cls, hd], by simp [Content.body], rfl, rfl⟩)

/-- A FAIL to a valid station. -/
theorem heard_fail {p d : Station} (hp : validStation p = true) (hd : validStation d = true) (t : Tag) (w : Word) :
    heard p d t (.response (.fail w)) = some ⟨p, d, t, .response (.fail w)⟩ :=
  heard_of_passes ((Message.frame_message_isSome _ _).mpr
    ⟨hp, by simp [FrameKind.destInRange, Content.kind, FrameKind.cls, hd], by simp [Content.body], rfl, rfl⟩)

/-- The station number of a station word. -/
@[simp] theorem setWidth_stationWord (d : Station) : (d.setWidth 32).setWidth 5 = d := by revert d; decide

end Machine

end Sys2Proof
end

