-- ==== Sys2Proof/Laws/Map.lean ====
section
/-! SUPPORT. The window map: what additions, removals and merges do, and that they keep its laws. -/

namespace Sys2Proof.Machine

/-- Overlap does not depend on the order. -/
theorem MapEntry.overlaps_comm (a b : MapEntry) : a.overlaps b = b.overlaps a := by
  simp only [MapEntry.overlaps, rangesOverlap]; exact Bool.and_comm _ _

/-- An entry is at least 4 KiB long. -/
theorem MapEntry.bytes_pos (e : MapEntry) : 4096 ≤ e.bytes := by
  simp only [MapEntry.bytes, windowSize]
  exact Nat.le_mul_of_pos_right _ (Nat.two_pow_pos _)

/-- Entries that do not overlap have different bases. -/
theorem MapEntry.low_ne {a b : MapEntry} (h : a.overlaps b = false) : a.low ≠ b.low := by
  intro heq
  have ha := a.bytes_pos
  have hb := b.bytes_pos
  simp only [MapEntry.overlaps, rangesOverlap, Bool.and_eq_false_iff, decide_eq_false_iff_not] at h
  omega

/-- The entries after an insertion. -/
@[simp] theorem mem_insertEntry (e x : MapEntry) (map : List MapEntry) : x ∈ insertEntry e map ↔ x = e ∨ x ∈ map := by
  induction map with
  | nil => simp [insertEntry]
  | cons y ys ih =>
    simp only [insertEntry]
    split
    · simp
    · simp [ih]; tauto

/-- An insertion adds one entry. -/
@[simp] theorem length_insertEntry (e : MapEntry) (map : List MapEntry) :
    (insertEntry e map).length = map.length + 1 := by
  induction map with
  | nil => rfl
  | cons y ys ih => simp only [insertEntry]; split <;> simp [ih]

/-- An insertion keeps a symmetric relation that the new entry has with every old one. -/
theorem insertEntry_pairwise {R : MapEntry → MapEntry → Prop} {e : MapEntry} {map : List MapEntry}
    (hs : ∀ a b, R a b → R b a) (hm : map.Pairwise R) (he : ∀ x ∈ map, R x e) : (insertEntry e map).Pairwise R := by
  induction map with
  | nil => simp [insertEntry]
  | cons y ys ih =>
    rw [List.pairwise_cons] at hm
    simp only [insertEntry]
    split
    · rw [List.pairwise_cons, List.pairwise_cons]
      refine ⟨fun x hx => hs _ _ (he x hx), hm.1, hm.2⟩
    · rw [List.pairwise_cons]
      refine ⟨fun x hx => ?_, ih hm.2 (fun x hx => he x (by simp [hx]))⟩
      rcases (mem_insertEntry e x ys).mp hx with rfl | hx
      · exact he y (by simp)
      · exact hm.1 x hx

/-- An insertion of a base that is not in the map keeps the ascending order. -/
theorem insertEntry_ascending {e : MapEntry} {map : List MapEntry} (hm : map.Pairwise (fun a b => a.low < b.low))
    (he : ∀ x ∈ map, x.low ≠ e.low) : (insertEntry e map).Pairwise (fun a b => a.low < b.low) := by
  induction map with
  | nil => simp [insertEntry]
  | cons y ys ih =>
    rw [List.pairwise_cons] at hm
    simp only [insertEntry]
    split
    · rename_i hlt
      rw [List.pairwise_cons, List.pairwise_cons]
      refine ⟨fun x hx => ?_, hm.1, hm.2⟩
      rcases List.mem_cons.mp hx with rfl | hx
      · exact hlt
      · exact lt_trans hlt (hm.1 x hx)
    · rename_i hge
      rw [List.pairwise_cons]
      refine ⟨fun x hx => ?_, ih hm.2 (fun x hx => he x (by simp [hx]))⟩
      rcases (mem_insertEntry e x ys).mp hx with rfl | hx
      · have := he y (by simp); omega
      · exact hm.1 x hx

/-- How many entries a station owns after an insertion. -/
@[simp] theorem ownedBy_insertEntry (e : MapEntry) (map : List MapEntry) (p : Station) :
    ownedBy (insertEntry e map) p = ownedBy map p + if e.owner = p then 1 else 0 := by
  induction map with
  | nil => simp [insertEntry, ownedBy, List.countP_cons]
  | cons y ys ih =>
    simp only [ownedBy] at ih ⊢
    simp only [insertEntry]
    split
    · simp [List.countP_cons]
    · simp only [List.countP_cons, ih]; omega

/-- An insertion that is not refused keeps the laws of the map. -/
theorem MapLaws.insert {e : MapEntry} {map : List MapEntry} (h : MapLaws map) (hf : claimRefusedBy map e = false) :
    MapLaws (insertEntry e map) := by
  simp only [claimRefusedBy, overlapsAny, Bool.or_eq_false_iff, List.any_eq_false, decide_eq_false_iff_not,
    not_le] at hf
  obtain ⟨hf, hs⟩ := hf
  have ho : ∀ x ∈ map, x.overlaps e = false := fun x hx => by simpa using hf.1 x hx
  refine ⟨fun p => ?_, by have := hf.2; simp; omega, insertEntry_ascending h.ascending (fun x hx => MapEntry.low_ne (ho x hx)),
    insertEntry_pairwise (fun a b hab => by rw [MapEntry.overlaps_comm]; exact hab) h.disjoint ho⟩
  have := h.share p
  rw [ownedBy_insertEntry]
  split
  · rename_i hp; subst hp; omega
  · omega

/-- An addition keeps the laws of the map. -/
theorem MapLaws.add (e : MapEntry) {map : List MapEntry} (h : MapLaws map) : MapLaws (addEntry e map) := by
  simp only [addEntry]
  split
  · exact h
  · rename_i hf
    exact h.insert (by simpa using hf)

/-- A selection of entries keeps the laws of the map. -/
theorem MapLaws.filter (p : MapEntry → Bool) {map : List MapEntry} (h : MapLaws map) : MapLaws (map.filter p) :=
  ⟨fun q => le_trans (List.Sublist.countP_le List.filter_sublist) (h.share q),
    le_trans (List.length_filter_le p map) h.depth, h.ascending.filter p, h.disjoint.filter p⟩

/-- The empty map has the laws. -/
theorem MapLaws.nil : MapLaws [] := ⟨by simp [ownedBy], by simp, by simp, by simp⟩

/-- The removal of an owner keeps the laws of the map. -/
theorem MapLaws.removeOwner (d : Station) {map : List MapEntry} (h : MapLaws map) :
    MapLaws (Machine.removeOwner d map) := h.filter _

/-- The removal of an entry keeps the laws of the map. -/
theorem MapLaws.removeEntry (b : Word) (d : Station) {map : List MapEntry} (h : MapLaws map) :
    MapLaws (Machine.removeEntry b d map) := h.filter _

/-- A claim that is not refused fits. -/
theorem claimFits_of_not_refused {map : List MapEntry} {e : MapEntry} (h : claimRefusedBy map e = false) :
    claimFits map e = true := by
  simp only [claimRefusedBy, Bool.or_eq_false_iff] at h
  simp [claimFits, h.1.1, h.1.2]

/-- Where an entry may come from after an addition. -/
theorem mem_addEntry {e x : MapEntry} {map : List MapEntry} (h : x ∈ addEntry e map) : x = e ∨ x ∈ map := by
  simp only [addEntry] at h
  split at h
  · exact Or.inr h
  · simpa using h

/-- An addition that no condition of R71 refuses is an insertion. -/
theorem addEntry_of_fits {e : MapEntry} {map : List MapEntry} (h : claimRefusedBy map e = false) :
    addEntry e map = insertEntry e map := by simp [addEntry, h]

/-- The merge of one pair passes it over, records MAP_OVERLAP, or inserts an entry that fits. -/
theorem mergePair_cases (d : Station) (s : State) (p : Word × Word) :
    mergePair d s p = s ∨ mergePair d s p = s.fault .mapOverlap (some d) none (some p.1) ∨
    (claimRefusedBy s.wmu.map (pairEntry p d) = false ∧
      mergePair d s p = { s with wmu := { s.wmu with map := insertEntry (pairEntry p d) s.wmu.map } }) := by
  simp only [mergePair]
  split
  · exact Or.inl rfl
  · split
    · exact Or.inr (Or.inl rfl)
    · rename_i h
      exact Or.inr (Or.inr ⟨by simpa using h, rfl⟩)

/-- The merge of a ROSTER's pairs touches the map and the Fault List alone. -/
@[simp] theorem mergePairs_frame (d : Station) (pairs : List (Word × Word)) (s : State) :
    (mergePairs d pairs s).resetAsserted = s.resetAsserted ∧ (mergePairs d pairs s).tif = s.tif ∧
    (mergePairs d pairs s).mc = s.mc ∧ (mergePairs d pairs s).ore = s.ore ∧ (mergePairs d pairs s).isu = s.isu ∧
    (mergePairs d pairs s).freeUsed = s.freeUsed ∧ (mergePairs d pairs s).pending = s.pending ∧
    (mergePairs d pairs s).wmu.own = s.wmu.own ∧ (mergePairs d pairs s).wmu.claim = s.wmu.claim ∧
    (mergePairs d pairs s).lpu.setup = s.lpu.setup ∧ (mergePairs d pairs s).lpu.running = s.lpu.running := by
  induction pairs generalizing s with
  | nil => simp [mergePairs]
  | cons p ps ih =>
    have h := ih (mergePair d s p)
    simp only [mergePairs, List.foldl_cons] at h ⊢
    rcases mergePair_cases d s p with hp | hp | ⟨_, hp⟩ <;> simpa [hp] using h

/-- The merge of a ROSTER's pairs keeps the laws of the map. -/
theorem mergePairs_laws (d : Station) (pairs : List (Word × Word)) (s : State) (h : MapLaws s.wmu.map) :
    MapLaws (mergePairs d pairs s).wmu.map := by
  induction pairs generalizing s with
  | nil => exact h
  | cons p ps ih =>
    simp only [mergePairs, List.foldl_cons] at ih ⊢
    rcases mergePair_cases d s p with hp | hp | ⟨hf, hp⟩
    · rw [hp]; exact ih s h
    · rw [hp]; exact ih _ h
    · rw [hp]; exact ih _ (h.insert hf)

end Sys2Proof.Machine
end

