-- ==== Sys2Proof/Laws/Reception.lean ====
section
/-! SUPPORT. What a whole reception and each of its moments do, whatever the frame. -/

namespace Sys2Proof.Machine

/-- Every row of a received frame is one reception, at the moment it stands for. -/
theorem exec_of_moment {c : Instr} {m : RxMoment} (h : c.moment = some m) {s : State} (hr : s.resetAsserted = false) :
    ∃ x : Heard, exec c s = .next (s.receive x m) := by
  cases c <;> simp only [Instr.moment, reduceCtorEq, Option.some.injEq] at h
  case malformedFrame bits periods m' =>
    cases hb : Frame.read bits with
    | none => simp [hb] at h
    | some fc =>
      simp only [hb, Option.isSome_some, if_true, Option.some.injEq] at h
      subst h
      exact ⟨_, by simp [exec, execMalformedFrame, released, hr, State.receiveBits, State.heardBits, hb]; rfl⟩
  all_goals
    subst h
    exact ⟨_, by simp only [exec, execSyncReceived, execRosterReceived, execClaimReceived, execReleaseReceived,
      execEvictReceived, execByeReceived, execRequestReceived, execResponseReceived, execSignalReceived,
      execFrameForAnotherStation, released, hr]; rfl⟩

/-- Where no abandoned own frame is owed anything nothing is added to the end of a frame. -/
theorem State.finishSpent_of_none {s : State} (h : s.tif.spent = none) : s.finishSpent = s := by
  simp [State.finishSpent, h]

/-- A decision depends on the TIF through the collision mark alone. -/
theorem State.decideAddressed_tif (s : State) (t : Tif) (m : Message) :
    State.decideAddressed { s with tif := t } m = s.decideAddressed m := rfl

/-- What a station with no collision on the frame decides. -/
theorem State.decide_some {s : State} (h : s.tif.collidedHere = false) (m : Message) :
    s.decide (some m) =
      if s.mc.state.isMember = false then .silent m
      else if m.dest = s.mc.sid ∨ m.dest = allStations then s.decideAddressed m else .silent m := by
  simp [State.decide, h]

/-- The moment of the last check bit at a station that decides. -/
theorem State.rxDecide_of_decides {s : State} (h : s.decides) (x : Heard) :
    s.rxDecide x =
      { s with tif := { s.tif with
        receiver := .slots, rx := some ⟨s.decide x.message, x.count, false, false, none⟩ } } := by
  obtain ⟨_, h2, h3, h4, _, _⟩ := h
  simp [State.rxDecide, h2, h3, h4]

/-- The verdict of a station that receives a frame from its start. -/
def State.verdictOn (s : State) (m : Option Message) : Verdict :=
  match m with
  | none => .malformed
  | some m =>
    if s.mc.state.isMember = false then .silent m
    else if m.dest = s.mc.sid ∨ m.dest = allStations then s.decideAddressed m
    else .silent m

/-- A whole frame at a listening station whose receiver is READY. -/
theorem State.receive_whole {s : State} (x : Heard) (others : Slots) (hr : s.tif.receiver = .ready)
    (hf : s.tif.flight = none) (hl : s.mc.state.isListening = true) :
    s.receive x (.whole others) =
      State.applyVerdict ⟨s.verdictOn x.message, x.count, false, false, none⟩
        (s.mc.state.isMember && x.clockHeld &&
          takenBy (s.verdictOn x.message).dest (others.wired (s.verdictOn x.message).drives))
        { s with tif := s.tif.heard } := by
  have hd : ∀ t : Tif, t.collidedHere = false → State.decide { s with tif := t } x.message = s.verdictOn x.message := by
    intro t ht
    cases x.message with
    | none => rfl
    | some m => rw [State.decide_some (by exact ht)]; rfl
  simp [State.receive, State.rxStart, hr, State.rxDecide, hf, hl, State.rxEnd, Tif.heard, hd, State.finishSpent,
    State.takesAtEnd, Reception.drives]

/-- The end of the trailer of a frame on which no own frame was abandoned. -/
theorem State.rxEnd_of_slots {s : State} {r : Reception} (x : Heard) (others : Slots) (hr : s.tif.receiver = .slots)
    (hf : s.tif.flight = none) (hx : s.tif.rx = some r) (hc : s.tif.spent = none) :
    s.rxEnd x others =
      State.applyVerdict r (s.takesAtEnd x others r)
        { s with tif := { s.tif with receiver := .unsynced, rx := none, collidedHere := false } } := by
  simp [State.rxEnd, hr, hf, hx, State.finishSpent, hc]

/-- A frame found out of tolerance in its trailer is not taken here. -/
theorem State.takesAtEnd_late {s : State} {r : Reception} {x : Heard} {others : Slots}
    (h : r.late.isSome = true ∨ x.clockHeld = false) : s.takesAtEnd x others r = false := by
  rcases h with h | h
  · cases hl : r.late <;> simp_all [State.takesAtEnd]
  · simp [State.takesAtEnd, h]

/-- The clock of a frame given by its fields is in tolerance. -/
@[simp] theorem Heard.ofFields_clockHeld (p d : Station) (t : Tag) (c : Content) :
    (Heard.ofFields p d t c).clockHeld = true := rfl

/-- What a frame given by its fields says. -/
@[simp] theorem Heard.ofFields_message (p d : Station) (t : Tag) (c : Content) :
    (Heard.ofFields p d t c).message = heard p d t c := rfl

/-- The count of a frame given by its fields. -/
@[simp] theorem Heard.ofFields_count (p d : Station) (t : Tag) (c : Content) :
    (Heard.ofFields p d t c).count = BitVec.ofNat 5 c.body.length := rfl

/-- A whole frame at a station that does not listen. -/
theorem State.receive_whole_deaf {s : State} (x : Heard) (others : Slots) (hr : s.tif.receiver = .ready)
    (hf : s.tif.flight = none) (hl : s.mc.state.isListening = false) :
    s.receive x (.whole others) = { s with tif := s.tif.heard } := by
  simp [State.receive, State.rxStart, hr, State.rxDecide, hf, hl, State.rxEnd, Tif.heard, State.finishSpent]

/-- A member listens. -/
theorem StationState.listening_of_member {st : StationState} (h : st.isMember = true) : st.isListening = true := by
  cases st <;> simp_all [StationState.isMember, StationState.isListening]

/-- Whether a frame is taken, from the levels the others drive and the slot driven here. -/
theorem takenBy_accept {dest : Station} {others : Slots} (h : others.clear) :
    takenBy dest (others.wired ⟨false, false, true⟩) = true := by
  simp [takenBy, Slots.wired, outcomeOf, h.1, h.2]

/-- A frame on which ERROR is driven is not taken. -/
theorem takenBy_error {dest : Station} {others here : Slots} (h : others.error = true) :
    takenBy dest (others.wired here) = false := by
  simp [takenBy, Slots.wired, outcomeOf, h]

/-- A frame this station rejects is not taken. -/
theorem takenBy_reject {dest : Station} {others : Slots} :
    takenBy dest (others.wired ⟨false, true, false⟩) = false := by
  cases h : others.error <;> simp [takenBy, Slots.wired, outcomeOf, h]

/-- What a frame addressed to a member that accepts it does, at a member whose receiver is READY. -/
theorem State.receive_whole_accept {s : State} {x : Heard} {m : Message} {p : Option ServicePlan} {others : Slots}
    (h : s.hears) (hv : s.verdictOn x.message = .accept m p) (hk : x.clockHeld = true) (hc : others.clear) :
    s.receive x (.whole others) =
      (State.hear m.source { s with tif := s.tif.heard }).applyAccepted ⟨.accept m p, x.count, false, false, none⟩
        m p := by
  obtain ⟨_, h2, h3, h4⟩ := h
  rw [State.receive_whole _ _ h3 h4 (StationState.listening_of_member h2), hv]
  simp [State.applyVerdict, h2, hk, Verdict.drives, takenBy_accept hc]

/-- What a frame the member rejects does. -/
theorem State.receive_whole_reject {s : State} {x : Heard} {m : Message} {others : Slots} (h : s.hears)
    (hv : s.verdictOn x.message = .reject m) :
    s.receive x (.whole others) = { s with tif := s.tif.heard } := by
  obtain ⟨_, h2, h3, h4⟩ := h
  rw [State.receive_whole _ _ h3 h4 (StationState.listening_of_member h2), hv]
  simp [State.applyVerdict]

end Sys2Proof.Machine
end

