-- ==== Sys2Proof/Laws/Trunk.lean ====
section
/-! SUPPORT. The transmitter: the counts of a candidate, the void limit, and what each outcome row runs when its frame is in
flight. -/

namespace Sys2Proof.Machine

/-- The counts of a candidate do not depend on the TIF. -/
@[simp] theorem State.countsOf_tif (src : Source) (s : State) (t : Tif) :
    State.countsOf src { s with tif := t } = s.countsOf src := by cases src <;> rfl

/-- A void below the limit raises the void count alone. -/
theorem State.voidFrame_below {s : State} {src : Source} {c : Counts} (h : s.countsOf src = some c) (hv : c.voids < 7) :
    s.voidFrame src = s.withCounts src ⟨c.losses, c.voids + 1, c.urgent⟩ := by
  have : c.raiseVoids.voids < Config.voidLimit := by simp only [Counts.raiseVoids, Config.voidLimit]; omega
  simp only [State.voidFrame, h, if_pos this]
  rfl

/-- The eighth void abandons the frame. -/
theorem State.voidFrame_limit {s : State} {src : Source} {c : Counts} (h : s.countsOf src = some c)
    (hv : 7 ≤ c.voids) : s.voidFrame src = s.abandon src := by
  have : ¬c.raiseVoids.voids < Config.voidLimit := by simp only [Counts.raiseVoids, Config.voidLimit]; omega
  simp [State.voidFrame, h, this]

/-- A COLLIDED frame below the limit: the void count rises. -/
theorem State.collideVoid_below {s : State} {src : Source} {c : Counts} (h : s.countsOf src = some c) (hv : c.voids < 7) :
    s.collideVoid src = s.withCounts src ⟨c.losses, c.voids + 1, c.urgent⟩ := by
  have : c.raiseVoids.voids < Config.voidLimit := by simp only [Counts.raiseVoids, Config.voidLimit]; omega
  simp only [State.collideVoid, h, if_pos this]
  rfl

/-- A COLLIDED frame at the limit is abandoned. -/
theorem State.collideVoid_limit {s : State} {src : Source} {c : Counts} (h : s.countsOf src = some c)
    (hv : 7 ≤ c.voids) : s.collideVoid src = s.collideLimit src ⟨c.losses, c.voids + 1, c.urgent⟩ := by
  have : ¬c.raiseVoids.voids < Config.voidLimit := by simp only [Counts.raiseVoids, Config.voidLimit]; omega
  simp only [State.collideVoid, h, if_neg this]
  rfl

/-- Neither the Fault List nor what is owed has a part in what follows where an SQ record has gone. -/
theorem State.owing_afterResponse (faults : List FaultRecord) (a : Aftermath) (s : State) :
    (s.owing faults a).afterResponse = s.afterResponse.owing faults a := by
  have h1 : (s.owing faults a).testLeave = s.testLeave.owing faults a := by
    unfold State.testLeave
    split <;> rename_i h
    · rw [if_pos (by exact h)]; rfl
    · rw [if_neg (by exact h)]
  have h2 : ∀ t : State, (t.owing faults a).testFlush = t.testFlush.owing faults a := by
    intro t
    unfold State.testFlush
    split <;> rename_i h
    · rw [if_pos (by exact h)]
      obtain ⟨_, _, _, _, _, _, ⟨_, _, c, _, _, _, _, _, _, _, _, _⟩, _, _⟩ := t
      cases c <;> rfl
    · rw [if_neg (by exact h)]
  rw [State.afterResponse, State.afterResponse, h1, h2]

/-- An abandonment at a collision bit leaves the Fault List, and holds its records back. -/
@[simp] theorem State.abandonAtBit_faults (src : Source) (s : State) :
    (s.abandonAtBit src).lpu.faults = s.lpu.faults ∧
    (s.abandonAtBit src).tif.due = (State.abandon src { s with lpu := { s.lpu with faults := [] } }).lpu.faults :=
  ⟨rfl, rfl⟩

/-- With no record waiting the Fault List stays. -/
theorem State.appendDue_of_none {s : State} (h : s.tif.spent = none) : s.appendDue = s := by
  obtain ⟨ra, ⟨_, _, _, _, sp, _, _, _, _⟩, mc, wmu, ore, isu, lpu, fu, pe⟩ := s
  cases h
  rfl

/-- The end of the frame on which an own frame was abandoned appends the records that wait. -/
theorem State.finishSpent_faults {s : State} {rs : List FaultRecord} (h : s.tif.spent = some (.faults rs)) :
    s.finishSpent =
      { s with lpu := { s.lpu with faults := addFaults rs s.lpu.faults }, tif := { s.tif with spent := none } } := by
  simp [State.finishSpent, State.appendDue, Tif.due, h]

/-- The end of an own frame, as the outcome rows see it. -/
theorem State.endFlight_eq (s : State) : s.endFlight = { s with tif := s.tif.sent } := rfl

/-- Everything but the TIF stays at the end of an own frame. -/
@[simp] theorem State.endFlight_frame (s : State) :
    s.endFlight.resetAsserted = s.resetAsserted ∧ s.endFlight.mc = s.mc ∧ s.endFlight.wmu = s.wmu ∧
    s.endFlight.ore = s.ore ∧ s.endFlight.isu = s.isu ∧ s.endFlight.lpu = s.lpu ∧
    s.endFlight.freeUsed = s.freeUsed ∧ s.endFlight.pending = s.pending ∧ s.endFlight.tif = s.tif.sent :=
  ⟨rfl, rfl, rfl, rfl, rfl, rfl, rfl, rfl, rfl⟩

/-- The last check bit of an own frame takes the receiver from RECEIVING to SLOTS. -/
theorem State.ownLastCheckBit_of_flight {s : State} {src : Source → Bool} {f : Flight} (h : s.tif.flight = some f)
    (hs : src f.source = true) (hr : s.tif.receiver = .receiving) :
    s.ownLastCheckBit src = { s with tif := { s.tif with receiver := .slots } } := by
  simp [State.ownLastCheckBit, h, hs, hr]

/-- The last check bit of an own frame touches the receiver alone. -/
theorem State.ownLastCheckBit_frame (s : State) (src : Source → Bool) :
    ∃ phase, s.ownLastCheckBit src = { s with tif := { s.tif with receiver := phase } } ∧
      (phase = s.tif.receiver ∨ (s.tif.receiver = .receiving ∧ phase = .slots)) := by
  unfold State.ownLastCheckBit
  split
  · next h => exact ⟨_, rfl, Or.inr ⟨h.1, rfl⟩⟩
  · exact ⟨_, rfl, Or.inl rfl⟩

/-- A bit compared is a bit of the frame in flight, while the receiver is in RECEIVING. -/
theorem State.comparedAt_eq_some {s : State} {p : Nat} {f : Flight} {b : Bool} :
    s.comparedAt p = some (f, b) ↔
      s.tif.receiver = .receiving ∧ s.tif.flight = some f ∧ f.frame.bitAt p = some b := by
  unfold State.comparedAt
  split <;> simp_all [Option.bind_eq_some_iff]

/-- The row of a SYNC in flight. -/
theorem exec_syncOutcome {s : State} {f : Frame} (h : s.sends .sync f) (levels : Slots) :
    exec (.syncOutcome (.endOfTrailer levels)) s = .next (s.endFlight.syncEnds levels.accept (outcomeOf f.dest levels)) := by
  simp [exec, execSyncOutcome, released, h.1, State.ownFrame, State.atTrailer, h.2]

/-- The row of a ROSTER in flight. -/
theorem exec_rosterOutcome {s : State} {f : Frame} (h : s.sends .roster f) (levels : Slots) :
    exec (.rosterOutcome (.endOfTrailer levels)) s = .next (s.endFlight.rosterEnds (outcomeOf f.dest levels)) := by
  simp [exec, execRosterOutcome, released, h.1, State.ownFrame, State.atTrailer, h.2]

/-- The row of a CLAIM in flight. -/
theorem exec_claimOutcome {s : State} {n : Slot} {f : Frame} (h : s.sends (.claim n) f) (levels : Slots) :
    exec (.claimOutcome (.endOfTrailer levels)) s = .next (s.endFlight.claimEnds n (outcomeOf f.dest levels)) := by
  simp [exec, execClaimOutcome, released, h.1, State.ownFrame, State.atTrailer, h.2, Source.isClaim, State.claimFrameEnds]

/-- The row of a RELEASE in flight. -/
theorem exec_releaseOutcome {s : State} {n : Slot} {f : Frame} (h : s.sends (.release n) f) (levels : Slots) :
    exec (.releaseOutcome (.endOfTrailer levels)) s =
      .next (s.endFlight.releaseEnds n ⟨.release n, f, false⟩ (outcomeOf f.dest levels)) := by
  simp [exec, execReleaseOutcome, released, h.1, State.ownFrame, State.atTrailer, h.2, Source.isRelease, State.releaseFrameEnds]

/-- The row of an EVICT in flight. -/
theorem exec_evictOutcome {s : State} {d : Station} {f : Frame} (h : s.sends (.evict d) f) (levels : Slots) :
    exec (.evictOutcome (.endOfTrailer levels)) s = .next (s.endFlight.evictEnds d (outcomeOf f.dest levels)) := by
  simp [exec, execEvictOutcome, released, h.1, State.ownFrame, State.atTrailer, h.2, Source.isEvict, State.evictFrameEnds]

/-- The row of a BYE in flight. -/
theorem exec_byeOutcome {s : State} {f : Frame} (h : s.sends .bye f) (levels : Slots) :
    exec (.byeOutcome (.endOfTrailer levels)) s = .next (s.endFlight.byeEnds (outcomeOf f.dest levels)) := by
  simp [exec, execByeOutcome, released, h.1, State.ownFrame, State.atTrailer, h.2]

/-- The row of the RQ head's frame in flight. -/
theorem exec_requestFrameOutcome {s : State} {f : Frame} (h : s.sends .rqHead f) (levels : Slots) :
    exec (.requestFrameOutcome (.endOfTrailer levels)) s =
      .next (s.endFlight.requestEnds ⟨.rqHead, f, false⟩ (outcomeOf f.dest levels)) := by
  simp [exec, execRequestFrameOutcome, released, h.1, State.ownFrame, State.atTrailer, h.2]

/-- The row of the SQ head's frame in flight. -/
theorem exec_responseFrameOutcome {s : State} {f : Frame} (h : s.sends .sqHead f) (levels : Slots) :
    exec (.responseFrameOutcome (.endOfTrailer levels)) s =
      .next (s.endFlight.responseEnds ⟨.sqHead, f, false⟩ (outcomeOf f.dest levels)) := by
  simp [exec, execResponseFrameOutcome, released, h.1, State.ownFrame, State.atTrailer, h.2]

/-- The outcome at a dominant ERROR slot. -/
theorem outcomeOf_error {dest : Station} {l : Slots} (h : l.error = true) : outcomeOf dest l = .voided := by
  simp [outcomeOf, h]

/-- The outcome at a dominant REJECT slot. -/
theorem outcomeOf_reject {dest : Station} {l : Slots} (h : l.error = false) (hr : l.reject = true) :
    outcomeOf dest l = .rejected := by simp [outcomeOf, h, hr]

/-- A broadcast that is neither voided nor rejected is TAKEN; a unicast frame needs ACCEPT. -/
theorem outcomeOf_taken {dest : Station} {l : Slots} (h : l.clear) (ha : l.accept = true ∨ dest = 31) :
    outcomeOf dest l = .taken := by
  rcases ha with ha | ha <;> simp [outcomeOf, h.1, h.2, ha]

/-- A unicast frame that nobody answers. -/
theorem outcomeOf_unanswered {dest : Station} {l : Slots} (h : l.clear) (ha : l.accept = false) (hd : dest ≠ 31#5) :
    outcomeOf dest l = .unanswered := by
  simp [outcomeOf, h.1, h.2, ha, hd]

end Sys2Proof.Machine
end

