-- ==== Sys2Proof/Laws/Views.lean ====
section
/-! SUPPORT. What the packed words of the local port show, and what descriptor the RQ staging area holds. -/

namespace Sys2Proof.Machine

/-! ### Packed words -/

/-- The field covers bit i of its word, and its value has a 1 there. -/
def Field.covers (f : Field) (i : Nat) : Bool := f.bit ≤ i && i < f.bit + f.width && f.value.testBit (i - f.bit)

/-- Neither field reaches into the other. -/
def Field.apart (f g : Field) : Prop := f.bit + f.width ≤ g.bit ∨ g.bit + g.width ≤ f.bit

/-- One field alone, as bits. -/
theorem Field.word_getLsbD (f : Field) (h : f.bit + f.width ≤ 32) (i : Nat) :
    ((BitVec.ofNat f.width f.value).setWidth 32 <<< f.bit : Word).getLsbD i = f.covers i := by
  simp only [BitVec.getLsbD_shiftLeft, BitVec.getLsbD_setWidth, BitVec.getLsbD_ofNat, Field.covers]
  by_cases h1 : f.bit ≤ i
  · by_cases h2 : i < f.bit + f.width
    · have : i < 32 ∧ i - f.bit < 32 ∧ i - f.bit < f.width ∧ ¬i < f.bit := by omega
      simp [h1, h2, this]
    · have : ¬i - f.bit < f.width := by omega
      simp [h1, h2, this]
  · have : i < f.bit := by omega
    simp [h1, this]

/-- A packed word, as bits. -/
theorem packFields_getLsbD (fs : List Field) (h : ∀ f ∈ fs, f.bit + f.width ≤ 32) (i : Nat) :
    (packFields fs).getLsbD i = fs.any (fun f => f.covers i) := by
  have go : ∀ (gs : List Field) (w : Word), (∀ f ∈ gs, f.bit + f.width ≤ 32) →
      (gs.foldl (fun w f => w ||| ((BitVec.ofNat f.width f.value).setWidth 32 <<< f.bit)) w).getLsbD i =
        (w.getLsbD i || gs.any (fun f => f.covers i)) := by
    intro gs
    induction gs with
    | nil => simp
    | cons g gs ih =>
      intro w hg
      rw [List.foldl_cons, ih _ (fun f hf => hg f (List.mem_cons_of_mem _ hf)), BitVec.getLsbD_or,
        Field.word_getLsbD g (hg g List.mem_cons_self), List.any_cons, Bool.or_assoc]
  simpa [packFields] using go fs 0 h

/-- A packed word shows its fields, where none reaches into another or beyond the word. -/
theorem packFields_shows (fs : List Field) (h : ∀ f ∈ fs, f.bit + f.width ≤ 32) (hd : fs.Pairwise Field.apart) :
    shows (packFields fs) (fs.map (fun f => (f.bit, f.width, f.value))) := by
  constructor
  · intro x hx
    obtain ⟨f, hf, rfl⟩ := List.mem_map.1 hx
    refine Nat.eq_of_testBit_eq fun j => ?_
    rw [Nat.testBit_mod_two_pow, Nat.testBit_mod_two_pow, Nat.testBit_div_two_pow]
    by_cases hj : j < f.width
    · have hb : (packFields fs).getLsbD (j + f.bit) = f.value.testBit j := by
        rw [packFields_getLsbD fs h]
        refine Bool.eq_iff_iff.2 ⟨fun ha => ?_, fun ha => List.any_eq_true.2 ⟨f, hf, ?_⟩⟩
        · obtain ⟨g, hg, hc⟩ := List.any_eq_true.1 ha
          simp only [Field.covers, Bool.and_eq_true, decide_eq_true_eq] at hc
          by_cases e : f = g
          · subst e
            simpa using hc.2
          · have : Std.Symm Field.apart := ⟨fun _ _ => Or.symm⟩
            have := hd.forall hf hg e
            simp only [Field.apart] at this
            omega
        · have : j + f.bit < f.bit + f.width := by omega
          simp [Field.covers, this, ha]
      rw [← hb]
      simp [hj, BitVec.getLsbD]
    · simp [hj]
  · intro i hi
    rw [packFields_getLsbD fs h, List.any_eq_false]
    intro f hf
    have := hi _ (List.mem_map.2 ⟨f, hf, rfl⟩)
    intro hc
    simp only [Field.covers, Bool.and_eq_true, decide_eq_true_eq] at hc
    exact this ⟨hc.1.1, hc.1.2⟩

/-! ### The RQ staging area -/

/-- The staging area gives a descriptor exactly where its words describe one (R97, R182). -/
theorem stagedDescriptor_eq_some_iff (sid : Station) (stage : Vector Word 18) (d : Descriptor) :
    stagedDescriptor sid stage = some d ↔ describes sid stage d := by
  have hop : ∀ n : Nat, n < 8 → (stage[0].setWidth 3 = BitVec.ofNat 3 n ↔ stage[0].toNat % 8 = n) := fun n hn => by
    rw [← BitVec.toNat_inj]
    simp [Nat.mod_eq_of_lt hn]
  have hl : (stage[0].extractLsb' 4 5).toNat = stage[0].toNat / 16 % 32 := by
    simp [Nat.shiftRight_eq_div_pow]
  have hd : (stage[0].extractLsb' 10 5).toNat = stage[0].toNat / 1024 % 32 := by
    simp [Nat.shiftRight_eq_div_pow]
  have ht : (stage[0].extractLsb' 16 16).toNat = stage[0].toNat / 65536 := by
    simp [Nat.shiftRight_eq_div_pow]
    have := stage[0].isLt
    omega
  have ha : (wordAligned stage[1] && decide (1 ≤ stage[0].toNat / 16 % 32) && decide (stage[0].toNat / 16 % 32 ≤ 16)) = true ↔
      stage[1].toNat % 4 = 0 ∧ 1 ≤ stage[0].toNat / 16 % 32 ∧ stage[0].toNat / 16 % 32 ≤ 16 := by
    simp [wordAligned, and_assoc]
  have hq : (stage[0].extractLsb' 10 5 != 0 && stage[0].extractLsb' 10 5 != sid ||
      stage[0].extractLsb' 10 5 == allStations) = true ↔
      stage[0].toNat / 1024 % 32 = 31 ∨ (stage[0].toNat / 1024 % 32 ≠ 0 ∧ stage[0].toNat / 1024 % 32 ≠ sid.toNat) := by
    rw [Bool.or_eq_true, Bool.and_eq_true, bne_iff_ne, bne_iff_ne, beq_iff_eq, ne_eq, ne_eq, ← BitVec.toNat_inj,
      ← BitVec.toNat_inj, ← BitVec.toNat_inj, hd, or_comm]
    rfl
  obtain ⟨ticket, work⟩ := d
  have htk : stage[0].extractLsb' 16 16 = ticket ↔ ticket.toNat = stage[0].toNat / 65536 := by
    rw [← BitVec.toNat_inj, ht, eq_comm]
  have hdest : ∀ p : Station, stage[0].extractLsb' 10 5 = p ↔ p.toNat = stage[0].toNat / 1024 % 32 := fun p => by
    rw [← BitVec.toNat_inj, hd, eq_comm]
  have h1 : stage[0].setWidth 3 = 1 ↔ stage[0].toNat % 8 = 1 := hop 1 (by decide)
  have h2 : stage[0].setWidth 3 = 2 ↔ stage[0].toNat % 8 = 2 := hop 2 (by decide)
  have h3 : stage[0].setWidth 3 = 3 ↔ stage[0].toNat % 8 = 3 := hop 3 (by decide)
  have h4 : stage[0].setWidth 3 = 4 ↔ stage[0].toNat % 8 = 4 := hop 4 (by decide)
  simp only [stagedDescriptor, describes, hl, ha, hq, h1, h2, h3, h4]
  have hp : ∀ (t : BitVec 16) (w : Work), (⟨t, w⟩ : Descriptor) = ⟨ticket, work⟩ ↔ t = ticket ∧ w = work := by simp
  simp only [apply_ite (fun x : Option Descriptor => x = some ⟨ticket, work⟩), Option.some.injEq, hp, htk, reduceCtorEq]
  clear hop hl hd ht ha hq h1 h2 h3 h4 hp htk
  generalize stage[0].toNat % 8 = op at *
  generalize stage[0].toNat / 65536 = tk at *
  cases work
  all_goals
    simp only [Work.read.injEq, Work.write.injEq, Work.cwrite.injEq, Work.signal.injEq, reduceCtorEq, hdest, and_false,
      if_false_right, if_false_left, ite_self]
  all_goals grind

/-- It gives none exactly where they describe none. -/
theorem stagedDescriptor_eq_none_iff (sid : Station) (stage : Vector Word 18) :
    stagedDescriptor sid stage = none ↔ ∀ d, ¬describes sid stage d := by
  simp only [← stagedDescriptor_eq_some_iff, Option.eq_none_iff_forall_ne_some, ne_eq]

end Sys2Proof.Machine
end

