-- ==== Sys2Proof/Tests/Slice0.lean ====
section
/-! SUPPORT. Small tests: what WellFormed refuses, a witness for the hypotheses of every obligation that has some, and one
or two steps of each command against the manual's rules and worked examples. -/

namespace Sys2Proof.Tests

open Sys2Proof Sys2Proof.Machine

/-! ### Small states -/

/-- The state a command leads to. -/
def run (c : Instr) (s : State) : State :=
  match exec c s with
  | .next t => t
  | .fault _ => s
  | .refused _ => s

/-- Slot 0 is a writable 4 KiB window at 1000h, slot 1 a read-only 8 KiB window at 8000h; slots 2 and 3 are not valid. -/
def setup : Setup := ⟨⟨[⟨0x1000, 0xC0000000⟩, ⟨0x8000, 0x40000001⟩, ⟨0, 0⟩, ⟨0, 0⟩], rfl⟩, 0x00000803⟩

/-- Station 1 in the given state on an idle trunk, with stations 2 and 3 as its peers where it is a member. -/
def station (st : StationState) : State :=
  { State.reset with
    tif := { Tif.reset 0 with idleCount := 10, receiver := .ready }
    mc := { Mc.reset 1 with state := st, peers := if st.isMember then 0xE else 0 }
    lpu := { Lpu.reset with setup := setup } }

/-- The command in progress. -/
def busy (c : Command) (s : State) : State := { s with lpu := { s.lpu with running := some c } }

/-- A frame in flight from the given source. -/
def sending (src : Source) (m : Message) (s : State) : State :=
  { s with tif := { s.tif with
    idleCount := 0, receiver := .receiving, flight := some ⟨src, m.frame false, false⟩ } }

/-- A map frame of station 1. -/
def toAll (c : Content) : Message := ⟨1, 31, 0, c⟩

/-- The map of the tests: station 1's window and one of station 2. -/
def twoWindows : List MapEntry := [⟨0x1000, 0, true, 1⟩, ⟨0x4000, 1, true, 2⟩]

/-- Station 1 holds its window of slot 0. -/
def holder (st : StationState) : State :=
  let s := station st
  { s with wmu := { map := twoWindows, own := (Bank.all 2 ⟨.idle, none⟩).put 0 ⟨.held, none⟩, claim := none } }

/-- A READ of the four words at 4010h, ticket A001h. -/
def readWork : Descriptor := ⟨0xA001, .read 0x4010 4⟩

/-- A WRITE of one word at 4010h, ticket A002h. -/
def writeWork : Descriptor := ⟨0xA002, .write 0x4010 [7]⟩

/-- What the ORT records of readWork under a tag. -/
def readRecord : OrtRecord := ⟨false, 2, 4, 0xA001⟩

/-- A queue of the READ alone, its head prepared with tag 0. -/
def readHead (busyCount : Nat) (counts : Counts) : Ore :=
  { Ore.reset with
    rq := [readWork], head := some ⟨2, some 0, .ready, busyCount, counts⟩
    ort := (Bank.all 5 .free).put 0 (.pending readRecord) }

/-- A queue of the WRITE alone, its head prepared. -/
def writeHead (busyCount : Nat) (counts : Counts) : Ore :=
  { Ore.reset with rq := [writeWork], head := some ⟨2, none, .ready, busyCount, counts⟩ }

/-- The frame of readHead. -/
def readMessage : Message := ⟨1, 2, 0, .request (.read 0x4010 4)⟩

/-- The frame of writeHead. -/
def writeMessage : Message := ⟨1, 2, 0, .request (.write 0x4010 [7])⟩

/-- A live entry of a READ of two words by station 2 under tag 9. -/
def inboundRead (st : IttState) (orphaned : Bool) : IttEntry := some ⟨2, 9, false, 2, st, orphaned⟩

/-- Handle 3 with the given entry and SQ. -/
def serving (e : IttEntry) (sq : List SqRecord) : Isu := { Isu.reset with itt := (Bank.all 4 none).put 3 e, sq := sq }

/-- The response of handle 3. -/
def response : SqRecord := ⟨3, 2, 9, .data [5, 6]⟩

/-- No slot dominant, ACCEPT dominant, REJECT dominant, ERROR dominant. -/
def silent : Slots := ⟨false, false, false⟩
def accepted : Slots := ⟨false, false, true⟩
def rejected : Slots := ⟨false, true, false⟩
def voided : Slots := ⟨true, false, false⟩

/-! ### WellFormed refuses each kind of ill-formed command -/

theorem test_wellFormed_collided : (Instr.collided 588).wellFormed = false ∧ (Instr.collided 587).wellFormed = true := by
  decide
theorem test_wellFormed_malformed : (Instr.malformedFrame (List.replicate 42 true) [] .startBit).wellFormed = false := by
  decide
theorem test_wellFormed_sync : (Instr.syncReceived 31 .startBit).wellFormed = false := by decide
theorem test_wellFormed_roster : (Instr.rosterReceived 2 0 [(0x1000, 1)] .startBit).wellFormed = false := by decide
theorem test_wellFormed_claim : (Instr.claimReceived 2 0x1000 19 .startBit).wellFormed = false := by decide
theorem test_wellFormed_release : (Instr.releaseReceived 2 0x1004 .startBit).wellFormed = false := by decide
theorem test_wellFormed_evict : (Instr.evictReceived 2 2 .startBit).wellFormed = false := by decide
theorem test_wellFormed_bye : (Instr.byeReceived 0 .startBit).wellFormed = false := by decide
theorem test_wellFormed_request : (Instr.requestReceived 2 0 (.read 0x1000 17) .startBit).wellFormed = false := by decide
theorem test_wellFormed_response : (Instr.responseReceived 2 0 (.data []) .startBit).wellFormed = false := by decide
theorem test_wellFormed_signal : (Instr.signalReceived 0 true 0 .startBit).wellFormed = false := by decide
theorem test_wellFormed_another : (Instr.frameForAnotherStation 2 31 (.signal 0) .startBit).wellFormed = false := by decide

/-! ### Decidable forms of the laws, for concrete tables -/

/-- The entry is PENDING. -/
def isPending : OrtEntry → Bool
  | .pending _ => true
  | _ => false

theorem completionLaws_of_no_pending {o : Ore} (hs : o.cqSum ≤ 32) (hq : o.rq.length ≤ 16)
    (hh : o.head.isSome = true → o.rq ≠ []) (ht : o.head.bind PreparedHead.tag = none)
    (hp : ∀ t, isPending (o.ort.at t) = false) : CompletionLaws o := by
  refine ⟨hs, hq, hh, fun h t e e' => ?_, fun t r e => ?_⟩
  · rw [e] at ht
    simp [e'] at ht
  · have := hp t
    simp [e, isPending] at this

theorem completionLaws_of_pending {o : Ore} {h : PreparedHead} {t : Tag} {r : OrtRecord} (hs : o.cqSum ≤ 32)
    (hq : o.rq.length ≤ 16) (hr : o.rq ≠ []) (hh : o.head = some h) (ht : h.tag = some t) (he : o.ort.at t = .pending r)
    (hp : ∀ u, u ≠ t → isPending (o.ort.at u) = false) : CompletionLaws o := by
  refine ⟨hs, hq, fun _ => hr, fun h' t' e e' => ?_, fun u r' e => ⟨h, hh, ?_⟩⟩
  · rw [hh, Option.some.injEq] at e
    rw [← e, ht, Option.some.injEq] at e'
    exact ⟨r, e' ▸ he⟩
  · by_cases hu : u = t
    · rw [hu, ht]
    · have := hp u hu
      simp [e, isPending] at this

theorem reset_completionLaws : CompletionLaws Ore.reset :=
  completionLaws_of_no_pending (by decide) (by decide) (by decide) rfl (by decide)

theorem mapLaws_twoWindows : MapLaws twoWindows := ⟨by decide, by decide, by decide, by decide⟩

/-- MembershipLaws for concrete values. -/
theorem membershipLaws_of {m : Mc} (ho : m.peers.has m.sid = m.state.isMember)
    (ha : m.evicts.Pairwise (fun a b => a.station.toNat < b.station.toNat)) (he : ∀ e ∈ m.evicts, e.station ≠ m.sid)
    (hx : m.expected.has m.sid = false) (hm : ∀ p, m.miss.at p < 3) : MembershipLaws m := ⟨ho, ha, he, hx, hm⟩

theorem station_membershipLaws : MembershipLaws (station .joined).mc :=
  membershipLaws_of (by decide) (by decide) (by decide) (by decide) (by decide)

/-! ### Reset and the step -/

theorem test_step_takes_the_front : step { State.reset with pending := [.leave, .flush] } =
    .next { run .leave State.reset with pending := [.flush] } := by rfl

theorem test_step_idles : State.reset.pending = [] ∧ step State.reset = .next State.reset := ⟨rfl, rfl⟩

/-- R173: a write under RESET_N is ignored. -/
theorem test_reset_ignores_writes :
    let s := run .resetNAsserted (station .joined)
    s.resetAsserted = true ∧ s.mc.state = .halted ∧ run (.maskWrite 0) s = s := by
  refine ⟨rfl, rfl, rfl⟩

/-- R63: the reset values, and the straps as sampled. -/
theorem test_reset_released :
    let s := run (.resetNReleased 30 2) (station .joined)
    s.mc.sid = 30 ∧ s.tif.rate = 2 ∧ s.readWord 24 false = 0x803 ∧ s.readWord 4 false = 0x3F ∧ s.readWord 5 false = 4 := by
  decide

/-! ### Commands -/

/-- JoinInHalted, first clause: numbers 0 and 31 are no straps (R42). -/
theorem test_join_bad_strap :
    let s := { station .halted with mc := Mc.reset 31 }
    s.resetAsserted = false ∧ s.mc.state = .halted ∧ s.lpu.running = none ∧ validStation s.mc.sid = false ∧
      (run .join s).lpu.last = some ⟨.join, .badStrap⟩ := by decide

/-- JoinInHalted, second clause: an aging threshold of 1 (R42). -/
theorem test_join_bad_setup :
    let s := run (.setupWrite 8 0x103) (station .halted)
    validStation s.mc.sid = true ∧ s.lpu.setup.passes = false ∧ (run .join s).lpu.last = some ⟨.join, .badSetup⟩ ∧
      (run .join s).mc.state = .halted := by decide

/-- JoinInHalted, third clause: the two valid slots become WANTED (R42). -/
theorem test_join_passes :
    let s := station .halted
    validStation s.mc.sid = true ∧ s.lpu.setup.passes = true ∧ (run .join s).mc.state = .listen ∧
      (run .join s).lpu.running = some .join ∧
      (run .join s).wmu.own.cells = [⟨.wanted, none⟩, ⟨.wanted, none⟩, ⟨.idle, none⟩, ⟨.idle, none⟩] := by decide

/-- Setup blocks at the boundaries of R42: size 18 and 19, windows that touch and that overlap, thresholds 2 and 1. -/
theorem test_setup_check_boundaries :
    let two (w₀ w₁ : SlotWords) (timing : Word) : Setup := ⟨⟨[w₀, w₁, ⟨0, 0⟩, ⟨0, 0⟩], rfl⟩, timing⟩
    (two ⟨0x40000000, 0x40000012⟩ ⟨0, 0⟩ 0x200).passes = true ∧
    (two ⟨0, 0x40000013⟩ ⟨0, 0⟩ 0x200).passes = false ∧
    (two ⟨0x1000, 0x40000000⟩ ⟨0x2000, 0x40000001⟩ 0x200).passes = true ∧
    (two ⟨0x3000, 0x40000000⟩ ⟨0x2000, 0x40000001⟩ 0x200).passes = false ∧
    (two ⟨0x1001, 0x40000000⟩ ⟨0, 0⟩ 0x200).passes = false ∧
    (two ⟨0x1000, 0x40000000⟩ ⟨0, 0⟩ 0x100).passes = false := by decide

/-- CommandsRefused (R41): busy, in the wrong state, and LEAVE during a JOIN. -/
theorem test_commands_refused :
    (run .join (busy .flush (station .joined))).lpu.last = some ⟨.join, .refusedBusy⟩ ∧
    (run .flush (station .claiming)).lpu.last = some ⟨.flush, .refusedState⟩ ∧
    (run .restart (station .joined)).lpu.last = some ⟨.restart, .refusedState⟩ ∧
    (run .leave (busy .join (station .faulted))).lpu.last = some ⟨.leave, .refusedState⟩ ∧
    (StationState.claiming ∉ Command.flush.states) ∧ (StationState.faulted ∉ Command.leave.states) := by decide

/-- LeaveBeforeMembership: LISTEN, SYNC_WAIT without its SYNC in flight, and with it (R44). -/
theorem test_leave_before_membership :
    let listening := busy .join (station .listen)
    let waiting := busy .join (station .syncWait)
    let syncing := sending .sync (toAll .sync) waiting
    (waiting.tif.flight = none ∧ syncing.tif.flight ≠ none) ∧
    (run .leave listening).mc.state = .halted ∧ (run .leave waiting).mc.state = .halted ∧
    (run .leave syncing).mc.state = .syncWait ∧ (run .leave syncing).lpu.running = some .leave ∧
    (run .leave syncing).lpu.last = some ⟨.join, .aborted⟩ := by decide

/-- LeaveAsMember: HELD becomes RELEASING with a RELEASE queued, and the deadline is 8 × 4 ms (R57). -/
theorem test_leave_as_member :
    let s := holder .joined
    s.resetAsserted = false ∧ s.lpu.running = none ∧ (run .leave s).mc.state = .leaving ∧
      (run .leave s).mc.deadline = some 32000000 ∧ (run .leave s).wmu.own.at 0 = ⟨.releasing, some Counts.zero⟩ ∧
      (run .leave s).mc.bye = none ∧ (run .leave (station .claiming)).mc.bye = some Counts.zero := by decide

/-- LeaveAsMember: each of the five items of R58 alone holds the leave condition back. -/
theorem test_leave_condition :
    let s := station .leaving
    s.leaveCondition = true ∧ (holder .leaving).leaveCondition = false ∧
    (∀ o ∈ [{ Ore.reset with rq := [writeWork] }, readHead 0 Counts.zero,
      { Ore.reset with ort := (Bank.all 5 .free).put 0 (.sent readRecord none) }],
      { s with ore := o }.leaveCondition = false) ∧
    { s with ore := { Ore.reset with ort := Bank.all 5 (.quarantined readRecord none) } }.leaveCondition = true ∧
    { s with isu := serving (inboundRead .awaiting true) [] }.leaveCondition = false ∧
    { s with isu := serving none [response] }.leaveCondition = false := by decide

/-- A station with an outstanding READ, an inbound READ delivered, and a signal waiting. -/
def busyStation : State :=
  { holder .joined with
    ore := { Ore.reset with ort := (Bank.all 5 .free).put 0 (.sent readRecord (some 4000000)) }
    isu := { serving (inboundRead .delivered false) [] with nq := [⟨2, 1, false⟩] } }

theorem busyStation_completionLaws : CompletionLaws busyStation.ore :=
  completionLaws_of_no_pending (by decide) (by decide) (by decide) rfl (by decide)

/-- FlushStart: the tag is quarantined without completion, the handle answered FLUSHED, the signal gone (R127, R160). -/
theorem test_flush_start :
    let s := busyStation
    let t := run .flush s
    CompletionLaws s.ore ∧ (s.resetAsserted = false ∧ s.lpu.running = none ∧ s.mc.state = .joined) ∧
      (t.ore.ort.at 0 = .quarantined readRecord (some 4000000) ∧ t.ore.cq = [] ∧ t.isu.nq = [] ∧
        t.isu.sq = [⟨3, 2, 9, .fail 11⟩] ∧ t.lpu.running = some .flush) := by
  refine ⟨busyStation_completionLaws, ?_, ?_⟩ <;> decide

/-- FlushStart on an idle station ends at once (R163). -/
theorem test_flush_idle : (run .flush (station .joined)).lpu.last = some ⟨.flush, .done⟩ := by decide

/-- RestartReturnsToHalted: the faults and the Setup stay (R45). -/
theorem test_restart :
    let s := { station .faulted with lpu := { Lpu.reset with
      setup := setup, faults := [⟨.collision, some 1, none, none, false⟩] } }
    s.mc.state = .faulted ∧ (run .restart s).mc.state = .halted ∧ (run .restart s).lpu.faults = s.lpu.faults ∧
      (run .restart s).lpu.setup = setup ∧ (run .restart s).lpu.last = some ⟨.restart, .done⟩ ∧
      (run .restart (station .detached)).mc.state = .halted := by decide

/-! ### The local port -/

/-- The state with the given first words in the RQ staging area. -/
def staged (w₀ w₁ w₂ : Word) (s : State) : State :=
  run (.registerWrite 66 w₂ false) (run (.registerWrite 65 w₁ false) (run (.registerWrite 64 w₀ false) s))

/-- RqPushRefused, every clause (R98). -/
theorem test_rq_push_refused :
    let good := staged 0xA0010041 0x4010 0
    let result (s : State) := (run .rqPush s).lpu.results.rq
    result (good (station .leaving)) = .leaving ∧ result (good (station .syncing)) = .notReady ∧
    result (good (busy .flush (station .joined))) = .flushing ∧
    result (staged 0xA0010111 0x4010 0 (station .joined)) = .badDescriptor ∧
    result (staged 0xA0010041 0x4012 0 (station .joined)) = .badDescriptor ∧
    stagedDescriptor 1 (good (station .joined)).lpu.rqStage = some readWork ∧
    (let full := good { station .joined with ore := { Ore.reset with rq := List.replicate 16 writeWork } };
      16 ≤ full.ore.rq.length ∧ result full = .full) := by decide

/-- Descriptors at the ends of the ranges of R97, read from the staging words. -/
theorem test_describes :
    let stage (w₀ w₁ w₂ : Word) := (staged w₀ w₁ w₂ (station .joined)).lpu.rqStage
    describes 1 (stage 0xA0010041 0x4010 0) readWork ∧ describes 1 (stage 0xA0020012 0x4010 7) writeWork ∧
    describes 1 (stage 0x00027C04 3 9) ⟨2, .signal 31 9⟩ ∧ describes 1 (stage 0x00027804 0 9) ⟨2, .signal 30 9⟩ ∧
    (∀ d, ¬describes 1 (stage 0x00020404 0 9) d) ∧ (∀ d, ¬describes 1 (stage 0x00020004 0 9) d) ∧
    (∀ d, ¬describes 1 (stage 0x00000001 0x4010 0) d) ∧ (∀ d, ¬describes 1 (stage 0x00000111 0x4010 0) d) ∧
    (∀ d, ¬describes 1 (stage 0x00000045 0x4010 0) d) := by
  simp only [← stagedDescriptor_eq_none_iff]
  simp only [← stagedDescriptor_eq_some_iff]
  decide

/-- RqPushAccepted: routed to its owner with tag 0, then behind a prepared head, then held back by a full CQ (R98 to R101). -/
theorem test_rq_push_accepted :
    let s := staged 0xA0010041 0x4010 0 (holder .joined)
    let t := run .rqPush s
    (stagedDescriptor s.mc.sid s.lpu.rqStage = some readWork ∧ s.ore.rq = [] ∧ s.ore.head = none ∧ s.ore.cqSum < 32) ∧
    t.ore = readHead 0 Counts.zero ∧ t.lpu.results.rq = .accepted ∧
    (run .rqPush t).ore = { readHead 0 Counts.zero with rq := [readWork, readWork] } ∧
    (let full := { s with ore := { Ore.reset with cq := List.replicate 32 ⟨1, .write, .noWindow, none, []⟩ } };
      32 ≤ full.ore.cqSum ∧ (run .rqPush full).ore.rq = [readWork] ∧ (run .rqPush full).ore.head = none) := by decide

/-- RqPushAccepted, the three routes of a WRITE: to its owner, to an own window, to none (R78, R103). -/
theorem test_rq_push_routes :
    let pushed (address : Word) := run .rqPush (staged 0xA0020012 address 7 (holder .joined))
    (pushed 0x4010).ore = writeHead 0 Counts.zero ∧
    routeLookup twoWindows 1 0x4010 1 = .owner 2 ∧
    (pushed 0x1FFC).ore.cq = [⟨0xA002, .write, .localWindow, none, []⟩] ∧ routeLookup twoWindows 1 0x1FFC 1 = .self ∧
    (pushed 0x2000).ore.cq = [⟨0xA002, .write, .noWindow, none, []⟩] ∧
    routeLookup twoWindows 1 0x2000 1 = .none := by decide

/-- The state with an OK answer of the words 5 and 6 for handle 3 in the SQ staging area. -/
def answering (w₀ : Word) (s : State) : State :=
  run (.registerWrite 226 6 false) (run (.registerWrite 225 5 false) (run (.registerWrite 224 w₀ false) s))

/-- SqPush, the refusals (R144): not a member, status 1, a handle that is not AWAITING or is 16, a wrong count. -/
theorem test_sq_push_refused :
    let s (e : IttEntry) := { station .joined with isu := serving e [] }
    let result (s : State) := (run .sqPush s).lpu.results.sq
    let awaiting := inboundRead .awaiting false
    result (answering 0x20003 { s awaiting with mc := Mc.reset 1 }) = .notReady ∧
    result (answering 0x20103 (s awaiting)) = .badDescriptor ∧
    result (answering 0x20003 (s (inboundRead .delivered false))) = .badHandle ∧
    result (answering 0x20013 (s awaiting)) = .badHandle ∧ result (answering 0x10003 (s awaiting)) = .badLength := by decide

/-- SqPush, the accepted answers (R145): DATA, FAIL 5, and an orphan that is freed. -/
theorem test_sq_push_accepted :
    let s (e : IttEntry) := { station .joined with isu := serving e [] }
    (run .sqPush (answering 0x20003 (s (inboundRead .awaiting false)))).isu =
      serving (inboundRead .answering false) [response] ∧
    (run .sqPush (answering 0x503 (s (inboundRead .awaiting false)))).isu.sq = [⟨3, 2, 9, .fail 5⟩] ∧
    (run .sqPush (answering 0x20003 (s (inboundRead .awaiting true)))).isu = serving none [] := by decide

/-- Pops of empty queues, and of one record each (R134, R141, R156, R167). -/
theorem test_pops :
    let s := station .joined
    let full := { s with
      ore := { Ore.reset with cq := [⟨1, .write, .noWindow, none, []⟩] }
      isu := { serving (inboundRead .delivered false) [] with
        iq := [⟨2, 0x1000, .read 2, some 3⟩], nq := [⟨2, 1, true⟩] }
      lpu := { s.lpu with faults := [⟨.postedDropped, some 2, none, some 0x1000, false⟩] } }
    ((run .cqPop s).lpu.results.cq = .empty ∧ (run .iqPop s).lpu.results.iq = .empty ∧
      (run .nqPop s).lpu.results.nq = .empty ∧ (run .faultPop s).lpu.results.fault = .empty) ∧
    (run .cqPop full).ore.cq = [] ∧ (run .iqPop full).isu.itt.at 3 = inboundRead .awaiting false ∧
    (run .iqPop full).isu.iq = [] ∧ (run .nqPop full).isu.nq = [] ∧ (run .faultPop full).lpu.faults = [] := by decide

/-- SetupWrite in HALTED and in JOINED (R39). -/
theorem test_setup_write :
    (run (.setupWrite 8 0x907) (station .halted)).lpu.setup.timing = 0x907 ∧
    (run (.setupWrite 3 0x80000000) (station .halted)).lpu.setup.word 3 = 0x80000000 ∧
    (run (.setupWrite 3 0) (station .joined)).lpu.setup = setup ∧
    (run (.setupWrite 3 0) (station .joined)).lpu.locked = true := by decide

/-- Cause, mask and enable writes (R168, R170, R171): LIRQ follows the unmasked cause CMD_DONE. -/
theorem test_cause_mask_enable_writes :
    let s := run .flush (station .joined)
    let open_ := run (.maskWrite 0xFFFFFFEF) s
    s.lpu.cmdDone = true ∧ s.lirq = false ∧ open_.lirq = true ∧ open_.lpu.masks = 0x2F ∧
      (run (.causeWrite 0x10) open_).lirq = false ∧ (run (.causeWrite 0x0F) open_).lirq = true ∧
      (run (.severityEnableWrite 0xFF) s).readWord 5 false = 7 := by decide

/-- RegisterWrite: views, unassigned words, the codes 0, 5 and 7, both strobes, staging words (R173 to R177). -/
theorem test_register_write :
    let s := station .joined
    portWord 0 = .view .status ∧ portWord 10 = .unassigned ∧ portWord 640 = .unassigned ∧
    run (.registerWrite 0 1 false) s = s ∧ run (.registerWrite 10 1 false) s = s ∧
    run (.registerWrite 1 8 false) s = s ∧ run (.registerWrite 1 5 false) s = s ∧ run (.registerWrite 1 7 false) s = s ∧
    run (.registerWrite 1 3 true) s = s ∧
    (run (.registerWrite 81 9 false) s).readWord 81 false = 9 := by decide

/-- RegisterWriteIsItsRow: codes 1 to 4, at their boundary values (R175). -/
theorem test_register_write_commands :
    run (.registerWrite 1 1 false) (station .halted) = run .join (station .halted) ∧
    run (.registerWrite 1 0xA false) (station .joined) = run .leave (station .joined) ∧
    run (.registerWrite 1 3 false) (station .joined) = run .flush (station .joined) ∧
    run (.registerWrite 1 0xFFFFFFFC false) (station .faulted) = run .restart (station .faulted) := by decide

/-- PortReads: head views of empty queues, and the map view (R66, R179). -/
theorem test_port_reads :
    let s := holder .joined
    (s.ore.cq = [] ∧ s.isu.iq = [] ∧ s.isu.nq = [] ∧ s.lpu.faults = []) ∧ s.readWord 128 false = 0x80000000 ∧
      s.wmu.map[1]? = some ⟨0x4000, 1, true, 2⟩ ∧ s.readWord 514 false = 0x4000 ∧ s.readWord 515 false = 0xC0000201 ∧
      s.wmu.map.length = 2 ∧ s.readWord 516 false = 0 ∧ s.readWord 639 false = 0 := by decide

/-- PortReads: the status words and the head views of queues that hold a record (R175 to R182). -/
theorem test_port_reads_filled :
    let s := busy .flush { holder .joined with
      ore := { readHead 0 Counts.zero with cq := [⟨0xA001, .read, .ok, some 2, [5, 6]⟩] }
      isu := { serving (inboundRead .delivered false) [] with
        iq := [⟨2, 0x1000, .read 2, some 3⟩], nq := [⟨2, 7, true⟩] }
      lpu := { Lpu.reset with
        last := some ⟨.leave, .forced 1 2⟩, faults := [⟨.voidLimit, some 2, some 3, none, true⟩] } }
    (s.ore.cq ≠ [] ∧ s.isu.iq ≠ [] ∧ s.isu.nq ≠ [] ∧ s.lpu.faults ≠ []) ∧
    [0, 1, 2, 6, 7, 8, 9, 25].map (fun a => s.readWord a false) =
      [0x01030215, 0x0201042B, 0, 0x02010201, 1, 0xE, 0x01000101, 2] ∧
    [128, 129, 130, 131, 132].map (fun a => s.readWord a false) = [0x22210, 0xA001, 5, 6, 0] ∧
    [160, 161, 162].map (fun a => s.readWord a false) = [0x01302021, 0x1000, 0] ∧
    [192, 193].map (fun a => s.readWord a false) = [0x102, 7] ∧
    [256, 257, 258].map (fun a => s.readWord a false) = [0x10326, 0x302, 0] := by decide

/-! ### The trunk: idle, beginning, losing, colliding -/

/-- TrunkIdleObserved in LISTEN, in JOINED, and with a FLUSH that waited for an abandoned request (R5, R6, R46, R163). -/
theorem test_trunk_idle :
    let listening := { station .listen with tif := Tif.reset 0 }
    let flushing := busy .flush { station .joined with tif := { Tif.reset 0 with
      receiver := .slots, rx := some ⟨.accept readMessage (some .drop), 2, true, false, none⟩ } }
    (listening.tif.flight = none ∧ flushing.lpu.running = some .flush ∧ flushing.isu.sq = []) ∧
    (run .trunkIdleObserved listening).mc.state = .syncWait ∧
    (run .trunkIdleObserved listening).mc.sync = some Counts.zero ∧
    (run .trunkIdleObserved (station .joined)).tif.idleCount = 10 ∧
    (run .trunkIdleObserved flushing).lpu.last = some ⟨.flush, .done⟩ := by decide

/-- BeginningAFrame: the READ of a prepared head goes in flight (R22, R25). -/
theorem test_beginning :
    let s := { holder .joined with ore := readHead 0 Counts.zero }
    CompletionLaws s.ore ∧ s.select = some .rqHead ∧ s.mc.state.isListening = true ∧ s.tif.idleCount = 10 ∧
      s.tif.receiver = .ready ∧ s.tif.flight = none ∧ run .beginningAFrame s = sending .rqHead readMessage s := by
  refine ⟨completionLaws_of_pending (by decide) (by decide) (by decide) rfl rfl rfl (by decide), ?_⟩
  decide

/-- BeginningAFrame, what forbids it: HALTED, a trunk that is not idle, nothing to offer (R20 to R22). -/
theorem test_beginning_none :
    let s := holder .joined
    s.select = none ∧ run .beginningAFrame s = s ∧
      (let early := { s with tif := { s.tif with idleCount := 9 }, ore := writeHead 0 Counts.zero };
        run .beginningAFrame early = early) ∧
      run .beginningAFrame (station .halted) = station .halted := by decide

/-- TransmitSelection over every kind of candidate, each added to the ones below it (R23, R24). -/
theorem test_selection :
    let c := Counts.zero
    let s₀ := holder .joined
    let s₁ := { s₀ with ore := writeHead 0 c }
    let s₂ := { s₁ with wmu := { s₁.wmu with claim := some ⟨1, c⟩ } }
    let s₃ := { s₂ with wmu := { s₂.wmu with own := (s₂.wmu.own.put 1 ⟨.releasing, some c⟩).put 0 ⟨.releasing, some c⟩ } }
    let s₄ := { s₃ with mc := { s₃.mc with evicts := [⟨2, c⟩, ⟨3, c⟩] } }
    let s₅ := { s₄ with mc := { s₄.mc with roster := some c } }
    let s₆ := { s₅ with mc := { s₅.mc with bye := some c } }
    let s₇ := { s₆ with mc := { s₆.mc with sync := some c } }
    let s₈ := { s₇ with isu := serving (inboundRead .answering false) [response] }
    [s₀, s₁, s₂, s₃, s₄, s₅, s₆, s₇, s₈].map State.select =
      [none, some .rqHead, some (.claim 1), some (.release 0), some (.evict 2), some .roster, some .bye, some .sync,
        some .sqHead] := by decide

theorem test_selection_laws : MembershipLaws
    { (holder .joined).mc with evicts := [⟨2, Counts.zero⟩, ⟨3, Counts.zero⟩], sync := some Counts.zero } :=
  membershipLaws_of (by decide) (by decide) (by decide) (by decide) (by decide)

/-- OfferedFrames: what the candidates of a busy station send (R8, R11, R51). -/
theorem test_offered_frames :
    let c := Counts.zero
    let s := { holder .joined with
      ore := readHead 0 c, isu := serving (inboundRead .answering false) [response]
      mc := { (station .joined).mc with roster := some c, evicts := [⟨3, c⟩] } }
    s.frameOf .sqHead = some ⟨0, 1, 1, 2, 0, 9, 2, [5, 6]⟩ ∧ s.frameOf .rqHead = some ⟨2, 1, 1, 2, 10, 0, 2, [0x4010, 4]⟩ ∧
      s.frameOf .roster = some ⟨1, 1, 1, 31, 5, 0, 3, [0xE, 0x1000, 0x80000000]⟩ ∧
      s.frameOf (.evict 3) = some ⟨1, 1, 1, 31, 8, 0, 1, [3]⟩ ∧ s.frameOf .sync = none := by decide

/-- LostFrameAges: the source bit of weight 2 is recessive in the frame of station 2; the eighth loss makes it urgent. -/
theorem test_lost :
    let counts : Counts := ⟨7, 0, false⟩
    let s := sending .rqHead { writeMessage with source := 2 } { holder .joined with ore := writeHead 0 counts }
    (∃ f, s.sends .rqHead f ∧ f.bitAt ((6 : BitVec 3).toNat + 1) = some true) ∧ s.countsOf .rqHead = some counts ∧
      (run (.lost 6) s).countsOf .rqHead = some ⟨8, 0, true⟩ ∧ (run (.lost 6) s).tif.flight = none ∧
      (run (.lost 7) s) = s := by
  refine ⟨⟨_, ⟨rfl, rfl⟩, by decide⟩, by decide, by decide, by decide, by decide⟩

/-- CollidedFrame, at the start bit, on a dominant arbitration bit and after the arbitration field; then the second one
(R26, R30). -/
theorem test_collided :
    let s := sending .rqHead writeMessage { holder .joined with ore := writeHead 0 Counts.zero }
    let again := { s with tif := { s.tif with collisions := 1 } }
    (∃ f, s.sends .rqHead f ∧ f.bitAt 0 = some false ∧ f.bitAt 9 = some false ∧ f.bitAt 2 = some false) ∧
      (∀ p ∈ [0, 2, 9, 50], (run (.collided p) s).countsOf .rqHead = some ⟨0, 1, false⟩) ∧
      (run (.collided 0) s).tif.collisions = 1 ∧ (run (.collided 1) s) = s ∧
      (run (.collided 9) again).mc.state = .faulted ∧
      (run (.collided 9) again).lpu.faults = [⟨.collision, some 1, none, none, false⟩] := by
  refine ⟨⟨_, ⟨rfl, rfl⟩, by decide, by decide, by decide⟩, by decide, by decide, by decide, by decide, by decide⟩

/-- SlotDriven, LostFrameAges and CollidedFrame at a transmitter: its last check bit takes its receiver to SLOTS, where no bit is
compared any more and no slot is driven, and the end of the trailer to UNSYNCED (R6, R16, R26). -/
theorem test_own_last_check_bit :
    let s := sending .bye (toAll .bye) { station .leaving with
      mc := { (station .leaving).mc with bye := some Counts.zero } }
    let t := run (.byeOutcome .lastCheckBit) s
    (s.sends .bye ((toAll .bye).frame false) ∧ s.tif.receiver = .receiving) ∧
    t = { s with tif := { s.tif with receiver := .slots } } ∧
    (run (.byeOutcome .lastCheckBit) t = t ∧ run (.syncOutcome .lastCheckBit) s = s ∧
      run (.byeReceived 2 .lastCheckBit) s = s ∧ run (.byeReceived 2 (.endOfTrailer silent)) t = t) ∧
    (run (.lost 0) t = t ∧ run (.collided 0) t = t ∧ run (.collided 0) s ≠ s) ∧
    (t.drivesTclk = true ∧ s.drivesTdat 0 = true ∧ ∀ p ∈ [44, 45, 46], t.drivesTdat p = false) ∧
    (run (.byeOutcome (.endOfTrailer silent)) t = run (.byeOutcome (.endOfTrailer silent)) s ∧
      (run (.byeOutcome (.endOfTrailer silent)) t).tif.receiver = .unsynced) := by
  refine ⟨⟨⟨rfl, rfl⟩, rfl⟩, ?_⟩
  decide +kernel

/-! ### Outcomes of own frames -/

/-- SyncOutcome: taken by a member, alone, rejected, and awaited by a LEAVE (R44, R47, R54). -/
theorem test_sync_outcome :
    let joining := busy .join { station .syncWait with
      mc := { (station .syncWait).mc with sync := some Counts.zero }
      wmu := { Wmu.reset with own := (Bank.all 2 ⟨.idle, none⟩).put 1 ⟨.wanted, none⟩ } }
    let s := sending .sync (toAll .sync) joining
    let t := run (.syncOutcome (.endOfTrailer accepted)) s
    let alone := run (.syncOutcome (.endOfTrailer silent)) s
    (s.ore.rq = [] ∧ (toAll .sync).dest = 31) ∧
    (t.mc.state = .syncing ∧ t.mc.peers = 2 ∧ t.mc.settle = some 16000000) ∧
    (alone.mc.state = .claiming ∧ alone.wmu.claim = some ⟨1, Counts.zero⟩ ∧ alone.mc.peers = 2) ∧
    ((run (.syncOutcome (.endOfTrailer rejected)) s).mc.state = .faulted ∧
      (run (.syncOutcome (.endOfTrailer rejected)) s).lpu.last = some ⟨.join, .failed⟩) ∧
    (run (.syncOutcome (.endOfTrailer silent)) (busy .leave s)).mc.state = .leaving ∧
    (run (.syncOutcome (.endOfTrailer voided)) (busy .leave s)).mc.state = .halted := by decide

/-- SyncOutcome alone with no window wanted: JOINED at once; and in SYNCING: the settle timer restarts (R47, R56). -/
theorem test_sync_outcome_joined :
    let sent (st : StationState) := sending .sync (toAll .sync) (busy .join (station st))
    (∀ n, ((sent .syncWait).wmu.own.at n).state ≠ .wanted) ∧
    (run (.syncOutcome (.endOfTrailer silent)) (sent .syncWait)).mc.state = .joined ∧
    (run (.syncOutcome (.endOfTrailer silent)) (sent .syncing)).lpu.last = some ⟨.join, .done⟩ ∧
    (run (.syncOutcome (.endOfTrailer accepted)) (sent .syncing)).mc.settle = some 16000000 := by decide

/-- RosterAndReleaseTaken (R50, R74). -/
theorem test_roster_release_outcome :
    let s := { holder .joined with mc := { (station .joined).mc with roster := some Counts.zero } }
    let leaving := run .leave (holder .joined)
    (run (.rosterOutcome (.endOfTrailer silent)) (sending .roster (toAll (.roster 0xE [])) s)).mc.roster = none ∧
    (let t := run (.releaseOutcome (.endOfTrailer silent)) (sending (.release 0) (toAll (.release 0x1000)) leaving);
      t.wmu.map = [⟨0x4000, 1, true, 2⟩] ∧ t.wmu.own.at 0 = ⟨.idle, none⟩ ∧ t.mc.bye = some Counts.zero) := by decide

/-- ClaimOutcome, taken and rejected, as the last WANTED record (R68 to R70). -/
theorem test_claim_outcome :
    let s := sending (.claim 1) (toAll (.claim 0x8000 1)) (busy .join { holder .claiming with
      wmu := { (holder .claiming).wmu with
        own := (holder .claiming).wmu.own.put 1 ⟨.wanted, none⟩, claim := some ⟨1, Counts.zero⟩ } })
    let entry := s.lpu.setup.window 1 1
    claimRefusedBy s.wmu.map entry = false ∧ (∀ m, m ≠ 1 → (s.wmu.own.at m).state ≠ .wanted) ∧
    (run (.claimOutcome (.endOfTrailer silent)) s).wmu.map = twoWindows ++ [entry] ∧
      (run (.claimOutcome (.endOfTrailer silent)) s).mc.state = .joined ∧
    (run (.claimOutcome (.endOfTrailer rejected)) s).wmu.own.at 1 = ⟨.refused, none⟩ ∧
    (run (.claimOutcome (.endOfTrailer rejected)) s).lpu.faults = [⟨.claimRefused, none, none, some 0x8000, false⟩] := by decide

/-- ClaimOutcome with another record WANTED: it becomes the CLAIM in course with counts of 0, or is refused in its turn where its
window no longer fits (R68, R69). -/
theorem test_claim_outcome_next :
    let s (map : List MapEntry) := sending (.claim 0) (toAll (.claim 0x1000 0x80000000)) (busy .join { station .claiming with
      wmu := { map := map, own := ((Bank.all 2 ⟨.idle, none⟩).put 0 ⟨.wanted, none⟩).put 1 ⟨.wanted, none⟩
               claim := some ⟨0, ⟨3, 2, false⟩⟩ } })
    let free := run (.claimOutcome (.endOfTrailer silent)) (s [])
    let taken := run (.claimOutcome (.endOfTrailer rejected)) (s [⟨0x8000, 1, true, 2⟩])
    (free.wmu.claim = some ⟨1, Counts.zero⟩ ∧ free.mc.state = .claiming ∧ free.wmu.own.at 0 = ⟨.held, none⟩ ∧
      free.lpu.faults = []) ∧
    (taken.wmu.claim = none ∧ taken.mc.state = .joined ∧ taken.wmu.own.at 1 = ⟨.refused, none⟩ ∧
      taken.lpu.faults =
        [⟨.claimRefused, none, none, some 0x1000, false⟩, ⟨.claimRefused, none, none, some 0x8000, false⟩]) := by decide

/-- EvictOutcome, taken and rejected (R86, R93). -/
theorem test_evict_outcome :
    let s := sending (.evict 2) (toAll (.evict 2)) { busyStation with
      mc := { busyStation.mc with evicts := [⟨2, Counts.zero⟩], miss := (Bank.all 5 0).put 2 1 } }
    let t := run (.evictOutcome (.endOfTrailer silent)) s
    CompletionLaws s.ore ∧ (t.mc.peers = 0xA ∧ t.wmu.map = [⟨0x1000, 0, true, 1⟩] ∧
      t.ore.cq = [⟨0xA001, .read, .peerLost, some 2, []⟩] ∧ t.isu.itt.at 3 = inboundRead .delivered true ∧
      t.lpu.faults = [⟨.peerEvicted, some 2, none, none, false⟩] ∧
      (run (.evictOutcome (.endOfTrailer rejected)) s).mc.evicts = [] ∧
      (run (.evictOutcome (.endOfTrailer rejected)) s).mc.miss.at 2 = 0) := by
  refine ⟨busyStation_completionLaws, ?_⟩
  decide

/-- ByeTaken (R59). -/
theorem test_bye_outcome :
    let s := sending .bye (toAll .bye) (busy .leave { station .leaving with
      mc := { (station .leaving).mc with bye := some Counts.zero } })
    (run (.byeOutcome (.endOfTrailer silent)) s).mc.state = .detached ∧
      (run (.byeOutcome (.endOfTrailer silent)) s).lpu.last = some ⟨.leave, .done⟩ ∧
      (run (.byeOutcome (.endOfTrailer silent)) s).mc.peers = 0 := by decide

/-- RequestFrameOutcome: TAKEN, UNANSWERED, and REJECTED for the fifteenth and the sixteenth time (R36, R107 to R109). -/
theorem test_request_outcome :
    let s (b : Nat) := sending .rqHead readMessage { holder .joined with ore := readHead b Counts.zero }
    (run (.requestFrameOutcome (.endOfTrailer accepted)) (s 0)).ore.ort.at 0 = .sent readRecord (some 4000000) ∧
    (run (.requestFrameOutcome (.endOfTrailer accepted)) (s 0)).ore.rq = [] ∧
    (run (.requestFrameOutcome (.endOfTrailer silent)) (s 0)).ore.cq = [⟨0xA001, .read, .noPeer, some 2, []⟩] ∧
    (run (.requestFrameOutcome (.endOfTrailer rejected)) (s 14)).tif.holdoff = some 256000 ∧
    (run (.requestFrameOutcome (.endOfTrailer rejected)) (s 15)).ore.cq = [⟨0xA001, .read, .busyLimit, some 2, []⟩] := by decide

/-- RequestFrameOutcome of a posted WRITE, TAKEN: no completion (R107). -/
theorem test_write_outcome :
    (run (.requestFrameOutcome (.endOfTrailer accepted)) (sending .rqHead writeMessage { holder .joined with
      ore := writeHead 0 Counts.zero })).ore = Ore.reset := by decide

/-- ResponseFrameOutcome (R89, R147). -/
theorem test_response_outcome :
    let s := sending .sqHead ⟨1, 2, 9, .response (.data [5, 6])⟩ { holder .joined with
      isu := serving (inboundRead .answering false) [response] }
    (s.isu.sq = [response] ∧ s.lpu.running ≠ some .flush) ∧
      (run (.responseFrameOutcome (.endOfTrailer accepted)) s).isu = serving none [] ∧
      (run (.responseFrameOutcome (.endOfTrailer silent)) s).mc.miss.at 2 = 1 ∧
      (run (.responseFrameOutcome (.endOfTrailer rejected)) s).isu.sqCounts = ⟨0, 1, false⟩ := by decide

/-- ResponseFrameOutcome: the eighth void brought by REJECTED drops the record with VOID_LIMIT and ends a FLUSH (R35, R147). -/
theorem test_response_rejected_eighth :
    let s := sending .sqHead ⟨1, 2, 9, .response (.data [5, 6])⟩ (busy .flush { holder .joined with
      isu := { serving (inboundRead .answering false) [response] with sqCounts := ⟨0, 7, false⟩ } })
    let t := run (.responseFrameOutcome (.endOfTrailer rejected)) s
    t.isu = serving none [] ∧ t.lpu.faults = [⟨.voidLimit, some 2, some 3, none, false⟩] ∧
      t.lpu.last = some ⟨.flush, .done⟩ := by decide

/-- VoidedFrameStaysACandidate at the boundary of the limit, and EighthVoidAbandons (R35). -/
theorem test_voids :
    let roster (v : Nat) := sending .roster (toAll (.roster 0xE [])) { station .joined with
      mc := { (station .joined).mc with roster := some ⟨0, v, false⟩ } }
    let evict := sending (.evict 2) (toAll (.evict 2)) { station .joined with
      mc := { (station .joined).mc with evicts := [⟨2, ⟨0, 7, false⟩⟩] } }
    (roster 6).countsOf .roster = some ⟨0, 6, false⟩ ∧
    (run (.rosterOutcome (.endOfTrailer voided)) (roster 6)).mc.roster = some ⟨0, 7, false⟩ ∧
    (run (.rosterOutcome (.endOfTrailer voided)) (roster 7)).mc.roster = none ∧
    (run (.rosterOutcome (.endOfTrailer voided)) (roster 7)).lpu.faults = [⟨.voidLimit, none, none, none, false⟩] ∧
    evict.countsOf (.evict 2) = some ⟨0, 7, false⟩ ∧
    (run (.evictOutcome (.endOfTrailer voided)) evict).lpu.faults = [⟨.voidLimit, some 2, none, none, false⟩] := by decide

/-- EighthVoidAbandons for a RELEASE and a response (R35, R75, R147). -/
theorem test_voids_release_response :
    let release := sending (.release 0) (toAll (.release 0x1000)) { holder .leaving with
      wmu := { (holder .leaving).wmu with own := (Bank.all 2 ⟨.idle, none⟩).put 0 ⟨.releasing, some ⟨0, 7, false⟩⟩ } }
    let answer := sending .sqHead ⟨1, 2, 9, .response (.data [5, 6])⟩ { holder .joined with
      isu := { serving (inboundRead .answering false) [response] with sqCounts := ⟨0, 7, false⟩ } }
    (release.wmu.own.at 0).release = some ⟨0, 7, false⟩ ∧
    (run (.releaseOutcome (.endOfTrailer voided)) release).wmu.own.at 0 = ⟨.releasing, none⟩ ∧
    (run (.releaseOutcome (.endOfTrailer voided)) release).lpu.faults = [⟨.voidLimit, none, none, some 0x1000, false⟩] ∧
    (run (.responseFrameOutcome (.endOfTrailer voided)) answer).isu = serving none [] ∧
    (run (.responseFrameOutcome (.endOfTrailer voided)) answer).lpu.faults = [⟨.voidLimit, some 2, some 3, none, false⟩] := by decide

/-- A CLAIM in flight that a LEAVE gives up, and a SYNC for which a LEAVE waits: LOST, COLLIDED and VOIDED (R44, R57); and the
CLAIM TAKEN after all. -/
theorem test_leave_gives_up :
    let claim := sending (.claim 0) (toAll (.claim 0x1000 0x80000000)) { station .leaving with
      wmu := { map := [], own := (Bank.all 2 ⟨.idle, none⟩).put 0 ⟨.wanted, none⟩, claim := some ⟨0, ⟨0, 6, false⟩⟩ } }
    let sync := sending .sync (toAll .sync) (busy .leave { station .syncWait with
      mc := { (station .syncWait).mc with sync := some Counts.zero } })
    (claim.countsOf (.claim 0) = some ⟨0, 6, false⟩ ∧ (toAll .sync).frame false = ⟨1, 1, 1, 31, 4, 0, 0, []⟩) ∧
    (∀ c ∈ [Instr.lost 6, .collided 0, .claimOutcome (.endOfTrailer voided)], (run c { claim with
      tif := { claim.tif with flight := some ⟨.claim 0, ({ toAll (.claim 0x1000 0x80000000) with source := 2 } : Message).frame
        false, false⟩ } }).wmu = Wmu.reset) ∧
    (run (.claimOutcome (.endOfTrailer silent)) claim).wmu.own.at 0 = ⟨.releasing, some Counts.zero⟩ ∧
    (run (.claimOutcome (.endOfTrailer silent)) claim).wmu.map = [⟨0x1000, 0, true, 1⟩] ∧
    (∀ c ∈ [Instr.lost 1, .collided 0, .syncOutcome (.endOfTrailer voided)], (run c sync).mc.state = .halted) := by decide

/-- EighthVoidAbandons for the SYNC, the BYE, the CLAIM and the RQ head (R35, R47, R59, R70, R110). -/
theorem test_voids_of_the_others :
    let seven : Counts := ⟨0, 7, false⟩
    let sync := sending .sync (toAll .sync) (busy .join { station .syncWait with
      mc := { (station .syncWait).mc with sync := some seven } })
    let bye := sending .bye (toAll .bye) { station .leaving with mc := { (station .leaving).mc with bye := some seven } }
    let claim := sending (.claim 0) (toAll (.claim 0x1000 0x80000000)) (busy .join { station .claiming with
      wmu := { map := [], own := (Bank.all 2 ⟨.idle, none⟩).put 0 ⟨.wanted, none⟩, claim := some ⟨0, seven⟩ } })
    let head := sending .rqHead writeMessage { holder .joined with ore := writeHead 0 seven }
    (run (.syncOutcome (.endOfTrailer voided)) sync).mc.state = .faulted ∧
      (run (.byeOutcome (.endOfTrailer voided)) bye).mc.state = .detached ∧
    ((run (.claimOutcome (.endOfTrailer voided)) claim).mc.state = .joined ∧
      (run (.claimOutcome (.endOfTrailer voided)) claim).lpu.faults = [⟨.voidLimit, none, none, some 0x1000, false⟩]) ∧
    (run (.requestFrameOutcome (.endOfTrailer voided)) head).ore.cq = [⟨0xA002, .write, .trunkError, some 2, []⟩] := by decide

/-- The end of the frame on which a station collided, after its last check bit. -/
def heardOut (s : State) : State := run (.byeReceived 2 (.endOfTrailer silent)) (run (.byeReceived 2 .lastCheckBit) s)

/-- EighthVoidAbandons, brought by COLLIDED on the start bit: the frame is abandoned at the bit, and its fault is recorded at the
end of the frame on the trunk, or at the next idle where that is cut off (R29, R35, R165). -/
theorem test_voids_collided :
    let seven : Counts := ⟨0, 7, false⟩
    let collided (src : Source) (m : Message) (s : State) : State := run (.collided 0) (sending src m s)
    let owes (t : State) (r : FaultRecord) := t.lpu.faults = [] ∧ t.tif.spent = some (.faults [r]) ∧
      (heardOut t).lpu.faults = [r] ∧ (heardOut t).tif.spent = none ∧ (run .trunkIdleObserved t).lpu.faults = [r]
    let member := station .joined
    let roster := collided .roster (toAll (.roster 0xE [])) { member with mc := { member.mc with roster := some seven } }
    let evict := collided (.evict 2) (toAll (.evict 2)) { member with mc := { member.mc with evicts := [⟨2, seven⟩] } }
    let answer := collided .sqHead ⟨1, 2, 9, .response (.data [5, 6])⟩ (busy .flush { holder .joined with
      isu := { serving (inboundRead .answering false) [response] with sqCounts := seven } })
    (roster.mc.roster = none ∧ owes roster ⟨.voidLimit, none, none, none, false⟩ ∧ roster.tif.collidedHere = true ∧
      roster.tif.collisions = 1) ∧
    (evict.mc.evicts = [] ∧ owes evict ⟨.voidLimit, some 2, none, none, false⟩) ∧
    (answer.isu = serving none [] ∧ owes answer ⟨.voidLimit, some 2, some 3, none, false⟩ ∧
      answer.lpu.last = some ⟨.flush, .done⟩) := by decide

/-- EighthVoidAbandons for a SYNC that collided: SYNC_INCOMPLETE and FAULTED at the end of the frame, where the station still
drives ERROR, and also where a LEAVE in SYNCING has come between (R29, R47, R57, R165). -/
theorem test_voids_collided_sync :
    let seven : Counts := ⟨0, 7, false⟩
    let t (st : StationState) := run (.collided 0) (sending .sync (toAll .sync) (busy .join { station st with
      mc := { (station st).mc with sync := some seven } }))
    let fault : FaultRecord := ⟨.syncIncomplete, none, none, none, false⟩
    let faulted (u : State) (c : Command) :=
      u.mc.state = .faulted ∧ u.lpu.faults = [fault] ∧ u.lpu.last = some ⟨c, .failed⟩
    ((t .syncWait).mc.state = .syncWait ∧ (t .syncWait).mc.sync = some ⟨0, 8, false⟩ ∧
      (t .syncWait).tif.spent = some .syncIncomplete ∧
      (run (.byeReceived 2 .lastCheckBit) (t .syncWait)).drivesSlots = voided) ∧
    faulted (heardOut (t .syncWait)) .join ∧ faulted (run .trunkIdleObserved (t .syncing)) .join ∧
    faulted (heardOut (run .leave (t .syncing))) .leave ∧ (run .leave (t .syncWait)).mc.state = .halted := by decide

/-- SettleTimerExpiry: records that wait for the end of the frame on the trunk stand before that of the third expiry (log entry
10). -/
theorem test_settle_due :
    let r : FaultRecord := ⟨.voidLimit, some 2, none, none, false⟩
    let s := busy .join { station .syncing with
      mc := { (station .syncing).mc with attempts := 2, settle := some 16000000 }
      tif := { (station .syncing).tif with receiver := .receiving, collidedHere := true, spent := some (.faults [r]) } }
    (run .settleTimerExpiry s).lpu.faults = [r, ⟨.syncIncomplete, none, none, none, false⟩] ∧
      (run .settleTimerExpiry s).tif.spent = none := by decide

/-- EighthVoidAbandons for the RQ head's frame, brought by COLLIDED: TRUNK_ERROR at the bit, the tag FREE, the next head prepared
(with that tag again), and on the rest of the frame ERROR (R29, R110). -/
theorem test_voids_collided_head :
    let s := sending .rqHead readMessage { holder .joined with ore := readHead 0 ⟨0, 7, false⟩ }
    let more := { s with ore := { s.ore with rq := [readWork, readWork] } }
    let t := run (.collided 0) s
    (t.ore.cq = [⟨0xA001, .read, .trunkError, some 2, []⟩] ∧ t.ore.rq = [] ∧ t.ore.head = none ∧
      t.ore.ort = Ore.reset.ort ∧ t.lpu.faults = [] ∧ t.mc = s.mc) ∧
    (t.tif.spent = none ∧ t.tif.flight = none ∧ t.tif.collisions = 1 ∧ t.tif.receiver = .receiving) ∧
    (run (.byeReceived 2 .lastCheckBit) t).drivesSlots = voided ∧ (heardOut t).ore = t.ore ∧
    (run (.collided 0) more).ore = { readHead 0 Counts.zero with cq := t.ore.cq } := by decide

/-- EighthVoidAbandons for a RELEASE and for a CLAIM that collided, in CLAIMING and in LEAVING (R57, R70, R75), and a LEAVE after
the abandonment, which leaves the record to be appended (R165). -/
theorem test_voids_collided_windows :
    let seven : Counts := ⟨0, 7, false⟩
    let windows (st : StationState) (r : OwnRecord) (claim : Option ClaimInCourse) : State := { station st with
      wmu := { map := [], own := (Bank.all 2 ⟨.idle, none⟩).put 0 r, claim := claim } }
    let claim (st : StationState) := run (.collided 0) (sending (.claim 0) (toAll (.claim 0x1000 0x80000000))
      (windows st ⟨.wanted, none⟩ (some ⟨0, seven⟩)))
    let release := run (.collided 0) (sending (.release 0) (toAll (.release 0x1000))
      (windows .leaving ⟨.releasing, some seven⟩ none))
    let record : FaultRecord := ⟨.voidLimit, none, none, some 0x1000, false⟩
    (release.wmu.own.at 0 = ⟨.releasing, none⟩ ∧ (heardOut release).lpu.faults = [record]) ∧
    ((claim .claiming).wmu.own.at 0 = ⟨.refused, none⟩ ∧ (claim .claiming).mc.state = .joined ∧
      (heardOut (run .leave (claim .claiming))).lpu.faults = [record]) ∧
    ((claim .leaving).wmu.own.at 0 = ⟨.idle, none⟩ ∧ (claim .leaving).lpu.faults = [] ∧
      (heardOut (claim .leaving)).lpu.faults = [record]) := by decide

/-- EighthVoidAbandons for a CLAIM with another record WANTED: it is taken in course (R68, R70). -/
theorem test_voids_claim_next :
    let s := sending (.claim 0) (toAll (.claim 0x1000 0x80000000)) (busy .join { station .claiming with
      wmu := { map := [], own := ((Bank.all 2 ⟨.idle, none⟩).put 0 ⟨.wanted, none⟩).put 1 ⟨.wanted, none⟩
               claim := some ⟨0, ⟨0, 7, false⟩⟩ } })
    let b := run (.collided 0) s
    let t := run (.claimOutcome (.endOfTrailer voided)) s
    (b.wmu = t.wmu ∧ b.lpu.faults = [] ∧ b.tif.due = t.lpu.faults) ∧
    t.wmu.claim = some ⟨1, Counts.zero⟩ ∧ t.wmu.own.at 0 = ⟨.refused, none⟩ ∧ t.mc.state = .claiming ∧
      t.lpu.faults = [⟨.voidLimit, none, none, some 0x1000, false⟩] := by decide

/-- EighthVoidAbandons for a BYE that collided: ERROR on the rest of the frame, and VOID_LIMIT and DETACHED at its end, or at the
next idle where it is cut off (R18, R29, R35, R59). -/
theorem test_bye_collided :
    let s := sending .bye (toAll .bye) (busy .leave { station .leaving with
      mc := { (station .leaving).mc with bye := some ⟨0, 7, false⟩ } })
    let t := run (.collided 0) s
    let decided := run (.syncReceived 2 .lastCheckBit) t
    let ended := run (.syncReceived 2 (.endOfTrailer silent)) decided
    (t.mc.state = .leaving ∧ t.mc.bye = some ⟨0, 8, false⟩ ∧ t.lpu.faults = [] ∧ t.tif.spent = some .detach) ∧
    (decided.drivesSlots = voided ∧ decided.mc.state = .leaving) ∧
    (ended.mc.state = .detached ∧ ended.lpu.last = some ⟨.leave, .done⟩ ∧ ended.mc.peers = 0 ∧ ended.mc.bye = none ∧
      ended.lpu.faults = [⟨.voidLimit, none, none, none, false⟩]) ∧
    (run .trunkIdleObserved t).mc.state = .detached ∧
    (run (.collided 0) { s with mc := { s.mc with bye := some ⟨0, 6, false⟩ } }).mc.bye = some ⟨0, 7, false⟩ := by decide

/-- Entry into DETACHED frees an inbound request delivered while the BYE was pending and drops its answer (R37, R59, R150). -/
theorem test_detached_drops :
    let s (e : IttState) (sq : List SqRecord) := sending .bye (toAll .bye) (busy .leave { station .leaving with
      mc := { (station .leaving).mc with bye := some Counts.zero }, isu := serving (inboundRead e false) sq })
    (run (.byeOutcome (.endOfTrailer silent)) (s .awaiting [])).isu = Isu.reset ∧
    (run (.byeOutcome (.endOfTrailer silent)) (s .answering [response])).isu = Isu.reset := by decide

/-- A frame of a source whose work was discarded meanwhile. -/
def forNobody (src : Source) (m : Message) (s : State) : State :=
  let t := sending src m s
  { t with tif := { t.tif with flight := some ⟨src, m.frame false, true⟩ } }

/-- The outcomes of frames sent for nobody: a request, a response and a RELEASE whose work was discarded change the collision
count, the miss counter and, the RELEASE when TAKEN, the map (R30, R60, R75, R89, R115, R150). -/
theorem test_discarded_outcomes :
    let request := forNobody .rqHead readMessage (station .joined)
    let answer := forNobody .sqHead ⟨1, 2, 9, .response (.data [5, 6])⟩ (station .joined)
    let release := forNobody (.release 0) (toAll (.release 0x1000)) { holder .leaving with
      wmu := { (holder .leaving).wmu with own := Bank.all 2 ⟨.idle, none⟩ } }
    (request.sendsForNobody .rqHead (readMessage.frame false) ∧
      release.sendsForNobody (.release 0) ((toAll (.release 0x1000)).frame false)) ∧
    (run (.requestFrameOutcome (.endOfTrailer silent)) request = { request with
      tif := request.tif.sent, mc := { request.mc with miss := request.mc.miss.put 2 1 } }) ∧
    (run (.responseFrameOutcome (.endOfTrailer rejected)) answer = { answer with tif := answer.tif.sent }) ∧
    (run (.releaseOutcome (.endOfTrailer silent)) release).wmu.map = [⟨0x4000, 1, true, 2⟩] ∧
    (run (.releaseOutcome (.endOfTrailer voided)) release).wmu = release.wmu ∧
    (run (.lost 6) (forNobody .rqHead { readMessage with source := 2 } (station .joined))).tif.flight = none ∧
    (run (.collided 0) request).ore = request.ore ∧ (run (.collided 0) request).tif.collisions = 1 := by
  refine ⟨⟨⟨rfl, true, rfl, Or.inl rfl⟩, ⟨rfl, true, rfl, Or.inl rfl⟩⟩, ?_⟩
  decide

/-- A repeated SYNC in flight when LEAVE was accepted in SYNCING: VOIDED and TAKEN have no effect, REJECTED is fatal (R54, R57). -/
theorem test_sync_withdrawn :
    let s := run .leave (sending .sync (toAll .sync) (busy .join { station .syncing with
      mc := { (station .syncing).mc with sync := some Counts.zero } }))
    s.sendsForNobody .sync ((toAll .sync).frame false) ∧ (s.mc.state = .leaving ∧ s.mc.sync = none) ∧
    (∀ l ∈ [voided, silent, accepted], run (.syncOutcome (.endOfTrailer l)) s = { s with tif := s.tif.sent }) ∧
    (run (.syncOutcome (.endOfTrailer rejected)) s).mc.state = .faulted := by
  refine ⟨⟨rfl, false, rfl, Or.inr ⟨rfl, rfl, rfl⟩⟩, ?_⟩
  decide

/-! ### Received frames -/

/-- Station 1 in the given state, receiving a frame before its last check bit. -/
def deciding (s : State) : State := { s with tif := { s.tif with idleCount := 0, receiver := .receiving } }

theorem test_decides : (deciding (holder .joined)).decides ∧ (deciding (station .syncWait)).decides := by
  refine ⟨⟨?_, ?_, ?_, ?_, ?_, ?_⟩, ⟨?_, ?_, ?_, ?_, ?_, ?_⟩⟩ <;> decide

theorem test_hears : (holder .joined).hears ∧ (station .syncing).hears := by
  refine ⟨⟨?_, ?_, ?_, ?_⟩, ⟨?_, ?_, ?_, ?_⟩⟩ <;> decide

/-- The slots driven after the last check bit. -/
def slotsAfter (c : RxMoment → Instr) (s : State) : Slots := (run (c .lastCheckBit) (deciding s)).drivesSlots

/-- SlotDriven (R16, R49, R71, R92, R153): each pair of a REJECT and an ACCEPT at its boundary, and a silent listener. -/
theorem test_slots :
    let s := holder .joined
    let full := { s with isu := { Isu.reset with nq := List.replicate 8 ⟨2, 0, false⟩ } }
    (slotsAfter (.syncReceived 1) s = rejected ∧ slotsAfter (.syncReceived 2) s = accepted) ∧
    (slotsAfter (.claimReceived 3 0x6000 1) s = accepted ∧ slotsAfter (.claimReceived 3 0x2000 1) s = accepted ∧
      slotsAfter (.claimReceived 3 0 1) s = rejected) ∧
    (slotsAfter (.evictReceived 3 1) s = rejected ∧ slotsAfter (.evictReceived 3 2) s = accepted) ∧
    (slotsAfter (.signalReceived 2 true 0) s = accepted ∧ slotsAfter (.signalReceived 2 true 0) full = rejected) ∧
    slotsAfter (.responseReceived 2 0 .done) s = accepted ∧ slotsAfter (.releaseReceived 2 0x7000) s = accepted ∧
    slotsAfter (.frameForAnotherStation 2 3 (.signal 0)) s = silent ∧
    slotsAfter (.byeReceived 2) (station .syncWait) = silent := by decide

/-- SlotDriven: the slots stand behind the frame of the count received; a station in HALTED drives none (R9, R17, R182). -/
theorem test_slot_positions :
    let driven (c : RxMoment → Instr) (s : State) : List Nat :=
      [43, 44, 45, 46, 47, 76, 77, 78, 108, 109, 110].filter (run (c .lastCheckBit) (deciding s)).drivesTdat
    driven (.byeReceived 2) (holder .joined) = [46] ∧ driven (.syncReceived 1) (holder .joined) = [45] ∧
    driven (.evictReceived 3 2) (holder .joined) = [78] ∧ driven (.claimReceived 3 0 1) (holder .joined) = [109] ∧
    driven (.byeReceived 2) (station .halted) = [] ∧ (station .halted).mc.state.isListening = false ∧
    run (.byeReceived 2 .lastCheckBit) (deciding (station .halted)) =
      { deciding (station .halted) with tif := { (deciding (station .halted)).tif with receiver := .slots } } := by decide

/-- CollidedFrame: on the rest of the frame on which it collided the station drives ERROR, whatever the frame says, and applies
nothing of it (R29). -/
theorem test_collided_listens :
    let s := run (.collided 9) (sending .rqHead writeMessage { holder .joined with ore := writeHead 0 Counts.zero })
    let t := run (.byeReceived 2 .lastCheckBit) s
    (s.tif.receiver = .receiving ∧ s.tif.collidedHere = true ∧ (Instr.byeReceived 2 .lastCheckBit).moment = some .lastCheckBit) ∧
    t.drivesSlots = voided ∧ (t.drivesTdat 44 = true ∧ t.drivesTdat 45 = false ∧ t.drivesTdat 46 = false) ∧
    t.tif.spent = none ∧
    run (.byeReceived 2 (.endOfTrailer silent)) t =
      { t with tif := { t.tif with receiver := .unsynced, rx := none, collidedHere := false } } := by decide

/-- RequestDecision: what the station serves, answers, drops and rejects (R79, R137). -/
theorem test_request_decision :
    let s := holder .joined
    let readOnly := { s with wmu := { s.wmu with map := [⟨0x1000, 0, false, 1⟩] } }
    let noHandle := { s with isu := { Isu.reset with itt := Bank.all 4 (inboundRead .awaiting false) } }
    let noRoom := { s with isu := { Isu.reset with iq := List.replicate 16 ⟨2, 0x1000, .write [0], none⟩ } }
    let verdict (b : RequestBody) (s : State) :=
      (run (.requestReceived 2 9 b .lastCheckBit) (deciding s)).tif.rx.map (fun r => r.verdict)
    let m (b : RequestBody) : Message := ⟨2, 1, if requestPosted b then 0 else 9, .request b⟩
    let accept (b : RequestBody) (p : ServicePlan) : Option Verdict := some (.accept (m b) (some p))
    let reject (b : RequestBody) : Option Verdict := some (.reject (m b))
    let read : RequestBody := .read 0x1FF8 2
    let beyond : RequestBody := .read 0x1FF8 3
    let write : RequestBody := .write 0x1000 [1]
    let cwrite : RequestBody := .cwrite 0x1000 [1]
    ((Instr.requestReceived 2 9 read .lastCheckBit).wellFormed = true ∧ requestLength read = 2) ∧
    (verdict read s = accept read .deliver ∧ verdict beyond s = accept beyond (.answer .notOwner)) ∧
    (verdict write readOnly = accept write .drop ∧ verdict cwrite readOnly = accept cwrite (.answer .readOnly)) ∧
    (verdict read noHandle = reject read ∧ verdict beyond noHandle = reject beyond ∧
      verdict write noHandle = accept write .deliver) ∧
    (verdict write noRoom = reject write ∧ verdict read (busy .flush s) = reject read) := by decide

/-- The READ of two words at 1000h by station 2. -/
def inboundMessage : Message := ⟨2, 1, 9, .request (.read 0x1000 2)⟩

/-- Station 1 after its decision on that READ, with the events of R138 since: a FLUSH started since then still runs, and a
deadline runs in LEAVING. -/
def decidedRead (p : ServicePlan) (flushed deadline : Bool) : State :=
  let s := { holder (if deadline then .leaving else .joined) with
    tif := { Tif.reset 0 with
      receiver := .slots, rx := some ⟨.accept inboundMessage (some p), 2, flushed, deadline, none⟩ } }
  if flushed then busy .flush s else s

/-- The end of its trailer. -/
def endOfRead (p : ServicePlan) (flushed deadline : Bool) (levels : Slots) : State :=
  run (.requestReceived 2 9 (.read 0x1000 2) (.endOfTrailer levels)) (decidedRead p flushed deadline)

/-- RequestTaken, for a READ: delivered, answered 11, 3 and 4, and not taken (R138, R140, R142, R143). -/
theorem test_request_taken :
    let record : SqRecord := ⟨0, 2, 9, .fail 0⟩
    let answered (w : Word) : Isu := { Isu.reset with
      itt := (Bank.all 4 none).put 0 (inboundRead .answering false), sq := [{ record with body := .fail w }] }
    (endOfRead .deliver false false silent).isu = { Isu.reset with
      itt := (Bank.all 4 none).put 0 (inboundRead .delivered false), iq := [⟨2, 0x1000, .read 2, some 0⟩] } ∧
    (endOfRead .deliver true false silent).isu = answered 11 ∧ (endOfRead .deliver false true silent).isu = answered 3 ∧
    (endOfRead (.answer .notOwner) true false silent).isu = answered 3 ∧
    (endOfRead (.answer .readOnly) false false silent).isu = answered 4 ∧
    (endOfRead .deliver false false voided).isu = Isu.reset := by decide

/-- RequestTaken during the FLUSH the request holds: the FLUSH goes on while its answer stands in the SQ, and ends where
nothing was queued (R138, R161, R163). -/
theorem test_request_taken_flushing :
    (decidedRead .deliver true false).lpu.running = some .flush ∧
    (endOfRead .deliver true false silent).lpu.running = some .flush ∧
    (endOfRead .deliver true false voided).lpu.last = some ⟨.flush, .done⟩ ∧
    (endOfRead .drop true false silent).lpu.last = some ⟨.flush, .done⟩ ∧
    (endOfRead .drop true false silent).lpu.faults = [⟨.postedDropped, some 2, none, some 0x1000, false⟩] := by decide

/-- The whole reception of a posted WRITE at the station's own window and outside it (R139, R140). -/
theorem test_write_received :
    (run (.requestReceived 2 0 (.write 0x1000 [7]) (.whole silent)) (holder .joined)).isu.iq =
      [⟨2, 0x1000, .write [7], none⟩] ∧
    (run (.requestReceived 2 0 (.write 0x4000 [7]) (.whole silent)) (holder .joined)).lpu.faults =
      [⟨.postedDropped, some 2, none, some 0x4000, false⟩] := by decide

/-- ResponseReceived: DATA, FAIL and a stray of the wrong length (R121 to R123). -/
theorem test_response_received :
    let s := busyStation
    let got (b : ResponseBody) := run (.responseReceived 2 0 b (.whole silent)) s
    (s.ore.ort.at 0 = .sent readRecord (some 4000000) ∧ s.ore.rq = [] ∧ s.hears) ∧
    (readRecord.answeredBy (.data [1, 2, 3, 4]) .ok [1, 2, 3, 4] ∧ readRecord.answeredBy (.fail 11) .flushed [] ∧
      ∀ st ds, ¬readRecord.answeredBy .done st ds) ∧
    ((got (.data [1, 2, 3, 4])).ore.cq = [⟨0xA001, .read, .ok, some 2, [1, 2, 3, 4]⟩] ∧
      (got (.fail 11)).ore.cq = [⟨0xA001, .read, .flushed, some 2, []⟩] ∧
      (got (.data [1, 2, 3])).lpu.faults = [⟨.strayResponse, some 2, some 0, none, false⟩] ∧
      (got .done).ore = s.ore) := by
  refine ⟨⟨by decide, by decide, ⟨?_, ?_, ?_, ?_⟩⟩, ⟨?_, ?_, ?_⟩, ?_⟩ <;>
    first | decide | simp [OrtRecord.answeredBy, readRecord]

/-- SignalReceived with room, with the NQ full, and voided (R153, R154). -/
theorem test_signal_received :
    let s := holder .joined
    let full := { s with isu := { Isu.reset with nq := List.replicate 8 ⟨2, 0, false⟩ } }
    (run (.signalReceived 2 true 7 (.whole silent)) s).isu.nq = [⟨2, 7, true⟩] ∧
    (run (.signalReceived 2 false 7 (.whole voided)) s).isu.nq = [] ∧
    (run (.signalReceived 2 false 7 (.whole silent)) full).isu = full.isu := by decide

/-- SignalReceived while a FLUSH waits for the SQ, and where another member rejects it (R34, R161). -/
theorem test_signal_received_flushing :
    let s := busy .flush { holder .joined with isu := serving (inboundRead .answering false) [response] }
    s.lpu.running = some .flush ∧ (run (.signalReceived 2 true 7 (.whole silent)) s).isu.nq = [⟨2, 7, true⟩] ∧
    (run (.signalReceived 2 true 7 (.whole silent)) s).lpu.running = some .flush ∧
    (run (.signalReceived 2 true 7 (.whole rejected)) s).isu.nq = [] := by decide

/-- DepartureFrames at a member in JOINED (R50, R85 to R88, R94, R95), and at the station the frame names (R49, R92). -/
theorem test_departures :
    let s := busyStation
    let bye := run (.byeReceived 2 (.whole silent)) s
    let sync := run (.syncReceived 2 (.whole silent)) s
    let evict := run (.evictReceived 3 2 (.whole silent)) s
    CompletionLaws s.ore ∧ (bye.mc.peers = 0xA ∧ bye.ore.cq = [⟨0xA001, .read, .peerLost, some 2, []⟩] ∧
      bye.ore.ort.at 0 = .quarantined readRecord (some 4000000) ∧ bye.isu.itt.at 3 = inboundRead .delivered true ∧
      sync.mc.peers = 0xE ∧ sync.mc.roster = some Counts.zero ∧
      evict.lpu.faults = [⟨.peerEvicted, some 2, none, none, false⟩] ∧
      (run (.evictReceived 3 1 (.whole silent)) s).wmu = s.wmu) := by
  refine ⟨busyStation_completionLaws, ?_⟩
  decide

/-- DepartureFrames in SYNCING: a SYNC makes its station a late joiner (R53). -/
theorem test_departure_syncing :
    let s := { station .syncing with mc := { (station .syncing).mc with expected := 4 } }
    (run (.syncReceived 2 (.whole silent)) s).mc.late = 4 ∧ (run (.syncReceived 2 (.whole silent)) s).mc.expected = 0 ∧
      (run (.syncReceived 2 (.whole silent)) s).mc.state = .syncing := by decide

/-- DepartureFrames and EvictOutcome in SYNCING: the map, the two sets of the sync and the tables of the requests follow, and
the sync completes when that was the last one expected (R53, R54, R88, R94). -/
theorem test_departures_syncing :
    let s (answered : StationSet) := busy .join { busyStation with
      mc := { (station .syncing).mc with
        expected := 0xC, answered := answered, settle := some 16000000, evicts := [⟨2, Counts.zero⟩] } }
    let bye := run (.byeReceived 2 (.whole silent)) (s 8)
    let evict := run (.evictReceived 3 2 (.whole silent)) (s 0)
    let own := run (.evictOutcome (.endOfTrailer silent)) (sending (.evict 2) (toAll (.evict 2)) (s 0))
    ((s 8).mc.state = .syncing ∧ (s 8).mc.answered.erase 2 ≠ StationSet.empty) ∧
    (bye.mc.state = .joined ∧ bye.mc.settle = none ∧ bye.wmu.map = [⟨0x1000, 0, true, 1⟩] ∧ bye.mc.expected = 8) ∧
    (evict.mc.state = .syncing ∧ evict.mc.expected = 8 ∧ evict.wmu.map = [⟨0x1000, 0, true, 1⟩] ∧
      evict.ore.cq = [⟨0xA001, .read, .peerLost, some 2, []⟩] ∧ evict.isu.itt.at 3 = inboundRead .delivered true ∧
      evict.lpu.faults = [⟨.peerEvicted, some 2, none, none, false⟩] ∧ evict.mc.evicts = []) ∧
    (own.mc.expected = 8 ∧ own.lpu.faults = [⟨.peerEvicted, some 2, none, none, false⟩]) := by decide

/-- DepartureFrames: the holdoff of a head for the station stops and the head is completed PEER_LOST (R113), and the next SQ
record becomes the head with counts of 0 (R148). -/
theorem test_departures_heads :
    let s := { holder .joined with
      tif := { (holder .joined).tif with holdoff := some 256000 }
      ore := { writeHead 1 Counts.zero with head := some ⟨2, none, .holdoff, 1, Counts.zero⟩ }
      isu := { serving (inboundRead .answering false) [response, ⟨4, 3, 1, .done⟩] with
        itt := ((Bank.all 4 none).put 3 (inboundRead .answering false)).put 4 (some ⟨3, 1, true, 1, .answering, false⟩)
        sqCounts := ⟨0, 3, false⟩ } }
    let t := run (.byeReceived 2 (.whole silent)) s
    (t.tif.holdoff = none ∧ t.ore.head = none ∧ t.ore.cq = [⟨0xA002, .write, .peerLost, some 2, []⟩]) ∧
    (t.isu.sq = [⟨4, 3, 1, .done⟩] ∧ t.isu.sqCounts = Counts.zero ∧ t.isu.itt.at 3 = none) ∧
    ((run (.byeReceived 3 (.whole silent)) s).tif.holdoff = some 256000 ∧
      (run (.byeReceived 3 (.whole silent)) s).isu.sqCounts = ⟨0, 3, false⟩) := by decide

/-- DepartureFrames: the EVICTs and the miss counters of the others stay, a departure in LEAVING sets the BYE flag, and one that
empties the SQ ends a FLUSH (R58, R86, R88, R163). -/
theorem test_departures_of_the_rest :
    let s := { station .joined with mc := { (station .joined).mc with
      evicts := [⟨2, ⟨1, 2, false⟩⟩, ⟨3, ⟨3, 4, false⟩⟩], miss := ((Bank.all 5 0).put 2 1).put 3 2 } }
    let rest (t : State) := t.mc.evicts = [⟨3, ⟨3, 4, false⟩⟩] ∧ t.mc.miss = (Bank.all 5 0).put 3 2
    let leaving := busy .leave { station .leaving with isu := serving (inboundRead .answering false) [response] }
    let flushing := busy .flush { station .joined with isu := serving (inboundRead .answering false) [response] }
    rest (run (.byeReceived 2 (.whole silent)) s) ∧
    rest (run (.evictOutcome (.endOfTrailer silent)) (sending (.evict 2) (toAll (.evict 2)) s)) ∧
    ((run (.byeReceived 2 (.whole silent)) leaving).mc.bye = some Counts.zero ∧
      (run (.byeReceived 3 (.whole silent)) leaving).mc.bye = none) ∧
    ((run (.byeReceived 2 (.whole silent)) flushing).lpu.last = some ⟨.flush, .done⟩ ∧
      (run (.byeReceived 3 (.whole silent)) flushing).lpu.running = some .flush) := by decide

/-- DepartureFrames, RosterReceived and ResponseReceived: what another station voids is applied nowhere (R34). -/
theorem test_not_taken :
    let s := busy .join { busyStation with mc := (station .syncing).mc }
    ∀ c ∈ [Instr.byeReceived 2 (.whole voided), .syncReceived 2 (.whole rejected), .evictReceived 3 2 (.whole voided),
        .rosterReceived 2 0xE [(0x4000, 0x80000001)] (.whole rejected),
        .responseReceived 2 0 (.data [1, 2, 3, 4]) (.whole voided)],
      run c s = { s with tif := s.tif.heard } := by decide

/-- RosterReceived: the source joins the peer set even where its own bit is missing from its peer word (R76; log entry 35). -/
theorem test_roster_source :
    (run (.rosterReceived 2 0x8 [] (.whole silent)) { station .syncing with
      mc := { (station .syncing).mc with peers := 2 } }).mc.peers = 0xE := by decide

/-- RosterReceived: ignored outside SYNCING, noted, and the last one that completes the sync (R53, R54, R76). -/
theorem test_roster_received :
    let s := { station .syncing with mc := { (station .syncing).mc with peers := 2 } }
    let first := run (.rosterReceived 2 0xE [(0x4000, 0x80000001)] (.whole silent)) s
    let last := run (.rosterReceived 3 0xE [(0x5000, 0)] (.whole silent)) { first with tif := s.tif }
    (Instr.rosterReceived 2 0xE [(0x4000, 0x80000001)] (.whole silent)).wellFormed = true ∧
    (first.mc.state = .syncing ∧ first.mc.peers = 0xE ∧ first.mc.expected = 0xC ∧ first.mc.answered = 4 ∧
      first.wmu.map = [⟨0x4000, 1, true, 2⟩]) ∧
    (last.mc.state = .joined ∧ last.lpu.faults = [⟨.mapOverlap, some 3, none, some 0x5000, false⟩]) ∧
    (run (.rosterReceived 2 0xE [] (.whole silent)) (holder .joined)).mc = (holder .joined).mc ∧
    mergePairs 2 [(0x4000, 0x80000001)] (holder .joined) = holder .joined := by decide

/-- ClaimAndReleaseReceived, with the boundary of the WMU's limits (R71, R72, R74). -/
theorem test_claim_release_received :
    let s := holder .joined
    let claimed := run (.claimReceived 3 0x2000 1 (.whole silent)) s
    claimed.wmu.map = [⟨0x1000, 0, true, 1⟩, ⟨0x2000, 1, false, 3⟩, ⟨0x4000, 1, true, 2⟩] ∧
    (run (.claimReceived 3 0 1 (.whole silent)) s).wmu = s.wmu ∧
    (run (.releaseReceived 2 0x4000 (.whole silent)) s).wmu.map = [⟨0x1000, 0, true, 1⟩] ∧
    (run (.releaseReceived 3 0x4000 (.whole silent)) s).wmu = s.wmu ∧
    (run (.releaseReceived 2 0x4000 (.whole voided)) s).wmu = s.wmu := by decide

/-- ClaimAndReleaseReceived: a claim that takes away the window of the own CLAIM in course (R69), and one by a station a
member in SYNCING does not know (R53). -/
theorem test_claim_received_syncing_claiming :
    let s := busy .join { holder .claiming with
      wmu := { (holder .claiming).wmu with
        own := (holder .claiming).wmu.own.put 1 ⟨.wanted, none⟩, claim := some ⟨1, Counts.zero⟩ } }
    let t := run (.claimReceived 3 0x8000 0 (.whole silent)) s
    (t.wmu.own.at 1 = ⟨.refused, none⟩ ∧ t.mc.state = .joined ∧
      t.lpu.faults = [⟨.claimRefused, none, none, some 0x8000, false⟩]) ∧
    (run (.claimReceived 3 0xA000 0 (.whole silent)) s).wmu.claim = s.wmu.claim ∧
    (run (.claimReceived 4 0xA000 0 (.whole silent)) (station .syncing)).mc.expected = 0x10 := by decide

/-- FrameForAnotherStation: taken, not taken, and an UNSYNCED receiver (R6, R19, R89). -/
theorem test_frame_for_another :
    let s := { holder .joined with mc := { (station .joined).mc with miss := (Bank.all 5 0).put 2 2 } }
    let c (l : Slots) : Instr := .frameForAnotherStation 2 3 (.signal 0) (.whole l)
    (c silent).wellFormed = true ∧ (run (c accepted) s).mc.miss.at 2 = 0 ∧ (run (c silent) s).mc = s.mc ∧
      (let deaf := { s with tif := { s.tif with receiver := .unsynced } };
        run (c accepted) deaf = { deaf with tif := { deaf.tif with idleCount := 0 } }) := by decide

/-- The bits of the BYE of station 2, written out: class 01, urgency 1, source 00010, destination 11111, kind 1001, tag and
count 0, and the check (R7, R13). -/
def byeBits : List Bool :=
  [false, true, true, false, false, false, true, false, true, true, true, true, true, true, false, false, true,
    false, false, false, false, false, false, false, false, false, false] ++ bitsOf (⟨1, 1, 2, 31, 9, 0, 0, []⟩ : Frame).check

theorem test_bye_bits : Frame.read byeBits = some (⟨1, 1, 2, 31, 9, 0, 0, []⟩, (⟨1, 1, 2, 31, 9, 0, 0, []⟩ : Frame).check) ∧
    (Instr.malformedFrame byeBits [] .startBit).wellFormed = true := by decide +kernel

/-- MalformedFrame: a wrong check, and clock periods at and beyond the limits of R4 for a bit time of 1000 ns; and
RawBitsAreTheTypedRow: the same bits unharmed are the BYE. -/
theorem test_malformed :
    let s := deciding (holder .joined)
    let drives (bits : List Bool) (periods : List Nat) :=
      (run (.malformedFrame bits periods .lastCheckBit) s).drivesSlots
    drives (byeBits.dropLast ++ [!byeBits.getLast!]) [] = voided ∧ drives byeBits [749] = voided ∧
      drives byeBits [1501] = voided ∧ drives byeBits [750, 1500] = accepted ∧
      run (.malformedFrame byeBits [1000] (.whole silent)) (holder .joined) =
        run (.byeReceived 2 (.whole silent)) (holder .joined) := by decide +kernel

/-- MalformedFrame: a period out of tolerance that ends in the ERROR, the REJECT or the ACCEPT slot. The slots behind its sampling
edge are driven no more, and the BYE is not applied; in tolerance it is (R4, R7, R15). -/
theorem test_malformed_trailer :
    let good := List.replicate 43 1000
    let row (late : List Nat) (m : RxMoment) : Instr := .malformedFrame byeBits (good ++ late) m
    let decided (late : List Nat) := run (row late .lastCheckBit) (deciding (holder .joined))
    let sampled (late : List Nat) (slot : EarlySlot) := run (row late (.slotSampled slot)) (decided late)
    let peers (late : List Nat) (s : State) := (run (row late (.endOfTrailer silent)) s).mc.peers
    (decided [1501]).drivesSlots = accepted ∧ (sampled [1501] .error).drivesSlots = silent ∧
    (sampled [1000, 749] .error).drivesSlots = accepted ∧ (sampled [1000, 749] .reject).drivesSlots = silent ∧
    peers [1501] (sampled [1501] .error) = 0xE ∧ peers [1501] (decided [1501]) = 0xE ∧
    peers [1000, 1000, 1501] (decided [1000, 1000, 1501]) = 0xE ∧
    peers [1000, 1000, 1000] (decided [1000, 1000, 1000]) = 0xA ∧
    (run (row [1000, 1501] (.whole silent)) (holder .joined)).mc.peers = 0xE := by decide +kernel

/-- MalformedFrame: fields that R15 refuses, one for each condition. -/
theorem test_malformed_fields :
    ∀ f ∈ ([⟨1, 1, 2, 31, 3, 0, 0, []⟩, ⟨1, 1, 2, 31, 14, 0, 0, []⟩, ⟨1, 1, 0, 31, 9, 0, 0, []⟩, ⟨1, 1, 31, 31, 9, 0, 0, []⟩,
      ⟨3, 1, 2, 0, 13, 0, 1, [1]⟩, ⟨1, 1, 2, 1, 0, 0, 1, [1]⟩, ⟨1, 1, 2, 30, 9, 0, 0, []⟩, ⟨1, 1, 2, 1, 10, 0, 2, [0, 1]⟩,
      ⟨1, 1, 2, 31, 13, 0, 1, [1]⟩, ⟨2, 1, 2, 31, 10, 0, 2, [0, 1]⟩, ⟨2, 1, 2, 1, 10, 0, 1, [0]⟩, ⟨3, 1, 2, 1, 13, 0, 0, []⟩,
      ⟨0, 1, 2, 1, 0, 0, 0, []⟩, ⟨2, 1, 2, 1, 10, 0, 2, [2, 1]⟩, ⟨2, 1, 2, 1, 10, 0, 2, [4, 17]⟩,
      ⟨2, 1, 2, 1, 10, 0, 2, [4, 0]⟩] : List Frame), f.message = none := by decide

/-- MalformedFrame: the counts, windows, station words and addresses that R15 refuses, and next to each of these lists frames at
the limits that it does not. -/
theorem test_malformed_fields_words :
    (∀ f ∈ ([⟨0, 1, 2, 1, 0, 0, 17, List.replicate 17 0⟩, ⟨0, 1, 2, 1, 1, 0, 1, [0]⟩, ⟨0, 1, 2, 1, 2, 0, 2, [0, 0]⟩,
      ⟨1, 1, 2, 31, 4, 0, 1, [0]⟩, ⟨1, 1, 2, 31, 5, 0, 2, [0, 0]⟩, ⟨1, 1, 2, 31, 5, 0, 11, List.replicate 11 0⟩,
      ⟨1, 1, 2, 31, 6, 0, 1, [0]⟩, ⟨1, 1, 2, 31, 7, 0, 0, []⟩, ⟨1, 1, 2, 31, 8, 0, 2, [3, 3]⟩, ⟨1, 1, 2, 31, 9, 0, 1, [0]⟩,
      ⟨2, 1, 2, 1, 11, 0, 1, [0]⟩, ⟨2, 1, 2, 1, 12, 0, 18, List.replicate 18 0⟩, ⟨1, 1, 2, 31, 6, 0, 2, [0, 19]⟩,
      ⟨1, 1, 2, 31, 6, 0, 2, [0x1000, 1]⟩, ⟨1, 1, 2, 31, 5, 0, 3, [0, 0x1000, 1]⟩, ⟨1, 1, 2, 31, 7, 0, 1, [0x800]⟩,
      ⟨1, 1, 2, 31, 8, 0, 1, [0]⟩, ⟨1, 1, 2, 31, 8, 0, 1, [31]⟩, ⟨1, 1, 2, 31, 8, 0, 1, [2]⟩,
      ⟨2, 1, 2, 1, 11, 0, 2, [2, 0]⟩, ⟨2, 1, 2, 1, 12, 0, 2, [1, 0]⟩] : List Frame), f.message = none) ∧
    (∀ f ∈ ([⟨0, 1, 2, 1, 0, 0, 16, List.replicate 16 0⟩, ⟨1, 1, 2, 31, 5, 0, 9, List.replicate 9 0⟩,
      ⟨1, 1, 2, 31, 6, 0, 2, [0x40000000, 18]⟩, ⟨1, 1, 2, 31, 7, 0, 1, [0x1000]⟩, ⟨1, 1, 2, 31, 8, 0, 1, [30]⟩,
      ⟨2, 1, 2, 1, 10, 0, 2, [4, 16]⟩, ⟨2, 1, 2, 1, 11, 0, 17, List.replicate 17 0⟩, ⟨3, 1, 2, 31, 13, 0, 1, [9]⟩] :
      List Frame), f.message.isSome = true) := by decide

/-! ### The RQ head and the timers -/

/-- HeadPreparation: tags, routes, and what forbids it (R101 to R105). -/
theorem test_head_preparation :
    let s (d : Descriptor) (st : StationState) := { holder st with ore := { Ore.reset with rq := [d] } }
    let after (d : Descriptor) := (run .headPreparation (s d .joined)).ore
    after readWork = readHead 0 Counts.zero ∧
    after writeWork = writeHead 0 Counts.zero ∧
    (after ⟨1, .cwrite 0x4010 [7]⟩).ort.at 0 = .pending ⟨true, 2, 1, 1⟩ ∧
    (after ⟨1, .signal 31 0⟩).head.isSome = true ∧ (after ⟨1, .signal 2 0⟩).head.isSome = true ∧
    (after ⟨1, .signal 4 0⟩).cq = [⟨1, .signal, .noPeer, some 4, []⟩] ∧
    (after ⟨1, .read 0x3000 1⟩).cq = [⟨1, .read, .noWindow, none, []⟩] ∧
    run .headPreparation (s readWork .syncing) = s readWork .syncing ∧
    (let full := { s readWork .joined with ore := { Ore.reset with
        rq := [readWork], ort := Bank.all 5 (.quarantined readRecord none) } };
      (∀ t, full.ore.ort.at t ≠ .free) ∧ run .headPreparation full = full) := by decide

/-- TimersOfTheRequests (R36, R124, R125). -/
theorem test_timers :
    let held := { holder .joined with
      tif := { (holder .joined).tif with holdoff := some 256000 }
      ore := { readHead 1 Counts.zero with head := some ⟨2, some 0, .holdoff, 1, Counts.zero⟩ } }
    let late := run (.responseTimerExpiry 0) busyStation
    (run .holdoffExpiry held).ore = readHead 1 Counts.zero ∧ run .holdoffExpiry (holder .joined) = holder .joined ∧
    (late.ore.cq = [⟨0xA001, .read, .timeout, some 2, []⟩] ∧
      late.ore.ort.at 0 = .quarantined readRecord (some 4000000)) ∧
    (run (.quarantineExpiry 0) late).ore.ort = Bank.all 5 .free ∧ run (.responseTimerExpiry 0) late = late ∧
    run (.quarantineExpiry 0) busyStation = busyStation := by decide

/-- TimersOfTheRequests: the burst that is not a frame, in READY, while a frame is received, and in UNSYNCED on an idle trunk,
where RESTART leaves the receiver (R5, R6, R37). -/
theorem test_burst :
    let restarted := run .restart (station .faulted)
    (run .burstNotAFrame (station .joined)).tif.receiver = .unsynced ∧
    run .burstNotAFrame (deciding (station .joined)) = deciding (station .joined) ∧
    (restarted.tif.receiver = .unsynced ∧ restarted.tif.idleCount = 10) ∧
    (run .burstNotAFrame restarted).tif.idleCount = 0 ∧ (run .burstNotAFrame restarted).tif.receiver = .unsynced := by
  decide

/-- SettleTimerExpiry: nobody answered, somebody has not, and the third expiry (R55). -/
theorem test_settle :
    let s (n : Nat) (answered expected : StationSet) := busy .join { station .syncing with
      mc := { (station .syncing).mc with
        attempts := n, settle := some 16000000, answered := answered, expected := expected } }
    ((s 1 0 0).mc.answered = StationSet.empty ∧ (s 1 4 0xC).mc.answered ≠ StationSet.empty) ∧
    (run .settleTimerExpiry (s 1 0 0)).mc.sync = some Counts.zero ∧
    (run .settleTimerExpiry (s 1 4 0xC)).mc.evicts = [⟨3, Counts.zero⟩] ∧
    (run .settleTimerExpiry (s 2 4 0xC)).mc.state = .faulted ∧
    (run .settleTimerExpiry (s 2 4 0xC)).lpu.faults = [⟨.syncIncomplete, none, none, none, false⟩] ∧
    run .settleTimerExpiry (station .joined) = station .joined := by decide

/-- LeaveDeadlineExpiry: one outbound and one inbound item are abandoned (R60). -/
theorem test_leave_deadline :
    let s := run .leave busyStation
    CompletionLaws s.ore ∧ (s.mc.state = .leaving ∧ s.mc.deadline.isSome = true ∧ s.lpu.running = some .leave) ∧
      ((run .leaveDeadlineExpiry s).lpu.last = some ⟨.leave, .forced 1 1⟩ ∧
        (run .leaveDeadlineExpiry s).mc.bye = some Counts.zero ∧ (run .leaveDeadlineExpiry s).ore = Ore.reset ∧
        (run .leaveDeadlineExpiry s).isu.itt.at 3 = none) := by
  refine ⟨busyStation_completionLaws, ?_, ?_⟩ <;> decide

/-- LeaveDeadlineExpiry marks a request that is being received, whose delivery is then answered NOT_OWNER (R138). -/
theorem test_leave_deadline_marks :
    let s := run .leave { decidedRead .deliver false false with lpu := { Lpu.reset with setup := setup } }
    let t := run .leaveDeadlineExpiry s
    t.tif.rx = some ⟨.accept inboundMessage (some .deliver), 2, false, true, none⟩ ∧
    (run (.requestReceived 2 9 (.read 0x1000 2) (.endOfTrailer silent)) t).isu.sq = [⟨0, 2, 9, .fail 3⟩] := by decide

/-! ### Lookups, the Fault List, the miss counters, the frame -/

/-- RouteAndOwnership, at the ends of a window and of the address space (R78, R79). -/
theorem test_route_and_ownership :
    let top : List MapEntry := [⟨0xFFFFF000, 0, false, 1⟩]
    let s := { holder .joined with wmu := { (holder .joined).wmu with map := top } }
    let held := { s with lpu := { s.lpu with setup := ⟨⟨[⟨0xFFFFF000, 0x40000000⟩, ⟨0, 0⟩, ⟨0, 0⟩, ⟨0, 0⟩], rfl⟩, 0x803⟩ } }
    routeLookup twoWindows 1 0x5FFC 1 = .owner 2 ∧ routeLookup twoWindows 1 0x5FFC 2 = .none ∧
    routeLookup top 1 0xFFFFFFFC 1 = .self ∧ routeLookup top 1 0xFFFFFFFC 2 = .none ∧
    s.ownership (.read 0xFFFFFFFC 1) = .notOwner ∧ held.ownership (.read 0xFFFFFFFC 1) = .serve ∧
    held.ownership (.cwrite 0xFFFFFFFC [0]) = .readOnly ∧ held.ownership (.read 0xFFFFFFFC 2) = .notOwner := by decide

theorem test_route_laws : MapLaws twoWindows ∧ MapLaws [⟨0xFFFFF000, 0, false, 1⟩] :=
  ⟨mapLaws_twoWindows, ⟨by decide, by decide, by decide, by decide⟩⟩

/-- FaultListOverflow (R166). -/
theorem test_fault_list :
    let note : FaultRecord := ⟨.postedDropped, none, none, none, false⟩
    let fatal : FaultRecord := ⟨.collision, some 1, none, none, false⟩
    let older := List.replicate 7 note
    older.length = 7 ∧ addFault note older = List.replicate 8 note ∧
    addFault fatal (older ++ [note]) = older ++ [{ fatal with overflow := true }] ∧
    addFault note (older ++ [note]) = older ++ [{ note with overflow := true }] ∧
    addFault fatal (older ++ [fatal]) = older ++ [{ fatal with overflow := true }] := by decide

/-- MissCounterReachesThree: the second and the third miss (R89, R90). -/
theorem test_miss_counter :
    let s (n : Nat) := sending .rqHead writeMessage { holder .joined with
      ore := writeHead 0 Counts.zero, mc := { (station .joined).mc with miss := (Bank.all 5 0).put 2 n } }
    (writeMessage.dest ≠ 31 ∧ (s 2).mc.peers.has 2 = true) ∧
    (run (.requestFrameOutcome (.endOfTrailer silent)) (s 1)).mc.miss.at 2 = 2 ∧
      (run (.requestFrameOutcome (.endOfTrailer silent)) (s 1)).mc.evicts = [] ∧
    (run (.requestFrameOutcome (.endOfTrailer silent)) (s 2)).mc.miss.at 2 = 0 ∧
    (run (.requestFrameOutcome (.endOfTrailer silent)) (s 2)).mc.evicts = [⟨2, Counts.zero⟩] := by decide

/-- FrameReadsBack: a frame of one word and of the 17 words that are the most a frame carries. -/
theorem test_frame_reads_back :
    let f : Frame := ⟨2, 1, 1, 2, 10, 0, 2, [0x4010, 4]⟩
    f.count.toNat = f.body.length ∧ Frame.read (f.bits ++ [true, false]) = some (f, f.check) := by decide +kernel

/-- The check of nine ASCII digits of this generator, FFFFh at the start and no reflection, is 29B1h. -/
theorem test_crc : crc16 ((List.range 9).flatMap (fun i => bitsOf (BitVec.ofNat 8 (0x31 + i)))) = 0x29B1 := by decide +kernel

/-! ### The laws -/

theorem test_laws_witness : MapLaws State.reset.wmu.map ∧ CompletionLaws State.reset.ore ∧ ResponseLaws State.reset.isu ∧
    InboundLaws State.reset.tif State.reset.isu ∧ MembershipLaws State.reset.mc :=
  ⟨MapLaws.nil, reset_completionLaws, ResponseLaws.of_empty rfl (by decide),
    ⟨by decide, by decide, fun _ _ h => (nomatch h), fun _ _ _ _ h => (nomatch h)⟩,
    membershipLaws_of (by decide) (by decide) (by decide) (by decide) (by decide)⟩

theorem test_control_laws_witness : ControlLaws (busy .join (station .listen)) :=
  ⟨fun _ => by decide, by decide, fun _ h => (nomatch h), fun h => (nomatch h), by decide, fun h => (nomatch h),
    fun h => (nomatch h), fun h => (nomatch h), fun _ h => (nomatch h), fun h => (nomatch h), fun _ h => (nomatch h),
    fun h => (nomatch h), fun _ _ _ h => (nomatch h), fun h => (nomatch h), fun _ h => (nomatch h), fun h => (nomatch h),
    fun h => (nomatch h), fun h => (nomatch h)⟩

/-- A station in SYNCING that expects stations 2 and 3. -/
def syncingHolder : State :=
  let s := busy .join (holder .syncing)
  { s with mc := { s.mc with expected := 0xC, settle := some 16000000 } }

/-- MapLawsKept: the premises of the owners' clause, and every owner a peer before and after a CLAIM of a station that SYNCING does
not know yet (R53, R65). -/
theorem test_owners_present_witness : MembershipLaws syncingHolder.mc ∧ ControlLaws syncingHolder ∧
    syncingHolder.ownersPresent ∧ (run (.claimReceived 4 0xA000 0 (.whole silent)) syncingHolder).ownersPresent ∧
    (run (.claimReceived 4 0xA000 0 (.whole silent)) syncingHolder).wmu.map.length = 3 := by
  refine ⟨membershipLaws_of (by decide) (by decide) (by decide) (by decide) (by decide),
    ⟨fun _ => by decide, by decide, fun _ h => (nomatch h), fun h => (nomatch h), by decide, fun _ => rfl,
      fun h => (nomatch h), fun h => (nomatch h), fun _ h => (nomatch h), fun h => (nomatch h), fun _ h => (nomatch h),
      fun h => (nomatch h), fun _ _ _ h => (nomatch h), fun h => (nomatch h), fun _ h => (nomatch h),
      fun h => (nomatch h), fun h => (nomatch h), fun h => (nomatch h)⟩, ?_⟩
  unfold State.ownersPresent
  decide

end Sys2Proof.Tests
end

section
/-! PROOF. Every step keeps the control laws: what each block contributes to them, and what each operation leaves of them. -/

namespace Sys2Proof.Machine

/-! ### What the laws read of each block -/

/-- The fields of the MC that the control laws read. -/
def Mc.controls (m : Mc) : Station × StationState × Timer × Timer × Option Counts :=
  (m.sid, m.state, m.settle, m.deadline, m.bye)

/-- The laws do not read the WMU. -/
theorem ControlLaws.with_wmu {s : State} (h : ControlLaws s) (w : Wmu) : ControlLaws { s with wmu := w } := { h with }

/-- The laws read the command in progress alone of the LPU. -/
theorem ControlLaws.with_lpu {s : State} (h : ControlLaws s) {l : Lpu} (hr : l.running = s.lpu.running) :
    ControlLaws { s with lpu := l } :=
  { h with
    command := by simpa [hr] using h.command
    flushHeld := by simpa [hr] using h.flushHeld }

/-- The laws read five fields of the MC. -/
theorem ControlLaws.with_mc {s : State} (h : ControlLaws s) {m : Mc} (hm : m.controls = s.mc.controls) :
    ControlLaws { s with mc := m } := by
  simp only [Mc.controls, Prod.mk.injEq] at hm
  obtain ⟨hsid, hstate, hsettle, hdeadline, hbye⟩ := hm
  exact
    { strap := by simpa [hsid, hstate] using h.strap
      idle := h.idle
      flight := by simpa [hstate] using h.flight
      reception := by simpa [hstate] using h.reception
      command := by simpa [hstate] using h.command
      settle := by simpa [hsettle, hstate] using h.settle
      deadline := by simpa [hdeadline, hstate] using h.deadline
      bye := by simpa [hbye, hstate] using h.bye
      byeFlight := by simpa [hbye, hstate] using h.byeFlight
      holdoff := h.holdoff
      headFlight := h.headFlight
      collided := h.collided
      flushHeld := h.flushHeld
      spent := by simpa [hstate] using h.spent
      byeSpent := by simpa [hbye, hstate] using h.byeSpent
      detachWaits := by simpa [hbye, hstate] using h.detachWaits
      byeDrained := by simpa [hbye, hstate] using h.byeDrained
      detached := by simpa [hstate] using h.detached }

/-- A change of the ORE keeps the laws where a prepared head stays and an empty RQ stays empty. -/
theorem ControlLaws.with_ore {s : State} (h : ControlLaws s) {o : Ore}
    (hhead : s.ore.head.isSome = true → o.head = s.ore.head) (hrq : s.ore.rq = [] → o.rq = []) :
    ControlLaws { s with ore := o } :=
  { h with
    holdoff := fun hs => by
      obtain ⟨x, hx, hp⟩ := h.holdoff hs
      exact ⟨x, (hhead (by simp [hx])).trans hx, hp⟩
    headFlight := fun f hf hsrc hd => by
      obtain ⟨x, hx, hp⟩ := h.headFlight f hf hsrc hd
      exact ⟨x, (hhead (by simp [hx])).trans hx, hp⟩
    byeDrained := fun hl hb => hrq (h.byeDrained hl hb)
    detached := fun hd => ⟨hrq (h.detached hd).1, (h.detached hd).2⟩ }

/-- A change of the ISU keeps the laws where a station in DETACHED is left with no response and no live entry. -/
theorem ControlLaws.with_isu {s : State} (h : ControlLaws s) {i : Isu}
    (hi : s.mc.state = .detached → i.sq = [] ∧ ∀ k, i.itt.at k = none) : ControlLaws { s with isu := i } :=
  { h with detached := fun hd => ⟨(h.detached hd).1, hi hd⟩ }

/-- The queue of commands has no part in the laws. -/
theorem ControlLaws.with_pending {s : State} (h : ControlLaws s) (p : List Instr) :
    ControlLaws { s with pending := p } := { h with }

/-! ### What the laws say together -/

/-- A FLUSH fits JOINED alone. -/
theorem commandFits_flush {st : StationState} (h : commandFits st (some .flush) = true) : st = .joined := by
  cases st <;> simp_all [commandFits]

/-- In LISTEN, SYNCING and CLAIMING the JOIN is in progress. -/
theorem commandFits_joining {st : StationState} {c : Option Command} (h : commandFits st c = true)
    (hs : st = .listen ∨ st = .syncing ∨ st = .claiming) : c = some .join := by
  rcases hs with rfl | rfl | rfl <;> rcases c with - | - | - | - | - <;> simp_all [commandFits]

/-- In LEAVING a command in progress is the LEAVE. -/
theorem commandFits_leaving {c : Option Command} (h : commandFits .leaving c = true) : c = none ∨ c = some .leave := by
  rcases c with - | - | - | - | - <;> simp_all [commandFits]

/-- A FLUSH runs in JOINED alone. -/
theorem ControlLaws.joined_of_flush {s : State} (h : ControlLaws s) (hr : s.lpu.running = some .flush) :
    s.mc.state = .joined := commandFits_flush (hr ▸ h.command)

/-- A listening state is none of the others. -/
theorem StationState.of_listening {st : StationState} (h : st.isListening = true) :
    st ≠ .halted ∧ st ≠ .listen ∧ st ≠ .detached ∧ st ≠ .faulted := by
  cases st <;> simp_all [StationState.isListening, StationState.isMember]

/-- While a frame is in flight no abandoned one is owed anything. -/
theorem ControlLaws.spent_of_flight {s : State} (h : ControlLaws s) (hf : s.tif.flight ≠ none) : s.tif.spent = none := by
  by_contra hs
  exact hf (h.spent (Option.isSome_iff_ne_none.2 hs)).2.2.1

/-- With the receiver READY no abandoned frame is owed anything. -/
theorem ControlLaws.spent_of_ready {s : State} (h : ControlLaws s) (hr : s.tif.receiver = .ready) : s.tif.spent = none := by
  by_contra hs
  exact (h.spent (Option.isSome_iff_ne_none.2 hs)).2.2.2 hr

/-- Outside the listening states nothing is in flight, received or owed. -/
theorem ControlLaws.quiet_of_deaf {s : State} (h : ControlLaws s) (hl : s.mc.state.isListening = false) :
    s.tif.flight = none ∧ s.tif.rx = none ∧ s.tif.spent = none := by
  refine ⟨?_, ?_, ?_⟩ <;> by_contra hn
  · obtain ⟨f, hf⟩ := Option.ne_none_iff_exists'.1 hn
    exact absurd (h.flight f hf).1 (by simp [hl])
  · exact absurd (h.reception (Option.isSome_iff_ne_none.2 hn)).1 (by simp [hl])
  · exact absurd (h.spent (Option.isSome_iff_ne_none.2 hn)).1 (by simp [hl])

/-! ### Updates that the laws hardly read -/

/-- A request accepted is being received. -/
theorem Tif.acceptedRequest_of {t : Tif} {r : Reception} {m : Message} {p : ServicePlan} (hx : t.rx = some r)
    (hv : r.verdict = .accept m (some p)) : t.acceptedRequest = true := by simp [Tif.acceptedRequest, hx, hv]

/-- The end of a command in progress, written out. -/
theorem State.finish_of_running {s : State} {c : Command} (hr : s.lpu.running = some c) (r : CommandResult) :
    s.finish r = { s with lpu := { s.lpu with running := none, last := some ⟨c, r⟩, cmdDone := true } } := by
  simp [State.finish, hr]

/-- The end of a command changes the LPU alone. -/
theorem State.finish_eq (r : CommandResult) (s : State) : s.finish r = { s with lpu := (s.finish r).lpu } := by
  simp only [State.finish]; cases s.lpu.running <;> rfl

/-- A fault record keeps the laws. -/
theorem ControlLaws.fault {s : State} (h : ControlLaws s) (k : FaultKind) (a : Option Station) (b : Option (BitVec 5))
    (c : Option Word) : ControlLaws (s.fault k a b c) := h.with_lpu rfl

/-- The preparation of the head keeps the laws: a prepared head stays, and an empty RQ gives none. -/
theorem ControlLaws.prepareHead {s : State} (h : ControlLaws s) : ControlLaws s.prepareHead :=
  h.with_ore (fun hh => by rw [Ore.prepareHead_of_head _ _ _ hh])
    (fun hq => by rw [Ore.prepareHead_of_nil _ _ _ hq, hq])

/-- The leave test keeps the laws: the BYE flag it sets finds the RQ empty. -/
theorem ControlLaws.testLeave {s : State} (h : ControlLaws s) : ControlLaws s.testLeave := by
  rw [State.testLeave]
  split
  · rename_i hc
    obtain ⟨hl, hb, hc⟩ := hc
    have hrq : s.ore.rq = [] := by
      simp only [State.leaveCondition, Bool.and_eq_true, List.isEmpty_iff] at hc
      exact hc.1.1.1.1
    exact { h with
      bye := fun _ => Or.inl hl
      byeFlight := fun f hf hs => ⟨hl, rfl⟩
      byeSpent := fun c _ hc hv => by
        obtain rfl := Option.some.inj hc
        exact absurd hv (by decide)
      detachWaits := fun hs => ⟨hl, rfl⟩
      byeDrained := fun _ _ => hrq }
  · exact h

/-- The test of a FLUSH keeps the laws: a request that holds it is being received where the FLUSH goes on. -/
theorem ControlLaws.testFlush {s : State} (h : ControlLaws s) : ControlLaws s.testFlush := by
  rw [State.testFlush]
  split
  · rename_i hc
    obtain ⟨hr, _, ha⟩ := hc
    have hr : s.lpu.running = some .flush := by simpa [State.flushing] using hr
    rw [State.finish_of_running hr]
    exact { h with
      command := by
        have := h.joined_of_flush hr
        simp [this, commandFits]
      flushHeld := fun r m p hx hv _ => by
        rw [Tif.acceptedRequest_of hx hv] at ha
        cases ha }
  · exact h

/-- What follows where the head may have gone keeps the laws. -/
theorem ControlLaws.afterHead {s : State} (h : ControlLaws s) : ControlLaws s.afterHead := h.prepareHead.testLeave

/-- What follows where an SQ record may have gone keeps the laws. -/
theorem ControlLaws.afterResponse {s : State} (h : ControlLaws s) : ControlLaws s.afterResponse :=
  h.testLeave.testFlush

/-! ### Changes of state -/

/-- A move from a listening state other than LEAVING to a member state keeps the laws: no BYE is pending before it. -/
theorem ControlLaws.to_member {s : State} (h : ControlLaws s) (hs : s.mc.state.isListening = true)
    (hl : s.mc.state ≠ .leaving) {m : Mc} {l : Lpu} (hm : m.state.isMember = true) (hsid : m.sid = s.mc.sid)
    (hbye : m.bye = s.mc.bye) (hsettle : m.settle.isSome = true → m.state = .syncing)
    (hdeadline : m.deadline.isSome = true → m.state = .leaving) (hcmd : commandFits m.state l.running = true)
    (hflush : s.lpu.running ≠ some .flush) : ControlLaws { s with mc := m, lpu := l } := by
  have hlisten : m.state.isListening = true := StationState.listening_of_member hm
  obtain ⟨hhalted, -, hdetached, hfaulted⟩ := StationState.of_listening hs
  have hnobye : s.mc.bye = none := by
    by_contra hb
    rcases h.bye (Option.isSome_iff_ne_none.2 hb) with e | e
    · exact hl e
    · exact hfaulted e
  have hb : m.bye = none := hbye.trans hnobye
  exact
    { h with
      strap := fun _ => hsid ▸ h.strap hhalted
      flight := fun f hf => ⟨hlisten, (h.flight f hf).2⟩
      reception := fun hx => ⟨hlisten, (h.reception hx).2⟩
      command := hcmd
      settle := hsettle
      deadline := hdeadline
      bye := fun e => by simp [hb] at e
      byeFlight := fun f hf hsrc => absurd (h.byeFlight f hf hsrc).1 hl
      flushHeld := fun r m p hx hv hf => absurd (h.flushHeld r m p hx hv hf) hflush
      spent := fun e => ⟨hlisten, (h.spent e).2⟩
      byeSpent := fun c _ e _ => by simp [hb] at e
      detachWaits := fun e => absurd (h.detachWaits e).1 hl
      byeDrained := fun _ e => by simp [hb] at e
      detached := fun e => by simp [show m.state = .detached from e, StationState.isMember] at hm }

/-- The entry into LEAVING from a state before it, with the LEAVE in progress; the other fields of the MC may have changed. -/
theorem ControlLaws.enterLeaving {s : State} (h : ControlLaws s) (hs : s.mc.state.isListening = true)
    (hl : s.mc.state ≠ .leaving) (hflush : s.lpu.running ≠ some .flush) {m : Mc} {l : Lpu} (hsid : m.sid = s.mc.sid)
    (hbye : m.bye = s.mc.bye) (hr : l.running = some .leave) :
    ControlLaws (State.enterLeaving { s with mc := m, lpu := l }) :=
  have hmoved : ControlLaws { s with
      mc := { m with deadline := some (8 * State.timeout { s with lpu := l }), settle := none, sync := none,
                     state := .leaving }
      lpu := { l with stateChange := true } } :=
    h.to_member hs hl rfl hsid hbye (fun e => nomatch e) (fun _ => rfl) (by simp [hr, commandFits]) hflush
  (hmoved.with_wmu _).testLeave

/-- The entry into JOINED keeps the laws: in CLAIMING the command in progress is the JOIN it ends. -/
theorem ControlLaws.enterJoined {s : State} (h : ControlLaws s) : ControlLaws s.enterJoined := by
  rw [State.enterJoined]
  split
  · rename_i hs
    have hr : s.lpu.running = some .join := commandFits_joining h.command (by simp [hs])
    rw [if_pos (by exact hr), State.finish_of_running (by exact hr)]
    exact h.to_member (by simp [hs, StationState.isListening, StationState.isMember]) (by simp [hs]) rfl rfl rfl
      (fun e => absurd (h.settle e) (by simp [hs])) (fun e => absurd (h.deadline e) (by simp [hs])) rfl
      (by simp [hr])
  · exact h

/-- A claim refused before its offer keeps the laws. -/
theorem ControlLaws.refuseClaim {s : State} (h : ControlLaws s) (n : Slot) : ControlLaws (s.refuseClaim n) :=
  (h.with_wmu _).fault _ _ _ _

/-- Claiming keeps the laws. -/
theorem ControlLaws.claimFrom (l : List Slot) {s : State} (h : ControlLaws s) : ControlLaws (State.claimFrom l s) := by
  induction l generalizing s with
  | nil => exact h.enterJoined
  | cons n ns ih =>
    rw [State.claimFrom]
    split
    · split
      · exact h.with_wmu _
      · exact ih (h.refuseClaim n)
    · exact ih h

/-- The next claim taken in course keeps the laws. -/
theorem ControlLaws.nextClaim {s : State} (h : ControlLaws s) : ControlLaws s.nextClaim :=
  ControlLaws.claimFrom _ (h.with_wmu _)

/-- The repeated check of the CLAIM in course keeps the laws. -/
theorem ControlLaws.recheckClaim {s : State} (h : ControlLaws s) : ControlLaws s.recheckClaim := by
  rw [State.recheckClaim]
  split
  · exact h
  · split
    · exact (h.refuseClaim _).nextClaim
    · exact h

/-- The completion of sync keeps the laws of a station in SYNCING. -/
theorem ControlLaws.completeSync {s : State} (h : ControlLaws s) (hs : s.mc.state = .syncing) :
    ControlLaws s.completeSync :=
  have hmoved : ControlLaws (State.enter .claiming { s with mc := { s.mc with settle := none } }) :=
    have hr : s.lpu.running = some .join := commandFits_joining h.command (by simp [hs])
    h.to_member (by simp [hs, StationState.isListening, StationState.isMember]) (by simp [hs]) rfl rfl rfl
      (fun e => nomatch e) (fun e => absurd (h.deadline e) (by simp [hs])) (by simp [hr, commandFits]) (by simp [hr])
  hmoved.nextClaim.prepareHead

/-- The test of the sync keeps the laws. -/
theorem ControlLaws.testSync {s : State} (h : ControlLaws s) : ControlLaws s.testSync := by
  rw [State.testSync]
  split
  · rename_i hc
    exact h.completeSync hc.1
  · exact h

/-- Sync completed alone keeps the laws. -/
theorem ControlLaws.completeAlone {s : State} (h : ControlLaws s) (hs : s.mc.state = .syncing) :
    ControlLaws s.completeAlone :=
  ControlLaws.completeSync (ControlLaws.with_wmu
    (h.with_mc (m := { s.mc with peers := StationSet.single s.mc.sid, evicts := [] }) rfl) _) hs

/-- The entry into SYNCING keeps the laws of a station in SYNC_WAIT whose JOIN is in progress. -/
theorem ControlLaws.enterSyncing {s : State} (h : ControlLaws s) (hs : s.mc.state = .syncWait)
    (hr : s.lpu.running = some .join) : ControlLaws s.enterSyncing :=
  h.to_member (by simp [hs, StationState.isListening]) (by simp [hs]) rfl rfl rfl (fun _ => rfl)
    (fun e => absurd (h.deadline e) (by simp [hs])) (by simp [hr, commandFits]) (by simp [hr])

/-- The entry into FAULTED keeps the laws of a station that has left HALTED. -/
theorem ControlLaws.enterFaulted {s : State} (h : ControlLaws s) (hs : s.mc.state ≠ .halted) :
    ControlLaws s.enterFaulted := by
  rw [State.enterFaulted, State.finish_eq]
  exact
    { strap := fun _ => h.strap hs
      idle := h.idle
      flight := fun f hf => nomatch hf
      reception := fun e => nomatch e
      command := by simp [commandFits]
      settle := fun e => nomatch e
      deadline := fun e => nomatch e
      bye := fun _ => Or.inr rfl
      byeFlight := fun f hf => nomatch hf
      holdoff := fun e => nomatch e
      headFlight := fun f hf => nomatch hf
      collided := fun e => nomatch e
      flushHeld := fun r m p e => nomatch e
      spent := fun e => nomatch e
      byeSpent := fun c e => nomatch e
      detachWaits := fun e => nomatch e
      byeDrained := fun e => nomatch e
      detached := fun e => nomatch e }

/-- A FATAL fault keeps the laws of a station that has left HALTED. -/
theorem ControlLaws.fatal {s : State} (h : ControlLaws s) (hs : s.mc.state ≠ .halted) (k : FaultKind)
    (a : Option Station) : ControlLaws (s.fatal k a) := ControlLaws.enterFaulted (h.fault _ _ _ _) hs

/-- The entry into DETACHED keeps the laws of a station in LEAVING with its BYE set, with a TIF that sends nothing and owes
nothing. -/
theorem ControlLaws.enterDetached {s : State} (h : ControlLaws s) (hs : s.mc.state = .leaving)
    (hb : s.mc.bye.isSome = true) {x : Tif} (hi : x.idleCount ≤ Config.idleBits) (hf : x.flight = none)
    (hspent : x.spent = none) {l : Lpu} (hl : l.running = s.lpu.running) :
    ControlLaws (State.enterDetached { s with tif := x, lpu := l }) := by
  generalize hd : State.enterDetached { s with tif := x, lpu := l } = t
  have hrun : t.lpu.running = none := by
    rcases commandFits_leaving (hs ▸ h.command) with hr | hr
    all_goals simp [← hd, State.enterDetached, hl, hr]
  have heq : t =
      { State.enter .detached { s with
          tif := { x with rx := none, holdoff := none }
          mc := { s.mc with
            peers := StationSet.empty, miss := Bank.all 5 0, evicts := [], roster := none, bye := none, settle := none
            deadline := none }
          wmu := Wmu.reset
          ore := { s.ore with ort := s.ore.ort.map OrtEntry.release }
          isu := s.isu.dropService } with lpu := t.lpu } := by
    simp only [← hd, State.enterDetached]
    split
    · exact State.finish_eq _ _
    · rfl
  rw [heq]
  exact
    { strap := fun _ => h.strap (by simp [hs])
      idle := hi
      flight := fun f e => by simp [hf] at e
      reception := fun e => nomatch e
      command := by simp [hrun, commandFits]
      settle := fun e => nomatch e
      deadline := fun e => nomatch e
      bye := fun e => nomatch e
      byeFlight := fun f e => by simp [hf] at e
      holdoff := fun e => nomatch e
      headFlight := fun f e => by simp [hf] at e
      collided := fun _ r e => nomatch e
      flushHeld := fun r m p e => nomatch e
      spent := fun e => by simp [hspent] at e
      byeSpent := fun c e => nomatch e
      detachWaits := fun e => by simp [hspent] at e
      byeDrained := fun e => nomatch e
      detached := fun _ => ⟨h.byeDrained hs hb, s.isu.dropService_fields.1, s.isu.dropService_fields.2.1⟩ }

/-- The return to HALTED of a LEAVE before membership, whatever the LPU. -/
theorem ControlLaws.leaveToHalted {s : State} (h : ControlLaws s) (hs : s.mc.state = .listen ∨ s.mc.state = .syncWait)
    (l : Lpu) : ControlLaws (State.leaveToHalted { s with lpu := l }) := by
  have hrx : s.mc.state ≠ .syncing ∧ s.mc.state ≠ .leaving ∧ s.mc.state ≠ .faulted := by
    rcases hs with e | e <;> simp [e]
  rw [State.leaveToHalted, State.finish_eq]
  exact
    { strap := fun e => absurd rfl e
      idle := h.idle
      flight := fun f e => nomatch e
      reception := fun e => nomatch e
      command := by simp [commandFits]
      settle := fun e => absurd (h.settle e) hrx.1
      deadline := fun e => absurd (h.deadline e) hrx.2.1
      bye := fun e => absurd (h.bye e) (by simp [hrx])
      byeFlight := fun f e => nomatch e
      holdoff := h.holdoff
      headFlight := fun f e => nomatch e
      collided := fun e => nomatch e
      flushHeld := fun r m p e => nomatch e
      spent := fun e => nomatch e
      byeSpent := fun c e => nomatch e
      detachWaits := fun e => nomatch e
      byeDrained := fun e => nomatch e
      detached := fun e => nomatch e }

/-- A station at rest in HALTED meets the laws. -/
theorem ControlLaws.of_halted {s : State} (hs : s.mc.state = .halted) (hi : s.tif.idleCount ≤ Config.idleBits)
    (hf : s.tif.flight = none) (hx : s.tif.rx = none) (hspent : s.tif.spent = none) (hh : s.tif.holdoff = none)
    (hr : s.lpu.running = none) (hset : s.mc.settle = none) (hdl : s.mc.deadline = none) (hb : s.mc.bye = none) :
    ControlLaws s where
  strap e := absurd hs e
  idle := hi
  flight f e := by simp [hf] at e
  reception e := by simp [hx] at e
  command := by simp [hs, hr, commandFits]
  settle e := by simp [hset] at e
  deadline e := by simp [hdl] at e
  bye e := by simp [hb] at e
  byeFlight f e := by simp [hf] at e
  holdoff e := by simp [hh] at e
  headFlight f e := by simp [hf] at e
  collided _ r e := by simp [hx] at e
  flushHeld r m p e := by simp [hx] at e
  spent e := by simp [hspent] at e
  byeSpent c e := by simp [hs] at e
  detachWaits e := by simp [hspent] at e
  byeDrained e := by simp [hs] at e
  detached e := by simp [hs] at e

/-! ### The RQ head -/

/-- With nothing in flight a change of the head keeps the laws, where the holdoff runs for a head in HOLDOFF and an empty RQ
stays empty. -/
theorem ControlLaws.with_head {s : State} (h : ControlLaws s) (hf : s.tif.flight = none) {o : Ore} {x : Timer}
    (hrq : s.ore.rq = [] → o.rq = []) (hx : x.isSome = true → ∃ y, o.head = some y ∧ y.phase = .holdoff) :
    ControlLaws { s with ore := o, tif := { s.tif with holdoff := x } } :=
  { h with
    holdoff := hx
    headFlight := fun f e => by simp [hf] at e
    byeDrained := fun hl hb => hrq (h.byeDrained hl hb)
    detached := fun hd => ⟨hrq (h.detached hd).1, (h.detached hd).2⟩ }

/-- The RQ loses its head when that is completed. -/
theorem Ore.completeHead_rq (st : Status) (dest : Option Station) (o : Ore) :
    (o.completeHead st dest).rq = o.rq.tail := by
  rw [Ore.completeHead]
  cases hq : o.rq <;> simp [Ore.retireHead, hq]

/-- A head given up keeps the laws. -/
theorem ControlLaws.giveUpHead {s : State} (h : ControlLaws s) (hf : s.tif.flight = none) (st : Status) :
    ControlLaws (s.giveUpHead st) := by
  rw [State.giveUpHead]
  split
  · exact h
  · exact h.with_head hf (fun hq => by simp [Ore.completeHead_rq, hq]) (fun e => nomatch e)

/-- A head whose frame was TAKEN leaves, and the laws stand, as no holdoff runs. -/
theorem ControlLaws.headTaken {s : State} (h : ControlLaws s) (hf : s.tif.flight = none) (hh : s.tif.holdoff = none)
    (timeout : Nat) : ControlLaws { s with ore := s.ore.headTaken timeout } := by
  refine h.with_head hf (x := s.tif.holdoff) (fun hq => ?_) (fun e => by simp [hh] at e)
  rw [Ore.headTaken]
  split <;> simp [Ore.retireHead, hq]

/-- A REJECTED head keeps the laws: it goes to HOLDOFF with its timer, or is given up. -/
theorem ControlLaws.headRejected {s : State} (h : ControlLaws s) (hf : s.tif.flight = none) :
    ControlLaws s.headRejected := by
  rw [State.headRejected]
  split
  · exact h
  · split
    · exact h.with_head hf (fun hq => hq) (fun _ => ⟨_, rfl, rfl⟩)
    · exact (h.giveUpHead hf _).afterHead

/-- Changed counts keep the laws, where those of a BYE stay below the void limit. -/
theorem ControlLaws.withCounts {s : State} (h : ControlLaws s) {src : Source} {c : Counts}
    (hb : src = .bye → c.voids < Config.voidLimit) : ControlLaws (s.withCounts src c) := by
  cases src with
  | sqHead => exact h.with_isu (fun hd => (h.detached hd).2)
  | sync => exact h.with_mc rfl
  | roster => exact h.with_mc rfl
  | evict d => exact h.with_mc rfl
  | release n => exact h.with_wmu _
  | claim n => exact h.with_wmu _
  | rqHead =>
    exact { h with
      holdoff := fun e => by
        obtain ⟨x, hx, hp⟩ := h.holdoff e
        exact ⟨{ x with counts := c }, by simp [State.withCounts, hx], hp⟩
      headFlight := fun f hf hs hd => by
        obtain ⟨x, hx, hp⟩ := h.headFlight f hf hs hd
        exact ⟨{ x with counts := c }, by simp [State.withCounts, hx], hp⟩ }
  | bye =>
    have hsome : ∀ b : Option Counts, (b.map (fun _ => c)).isSome = b.isSome := fun b => by simp
    exact { h with
      bye := fun e => h.bye (by simpa [State.withCounts] using e)
      byeFlight := fun f hf hs => by simpa [State.withCounts] using h.byeFlight f hf hs
      byeSpent := fun k _ hk hv => by
        simp only [State.withCounts, Option.map_eq_some_iff] at hk
        obtain ⟨_, _, rfl⟩ := hk
        exact absurd (hb rfl) (Nat.not_lt.2 hv)
      detachWaits := fun e => by simpa [State.withCounts] using h.detachWaits e
      byeDrained := fun hl e => h.byeDrained hl (by simpa [State.withCounts] using e) }

/-! ### The end of an own frame -/

/-- An own frame that is in flight no more keeps the laws, whatever becomes of the receiver, of the collision count and of the
mark of a collision. -/
theorem ControlLaws.landed {s : State} (h : ControlLaws s) {f : Flight} (hf : s.tif.flight = some f) (p : RxPhase)
    (n : Nat) (b : Bool) :
    ControlLaws { s with tif := { s.tif with flight := none, receiver := p, collisions := n, collidedHere := b } } :=
  have hx : s.tif.rx = none := (h.flight f hf).2.2
  have hspent : s.tif.spent = none := h.spent_of_flight (by simp [hf])
  { h with
    flight := fun f e => nomatch e
    reception := fun e => by simp [hx] at e
    byeFlight := fun f e => nomatch e
    headFlight := fun f e => nomatch e
    collided := fun _ r e => by simp [hx] at e
    spent := fun e => by simp [hspent] at e }

/-- While nothing is owed a BYE has fewer than 8 voids. -/
theorem ControlLaws.bye_voids {s : State} (h : ControlLaws s) (hl : s.mc.state.isListening = true)
    (hspent : s.tif.spent = none) {c : Counts} (hc : s.mc.bye = some c) : c.voids < Config.voidLimit := by
  by_contra hv
  rcases h.bye (by simp [hc]) with e | e
  · have := h.byeSpent c e hc (Nat.not_lt.1 hv)
    simp [hspent] at this
  · exact (StationState.of_listening hl).2.2.2 e

/-- A BYE pending at a listening station is pending in LEAVING. -/
theorem ControlLaws.leaving_of_bye {s : State} (h : ControlLaws s) (hl : s.mc.state.isListening = true)
    (hb : s.mc.bye.isSome = true) : s.mc.state = .leaving :=
  (h.bye hb).resolve_right (StationState.of_listening hl).2.2.2

/-- A LOST frame keeps the laws. -/
theorem ControlLaws.lose {s : State} (h : ControlLaws s) {f : Flight} (hf : s.tif.flight = some f) :
    ControlLaws (s.lose f) := by
  have hl := (h.flight f hf).1
  have hspent : s.tif.spent = none := h.spent_of_flight (by simp [hf])
  have h₁ : ControlLaws { s with tif := { s.tif with flight := none, collisions := 0 } } :=
    h.landed hf s.tif.receiver 0 s.tif.collidedHere
  have hcounts : ∀ src c, s.countsOf src = some c →
      ControlLaws (State.withCounts src (c.lose s.lpu.setup.agingThreshold)
        { s with tif := { s.tif with flight := none, collisions := 0 } }) := by
    intro src c hc
    refine h₁.withCounts (fun e => ?_)
    subst e
    show c.voids < Config.voidLimit
    exact h.bye_voids hl hspent hc
  simp only [State.lose]
  split
  · exact h₁
  · split
    · split
      · rename_i hw
        simp only [State.leaveWaitsForSync, Bool.and_eq_true, beq_iff_eq] at hw
        exact h₁.leaveToHalted (Or.inr hw.1) _
      · split
        · exact h₁
        · next hc => exact hcounts _ _ hc
    · split
      · exact h₁.with_wmu _
      · split
        · exact h₁
        · next hc => exact hcounts _ _ hc
    · split
      · exact h₁
      · next hc => exact hcounts _ _ hc

/-- An abandoned frame keeps the laws of a listening station that sends nothing and owes nothing. -/
theorem ControlLaws.abandon {s : State} (h : ControlLaws s) (hl : s.mc.state.isListening = true)
    (hf : s.tif.flight = none) (hspent : s.tif.spent = none) {src : Source}
    (hb : src = .bye → s.mc.bye.isSome = true) : ControlLaws (s.abandon src) := by
  cases src with
  | sqHead =>
    simp only [State.abandon]
    split
    · exact h
    · exact ((h.with_isu (fun e => absurd e (StationState.of_listening hl).2.2.1)).fault _ _ _ _).afterResponse
  | sync => exact h.fatal (StationState.of_listening hl).1 _ _
  | bye => exact h.enterDetached (h.leaving_of_bye hl (hb rfl)) (hb rfl) h.idle hf hspent rfl
  | roster => exact (h.with_mc (m := { s.mc with roster := none }) rfl).fault _ _ _ _
  | evict d => exact (h.with_mc (m := { s.mc with evicts := dropEvict d s.mc.evicts }) rfl).fault _ _ _ _
  | release n => exact (h.with_wmu _).fault _ _ _ _
  | claim n =>
    simp only [State.abandon]
    split
    · exact (h.with_wmu _).fault _ _ _ _
    · exact ((h.with_wmu _).fault _ _ _ _).nextClaim
  | rqHead => exact (h.giveUpHead hf _).afterHead

/-- A voided frame keeps the laws of a listening station that sends nothing and owes nothing. -/
theorem ControlLaws.voidFrame {s : State} (h : ControlLaws s) (hl : s.mc.state.isListening = true)
    (hf : s.tif.flight = none) (hspent : s.tif.spent = none) (src : Source) : ControlLaws (s.voidFrame src) := by
  rw [State.voidFrame]
  split
  · exact h
  · rename_i c hc
    split
    · next hv => exact h.withCounts (fun _ => hv)
    · exact h.abandon hl hf hspent (fun e => by subst e; exact Option.isSome_iff_exists.2 ⟨c, hc⟩)

/-! ### Collisions -/

/-- What an abandoned frame is owed, other than the entry into DETACHED, keeps the laws on the frame it collided on. -/
theorem ControlLaws.owing {s : State} (h : ControlLaws s) (hl : s.mc.state.isListening = true)
    (hf : s.tif.flight = none) (hspent : s.tif.spent = none) (hc : s.tif.collidedHere = true)
    (hr : s.tif.receiver ≠ .ready) {a : Aftermath} (ha : a ≠ .detach) (faults : List FaultRecord) :
    ControlLaws (s.owing faults a) :=
  { h.with_lpu (l := { s.lpu with faults := faults }) rfl with
    spent := fun _ => ⟨hl, hc, hf, hr⟩
    byeSpent := fun _ _ hb hv => absurd (h.bye_voids hl hspent hb) (Nat.not_lt.2 hv)
    detachWaits := fun e => absurd (Option.some.inj e) ha }

/-- The frames whose fault records wait for the end of the frame on the trunk. -/
def Source.abandonedAtBit : Source → Bool
  | .sync | .bye | .rqHead => false
  | _ => true

/-- Claiming keeps the state, but that it takes a station from CLAIMING to JOINED. -/
theorem State.claimFrom_state (l : List Slot) (s : State) :
    (State.claimFrom l s).mc.state = s.mc.state ∨
    (s.mc.state = .claiming ∧ (State.claimFrom l s).mc.state = .joined) := by
  induction l generalizing s with
  | nil =>
    by_cases hs : s.mc.state = .claiming
    · exact Or.inr ⟨hs, by simp [State.claimFrom, hs]⟩
    · exact Or.inl (by simp [State.claimFrom, hs])
  | cons n ns ih =>
    rw [State.claimFrom]
    split
    · split
      · exact Or.inl rfl
      · exact ih (s.refuseClaim n)
    · exact ih s

/-- A listening station still listens when the next claim has been taken in course. -/
theorem State.nextClaim_listening {s : State} (hl : s.mc.state.isListening = true) :
    s.nextClaim.mc.state.isListening = true := by
  rcases State.claimFrom_state (Bank.indices 2) { s with wmu := { s.wmu with claim := none } } with e | ⟨_, e⟩
  · rw [State.nextClaim, e]; exact hl
  · rw [State.nextClaim, e]; rfl

/-- The abandonment of such a frame leaves the TIF, and a listening station listening. -/
theorem State.abandon_listening {s : State} {src : Source} (hs : src.abandonedAtBit = true)
    (hl : s.mc.state.isListening = true) :
    (s.abandon src).tif = s.tif ∧ (s.abandon src).mc.state.isListening = true := by
  cases src with
  | sqHead =>
    simp only [State.abandon]
    split
    · exact ⟨rfl, hl⟩
    · obtain ⟨b, hb⟩ := State.afterResponse_mc
        (State.fault .voidLimit (some _) (some _) none { s with isu := s.isu.popSq })
      exact ⟨by simp, by rw [hb]; exact hl⟩
  | roster | evict d | release n => exact ⟨rfl, hl⟩
  | claim n =>
    simp only [State.abandon]
    split
    · exact ⟨rfl, hl⟩
    · exact ⟨(State.nextClaim_frame _).2.1, State.nextClaim_listening hl⟩
  | sync | bye | rqHead => cases hs

/-- An eighth void by COLLIDED keeps the laws. -/
theorem ControlLaws.collideLimit {s : State} (h : ControlLaws s) (hl : s.mc.state.isListening = true)
    (hf : s.tif.flight = none) (hspent : s.tif.spent = none) (hc : s.tif.collidedHere = true)
    (hr : s.tif.receiver ≠ .ready) {src : Source} (hb : src = .bye → s.mc.bye.isSome = true) (c : Counts) :
    ControlLaws (s.collideLimit src c) := by
  have hbit : src.abandonedAtBit = true → ControlLaws (s.abandonAtBit src) := by
    intro hs
    obtain ⟨htif, hl'⟩ := State.abandon_listening (s := { s with lpu := { s.lpu with faults := [] } }) hs hl
    have hne : src ≠ .bye := by rintro rfl; cases hs
    exact ((h.with_lpu (l := { s.lpu with faults := [] }) rfl).abandon hl hf hspent (fun e => absurd e hne)).owing hl'
      (by rw [htif]; exact hf) (by rw [htif]; exact hspent) (by rw [htif]; exact hc) (by rw [htif]; exact hr)
      (a := .faults _) nofun _
  cases src with
  | sync => exact (h.owing hl hf hspent hc hr (a := .syncIncomplete) nofun s.lpu.faults).withCounts (src := .sync) nofun
  | bye =>
    have hb' : (s.mc.bye.map (fun _ => c)).isSome = true := by simpa using hb rfl
    have hleave := h.leaving_of_bye hl (hb rfl)
    exact { h with
      bye := fun _ => Or.inl hleave
      byeFlight := fun f e => nomatch hf.symm.trans e
      spent := fun _ => ⟨hl, hc, hf, hr⟩
      byeSpent := fun _ _ _ _ => rfl
      detachWaits := fun _ => ⟨hleave, hb'⟩
      byeDrained := fun _ _ => h.byeDrained hleave (hb rfl) }
  | rqHead => exact h.abandon hl hf hspent (src := .rqHead) nofun
  | sqHead | roster | evict d | release n | claim n => exact hbit rfl

/-- A COLLIDED frame whose void count rises keeps the laws. -/
theorem ControlLaws.collideVoid {s : State} (h : ControlLaws s) (hl : s.mc.state.isListening = true)
    (hf : s.tif.flight = none) (hspent : s.tif.spent = none) (hc : s.tif.collidedHere = true)
    (hr : s.tif.receiver ≠ .ready) (src : Source) : ControlLaws (s.collideVoid src) := by
  rw [State.collideVoid]
  split
  · exact h
  · rename_i c hcounts
    split
    · next hv => exact h.withCounts (fun _ => hv)
    · exact h.collideLimit hl hf hspent hc hr (fun e => by subst e; exact Option.isSome_iff_exists.2 ⟨c, hcounts⟩) _

/-- A COLLIDED frame keeps the laws. -/
theorem ControlLaws.collide {s : State} (h : ControlLaws s) {f : Flight} (hf : s.tif.flight = some f) :
    ControlLaws (s.collide f) := by
  obtain ⟨hl, hp, -⟩ := h.flight f hf
  have hspent : s.tif.spent = none := h.spent_of_flight (by simp [hf])
  have hr : s.tif.receiver ≠ .ready := by rcases hp with e | e <;> simp [e]
  have h₁ : ControlLaws { s with tif := { s.tif with
      flight := none, collisions := s.tif.collisions + 1, collidedHere := true } } :=
    h.landed hf s.tif.receiver _ true
  have hvoid := h₁.collideVoid hl rfl hspent rfl hr
  simp only [State.collide]
  split
  · exact h₁.fatal (StationState.of_listening hl).1 _ _
  · split
    · exact h₁
    · split
      · split
        · rename_i hw
          simp only [State.leaveWaitsForSync, Bool.and_eq_true, beq_iff_eq] at hw
          exact h₁.leaveToHalted (Or.inr hw.1) _
        · exact hvoid _
      · split
        · exact h₁.with_wmu _
        · exact hvoid _
      · exact hvoid _

/-! ### Outcomes of own frames -/

/-- In SYNC_WAIT the JOIN is in progress, where it is not the LEAVE. -/
theorem commandFits_syncWait {c : Option Command} (h : commandFits .syncWait c = true) (hc : c ≠ some .leave) :
    c = some .join := by
  rcases c with - | - | - | - | - <;> simp_all [commandFits]

/-- The own SYNC TAKEN keeps the laws, with the JOIN in progress in SYNC_WAIT. -/
theorem ControlLaws.syncTaken {s : State} (h : ControlLaws s)
    (hr : s.mc.state = .syncWait → s.lpu.running = some .join) (accept : Bool) : ControlLaws (s.syncTaken accept) := by
  have hcleared : ControlLaws { s with mc := { s.mc with sync := none } } := h.with_mc rfl
  rw [State.syncTaken]
  split
  · next hs =>
    split
    · exact h.enterSyncing hs (hr hs)
    · exact (h.enterSyncing hs (hr hs)).completeAlone rfl
  · next hs =>
    split
    · exact { hcleared with settle := fun _ => hs }
    · exact hcleared.completeAlone hs
  · exact hcleared

/-- The outcome of the own SYNC keeps the laws. -/
theorem ControlLaws.syncEnds {s : State} (h : ControlLaws s) (hl : s.mc.state.isListening = true)
    (hf : s.tif.flight = none) (hspent : s.tif.spent = none) (accept : Bool) (o : Outcome) :
    ControlLaws (s.syncEnds accept o) := by
  unfold State.syncEnds
  split
  · rename_i hw
    simp only [State.leaveWaitsForSync, Bool.and_eq_true, beq_iff_eq] at hw
    rw [State.waitedSyncEnds]
    split
    · exact h.enterLeaving hl (by simp [hw.1]) (by simp [hw.2]) rfl rfl (by exact hw.2)
    · exact h.leaveToHalted (Or.inr hw.1) s.lpu
  · rename_i hw
    simp only [State.leaveWaitsForSync, Bool.and_eq_true, beq_iff_eq, not_and] at hw
    cases o with
    | rejected => exact h.fatal (StationState.of_listening hl).1 _ _
    | taken => exact h.syncTaken (fun hs => commandFits_syncWait (hs ▸ h.command) (hw hs)) accept
    | lost | collided | voided | unanswered => exact h.voidFrame hl hf hspent _

/-- The outcome of the own ROSTER keeps the laws. -/
theorem ControlLaws.rosterEnds {s : State} (h : ControlLaws s) (hl : s.mc.state.isListening = true)
    (hf : s.tif.flight = none) (hspent : s.tif.spent = none) (o : Outcome) : ControlLaws (s.rosterEnds o) := by
  cases o with
  | taken => exact h.with_mc rfl
  | voided => exact h.voidFrame hl hf hspent _
  | lost | collided | rejected | unanswered => exact h

/-- The outcome of the own CLAIM keeps the laws. -/
theorem ControlLaws.claimEnds {s : State} (h : ControlLaws s) (hl : s.mc.state.isListening = true)
    (hf : s.tif.flight = none) (hspent : s.tif.spent = none) (n : Slot) (o : Outcome) :
    ControlLaws (s.claimEnds n o) := by
  simp only [State.claimEnds]
  split
  · split
    · exact h.with_wmu _
    · exact (h.with_wmu _).refuseClaim n
    · split
      · exact h.with_wmu _
      · exact h.abandon hl hf hspent (src := .claim n) nofun
  · split
    · exact (h.with_wmu _).nextClaim
    · exact (h.refuseClaim n).nextClaim
    · exact h.voidFrame hl hf hspent _

/-- The outcome of the own RELEASE keeps the laws. -/
theorem ControlLaws.releaseEnds {s : State} (h : ControlLaws s) (hl : s.mc.state.isListening = true)
    (hf : s.tif.flight = none) (hspent : s.tif.spent = none) (n : Slot) (f : Flight) (o : Outcome) :
    ControlLaws (s.releaseEnds n f o) := by
  cases o with
  | taken =>
    simp only [State.releaseEnds]
    split
    · exact h.with_wmu _
    · exact (h.with_wmu _).testLeave
  | voided =>
    simp only [State.releaseEnds]
    split
    · exact h
    · exact h.voidFrame hl hf hspent _
  | lost | collided | rejected | unanswered => exact h

/-- The cleanup of a departure keeps the laws of a station that sends nothing. -/
theorem ControlLaws.cleaned {s : State} (h : ControlLaws s) (hf : s.tif.flight = none) (d : Station)
    (cause : DepartureCause) : ControlLaws (s.cleaned d cause) := by
  have hhead : (s.ore.departure d s.timeout).head.isSome = true → (s.ore.departure d s.timeout).head = s.ore.head := by
    simp only [Ore.departure]
    split
    · split
      · rw [Ore.completeHead]
        split
        · intro _; rfl
        · intro e; cases e
      · intro _; rfl
    · intro _; rfl
  have hrq : s.ore.rq = [] → (s.ore.departure d s.timeout).rq = [] := by
    intro hq
    simp only [Ore.departure]
    split
    · split
      · simp [Ore.completeHead_rq, hq]
      · exact hq
    · exact hq
  have hmc : (s.mc.departure d cause).controls = s.mc.controls := by rw [Mc.departure_eq]; rfl
  have hisu : s.mc.state = .detached → (s.isu.departure d).sq = [] ∧ ∀ k, (s.isu.departure d).itt.at k = none := by
    intro e
    obtain ⟨-, hsq, hitt⟩ := h.detached e
    exact ⟨by simp [Isu.departure, hsq], fun k => by simp [Isu.departure, hitt, departEntry]⟩
  have h₁ := (((h.with_isu hisu).with_wmu { s.wmu with map := removeOwner d s.wmu.map }).with_head hf
    (o := s.ore.departure d s.timeout)
    (x := if (s.ore.departure d s.timeout).head.isSome then s.tif.holdoff else none) hrq (fun e => by
      split at e
      · next hh => rw [hhead hh]; exact h.holdoff e
      · cases e)).with_mc hmc
  simp only [State.cleaned]
  split
  · exact h₁.fault _ _ _ _
  · exact h₁

/-- The departure of a station keeps the laws of a station that sends nothing. -/
theorem ControlLaws.departure {s : State} (h : ControlLaws s) (hf : s.tif.flight = none) (d : Station)
    (cause : DepartureCause) : ControlLaws (s.departure d cause) := by
  rw [State.departure]
  split
  · exact h
  · exact (h.cleaned hf d cause).testSync.afterHead.testFlush

/-- The outcome of the own EVICT keeps the laws. -/
theorem ControlLaws.evictEnds {s : State} (h : ControlLaws s) (hl : s.mc.state.isListening = true)
    (hf : s.tif.flight = none) (hspent : s.tif.spent = none) (d : Station) (o : Outcome) :
    ControlLaws (s.evictEnds d o) := by
  cases o with
  | taken => exact h.departure hf _ _
  | rejected => exact h.with_mc rfl
  | voided => exact h.voidFrame hl hf hspent _
  | lost | collided | unanswered => exact h

/-- The outcome of the own BYE keeps the laws. -/
theorem ControlLaws.byeEnds {s : State} (h : ControlLaws s) (hl : s.mc.state.isListening = true)
    (hf : s.tif.flight = none) (hspent : s.tif.spent = none) (hb : s.mc.bye.isSome = true) (o : Outcome) :
    ControlLaws (s.byeEnds o) := by
  cases o with
  | taken => exact h.enterDetached (h.leaving_of_bye hl hb) hb h.idle hf hspent rfl
  | voided => exact h.voidFrame hl hf hspent _
  | lost | collided | rejected | unanswered => exact h

/-- The report of an outcome to the miss counters has no part in the laws. -/
@[simp] theorem Mc.reportOutcome_controls (p : Station) (o : Outcome) (m : Mc) :
    (m.reportOutcome p o).controls = m.controls := by simp [Mc.controls]

/-- The outcome of the RQ head's frame keeps the laws, as no holdoff runs while the head is not discarded. -/
theorem ControlLaws.requestEnds {s : State} (h : ControlLaws s) (hl : s.mc.state.isListening = true)
    (hf : s.tif.flight = none) (hspent : s.tif.spent = none) {f : Flight}
    (hh : f.discarded = false → s.tif.holdoff = none) (o : Outcome) : ControlLaws (s.requestEnds f o) := by
  have h₁ : ControlLaws { s with mc := s.mc.reportOutcome f.frame.dest o } := h.with_mc (by simp)
  simp only [State.requestEnds]
  split
  · exact h₁
  · rename_i hd
    split
    · exact (h₁.headTaken hf (hh (by simpa using hd)) _).afterHead
    · exact h₁.headRejected hf
    · exact (h₁.giveUpHead hf _).afterHead
    · exact h₁.voidFrame (by simpa using hl) hf hspent _

/-- The outcome of the SQ head's frame keeps the laws. -/
theorem ControlLaws.responseEnds {s : State} (h : ControlLaws s) (hl : s.mc.state.isListening = true)
    (hf : s.tif.flight = none) (hspent : s.tif.spent = none) (f : Flight) (o : Outcome) :
    ControlLaws (s.responseEnds f o) := by
  have h₁ : ControlLaws { s with mc := s.mc.reportOutcome f.frame.dest o } := h.with_mc (by simp)
  have hpop : ControlLaws { s with mc := s.mc.reportOutcome f.frame.dest o, isu := s.isu.popSq } :=
    h₁.with_isu (fun e => absurd (by simpa using e) (StationState.of_listening hl).2.2.1)
  simp only [State.responseEnds]
  split
  · exact h₁
  · split
    · exact hpop.afterResponse
    · exact hpop.afterResponse
    · exact h₁.voidFrame (by simpa using hl) hf hspent _

/-- The last check bit of an own frame keeps the laws. -/
theorem ControlLaws.ownLastCheckBit {s : State} (h : ControlLaws s) (src : Source → Bool) :
    ControlLaws (s.ownLastCheckBit src) := by
  rw [State.ownLastCheckBit]
  split
  · rename_i hc
    obtain ⟨hr, hany⟩ := hc
    exact { h with
      flight := fun f hf => ⟨(h.flight f hf).1, Or.inr rfl, (h.flight f hf).2.2⟩
      reception := fun e => ⟨(h.reception e).1, rfl⟩
      spent := fun e => ⟨(h.spent e).1, (h.spent e).2.1, (h.spent e).2.2.1, nofun⟩ }
  · exact h

/-- A moment of an own frame keeps the laws where its outcome does, at a listening station that sends nothing more and owes
nothing. -/
theorem ControlLaws.ownFrame {s : State} (h : ControlLaws s) (src : Source → Bool) (moment : TxMoment)
    {ends : Slots → Flight → Outcome → State → State}
    (hends : ∀ f levels o, s.tif.flight = some f → src f.source = true → ControlLaws s.endFlight →
      s.endFlight.mc.state.isListening = true → s.endFlight.tif.flight = none → s.endFlight.tif.spent = none →
      ControlLaws (ends levels f o s.endFlight)) : ControlLaws (s.ownFrame src moment ends) := by
  cases moment with
  | lastCheckBit => exact h.ownLastCheckBit src
  | endOfTrailer levels =>
    simp only [State.ownFrame, State.atTrailer]
    split
    · exact h
    · rename_i f hf
      split
      · next hs =>
        exact hends f levels _ hf hs (h.landed hf _ _ s.tif.collidedHere) (h.flight f hf).1 rfl
          (h.spent_of_flight (by simp [hf]))
      · exact h

/-! ### What is received -/

/-- A ROSTER's pairs merged keep the laws. -/
theorem ControlLaws.mergePairs {s : State} (h : ControlLaws s) (d : Station) (ps : List (Word × Word)) :
    ControlLaws (mergePairs d ps s) := by
  induction ps generalizing s with
  | nil => exact h
  | cons p ps ih =>
    refine ih (s := mergePair d s p) ?_
    simp only [mergePair]
    split
    · exact h
    · split
      · exact h.fault _ _ _ _
      · exact h.with_wmu _

/-- A taken ROSTER keeps the laws. -/
theorem ControlLaws.applyRoster {s : State} (h : ControlLaws s) (src : Station) (w : Word) (ps : List (Word × Word)) :
    ControlLaws (s.applyRoster src w ps) := by
  rw [State.applyRoster]
  split
  · next hs =>
    have hnoted : ControlLaws (s.noteRoster src w) :=
      { h.with_mc (m := { (s.noteRoster src w).mc with settle := s.mc.settle }) rfl with settle := fun _ => hs }
    exact (hnoted.mergePairs src ps).testSync
  · exact h

/-- A taken CLAIM keeps the laws. -/
theorem ControlLaws.applyClaim {s : State} (h : ControlLaws s) (src : Station) (b d : Word) :
    ControlLaws (s.applyClaim src b d) := by
  have hmc : (s.mc.noteClaimant src).controls = s.mc.controls := by
    rw [Mc.noteClaimant]; split <;> rfl
  exact ((h.with_mc hmc).with_wmu _).testSync.recheckClaim

/-- A taken request keeps the laws of a member. -/
theorem ControlLaws.applyRequest {s : State} (h : ControlLaws s) (hm : s.mc.state.isMember = true) (m : Message)
    (b : RequestBody) (p : ServicePlan) : ControlLaws (s.applyRequest m b p) := by
  have hd : s.mc.state ≠ .detached := (StationState.of_listening (StationState.listening_of_member hm)).2.2.1
  refine ControlLaws.testFlush ?_
  cases p with
  | deliver | answer st => exact h.with_isu (fun e => absurd e hd)
  | drop => exact h.fault _ _ _ _

/-- A taken response keeps the laws. -/
theorem ControlLaws.applyResponse {s : State} (h : ControlLaws s) (src : Station) (tag : Tag) (b : ResponseBody) :
    ControlLaws (s.applyResponse src tag b) := by
  rw [State.applyResponse]
  split
  · exact ControlLaws.afterHead (h.with_ore (fun _ => rfl) (fun e => e))
  · exact h.fault _ _ _ _

/-- What a member applies from a taken frame keeps the laws. -/
theorem ControlLaws.applyAccepted {s : State} (h : ControlLaws s) (hf : s.tif.flight = none)
    (hm : s.mc.state.isMember = true) (r : Reception) (m : Message) (p : Option ServicePlan) :
    ControlLaws (s.applyAccepted r m p) := by
  rw [State.applyAccepted]
  split
  · exact h.departure hf _ _
  · exact h.applyRoster _ _ _
  · exact h.applyClaim _ _ _
  · exact h.with_wmu _
  · exact h.departure hf _ _
  · exact h.departure hf _ _
  · split
    · exact h.applyRequest hm _ _ _
    · exact h
  · exact h.applyResponse _ _ _
  · have hd : s.mc.state ≠ .detached := (StationState.of_listening (StationState.listening_of_member hm)).2.2.1
    exact h.with_isu (fun e => absurd e hd)

/-- The end of a trailer keeps the laws, where a frame is taken by members alone. -/
theorem ControlLaws.applyVerdict {s : State} (h : ControlLaws s) (hf : s.tif.flight = none) (r : Reception)
    {taken : Bool} (hm : taken = true → s.mc.state.isMember = true) : ControlLaws (s.applyVerdict r taken) := by
  rw [State.applyVerdict]
  split
  · split
    · next m p _ ht =>
      have hheard : ControlLaws (s.hear m.source) := h.with_mc rfl
      exact hheard.applyAccepted hf (hm ht) _ _ _
    · exact h.testFlush
  · split
    · exact h.with_mc rfl
    · exact h
  · exact h
  · exact h

/-- The end of the frame on the trunk, or an idle report in its place, keeps the laws: what an abandoned own frame is owed
takes place, and the LPU may have ended a FLUSH before. -/
theorem ControlLaws.finishSpent {s : State} (h : ControlLaws s) (hf : s.tif.flight = none) {i : Nat}
    (hi : i ≤ Config.idleBits) (p : RxPhase) {l : Lpu}
    (hl : l.running = s.lpu.running ∨ (s.lpu.running = some .flush ∧ l.running = none)) :
    ControlLaws (State.finishSpent { s with
      tif := { s.tif with idleCount := i, receiver := p, rx := none, collidedHere := false }, lpu := l }) := by
  have hclean : s.tif.spent ≠ some .detach → ∀ l : Lpu,
      (l.running = s.lpu.running ∨ (s.lpu.running = some .flush ∧ l.running = none)) →
      ControlLaws { s with
        tif := { s.tif with idleCount := i, receiver := p, rx := none, collidedHere := false, spent := none }
        lpu := l } := fun hne l hl =>
    { h with
      idle := hi
      flight := fun f e => nomatch hf.symm.trans e
      reception := fun e => nomatch e
      command := by
        rcases hl with hl | ⟨hr, hl⟩
        · simpa [hl] using h.command
        · simp [hl, h.joined_of_flush hr, commandFits]
      collided := fun e => nomatch e
      flushHeld := fun r m p e => nomatch e
      spent := fun e => nomatch e
      byeSpent := fun c e hb hv => absurd (h.byeSpent c e hb hv) hne
      detachWaits := fun e => nomatch e }
  rw [State.finishSpent]
  split
  · next hs =>
    have := hclean (by simp [show s.tif.spent = none from hs]) l hl
    rwa [← show s.tif.spent = none from hs] at this
  · next hs => exact hclean (by simp [show s.tif.spent = some _ from hs]) _ hl
  · next hs =>
    have hs : s.tif.spent = some .syncIncomplete := hs
    exact (hclean (by simp [hs]) l hl).fatal (StationState.of_listening (h.spent (by simp [hs])).1).1 _ _
  · next hs =>
    obtain ⟨hleave, hb⟩ := h.detachWaits hs
    refine h.enterDetached hleave hb
      (x := { s.tif with idleCount := i, receiver := p, rx := none, collidedHere := false, spent := none })
      (l := { l with faults := addFault ⟨.voidLimit, none, none, none, false⟩ l.faults }) hi hf rfl ?_
    rcases hl with hl | ⟨hr, -⟩
    · exact hl
    · have := h.joined_of_flush hr
      simp [hleave] at this

/-- The start bit of a frame of another station keeps the laws. -/
theorem ControlLaws.rxStart {s : State} (h : ControlLaws s) : ControlLaws s.rxStart := by
  rw [State.rxStart]
  split
  · next hr =>
    have hspent := h.spent_of_ready hr
    have hf : s.tif.flight = none := by
      by_contra hn
      obtain ⟨f, hf⟩ := Option.ne_none_iff_exists'.1 hn
      simpa [hr] using (h.flight f hf).2.1
    exact { h with
      idle := Nat.zero_le _
      flight := fun f e => nomatch hf.symm.trans e
      reception := fun e => nomatch e
      collided := fun e => nomatch e
      flushHeld := fun r m p e => nomatch e
      spent := fun e => nomatch e
      byeSpent := fun c e hb hv => nomatch hspent.symm.trans (h.byeSpent c e hb hv)
      detachWaits := fun e => nomatch e }
  · exact { h with idle := Nat.zero_le _ }

/-- The decision at the last check bit keeps the laws. -/
theorem ControlLaws.rxDecide {s : State} (h : ControlLaws s) (x : Heard) : ControlLaws (s.rxDecide x) := by
  rw [State.rxDecide]
  split
  · next hc =>
    obtain ⟨-, hf⟩ := hc
    have hdecided : ∀ r, (if s.mc.state.isListening then some
          (⟨s.decide x.message, x.count, false, false, none⟩ : Reception) else none) = some r →
        s.mc.state.isListening = true ∧ r = ⟨s.decide x.message, x.count, false, false, none⟩ := by
      intro r e
      split at e
      · next hl => exact ⟨hl, (Option.some.inj e).symm⟩
      · cases e
    exact { h with
      flight := fun f e => nomatch hf.symm.trans e
      reception := fun e => by
        obtain ⟨r, hr⟩ := Option.isSome_iff_exists.1 e
        exact ⟨(hdecided r hr).1, rfl⟩
      collided := fun hc r hr => by
        obtain ⟨-, rfl⟩ := hdecided r hr
        have hc : s.tif.collidedHere = true := hc
        cases x.message <;> simp [State.decide, hc]
      flushHeld := fun r m p hr _ hfl => by
        obtain ⟨-, rfl⟩ := hdecided r hr
        cases hfl
      spent := fun e => ⟨(h.spent e).1, (h.spent e).2.1, hf, nofun⟩ }
  · exact h

/-- The edge that samples an early slot keeps the laws. -/
theorem ControlLaws.rxSlot {s : State} (h : ControlLaws s) (x : Heard) (slot : EarlySlot) :
    ControlLaws (s.rxSlot x slot) := by
  rw [State.rxSlot]
  split
  · next hc =>
    obtain ⟨-, hf, -⟩ := hc
    have hback : ∀ r, s.tif.rx.map (fun r => { r with late := r.late.or (some slot) }) = some r →
        ∃ r', s.tif.rx = some r' ∧ r.verdict = r'.verdict ∧ r.flushedSince = r'.flushedSince := by
      intro r e
      obtain ⟨r', hr', rfl⟩ := Option.map_eq_some_iff.1 e
      exact ⟨r', hr', rfl, rfl⟩
    exact { h with
      flight := fun f e => nomatch hf.symm.trans e
      reception := fun e => h.reception (by simpa using e)
      collided := fun hc r hr => by
        obtain ⟨r', hr', hv, -⟩ := hback r hr
        exact hv.trans (h.collided hc r' hr')
      flushHeld := fun r m p hr hv hfl => by
        obtain ⟨r', hr', hv', hfl'⟩ := hback r hr
        exact h.flushHeld r' m p hr' (hv' ▸ hv) (hfl' ▸ hfl) }
  · exact h

/-- The end of a trailer keeps the laws: a frame on which an own one was abandoned is malformed here, so that nothing of it is
applied behind what that one is owed. -/
theorem ControlLaws.rxEnd {s : State} (h : ControlLaws s) (x : Heard) (others : Slots) :
    ControlLaws (s.rxEnd x others) := by
  simp only [State.rxEnd]
  split
  · next hc =>
    obtain ⟨-, hf⟩ := hc
    have hend := h.finishSpent hf h.idle .unsynced (l := s.lpu) (Or.inl rfl)
    split
    · exact hend
    · rename_i r hx
      by_cases hs : s.tif.spent = none
      · rw [State.finishSpent_of_none (by exact hs)] at hend ⊢
        refine hend.applyVerdict hf r (fun ht => ?_)
        simp only [State.takesAtEnd, Bool.and_eq_true] at ht
        exact ht.1.1.1
      · have hm : r.verdict = .malformed := h.collided (h.spent (Option.isSome_iff_ne_none.2 hs)).2.1 r hx
        rw [State.applyVerdict, hm]
        exact hend
  · exact h

/-- A reception keeps the laws, at each of its moments. -/
theorem ControlLaws.receive {s : State} (h : ControlLaws s) (x : Heard) (moment : RxMoment) :
    ControlLaws (s.receive x moment) := by
  cases moment with
  | startBit => exact h.rxStart
  | lastCheckBit => exact h.rxDecide x
  | slotSampled slot => exact h.rxSlot x slot
  | endOfTrailer others => exact h.rxEnd x others
  | whole others => exact (h.rxStart.rxDecide x).rxEnd x others

/-- Sampled bits received keep the laws. -/
theorem ControlLaws.receiveBits {s : State} (h : ControlLaws s) (bits : List Bool) (periods : List Nat)
    (moment : RxMoment) : ControlLaws (s.receiveBits bits periods moment) := by
  unfold State.receiveBits
  split
  · exact h.receive _ _
  · exact h.rxStart
  · exact h.rxStart
  · exact h

/-- The test of a FLUSH leaves the command in progress or ends a FLUSH. -/
theorem State.testFlush_running (s : State) :
    s.testFlush = { s with lpu := s.testFlush.lpu } ∧
    (s.testFlush.lpu.running = s.lpu.running ∨
      (s.lpu.running = some .flush ∧ s.testFlush.lpu.running = none)) := by
  rw [State.testFlush]
  split
  · next hc => exact ⟨State.finish_eq _ _, Or.inr ⟨by simpa [State.flushing] using hc.1, by simp⟩⟩
  · exact ⟨rfl, Or.inl rfl⟩

/-- An idle report keeps the laws. -/
theorem ControlLaws.idleObserved {s : State} (h : ControlLaws s) : ControlLaws s.idleObserved := by
  simp only [State.idleObserved]
  split
  · next hf =>
    split
    · next hs =>
      have hspent : s.tif.spent = none := (h.quiet_of_deaf (by simp [hs, StationState.isListening,
        StationState.isMember])).2.2
      have hr : s.lpu.running = some .join := commandFits_joining h.command (Or.inl hs)
      exact
        { strap := fun _ => h.strap (by simp [hs])
          idle := le_rfl
          flight := fun f e => nomatch hf.symm.trans e
          reception := fun e => nomatch e
          command := by simp [hr, commandFits]
          settle := fun e => absurd (h.settle e) (by simp [hs])
          deadline := fun e => absurd (h.deadline e) (by simp [hs])
          bye := fun e => absurd (h.bye e) (by simp [hs])
          byeFlight := fun f e => nomatch hf.symm.trans e
          holdoff := h.holdoff
          headFlight := fun f e => nomatch hf.symm.trans e
          collided := fun e => nomatch e
          flushHeld := fun r m p e => nomatch e
          spent := fun e => by simp [hspent] at e
          byeSpent := fun c e => nomatch e
          detachWaits := fun e => nomatch hspent.symm.trans e
          byeDrained := fun e => nomatch e
          detached := fun e => nomatch e }
    · obtain ⟨heq, hrun⟩ := State.testFlush_running { s with tif := { s.tif with
        idleCount := Config.idleBits, receiver := .ready, rx := none, collidedHere := false } }
      rw [heq]
      exact h.finishSpent hf le_rfl .ready hrun
  · exact h

/-- A burst keeps the laws. -/
theorem ControlLaws.burst {s : State} (h : ControlLaws s) : ControlLaws s.burst := by
  have hkeep : ∀ p : RxPhase, s.tif.receiver = p → p ≠ .ready →
      (if s.tif.receiver = .ready then .unsynced else s.tif.receiver) = p := by
    intro p hp hn; simp [hp, hn]
  have hnotready : (if s.tif.receiver = .ready then .unsynced else s.tif.receiver) ≠ RxPhase.ready := by
    split
    · nofun
    · assumption
  exact { h with
    idle := Nat.zero_le _
    flight := fun f hf => by
      obtain ⟨hl, hp, hx⟩ := h.flight f hf
      exact ⟨hl, hp.imp (fun e => hkeep _ e nofun) (fun e => hkeep _ e nofun), hx⟩
    reception := fun e => ⟨(h.reception e).1, hkeep _ (h.reception e).2 nofun⟩
    spent := fun e => ⟨(h.spent e).1, (h.spent e).2.1, (h.spent e).2.2.1, hnotready⟩ }

/-! ### The beginning of a frame -/

/-- No pending map frame is the RQ head's. -/
theorem State.mapSource_ne_rqHead (s : State) : s.mapSource ≠ some .rqHead := by
  rw [State.mapSource]
  split
  · nofun
  · split
    · nofun
    · split
      · nofun
      · split
        · nofun
        · split
          · nofun
          · cases s.wmu.claim <;> nofun

/-- The RQ head is offered when it is READY. -/
theorem State.headReady_of_select {s : State} (h : s.select = some .rqHead) :
    ∃ x, s.ore.head = some x ∧ x.phase = .ready := by
  rw [State.select] at h
  split at h
  · cases h
  · split at h
    · next hm => exact absurd (hm.trans h) s.mapSource_ne_rqHead
    · split at h
      · next hr =>
        rw [Ore.headReady] at hr
        split at hr
        · next x hx => exact ⟨x, hx, by simpa using hr⟩
        · cases hr
      · cases h

/-- A frame begun keeps the laws. -/
theorem ControlLaws.begin {s : State} (h : ControlLaws s) : ControlLaws s.begin := by
  rw [State.begin]
  split
  · next hm =>
    simp only [State.mayBegin, Bool.and_eq_true, beq_iff_eq] at hm
    obtain ⟨⟨⟨hl, -⟩, hr⟩, -⟩ := hm
    have hspent := h.spent_of_ready hr
    split
    · exact h
    · rename_i src hsel
      split
      · exact h
      · rename_i f hframe
        exact { h with
          idle := Nat.zero_le _
          flight := fun _ _ => ⟨hl, Or.inl rfl, rfl⟩
          reception := fun e => nomatch e
          byeFlight := fun fl e hsrc => by
            obtain rfl := Option.some.inj e
            obtain rfl : src = .bye := hsrc
            have hb : s.mc.bye.isSome = true := by
              cases hb : s.mc.bye with
              | none => simp [State.frameOf, State.messageOf, State.countsOf, hb] at hframe
              | some c => rfl
            exact ⟨h.leaving_of_bye hl hb, hb⟩
          headFlight := fun fl e hsrc _ => by
            obtain rfl := Option.some.inj e
            obtain rfl : src = .rqHead := hsrc
            exact State.headReady_of_select hsel
          collided := fun e => nomatch e
          flushHeld := fun r m p e => nomatch e
          spent := fun e => nomatch e
          byeSpent := fun c e hb hv => nomatch hspent.symm.trans (h.byeSpent c e hb hv)
          detachWaits := fun e => nomatch e }
  · exact h

/-! ### Commands -/

/-- A command that is accepted finds its state, and none in progress but a JOIN that a LEAVE ends. -/
theorem State.admission_accepted {c : Command} {s : State} (h : s.admission c = .accepted) :
    c.acceptedIn s.mc.state = true ∧ (s.lpu.running = none ∨ (c = .leave ∧ s.lpu.running = some .join)) := by
  rw [State.admission] at h
  split at h
  · cases h
  · rename_i hb
    split at h
    · next ha =>
      refine ⟨ha, ?_⟩
      cases hr : s.lpu.running with
      | none => exact Or.inl rfl
      | some x => exact Or.inr (by simpa [hr] using hb)
    · cases h

/-- A command write keeps the laws where its effect does. -/
theorem ControlLaws.takeCommand {s : State} (h : ControlLaws s) {c : Command} {effect : State → State}
    (he : s.admission c = .accepted → ControlLaws (effect s)) : ControlLaws (s.takeCommand c effect) := by
  rw [State.takeCommand]
  split
  · exact h.with_lpu rfl
  · exact h.with_lpu rfl
  · next ha => exact he ha

/-- A JOIN keeps the laws. -/
theorem ControlLaws.join {s : State} (h : ControlLaws s) : ControlLaws s.join := by
  refine h.takeCommand (fun ha => ?_)
  obtain ⟨hs, hr⟩ := State.admission_accepted ha
  have hs : s.mc.state = .halted := by cases e : s.mc.state <;> simp_all [Command.acceptedIn]
  have hr : s.lpu.running = none := by simpa using hr
  obtain ⟨hf, hx, hspent⟩ := h.quiet_of_deaf (by simp [hs, StationState.isListening, StationState.isMember])
  simp only [State.joinAccepted]
  split
  · exact h.with_lpu (by simp [hr])
  · rename_i hvalid
    split
    · exact h.with_lpu (by simp [hr])
    · exact
        { strap := fun _ => by simpa using hvalid
          idle := Nat.zero_le _
          flight := fun f e => nomatch hf.symm.trans e
          reception := fun e => by simp [hx] at e
          command := rfl
          settle := fun e => absurd (h.settle e) (by simp [hs])
          deadline := fun e => absurd (h.deadline e) (by simp [hs])
          bye := fun e => absurd (h.bye e) (by simp [hs])
          byeFlight := fun f e => nomatch hf.symm.trans e
          holdoff := h.holdoff
          headFlight := fun f e => nomatch hf.symm.trans e
          collided := fun _ r e => nomatch hx.symm.trans e
          flushHeld := fun r m p e => nomatch hx.symm.trans e
          spent := fun e => by simp [hspent] at e
          byeSpent := fun c e => nomatch e
          detachWaits := fun e => nomatch hspent.symm.trans e
          byeDrained := fun e => nomatch e
          detached := fun e => nomatch e }

/-- A LEAVE keeps the laws. -/
theorem ControlLaws.leave {s : State} (h : ControlLaws s) : ControlLaws s.leave := by
  refine h.takeCommand (fun ha => ?_)
  obtain ⟨hs, hr⟩ := State.admission_accepted ha
  have hflush : s.lpu.running ≠ some .flush := by rcases hr with hr | ⟨-, hr⟩ <;> simp [hr]
  have heq : (s.finish .aborted).accept .leave = { s with lpu := ((s.finish .aborted).accept .leave).lpu } := by
    rw [State.finish_eq]; rfl
  have hmember : s.mc.state.isMember = true → s.mc.state ≠ .leaving →
      ControlLaws (((s.finish .aborted).accept .leave).enterLeaving) := by
    intro hm hl
    rw [heq]
    exact h.enterLeaving (StationState.listening_of_member hm) hl hflush rfl rfl rfl
  have hhalted : s.mc.state = .listen ∨ s.mc.state = .syncWait →
      ControlLaws (((s.finish .aborted).accept .leave).leaveToHalted) := by
    intro e
    rw [heq]
    exact h.leaveToHalted e _
  simp only [State.leaveAccepted]
  split
  · next e => exact hhalted (Or.inl e)
  · next e =>
    split
    · exact hhalted (Or.inr e)
    · rw [heq]
      exact { h with
        command := by simp [e, commandFits]
        flushHeld := fun r m p hx hv hf => absurd (h.flushHeld r m p hx hv hf) hflush }
  · rename_i hlisten hwait
    refine hmember ?_ ?_
    · cases e : s.mc.state <;> simp_all [Command.acceptedIn, StationState.isMember]
    · rintro e
      simp [e, Command.acceptedIn] at hs

/-- A FLUSH keeps the laws: the head it discards takes its holdoff and its claim on the frame in flight with it. -/
theorem ControlLaws.flush {s : State} (h : ControlLaws s) : ControlLaws s.flush := by
  refine h.takeCommand (fun ha => ?_)
  obtain ⟨hs, -⟩ := State.admission_accepted ha
  have hs : s.mc.state = .joined := by cases e : s.mc.state <;> simp_all [Command.acceptedIn]
  refine ControlLaws.testFlush ?_
  exact { h with
    flight := fun f e => by
      obtain ⟨g, hg, -⟩ := Option.map_eq_some_iff.1 e
      obtain ⟨hl, hp, hx⟩ := h.flight g hg
      exact ⟨hl, hp, by simp [State.accept, Tif.markFlush, Tif.discardHead, hx]⟩
    reception := fun e => h.reception (by simpa [State.accept, Tif.markFlush, Tif.discardHead] using e)
    command := by simp [State.accept, hs, commandFits]
    byeFlight := fun f e hsrc => by
      obtain ⟨g, hg, rfl⟩ := Option.map_eq_some_iff.1 e
      refine h.byeFlight g hg ?_
      split at hsrc <;> exact hsrc
    holdoff := fun e => nomatch e
    headFlight := fun f e hsrc hd => by
      obtain ⟨g, hg, rfl⟩ := Option.map_eq_some_iff.1 e
      split at hd
      · cases hd
      · next hne => rw [if_neg hne] at hsrc; exact absurd hsrc hne
    collided := fun hc r hr => by
      obtain ⟨r', hr', rfl⟩ := Option.map_eq_some_iff.1 hr
      exact h.collided hc r' hr'
    flushHeld := fun _ _ _ _ _ _ => rfl
    spent := fun e => by
      obtain ⟨hl, hc, hf, hp⟩ := h.spent e
      exact ⟨hl, hc, by simp [State.accept, Tif.markFlush, Tif.discardHead, hf], hp⟩
    byeDrained := fun e => nomatch hs.symm.trans e
    detached := fun e => nomatch hs.symm.trans e }

/-- A RESTART keeps the laws. -/
theorem ControlLaws.restart {s : State} (h : ControlLaws s) : ControlLaws s.restart :=
  h.takeCommand (fun _ => ControlLaws.of_halted rfl h.idle rfl rfl rfl rfl rfl rfl rfl rfl)

/-! ### Pushes, pops and writes -/

/-- An RQ push keeps the laws: it is taken in CLAIMING and JOINED alone. -/
theorem ControlLaws.rqPush {s : State} (h : ControlLaws s) : ControlLaws s.rqPush := by
  rw [State.rqPush]
  split
  · exact h.with_lpu rfl
  · split
    · exact h.with_lpu rfl
    · rename_i hs
      simp only [Bool.not_eq_true', decide_eq_false_iff_not, not_not] at hs
      have hstate : s.mc.state ≠ .leaving ∧ s.mc.state ≠ .detached := by rcases hs with e | e <;> simp [e]
      split
      · exact h.with_lpu rfl
      · split
        · exact h.with_lpu rfl
        · split
          · rename_i d _ _
            have hpushed : ControlLaws { s with ore := { s.ore with rq := s.ore.rq ++ [d] } } :=
              { h with
                byeDrained := fun e => absurd e hstate.1
                detached := fun e => absurd e hstate.2 }
            exact ControlLaws.prepareHead (hpushed.with_lpu rfl)
          · exact h.with_lpu rfl

/-- An SQ push keeps the laws: it is taken at a member alone. -/
theorem ControlLaws.sqPush {s : State} (h : ControlLaws s) : ControlLaws s.sqPush := by
  simp only [State.sqPush]
  split
  · exact h.with_lpu rfl
  · rename_i hm
    have hd : s.mc.state ≠ .detached := by rintro e; simp [e, StationState.isMember] at hm
    split
    · exact h.with_lpu rfl
    · split
      · exact h.with_lpu rfl
      · split
        · rename_i r _ _
          have hpushed : ControlLaws { s with isu := s.isu.answerPushed (stagedResponse s.lpu.sqStage) r } :=
            h.with_isu (fun e => absurd e hd)
          exact ControlLaws.testLeave (hpushed.with_lpu rfl)
        · exact h.with_lpu rfl

/-- A CQ pop keeps the laws. -/
theorem ControlLaws.cqPop {s : State} (h : ControlLaws s) : ControlLaws s.cqPop := by
  rw [State.cqPop]
  split
  · exact h.with_lpu rfl
  · rename_i cs _
    have hpopped : ControlLaws { s with ore := { s.ore with cq := cs } } := h.with_ore (fun _ => rfl) (fun e => e)
    exact ControlLaws.afterHead (hpopped.with_lpu rfl)

/-- An IQ pop keeps the laws: it makes no entry live. -/
theorem ControlLaws.iqPop {s : State} (h : ControlLaws s) : ControlLaws s.iqPop := by
  rw [State.iqPop]
  split
  · exact h.with_lpu rfl
  · rename_i r rest _
    have hpopped : ControlLaws { s with isu := s.isu.popIq r rest } := by
      refine h.with_isu (fun e => ?_)
      obtain ⟨-, hsq, hitt⟩ := h.detached e
      rw [Isu.popIq]
      split
      · exact ⟨hsq, hitt⟩
      · refine ⟨hsq, fun k => ?_⟩
        simp only [hitt, awaitEntry, Bank.at_put]
        split <;> simp
    exact hpopped.with_lpu rfl

/-- An NQ pop keeps the laws. -/
theorem ControlLaws.nqPop {s : State} (h : ControlLaws s) : ControlLaws s.nqPop := by
  rw [State.nqPop]
  split
  · exact h.with_lpu rfl
  · rename_i rest _
    have hpopped : ControlLaws { s with isu := { s.isu with nq := rest } } := h.with_isu (fun e => (h.detached e).2)
    exact hpopped.with_lpu rfl

/-- A fault pop keeps the laws. -/
theorem ControlLaws.faultPop {s : State} (h : ControlLaws s) : ControlLaws s.faultPop := by
  rw [State.faultPop]
  split
  · exact h.with_lpu rfl
  · exact h.with_lpu rfl

/-- A Setup write keeps the laws. -/
theorem ControlLaws.setupWrite {s : State} (h : ControlLaws s) (i : Fin 9) (v : Word) :
    ControlLaws (s.setupWrite i v) := by
  rw [State.setupWrite]
  split
  · exact h.with_lpu rfl
  · exact h.with_lpu rfl

/-- A write of the command word keeps the laws. -/
theorem ControlLaws.commandWrite {s : State} (h : ControlLaws s) (v : Word) : ControlLaws (s.commandWrite v) := by
  simp only [State.commandWrite]
  split
  · exact h.join
  · split
    · exact h.leave
    · split
      · exact h.flush
      · split
        · exact h.restart
        · exact h

/-- A write to a word of the local space keeps the laws. -/
theorem ControlLaws.writeWord {s : State} (h : ControlLaws s) (w : PortWord) (v : Word) :
    ControlLaws (s.writeWord w v) := by
  cases w with
  | view _ | unassigned => exact h
  | command => exact h.commandWrite v
  | setup i => exact h.setupWrite i v
  | rqPush => exact h.rqPush
  | sqPush => exact h.sqPush
  | cqPop => exact h.cqPop
  | iqPop => exact h.iqPop
  | nqPop => exact h.nqPop
  | faultPop => exact h.faultPop
  | cause | mask | severityEnable | rqStage i | sqStage i => exact h.with_lpu rfl

/-- A write access keeps the laws. -/
theorem ControlLaws.registerWrite {s : State} (h : ControlLaws s) (a : BitVec 10) (v : Word) (readStrobe : Bool) :
    ControlLaws (s.registerWrite a v readStrobe) := by
  rw [State.registerWrite]
  split
  · exact h
  · exact h.writeWord _ v

/-! ### The timers -/

/-- The end of a holdoff keeps the laws. -/
theorem ControlLaws.holdoffExpires {s : State} (h : ControlLaws s) : ControlLaws s.holdoffExpires := by
  rw [State.holdoffExpires]
  split
  · exact { h with
      holdoff := fun e => nomatch e
      headFlight := fun f hf hsrc hd => by
        obtain ⟨x, hx, -⟩ := h.headFlight f hf hsrc hd
        exact ⟨{ x with phase := .ready }, by simp [hx], rfl⟩ }
  · exact h

/-- A response timeout keeps the laws. -/
theorem ControlLaws.responseTimerExpires {s : State} (h : ControlLaws s) (tag : Tag) :
    ControlLaws (s.responseTimerExpires tag) := by
  rw [State.responseTimerExpires]
  split
  · exact ControlLaws.testLeave (h.with_ore (fun _ => rfl) (fun e => e))
  · exact h

/-- The end of a quarantine keeps the laws. -/
theorem ControlLaws.quarantineExpires {s : State} (h : ControlLaws s) (tag : Tag) :
    ControlLaws (s.quarantineExpires tag) := by
  rw [State.quarantineExpires]
  split
  · exact ControlLaws.afterHead (h.with_ore (fun _ => rfl) (fun e => e))
  · exact h

/-- A settle expiry keeps the laws. -/
theorem ControlLaws.settleExpires {s : State} (h : ControlLaws s) : ControlLaws s.settleExpires := by
  rw [State.settleExpires]
  split
  · rename_i hc
    obtain ⟨hs, -⟩ := hc
    have hl : s.mc.state ≠ .leaving := by simp [hs]
    split
    · rw [Mc.settleAgain]
      split
      · exact { h.with_mc (m := { s.mc with attempts := s.mc.attempts + 1, sync := some (s.mc.sync.getD Counts.zero) })
            rfl with settle := fun _ => hs }
      · exact { h.with_mc (m := { s.mc with
              attempts := s.mc.attempts + 1
              evicts := addEvicts (s.mc.expected.minus s.mc.answered).toList s.mc.evicts }) rfl with
            settle := fun _ => hs }
    · have hcounted : ControlLaws { s with mc := { s.mc with attempts := s.mc.attempts + 1 } } := h.with_mc rfl
      have hdue : ControlLaws (State.appendDue { s with mc := { s.mc with attempts := s.mc.attempts + 1 } }) :=
        { hcounted with
          spent := fun e => nomatch e
          byeSpent := fun c e => absurd e hl
          detachWaits := fun e => nomatch e }
      refine hdue.fatal ?_ _ _
      show s.mc.state ≠ .halted
      simp [hs]
  · exact h

/-- The leave deadline keeps the laws: it empties the RQ and sets the BYE flag. -/
theorem ControlLaws.leaveDeadlineExpires {s : State} (h : ControlLaws s) : ControlLaws s.leaveDeadlineExpires := by
  rw [State.leaveDeadlineExpires]
  split
  · rename_i hc
    obtain ⟨hs, -⟩ := hc
    rw [State.finish_eq]
    have hsource : ∀ (g : Flight) (src : Source),
        (if g.source.discardedAtDeadline then { g with discarded := true } else g).source = src → g.source = src := by
      intro g src e
      split at e <;> exact e
    exact { h with
      flight := fun f e => by
        simp only [Tif.deadline, Option.map_eq_some_iff] at e
        obtain ⟨g, hg, -⟩ := e
        obtain ⟨hl, hp, hx⟩ := h.flight g hg
        exact ⟨hl, hp, by simp [Tif.deadline, hx]⟩
      reception := fun e => h.reception (by simpa [Tif.deadline] using e)
      command := by simp [hs, commandFits]
      deadline := fun e => nomatch e
      bye := fun _ => Or.inl hs
      byeFlight := fun f e hsrc => ⟨hs, rfl⟩
      holdoff := fun e => nomatch e
      headFlight := fun f e hsrc hd => by
        simp only [Tif.deadline, Option.map_eq_some_iff] at e
        obtain ⟨g, hg, rfl⟩ := e
        simp [hsource g _ hsrc, Source.discardedAtDeadline] at hd
      collided := fun hc r hr => by
        simp only [Tif.deadline, Option.map_eq_some_iff] at hr
        obtain ⟨r', hr', rfl⟩ := hr
        exact h.collided hc r' hr'
      flushHeld := fun r m p hr hv hfl => by
        simp only [Tif.deadline, Option.map_eq_some_iff] at hr
        obtain ⟨r', hr', rfl⟩ := hr
        have := h.joined_of_flush (h.flushHeld r' m p hr' hv hfl)
        simp [hs] at this
      spent := fun e => by
        obtain ⟨hl, hc, hf, hp⟩ := h.spent e
        exact ⟨hl, hc, by simp [Tif.deadline, hf], hp⟩
      byeSpent := fun c _ hb hv => by
        cases hbye : s.mc.bye with
        | none =>
          obtain rfl : Counts.zero = c := by simpa [hbye] using hb
          exact absurd hv (by decide)
        | some c' =>
          obtain rfl : c' = c := by simpa [hbye] using hb
          exact h.byeSpent c' hs hbye hv
      detachWaits := fun _ => ⟨hs, rfl⟩
      byeDrained := fun _ _ => rfl
      detached := fun e => nomatch hs.symm.trans e }
  · exact h

/-! ### The step -/

/-- A row that acts while RESET_N is released keeps what its effect keeps. -/
theorem ControlLaws.released {s t : State} {effect : State → State} (ht : released effect s = .next t)
    (h : ControlLaws s) (he : ControlLaws s → ControlLaws (effect s)) : ControlLaws t := by
  simp only [Machine.released, Host.Outcome.next.injEq] at ht
  split at ht
  · exact ht ▸ h
  · exact ht ▸ he h

/-- No holdoff runs while the frame of the RQ head is in flight and its work has not been discarded. -/
theorem ControlLaws.holdoff_of_headFlight {s : State} (h : ControlLaws s) {f : Flight} (hf : s.tif.flight = some f)
    (hs : f.source = .rqHead) (hd : f.discarded = false) : s.tif.holdoff = none := by
  by_contra hn
  obtain ⟨x, hx, hp⟩ := h.headFlight f hf hs hd
  obtain ⟨y, hy, hq⟩ := h.holdoff (Option.isSome_iff_ne_none.2 hn)
  obtain rfl : x = y := by simpa [hx] using hy
  simp [hp] at hq

/-- Every command keeps the control laws. -/
theorem ControlLaws.exec {c : Instr} {s t : State} (ht : exec c s = .next t) (h : ControlLaws s) : ControlLaws t := by
  cases c with
  | resetNAsserted | resetNReleased sid rate =>
    obtain rfl := Host.Outcome.next.inj ht
    exact ControlLaws.of_halted rfl (Nat.zero_le _) rfl rfl rfl rfl rfl rfl rfl rfl
  | join => exact h.released ht join
  | leave => exact h.released ht leave
  | flush => exact h.released ht flush
  | restart => exact h.released ht restart
  | rqPush => exact h.released ht rqPush
  | sqPush => exact h.released ht sqPush
  | cqPop => exact h.released ht cqPop
  | iqPop => exact h.released ht iqPop
  | nqPop => exact h.released ht nqPop
  | faultPop => exact h.released ht faultPop
  | setupWrite i v => exact h.released ht (fun h => h.setupWrite i v)
  | causeWrite v | maskWrite v | severityEnableWrite v => exact h.released ht (fun h => h.with_lpu rfl)
  | registerWrite a v r => exact h.released ht (fun h => h.registerWrite a v r)
  | trunkIdleObserved => exact h.released ht idleObserved
  | beginningAFrame => exact h.released ht begin
  | lost bit =>
    refine h.released ht (fun h => ?_)
    simp only [State.lostAt]
    split
    · exact h
    · next hc =>
      split
      · exact h.lose (State.comparedAt_eq_some.1 hc).2.1
      · exact h
  | collided bit =>
    refine h.released ht (fun h => ?_)
    simp only [State.collidedAt]
    split
    · exact h
    · next hc =>
      split
      · exact h.collide (State.comparedAt_eq_some.1 hc).2.1
      · exact h
  | syncOutcome m =>
    exact h.released ht (fun h => h.ownFrame _ m (fun f levels o _ _ he hl hf hs => he.syncEnds hl hf hs _ o))
  | rosterOutcome m =>
    exact h.released ht (fun h => h.ownFrame _ m (fun f levels o _ _ he hl hf hs => he.rosterEnds hl hf hs o))
  | claimOutcome m =>
    refine h.released ht (fun h => h.ownFrame _ m (fun f levels o _ _ he hl hf hs => ?_))
    rw [State.claimFrameEnds]
    split
    · exact he.claimEnds hl hf hs _ o
    · exact he
  | releaseOutcome m =>
    refine h.released ht (fun h => h.ownFrame _ m (fun f levels o _ _ he hl hf hs => ?_))
    rw [State.releaseFrameEnds]
    split
    · exact he.releaseEnds hl hf hs _ f o
    · exact he
  | evictOutcome m =>
    refine h.released ht (fun h => h.ownFrame _ m (fun f levels o _ _ he hl hf hs => ?_))
    rw [State.evictFrameEnds]
    split
    · exact he.evictEnds hl hf hs _ o
    · exact he
  | byeOutcome m =>
    exact h.released ht (fun h => h.ownFrame _ m (fun f levels o hfl hsrc he hl hf hs =>
      he.byeEnds hl hf hs (h.byeFlight f hfl (by simpa using hsrc)).2 o))
  | requestFrameOutcome m =>
    exact h.released ht (fun h => h.ownFrame _ m (fun f levels o hfl hsrc he hl hf hs =>
      he.requestEnds hl hf hs (h.holdoff_of_headFlight hfl (by simpa using hsrc)) o))
  | responseFrameOutcome m =>
    exact h.released ht (fun h => h.ownFrame _ m (fun f levels o _ _ he hl hf hs => he.responseEnds hl hf hs f o))
  | malformedFrame bits periods m => exact h.released ht (fun h => h.receiveBits bits periods m)
  | syncReceived p m | rosterReceived p w ps m | claimReceived p b d m | releaseReceived p b m | evictReceived p w m
  | byeReceived p m | requestReceived p t b m | responseReceived p t b m | signalReceived p b v m
  | frameForAnotherStation p d u m => exact h.released ht (fun h => h.receive _ m)
  | headPreparation => exact h.released ht afterHead
  | holdoffExpiry => exact h.released ht holdoffExpires
  | responseTimerExpiry tag => exact h.released ht (fun h => h.responseTimerExpires tag)
  | quarantineExpiry tag => exact h.released ht (fun h => h.quarantineExpires tag)
  | settleTimerExpiry => exact h.released ht settleExpires
  | leaveDeadlineExpiry => exact h.released ht leaveDeadlineExpires
  | burstNotAFrame => exact h.released ht burst

/-- Settles O60: each command keeps the control laws, and the queue of commands has no part in them. -/
theorem controlLawsKept : Obligations.ControlLawsKept := by
  intro s t hstep h
  rw [step] at hstep
  split at hstep
  · exact Host.Outcome.next.inj hstep ▸ h
  · exact (h.with_pending _).exec hstep

end Sys2Proof.Machine
end

section
/-! PROOF. What a station sends a listener reads, and the bits of a frame and the row of its fields are one event. -/

namespace Sys2Proof

/-! ### Reading back a frame -/

/-- The bits of a frame, field by field, with the bits that follow. -/
theorem Frame.bits_append (f : Frame) (after : List Bool) :
    f.bits ++ after = bitsOf f.cls ++ (bitsOf f.urgency ++ (bitsOf f.source ++ (bitsOf f.dest ++ (bitsOf f.kind ++
      (bitsOf f.tag ++ (bitsOf f.count ++ (bodyBits f.body ++ (bitsOf f.check ++ after)))))))) := by
  simp [Frame.bits, Frame.coveredBits, Frame.headerBits]

/-- Settles O54: each field reads back from its bits and leaves the bits behind it, the body by the count received. -/
theorem frameReadsBack : Obligations.FrameReadsBack := by
  intro f after hcount
  have hbody := readWords_bodyBits f.body (bitsOf f.check ++ after)
  rw [← hcount] at hbody
  rw [Frame.bits_append]
  simp [Frame.read, hbody]

/-- The frame of a message is read from its bits. -/
theorem Message.read_frame (m : Message) (urgent : Bool) (h : m.content.body.length < 32) :
    Frame.read (m.frame urgent).bits = some (m.frame urgent, (m.frame urgent).check) := by
  have hcount : (m.frame urgent).count.toNat = (m.frame urgent).body.length := by
    simpa [Message.frame] using Nat.mod_eq_of_lt h
  simpa using frameReadsBack (m.frame urgent) [] hcount

/-! ### Clock periods in tolerance -/

/-- In tolerance, in the words of the statements (R4). -/
theorem periodInTolerance_iff (bt x : Nat) :
    periodInTolerance bt x = true ↔ 3 * bt ≤ 4 * x ∧ 2 * x ≤ 3 * bt := by
  simp [periodInTolerance]

/-- A period among those in tolerance is in tolerance, and so is one that was not measured. -/
theorem periodHeld_of_all {bt : Nat} {periods : List Nat} (h : ∀ x ∈ periods, periodInTolerance bt x = true) (p : Nat) :
    periodHeld bt periods p = true := by
  rw [periodHeld]
  split
  · rfl
  · next hx => exact h _ (List.mem_of_getElem? hx)

namespace Machine

/-- The bits of a message's frame, in tolerance, are heard as its fields. -/
theorem State.heardBits_frame (s : State) (m : Message) (urgent : Bool) {periods : List Nat}
    (hlen : m.content.body.length < 32)
    (hp : ∀ x ∈ periods, periodInTolerance (Config.bitTimeNs s.tif.rate) x = true) :
    s.heardBits (m.frame urgent).bits periods = some (Heard.ofFields m.source m.dest m.tag m.content) := by
  have hall : ∀ n, (periods.take n).all (periodInTolerance (Config.bitTimeNs s.tif.rate)) = true :=
    fun n => List.all_eq_true.2 (fun x hx => hp x (List.mem_of_mem_take hx))
  have hmessage : (m.frame urgent).message = heard m.source m.dest m.tag m.content := heard_eq _ _ _ _ urgent
  have hcount : (m.frame urgent).count = ((Message.mk m.source m.dest m.tag m.content).frame false).count := rfl
  simp [State.heardBits, Message.read_frame m urgent hlen, understand, Frame.check, hall, periodHeld_of_all hp, hmessage,
    hcount, Heard.ofFields]

/-- The row of the sampled bits of a message's frame, in tolerance, is the reception of its fields. -/
theorem exec_malformedFrame_frame (s : State) (m : Message) (urgent : Bool) {periods : List Nat} (moment : RxMoment)
    (hlen : m.content.body.length < 32)
    (hp : ∀ x ∈ periods, periodInTolerance (Config.bitTimeNs s.tif.rate) x = true) :
    exec (.malformedFrame (m.frame urgent).bits periods moment) s =
      released (State.receive (Heard.ofFields m.source m.dest m.tag m.content) moment) s := by
  have hbits : s.receiveBits (m.frame urgent).bits periods moment =
      s.receive (Heard.ofFields m.source m.dest m.tag m.content) moment := by
    simp [State.receiveBits, State.heardBits_frame s m urgent hlen hp]
  simp [exec, execMalformedFrame, released, hbits]

/-- The words of n window pairs. -/
theorem flattenPairs_length (ps : List (Word × Word)) : (flattenPairs ps).length = 2 * ps.length := by
  induction ps with
  | nil => rfl
  | cons p ps ih => simp [flattenPairs, ih]; omega

/-- Settles O46: the bits read back as the frame, whose urgency has no part in what is understood, and the row of the fields
receives the same. -/
theorem rawBitsAreTheTypedRow : Obligations.RawBitsAreTheTypedRow := by
  intro s p urgent periods moment hperiods raw
  have hraw : ∀ dest tag c, c.body.length < 32 →
      raw dest tag c = released (State.receive (Heard.ofFields p dest tag c) moment) s := fun dest tag c hlen =>
    exec_malformedFrame_frame s ⟨p, dest, tag, c⟩ urgent moment hlen
      (fun x hx => (periodInTolerance_iff _ x).2 (hperiods x hx))
  refine ⟨hraw _ _ _ (by decide), fun w ps hps => hraw _ _ _ ?_, fun b d => hraw _ _ _ (by simp [Content.body]),
    fun b => hraw _ _ _ (by simp [Content.body]), fun w => hraw _ _ _ (by simp [Content.body]),
    hraw _ _ _ (by decide), fun tag b hb => hraw _ _ _ (by omega), fun tag b hb => hraw _ _ _ (by omega),
    fun v => hraw _ _ _ (by simp [Content.body]), fun v => hraw _ _ _ (by simp [Content.body]),
    fun d u hu => hraw _ _ _ (by omega)⟩
  simp only [Content.body, List.length_cons, flattenPairs_length]
  omega

end Machine

end Sys2Proof
end

section
/-! PROOF. The idle report, the timers of the requests, and a frame for another station. -/

namespace Sys2Proof.Machine

/-! ### The idle report -/

/-- An idle report at a station that sends nothing and owes nothing, outside LISTEN: the receiver is READY, what was being
received is dropped, and the end of a FLUSH is tested. -/
theorem State.idleObserved_of_ne_listen {s : State} (hf : s.tif.flight = none) (hspent : s.tif.spent = none)
    (hs : s.mc.state ≠ .listen) :
    s.idleObserved = State.flushTested { s with tif := { s.tif with
      idleCount := 10, receiver := .ready, rx := none, collidedHere := false } } := by
  simp only [State.idleObserved, if_pos hf, if_neg hs, State.testFlush_eq_flushTested]
  exact State.finishSpent_of_none (by exact hspent)

/-- Settles O21, by the state and whether a FLUSH only waited for the request that is dropped. -/
theorem trunkIdleObserved : Obligations.TrunkIdleObserved := by
  intro s hr hf hspent tif
  have hexec : exec .trunkIdleObserved s = .next s.idleObserved := by
    simp [exec, execTrunkIdleObserved, released, hr]
  have hnotaccepted : tif.acceptedRequest = false := rfl
  refine ⟨fun hs => ?_, fun hs hnot => ?_, fun hs hrun hsq => ?_⟩
  · simp only [hexec, State.idleObserved, if_pos hf, if_pos hs]
    rfl
  · rw [hexec, State.idleObserved_of_ne_listen hf hspent hs, State.flushTested, if_neg]
    rintro ⟨hrun, hsq, -⟩
    exact hnot.elim (fun h => h hrun) (fun h => h hsq)
  · rw [hexec, State.idleObserved_of_ne_listen hf hspent hs, State.flushTested, if_pos ⟨hrun, hsq, hnotaccepted⟩]

/-! ### The timers of the requests -/

/-- Settles O48, timer by timer; each expiry of a timer that does not run leaves the state. -/
theorem timersOfTheRequests : Obligations.TimersOfTheRequests := by
  intro s tag hr
  have hholdoff : exec .holdoffExpiry s = .next s.holdoffExpires := by
    simp [exec, execHoldoffExpiry, released, hr]
  have hresponse : exec (.responseTimerExpiry tag) s = .next (s.responseTimerExpires tag) := by
    simp [exec, execResponseTimerExpiry, released, hr]
  have hquarantine : exec (.quarantineExpiry tag) s = .next (s.quarantineExpires tag) := by
    simp [exec, execQuarantineExpiry, released, hr]
  have hburst : exec .burstNotAFrame s = .next s.burst := by simp [exec, execBurstNotAFrame, released, hr]
  rw [hholdoff, hresponse, hquarantine, hburst]
  refine ⟨fun h hh hhead => ?_, fun hh => ?_, fun r x hx => ?_, fun hx => ?_, fun r x hx => ?_, fun hx => ?_,
    fun hp => ?_, fun hp => ?_⟩
  · simp [State.holdoffExpires, hh, hhead]
  · simp [State.holdoffExpires, hh]
  · rw [State.responseTimerExpires, hx]
    exact congrArg _ (State.testLeave_eq_byeTested _)
  · rw [State.responseTimerExpires]
    split
    · next r x he => exact absurd he (hx r x)
    · rfl
  · rw [State.quarantineExpires, hx]
    exact congrArg _ (State.afterHead_eq_followed _)
  · rw [State.quarantineExpires]
    split
    · next r x he => exact absurd he (hx r x)
    · rfl
  · simp [State.burst, hp]
  · simp [State.burst, hp]

/-! ### A frame for another station -/

/-- A whole frame at a station whose receiver is UNSYNCED ends an idle report and does nothing else. -/
theorem State.receive_whole_unsynced {s : State} (x : Heard) (others : Slots) (hr : s.tif.receiver = .unsynced) :
    s.receive x (.whole others) = { s with tif := { s.tif with idleCount := 0 } } := by
  simp [State.receive, State.rxStart, hr, State.rxDecide, State.rxEnd]

/-- What a listening station decides on a frame for another station. -/
theorem State.verdictOn_other {s : State} {m : Message} (hd : m.dest ≠ s.mc.sid) (ha : m.dest ≠ allStations) :
    s.verdictOn (some m) = .silent m := by
  simp only [State.verdictOn, if_neg (not_or.2 ⟨hd, ha⟩), ite_self]

/-- A unicast frame is taken exactly where ERROR and REJECT are recessive and ACCEPT is dominant. -/
theorem takenBy_unicast {dest : Station} (hd : dest ≠ allStations) (l : Slots) :
    takenBy dest l = true ↔ l.clear ∧ l.accept = true := by
  have hd : dest ≠ 31#5 := hd
  obtain ⟨e, r, a⟩ := l
  cases e <;> cases r <;> cases a <;> simp [takenBy, outcomeOf, Slots.clear, hd]

/-- A listener that drives no slot leaves the levels as the others drive them. -/
@[simp] theorem Slots.wired_none (l : Slots) : l.wired Slots.none = l := by
  simp [Slots.wired, Slots.none]

/-- Settles O44: a member decides nothing to drive and, where the frame is taken, hears its source; a station that is no member
never takes it. -/
theorem frameForAnotherStation : Obligations.FrameForAnotherStation := by
  intro s p d u others hr hf hw hd
  simp only [Instr.wellFormed, Bool.and_eq_true] at hw
  obtain ⟨hvalid, hpasses⟩ := hw
  have hall : d ≠ allStations := by rintro rfl; simp [validStation] at hvalid
  have hverdict : ∀ t : State, t.mc.sid = s.mc.sid →
      t.verdictOn (Heard.ofFields p d u.tag u.content).message = .silent ⟨p, d, u.content.sentTag u.tag, u.content⟩ := by
    intro t ht
    rw [Heard.ofFields_message, heard_of_passes hpasses]
    exact State.verdictOn_other (by rw [ht]; exact hd) hall
  have hexec : exec (.frameForAnotherStation p d u (.whole others)) s =
      .next (s.receive (Heard.ofFields p d u.tag u.content) (.whole others)) := by
    simp [exec, execFrameForAnotherStation, released, hr]
  simp only [hexec, Host.Outcome.next.injEq]
  refine ⟨fun hm hready hclear haccept => ?_, fun hready hnot => ?_, State.receive_whole_unsynced _ _⟩
  · have htaken : takenBy d others = true := (takenBy_unicast hall others).2 ⟨hclear, haccept⟩
    rw [State.receive_whole _ _ hready hf (StationState.listening_of_member hm), hverdict s rfl]
    simp [State.applyVerdict, Verdict.dest, Verdict.drives, hm, htaken, State.hear, Mc.clearMiss]
  · cases hl : s.mc.state.isListening with
    | false => exact State.receive_whole_deaf _ _ hready hf hl
    | true =>
      have hnottaken : (s.mc.state.isMember && takenBy d others) = false := by
        by_contra h
        simp only [Bool.not_eq_false, Bool.and_eq_true, takenBy_unicast hall] at h
        obtain ⟨hm, hclear, haccept⟩ := h
        rcases hnot with e | e | e
        · exact e hclear
        · simp [haccept] at e
        · simp [hm] at e
      rw [State.receive_whole _ _ hready hf hl, hverdict s rfl]
      simp [State.applyVerdict, Verdict.dest, Verdict.drives, hnottaken]

end Sys2Proof.Machine
end

section
/-! PROOF. The fields of the frames a station offers. -/

namespace Sys2Proof.Machine

/-- The frame offered for a source is its message, with the urgency of its counts. -/
theorem State.frameOf_eq_some {s : State} {src : Source} {f : Frame} :
    s.frameOf src = some f ↔ ∃ m c, s.messageOf src = some m ∧ s.countsOf src = some c ∧ f = m.frame c.urgent := by
  rw [State.frameOf]
  cases s.messageOf src with
  | none => simp
  | some m =>
    cases s.countsOf src with
    | none => simp
    | some c => simp [eq_comm]

/-- Every frame a station offers bears its number. -/
theorem State.messageOf_source {s : State} {src : Source} {m : Message} (h : s.messageOf src = some m) :
    m.source = s.mc.sid := by
  cases src with
  | sqHead =>
    obtain ⟨r, -, rfl⟩ := Option.map_eq_some_iff.1 h
    rfl
  | rqHead =>
    simp only [State.messageOf] at h
    split at h
    · obtain rfl := Option.some.inj h
      rfl
    · cases h
  | sync | bye | roster | evict d | release n | claim n =>
    obtain rfl := Option.some.inj h
    rfl

/-- The window words of a list of entries, two for each. -/
theorem flattenPairs_map (g : MapEntry → Word × Word) (es : List MapEntry) :
    flattenPairs (es.map g) = es.flatMap (fun e => [(g e).1, (g e).2]) := by
  induction es with
  | nil => rfl
  | cons e es ih => simp [flattenPairs, ih]

/-- A record is active in HELD and RELEASING. -/
@[simp] theorem WindowState.active_iff (st : WindowState) : st.active = true ↔ st = .held ∨ st = .releasing := by
  cases st <;> simp [WindowState.active]

/-- An entry is an active own one where a record HELD or RELEASING has its base. -/
theorem State.activeOwn_iff (s : State) (e : MapEntry) :
    s.activeOwn e = true ↔ e.owner = s.mc.sid ∧ ∃ n, (s.lpu.setup.slots.at n).base = e.base ∧
      ((s.wmu.own.at n).state = .held ∨ (s.wmu.own.at n).state = .releasing) := by
  simp [State.activeOwn, and_comm]

/-- The own entries a ROSTER lists. -/
def State.rosterEntries (s : State) : List MapEntry :=
  if s.mc.state = .syncing then [] else s.wmu.map.filter s.activeOwn

/-- The window words of a ROSTER are those of its entries. -/
theorem State.rosterPairs_words (s : State) :
    flattenPairs s.rosterPairs = s.rosterEntries.flatMap (fun e =>
      [e.base, e.size.setWidth 32 ||| (if e.writable then 0x80000000 else 0)]) := by
  simp only [State.rosterPairs, State.rosterEntries]
  split
  · rfl
  · exact flattenPairs_map _ _

/-- Outside SYNCING the entries are those of the map that are active own ones. -/
theorem State.rosterEntries_of_ne {s : State} (h : s.mc.state ≠ .syncing) :
    s.rosterEntries.Sublist s.wmu.map ∧ ∀ e ∈ s.wmu.map, e ∈ s.rosterEntries ↔
      e.owner = s.mc.sid ∧ ∃ n, (s.lpu.setup.slots.at n).base = e.base ∧
        ((s.wmu.own.at n).state = .held ∨ (s.wmu.own.at n).state = .releasing) := by
  rw [State.rosterEntries, if_neg h]
  refine ⟨List.filter_sublist, fun e he => ?_⟩
  rw [List.mem_filter, State.activeOwn_iff]
  exact and_iff_right he

/-- Settles O24: the frame is that of the source's message, whose kind gives class, code and body. -/
theorem offeredFrames : Obligations.OfferedFrames := by
  intro s src f hf
  obtain ⟨m, c, hm, hc, rfl⟩ := State.frameOf_eq_some.1 hf
  refine ⟨State.messageOf_source hm, rfl, fun c' hc' => ?_, ?_⟩
  · obtain rfl : c = c' := Option.some.inj (hc.symm.trans hc')
    rfl
  cases src with
  | sqHead =>
    obtain ⟨r, hr, rfl⟩ := Option.map_eq_some_iff.1 hm
    refine ⟨r, hr, ?_⟩
    cases r.body <;> simp [Message.frame, Content.kind, FrameKind.cls, FrameKind.code, Content.body, Content.sentTag]
  | rqHead =>
    simp only [State.messageOf] at hm
    split at hm
    · next d ds h hq hh =>
      obtain rfl := Option.some.inj hm
      refine ⟨d, h, by simp [hq], hh, rfl, ?_⟩
      cases d.work <;>
        simp [Message.frame, Content.kind, FrameKind.cls, FrameKind.code, Content.body, Content.sentTag, Work.content]
    · cases hm
  | roster =>
    obtain rfl := Option.some.inj hm
    refine ⟨rfl, rfl, rfl, rfl, s.rosterEntries, congrArg _ s.rosterPairs_words, fun h => if_pos h,
      State.rosterEntries_of_ne⟩
  | sync | bye | evict d | release n | claim n =>
    obtain rfl := Option.some.inj hm
    exact ⟨rfl, rfl, rfl, rfl, rfl⟩

end Sys2Proof.Machine
end

section
/-! PROOF. The slot a station drives, by the frame and its state, and where on the line it drives it. -/

namespace Sys2Proof.Machine

/-! ### The decision at the last check bit -/

/-- A frame understood has fewer than 32 body words. -/
theorem heard_body_length {p d : Station} {t : Tag} {c : Content} {m : Message} (h : heard p d t c = some m) :
    c.body.length < 32 := by
  obtain ⟨-, -, hlen, -⟩ := (Message.frame_message_isSome ⟨p, d, t, c⟩ false).1 (Option.isSome_iff_exists.2 ⟨m, h⟩)
  exact hlen

/-- At the last check bit that command c stands for the station decides: it counts n body words and drives the slots l. -/
def State.decidesTo (s : State) (c : Instr) (n : Nat) (l : Slots) : Prop :=
  ∃ t r, exec c s = .next t ∧ t.tif.receiver = .slots ∧ t.tif.rx = some r ∧ r.count.toNat = n ∧ t.drivesSlots = l

/-- The last check bit of a frame given by its fields, at a station that decides: the verdict gives the slot, the body the
count. -/
theorem State.decidesTo_of_fields {s : State} (h : s.decides) {c : Instr} {p d : Station} {t : Tag} {content : Content}
    (hexec : exec c s = .next (s.receive (Heard.ofFields p d t content) .lastCheckBit)) {m : Message}
    (hm : heard p d t content = some m) {l : Slots} (hl : (s.decide (some m)).drives = l) {n : Nat}
    (hn : content.body.length = n) : s.decidesTo c n l := by
  refine ⟨_, ⟨s.decide (some m), BitVec.ofNat 5 content.body.length, false, false, none⟩, hexec, ?_⟩
  rw [State.receive, State.rxDecide_of_decides h, Heard.ofFields_message, Heard.ofFields_count, hm]
  refine ⟨rfl, rfl, ?_, hl⟩
  have := heard_body_length hm
  simp only [BitVec.toNat_ofNat]
  omega

/-- A member that decides judges a frame addressed to it or to all stations. -/
theorem State.decide_addressed {s : State} (h : s.decides) (hm : s.mc.state.isMember = true) {m : Message}
    (hd : m.dest = s.mc.sid ∨ m.dest = allStations) : s.decide (some m) = s.decideAddressed m := by
  obtain ⟨-, -, -, -, hc, -⟩ := h
  rw [State.decide_some hc, if_neg (by simp [hm]), if_pos hd]

/-- A station that decides is silent on a frame for another station. -/
theorem State.decide_other {s : State} (h : s.decides) {m : Message} (hd : m.dest ≠ s.mc.sid)
    (ha : m.dest ≠ allStations) : s.decide (some m) = .silent m := by
  obtain ⟨-, -, -, -, hc, -⟩ := h
  rw [State.decide_some hc, if_neg (not_or.2 ⟨hd, ha⟩), ite_self]

/-- A station in SYNC_WAIT is silent on every well-formed frame. -/
theorem State.decide_syncWait {s : State} (h : s.decides) (hs : s.mc.state = .syncWait) (m : Message) :
    s.decide (some m) = .silent m := by
  obtain ⟨-, -, -, -, hc, -⟩ := h
  rw [State.decide_some hc, if_pos (by simp [hs, StationState.isMember])]

/-- A SIGNAL to a station of a number other than 0 or to all has a destination other than 0. -/
theorem signalDest_ne_zero {sid : Station} (h : sid ≠ 0#5) (broadcast : Bool) :
    (if broadcast then allStations else sid) ≠ 0#5 := by
  cases broadcast <;> simp [h]

/-- A CLAIM is refused where its window overlaps the map, the map is full, or its owner has four entries (R71). -/
theorem claimRefusedBy_iff (map : List MapEntry) (e : MapEntry) :
    claimRefusedBy map e = true ↔
      map.any (fun x => x.overlaps e) = true ∨ 64 ≤ map.length ∨ 4 ≤ map.countP (fun x => x.owner == e.owner) := by
  rw [claimRefusedBy, Bool.or_eq_true, Bool.or_eq_true, decide_eq_true_iff, decide_eq_true_iff, or_assoc]
  rfl

section
variable {s : State} {p : Station} (h : s.decides) (hm : s.mc.state.isMember = true)
include h

/-- A station that decides has RESET_N released and a number other than 0. -/
theorem State.decides_number : s.resetAsserted = false ∧ validStation s.mc.sid = true ∧ s.mc.sid ≠ 0#5 := by
  obtain ⟨hr, -, -, -, -, hsid⟩ := h
  exact ⟨hr, hsid, by intro e; simp [e, validStation] at hsid⟩

include hm

/-- A member accepts a SYNC, but one that bears its own number (R49). -/
theorem State.decidesTo_sync (hp : validStation p = true) :
    s.decidesTo (.syncReceived p .lastCheckBit) 0
      (if p = s.mc.sid then ⟨false, true, false⟩ else ⟨false, false, true⟩) := by
  obtain ⟨hr, -⟩ := State.decides_number h
  refine State.decidesTo_of_fields h (by simp only [exec, execSyncReceived, released, hr]; rfl) (heard_sync hp 0) ?_ rfl
  rw [State.decide_addressed h hm (Or.inr rfl)]
  exact apply_ite Verdict.drives _ _ _

/-- A member accepts a CLAIM whose window finds its place in the map (R71). -/
theorem State.decidesTo_claim (hp : validStation p = true) {b d : Word} (hw : windowWellFormed b d = true) :
    s.decidesTo (.claimReceived p b d .lastCheckBit) 2
      (if s.wmu.map.any (fun x => x.overlaps ⟨b, d.setWidth 5, d.getLsbD 31, p⟩) = true ∨ 64 ≤ s.wmu.map.length ∨
          4 ≤ s.wmu.map.countP (fun x => x.owner == p)
        then ⟨false, true, false⟩ else ⟨false, false, true⟩) := by
  obtain ⟨hr, -⟩ := State.decides_number h
  refine State.decidesTo_of_fields h (by simp only [exec, execClaimReceived, released, hr]; rfl) (heard_claim hp hw 0) ?_
    rfl
  rw [State.decide_addressed h hm (Or.inr rfl)]
  exact (apply_ite Verdict.drives _ _ _).trans (if_congr (claimRefusedBy_iff _ _) rfl rfl)

/-- A member accepts an EVICT, but one of itself (R92). -/
theorem State.decidesTo_evict (hp : validStation p = true) {d : Station} (hd : validStation d = true) (hne : d ≠ p) :
    s.decidesTo (.evictReceived p (d.setWidth 32) .lastCheckBit) 1
      (if d = s.mc.sid then ⟨false, true, false⟩ else ⟨false, false, true⟩) := by
  obtain ⟨hr, -⟩ := State.decides_number h
  refine State.decidesTo_of_fields h (by simp only [exec, execEvictReceived, released, hr]; rfl) (heard_evict hp hd hne 0)
    ?_ rfl
  rw [State.decide_addressed h hm (Or.inr rfl)]
  exact (apply_ite Verdict.drives _ _ _).trans (if_congr (by rw [setWidth_stationWord]) rfl rfl)

/-- A member accepts every ROSTER (R51). -/
theorem State.decidesTo_roster {w : Word} {ps : List (Word × Word)}
    (hw : (Instr.rosterReceived p w ps .lastCheckBit).wellFormed = true) :
    s.decidesTo (.rosterReceived p w ps .lastCheckBit) (1 + 2 * ps.length) ⟨false, false, true⟩ := by
  obtain ⟨hr, -⟩ := State.decides_number h
  refine State.decidesTo_of_fields h (by simp only [exec, execRosterReceived, released, hr]; rfl) (heard_of_passes hw) ?_
    (by simp [Content.body, flattenPairs_length, Nat.add_comm])
  rw [State.decide_addressed h hm (Or.inr rfl)]
  rfl

/-- A member accepts every RELEASE (R74). -/
theorem State.decidesTo_release (hp : validStation p = true) {b : Word} (hb : 4096 ∣ b.toNat) :
    s.decidesTo (.releaseReceived p b .lastCheckBit) 1 ⟨false, false, true⟩ := by
  obtain ⟨hr, -⟩ := State.decides_number h
  refine State.decidesTo_of_fields h (by simp only [exec, execReleaseReceived, released, hr]; rfl) (heard_release hp hb 0)
    ?_ rfl
  rw [State.decide_addressed h hm (Or.inr rfl)]
  rfl

/-- A member accepts every BYE (R95). -/
theorem State.decidesTo_bye (hp : validStation p = true) :
    s.decidesTo (.byeReceived p .lastCheckBit) 0 ⟨false, false, true⟩ := by
  obtain ⟨hr, -⟩ := State.decides_number h
  refine State.decidesTo_of_fields h (by simp only [exec, execByeReceived, released, hr]; rfl) (heard_bye hp 0) ?_ rfl
  rw [State.decide_addressed h hm (Or.inr rfl)]
  rfl

/-- A member accepts every response addressed to it (R120). -/
theorem State.decidesTo_response {tag : Tag} {b : ResponseBody}
    (hw : (Instr.responseReceived p tag b .lastCheckBit).wellFormed = true) :
    s.decidesTo (.responseReceived p tag b .lastCheckBit) (Content.response b).body.length ⟨false, false, true⟩ := by
  obtain ⟨hr, hsid, -⟩ := State.decides_number h
  have hk : (Content.response b).kind.cls = 0 := by cases b <;> rfl
  refine State.decidesTo_of_fields h (by simp only [exec, execResponseReceived, released, hr]; rfl)
    (heard_of_passes_to hw (Or.inl hk) hsid) ?_ rfl
  rw [State.decide_addressed h hm (Or.inl rfl)]
  rfl

/-- A member accepts a SIGNAL for which the NQ has room (R153). -/
theorem State.decidesTo_signal (hp : validStation p = true) (broadcast : Bool) (v : Word) :
    s.decidesTo (.signalReceived p broadcast v .lastCheckBit) 1
      (if s.isu.nq.length < 8 then ⟨false, false, true⟩ else ⟨false, true, false⟩) := by
  obtain ⟨hr, -, hsid0⟩ := State.decides_number h
  have hd := signalDest_ne_zero hsid0 broadcast
  refine State.decidesTo_of_fields h (by simp only [exec, execSignalReceived, released, hr]; rfl) (heard_signal hp hd 0 v)
    ?_ rfl
  rw [State.decide_addressed h hm (by cases broadcast <;> simp)]
  exact apply_ite Verdict.drives _ _ _

omit hm in
/-- A station drives no slot on a frame for another station (R19). -/
theorem State.decidesTo_other {d : Station} {u : UnicastBody}
    (hw : (Instr.frameForAnotherStation p d u .lastCheckBit).wellFormed = true) (hd : d ≠ s.mc.sid) :
    s.decidesTo (.frameForAnotherStation p d u .lastCheckBit) u.content.body.length Slots.none := by
  obtain ⟨hr, -⟩ := State.decides_number h
  simp only [Instr.wellFormed, Bool.and_eq_true] at hw
  have ha : d ≠ allStations := by rintro rfl; simp [validStation] at hw
  refine State.decidesTo_of_fields h (by simp only [exec, execFrameForAnotherStation, released, hr]; rfl)
    (heard_of_passes hw.2) ?_ rfl
  rw [State.decide_other h hd ha]
  rfl

end

/-- A row of a received frame that its operands can have, other than sampled bits, is understood at a station of a valid
number. -/
theorem exec_of_wellFormed {c : Instr} {m : RxMoment} (hc : c.moment = some m) (hw : c.wellFormed = true)
    (hbits : ∀ bits periods m, c ≠ .malformedFrame bits periods m) {s : State} (hr : s.resetAsserted = false)
    (hsid : validStation s.mc.sid = true) :
    ∃ x : Heard, exec c s = .next (s.receive x m) ∧ x.message.isSome = true := by
  have hsid0 : s.mc.sid ≠ 0#5 := by intro e; simp [e, validStation] at hsid
  have hrow : ∀ (d : Station) (tag : Tag) (p : Station) (content : Content),
      exec c s = .next (s.receive (Heard.ofFields p d tag content) m) → (heard p d tag content).isSome = true →
      ∃ x : Heard, exec c s = .next (s.receive x m) ∧ x.message.isSome = true := fun _ _ _ _ he hh => ⟨_, he, hh⟩
  cases c with
  | malformedFrame bits periods m' => exact absurd rfl (hbits bits periods m')
  | requestReceived p tag b m' =>
    obtain rfl := Option.some.inj hc
    have hk : (Content.request b).kind.cls = 2 := by cases b <;> rfl
    exact hrow s.mc.sid tag p (.request b) (by simp only [exec, execRequestReceived, released, hr]; rfl)
      (by rw [heard_of_passes_to hw (Or.inr (Or.inl hk)) hsid]; rfl)
  | responseReceived p tag b m' =>
    obtain rfl := Option.some.inj hc
    have hk : (Content.response b).kind.cls = 0 := by cases b <;> rfl
    exact hrow s.mc.sid tag p (.response b) (by simp only [exec, execResponseReceived, released, hr]; rfl)
      (by rw [heard_of_passes_to hw (Or.inl hk) hsid]; rfl)
  | signalReceived p broadcast v m' =>
    obtain rfl := Option.some.inj hc
    have hp : validStation p = true := ((Message.frame_message_isSome _ _).1 hw).1
    exact hrow (if broadcast then allStations else s.mc.sid) 0 p (.signal v)
      (by simp only [exec, execSignalReceived, released, hr]; rfl)
      (by rw [heard_signal hp (signalDest_ne_zero hsid0 broadcast)]; rfl)
  | frameForAnotherStation p d u m' =>
    obtain rfl := Option.some.inj hc
    simp only [Instr.wellFormed, Bool.and_eq_true] at hw
    exact hrow d u.tag p u.content (by simp only [exec, execFrameForAnotherStation, released, hr]; rfl) (by rw [heard_of_passes hw.2]; rfl)
  | syncReceived p m' | rosterReceived p w ps m' | claimReceived p b d m' | releaseReceived p b m'
  | evictReceived p w m' | byeReceived p m' =>
    obtain rfl := Option.some.inj hc
    exact hrow allStations 0 p _ (by
      simp only [exec, execSyncReceived, execRosterReceived, execClaimReceived, execReleaseReceived, execEvictReceived,
        execByeReceived, released, hr]; rfl) (by rw [heard_of_passes hw]; rfl)
  | _ => cases hc

/-! ### The transmitter's own last check bit -/

/-- The row of an own frame's last check bit is that edge for a set of sources that holds the frame's own. -/
theorem Source.exec_row_lastCheckBit (src : Source) :
    ∃ q : Source → Bool, q src = true ∧
      ∀ s, exec (src.row .lastCheckBit) s = released (State.ownLastCheckBit q) s := by
  cases src with
  | sqHead => exact ⟨(· == .sqHead), rfl, fun _ => rfl⟩
  | sync => exact ⟨(· == .sync), rfl, fun _ => rfl⟩
  | bye => exact ⟨(· == .bye), rfl, fun _ => rfl⟩
  | roster => exact ⟨(· == .roster), rfl, fun _ => rfl⟩
  | rqHead => exact ⟨(· == .rqHead), rfl, fun _ => rfl⟩
  | evict d => exact ⟨Source.isEvict, rfl, fun _ => rfl⟩
  | release n => exact ⟨Source.isRelease, rfl, fun _ => rfl⟩
  | claim n => exact ⟨Source.isClaim, rfl, fun _ => rfl⟩

/-- A frame in flight, with its work or without. -/
theorem State.flight_of_sends {s : State} {src : Source} {f : Frame} (h : s.sends src f ∨ s.sendsForNobody src f) :
    s.resetAsserted = false ∧ ∃ gone, s.tif.flight = some ⟨src, f, gone⟩ := by
  rcases h with ⟨hr, hf⟩ | ⟨hr, gone, hf, -⟩
  · exact ⟨hr, false, hf⟩
  · exact ⟨hr, gone, hf⟩

/-! ### The line -/

/-- A frame of n body words has 43 + 32 n bits behind its start bit. -/
theorem Frame.bits_length (f : Frame) : f.bits.length = 43 + 32 * f.body.length := by
  have hbody : (bodyBits f.body).length = 32 * f.body.length := by
    induction f.body with
    | nil => rfl
    | cons w ws ih =>
      have hcons : bodyBits (w :: ws) = bitsOf w ++ bodyBits ws := by simp [bodyBits]
      simp only [hcons, List.length_append, bitsOf_length, ih, List.length_cons]
      omega
  simp only [Frame.bits, Frame.coveredBits, Frame.headerBits, List.length_append, bitsOf_length, hbody]
  omega

/-- A transmitter has no bit from the ERROR slot on. -/
theorem Frame.bitAt_trailer {f : Frame} {p : Nat} (h : 44 + 32 * f.body.length ≤ p) : f.bitAt p = none := by
  rw [Frame.bitAt, List.getElem?_eq_none]
  simp only [List.length_cons, Frame.bits_length]
  omega

/-- A listener drives TDAT dominant in the slots of its verdict, which the count received places. -/
theorem State.drivesTdat_listener {s : State} {r : Reception} (hf : s.tif.flight = none) (hx : s.tif.rx = some r)
    (p : Nat) :
    s.drivesTdat p = true ↔
      (p = 44 + 32 * r.count.toNat ∧ s.drivesSlots.error = true) ∨
      (p = 45 + 32 * r.count.toNat ∧ s.drivesSlots.reject = true) ∨
      (p = 46 + 32 * r.count.toNat ∧ s.drivesSlots.accept = true) := by
  have hreject : rejectPosition r.count = 45 + 32 * r.count.toNat := by simp only [rejectPosition, errorPosition]; omega
  have haccept : acceptPosition r.count = 46 + 32 * r.count.toNat := by simp only [acceptPosition, errorPosition]; omega
  simp [State.drivesTdat, State.drivesSlots, hf, hx, hreject, haccept, errorPosition, or_assoc]

/-- Settles O36: the decision by kind and state, the edge without one at a station that does not listen and at a transmitter,
and the positions of the slots on the line. -/
theorem slotDriven : Obligations.SlotDriven := by
  refine ⟨?_, ?_, ?_, ?_, ?_, ?_, ?_, fun s r hf hx => State.drivesTdat_listener hf hx⟩
  · intro s p h hp hm
    exact ⟨State.decidesTo_sync h hm hp, fun b d hw => State.decidesTo_claim h hm hp hw,
      fun d hd hne => State.decidesTo_evict h hm hp hd hne, fun w ps hw => State.decidesTo_roster h hm hw,
      fun b hb => State.decidesTo_release h hm hp hb, State.decidesTo_bye h hm hp, fun tag b hw => State.decidesTo_response h hm hw,
      fun broadcast v => State.decidesTo_signal h hm hp broadcast v, fun d u hw hd => State.decidesTo_other h hw hd⟩
  · intro s c h hs hc hw hbits
    obtain ⟨hr, -, -, -, -, hsid⟩ := id h
    obtain ⟨x, hexec, hsome⟩ := exec_of_wellFormed hc hw hbits hr hsid
    obtain ⟨m, hm⟩ := Option.isSome_iff_exists.1 hsome
    refine ⟨_, hexec, ?_⟩
    rw [State.receive, State.rxDecide_of_decides h, hm, State.decide_syncWait h hs]
    exact ⟨rfl, rfl⟩
  · intro s c hr hl hreceiving hf hc
    obtain ⟨x, hexec⟩ := exec_of_moment hc hr
    rw [hexec]
    simp [State.receive, State.rxDecide, hreceiving, hf, hl]
  · intro s src f h hreceiving
    obtain ⟨hr, gone, hf⟩ := State.flight_of_sends h
    obtain ⟨q, hq, hexec⟩ := src.exec_row_lastCheckBit
    simp [hexec, released, hr, State.ownLastCheckBit_of_flight hf hq hreceiving]
  · intro s src hreceiving
    obtain ⟨q, -, hexec⟩ := src.exec_row_lastCheckBit
    simp [hexec, released, State.ownLastCheckBit, hreceiving]
  · intro s src f h hcount
    obtain ⟨-, gone, hf⟩ := State.flight_of_sends h
    have hline : ∀ p, s.drivesTdat p = (f.bitAt p == some false) := fun p => by simp [State.drivesTdat, hf]
    refine ⟨fun p => by simp [hline], fun p hp => ?_, by simp [State.drivesTclk, hf]⟩
    rw [hline, Frame.bitAt_trailer (hcount ▸ hp)]
    rfl
  · intro s hf hx p
    simp [State.drivesTdat, hf, hx]

end Sys2Proof.Machine
end

section
/-! PROOF. A malformed frame: by its check, its clock or its fields, and what a listener does with it. -/

namespace Sys2Proof

/-! ### The conditions on the fields (R10 to R12, R15) -/

/-- The conditions on a window in a frame fail: the size code is above 18 or the base no multiple of the size. -/
def windowMalformed (b d : Word) : Prop := 18 < d.toNat % 32 ∨ b.toNat % (4096 * 2 ^ (d.toNat % 32)) ≠ 0

/-- A window is malformed exactly where it is not well formed. -/
theorem windowWellFormed_eq_false (b d : Word) : windowWellFormed b d = false ↔ windowMalformed b d := by
  have hsize : (sizeCodeOf d).toNat = d.toNat % 32 := by simp [sizeCodeOf]
  rw [windowWellFormed, windowSize, hsize, windowMalformed, Bool.and_eq_false_iff, decide_eq_false_iff_not, not_le,
    beq_eq_false_iff_ne]

/-- The numbers that are no station's. -/
theorem validStation_eq_false (p : Station) : validStation p = false ↔ p = 0 ∨ p = 31 := by
  revert p; decide

/-- The destinations out of the range of a kind. -/
theorem FrameKind.destInRange_eq_false (k : FrameKind) (d : Station) :
    k.destInRange d = false ↔ d = 0 ∨ (k.cls = 1 ∧ d ≠ 31) ∨ ((k.cls = 0 ∨ k.cls = 2) ∧ d = 31) := by
  revert d; cases k <;> decide

/-- A kind that a code names has that code. -/
theorem FrameKind.eq_code_of_ofCode {c : BitVec 4} {k : FrameKind} (h : FrameKind.ofCode c = some k) : c = k.code := by
  have := List.find?_some h
  exact (beq_iff_eq.1 this).symm

/-- The codes that name no kind. -/
theorem FrameKind.ofCode_eq_none (c : BitVec 4) :
    FrameKind.ofCode c = none ↔ c.toNat = 3 ∨ c.toNat = 14 ∨ c.toNat = 15 := by
  revert c; decide

/-- A body that a frame of kind k from this source cannot have: its count or one of its words is out of range. -/
def FrameKind.refuses (k : FrameKind) (source : Station) (body : List Word) : Prop :=
  ∀ c, readContent k body = some c → c.inRange source = false

/-- A frame of an assigned kind is malformed by its class, its source, its destination or its body. -/
theorem Frame.message_eq_none_of_kind {f : Frame} {k : FrameKind} (hk : FrameKind.ofCode f.kind = some k)
    (hcount : f.count.toNat = f.body.length) :
    f.message = none ↔ f.cls ≠ k.cls ∨ validStation f.source = false ∨ k.destInRange f.dest = false ∨
      k.refuses f.source f.body := by
  rw [Option.eq_none_iff_forall_ne_some]
  simp only [ne_eq, Frame.message_eq_some, hk, Option.some.injEq]
  constructor
  · intro h
    by_contra hn
    simp only [not_or, not_not, Bool.not_eq_false, FrameKind.refuses, not_forall] at hn
    obtain ⟨hcls, hsource, hdest, c, hc, hrange⟩ := hn
    exact h _ ⟨k, c, rfl, hcls, hsource, hdest, hcount, hc, hrange, rfl⟩
  · rintro h x ⟨k', c, rfl, hcls, hsource, hdest, -, hc, hrange, -⟩
    rcases h with h | h | h | h
    · exact h hcls
    · simp [hsource] at h
    · simp [hdest] at h
    · simp [h c hc] at hrange

/-- A kind of no body words refuses any. -/
theorem readNone_refuses {k : FrameKind} {c : Content} (hk : readContent k = readNone c) {p : Station}
    (hc : c.inRange p = true) (body : List Word) : k.refuses p body ↔ body.length ≠ 0 := by
  rw [FrameKind.refuses, hk]
  cases body <;> simp [readNone, hc]

/-- A kind of one body word refuses every other number of them, and a word out of range. -/
theorem readOne_refuses {k : FrameKind} {g : Word → Content} (hk : readContent k = readOne g) (p : Station)
    (body : List Word) : k.refuses p body ↔ body.length ≠ 1 ∨ ∃ w, body = [w] ∧ (g w).inRange p = false := by
  rw [FrameKind.refuses, hk]
  rcases body with - | ⟨a, - | ⟨b, ws⟩⟩ <;> simp [readOne]

/-- A kind of two body words refuses every other number of them, and words out of range. -/
theorem readTwo_refuses {k : FrameKind} {g : Word → Word → Content} (hk : readContent k = readTwo g) (p : Station)
    (body : List Word) :
    k.refuses p body ↔ body.length ≠ 2 ∨ ∃ a b, body = [a, b] ∧ (g a b).inRange p = false := by
  rw [FrameKind.refuses, hk]
  rcases body with - | ⟨a, - | ⟨b, - | ⟨c, ws⟩⟩⟩ <;> simp [readTwo]

/-- A kind of an address and data refuses bodies of fewer than 2 or more than 17 words, and an address out of range. -/
theorem readData_refuses {k : FrameKind} {g : Word → List Word → Content} (hk : readContent k = readData g)
    (p : Station) (body : List Word) :
    k.refuses p body ↔
      ¬(2 ≤ body.length ∧ body.length ≤ 17) ∨ ∃ a ds, body = a :: ds ∧ (g a ds).inRange p = false := by
  rw [FrameKind.refuses, hk]
  cases body with
  | nil => simp [readData]
  | cons a ds =>
    by_cases hl : 1 ≤ ds.length ∧ ds.length ≤ 16
    · have : 2 ≤ ds.length + 1 ∧ ds.length + 1 ≤ 17 := by omega
      simp [readData, hl, this]
    · have : ¬(2 ≤ ds.length + 1 ∧ ds.length + 1 ≤ 17) := by omega
      exact iff_of_true (by simp [readData, hl]) (Or.inl this)

/-- Words are window pairs exactly where their number is even. -/
theorem readPairs_eq_some (ws : List Word) (ps : List (Word × Word)) :
    readPairs ws = some ps ↔ ws = flattenPairs ps := by
  constructor
  · intro h
    induction ws using readPairs.induct generalizing ps with
    | case1 => obtain rfl := Option.some.inj h; rfl
    | case2 => cases h
    | case3 b d ws ih =>
      obtain ⟨qs, hq, rfl⟩ := Option.map_eq_some_iff.1 h
      rw [flattenPairs, ← ih qs hq]
  · rintro rfl
    exact readPairs_flattenPairs ps

/-- An even number of words are window pairs. -/
theorem exists_flattenPairs {ws : List Word} (h : ws.length % 2 = 0) : ∃ ps, ws = flattenPairs ps := by
  induction ws using readPairs.induct with
  | case1 => exact ⟨[], rfl⟩
  | case2 w => cases h
  | case3 b d ws ih =>
    obtain ⟨ps, rfl⟩ := ih (by simp only [List.length_cons] at h; omega)
    exact ⟨(b, d) :: ps, rfl⟩

/-- A ROSTER refuses bodies of an even number or of more than 9 words, and a window malformed. -/
theorem roster_refuses (p : Station) (body : List Word) :
    FrameKind.roster.refuses p body ↔ ¬(body.length % 2 = 1 ∧ body.length ≤ 9) ∨
      ∃ w ps, body = w :: flattenPairs ps ∧ ∃ x ∈ ps, windowMalformed x.1 x.2 := by
  simp only [FrameKind.refuses, readContent]
  cases body with
  | nil => simp [readRoster]
  | cons w ws =>
    by_cases hl : ws.length ≤ 8 ∧ ws.length % 2 = 0
    · obtain ⟨ps, rfl⟩ := exists_flattenPairs hl.2
      have hflat : ∀ qs : List (Word × Word), flattenPairs ps = flattenPairs qs ↔ qs = ps := by
        intro qs
        rw [← readPairs_eq_some, readPairs_flattenPairs]
        simp [eq_comm]
      have hlen : ((flattenPairs ps).length + 1) % 2 = 1 ∧ (flattenPairs ps).length + 1 ≤ 9 := by omega
      simp [readRoster, hl.1, hlen, hflat, Content.inRange, windowWellFormed_eq_false]
    · have hodd : ¬((ws.length + 1) % 2 = 1 ∧ ws.length + 1 ≤ 9) := by omega
      have hnone : readRoster (w :: ws) = none := by
        rw [readRoster]
        split
        · next h8 =>
          rw [Option.map_eq_none_iff, Option.eq_none_iff_forall_ne_some]
          intro ps hps
          rw [readPairs_eq_some] at hps
          rw [hps, Machine.flattenPairs_length] at hl h8
          omega
        · rfl
      exact iff_of_true (by simp [hnone]) (Or.inl hodd)

/-- The bodies each kind refuses, by its code (R10 to R12, R15). -/
theorem FrameKind.refuses_iff {kind : FrameKind} {k : Nat} (hk : kind.code.toNat = k) (p : Station) {body : List Word}
    {n : Nat} (hn : body.length = n) :
    kind.refuses p body ↔
      (k = 0 ∧ ¬(1 ≤ n ∧ n ≤ 16)) ∨ ((k = 1 ∨ k = 4 ∨ k = 9) ∧ n ≠ 0) ∨
      ((k = 2 ∨ k = 7 ∨ k = 8 ∨ k = 13) ∧ n ≠ 1) ∨ ((k = 6 ∨ k = 10) ∧ n ≠ 2) ∨
      ((k = 11 ∨ k = 12) ∧ ¬(2 ≤ n ∧ n ≤ 17)) ∨ (k = 5 ∧ ¬(n % 2 = 1 ∧ n ≤ 9)) ∨
      (k = 6 ∧ ∃ b d, body = [b, d] ∧ windowMalformed b d) ∨
      (k = 5 ∧ ∃ w ps, body = w :: flattenPairs ps ∧ ∃ x ∈ ps, windowMalformed x.1 x.2) ∨
      (k = 7 ∧ ∃ b, body = [b] ∧ b.toNat % 4096 ≠ 0) ∨
      (k = 8 ∧ ∃ w, body = [w] ∧ (w.toNat = 0 ∨ 30 < w.toNat ∨ w.toNat = p.toNat)) ∨
      (k = 10 ∧ ∃ a l, body = [a, l] ∧ (a.toNat % 4 ≠ 0 ∨ l.toNat = 0 ∨ 16 < l.toNat)) ∨
      ((k = 11 ∨ k = 12) ∧ ∃ a ds, body = a :: ds ∧ a.toNat % 4 ≠ 0) := by
  have hdata : FrameKind.data.refuses p body ↔ ¬(1 ≤ body.length ∧ body.length ≤ 16) := by
    by_cases hl : 1 ≤ body.length ∧ body.length ≤ 16
    · simp [FrameKind.refuses, readContent, hl, Content.inRange]
    · exact iff_of_true (by simp [FrameKind.refuses, readContent, hl]) hl
  have hwords : ∀ w : Word, (Content.evict w).inRange p = false ↔
      w.toNat = 0 ∨ 30 < w.toNat ∨ w.toNat = p.toNat := by
    intro w
    simp only [Content.inRange, Bool.and_eq_false_iff, decide_eq_false_iff_not, bne_eq_false_iff_eq]
    omega
  have hread : ∀ a l : Word, (Content.request (.read a l)).inRange p = false ↔
      a.toNat % 4 ≠ 0 ∨ l.toNat = 0 ∨ 16 < l.toNat := by
    intro a l
    simp only [Content.inRange, wordAligned, Bool.and_eq_false_iff, decide_eq_false_iff_not, beq_eq_false_iff_ne]
    omega
  subst hk hn
  cases kind with
  | data => simpa [FrameKind.code] using hdata
  | done => simpa [FrameKind.code] using readNone_refuses (k := .done) rfl (p := p) rfl body
  | sync => simpa [FrameKind.code] using readNone_refuses (k := .sync) rfl (p := p) rfl body
  | bye => simpa [FrameKind.code] using readNone_refuses (k := .bye) rfl (p := p) rfl body
  | fail => simpa [FrameKind.code, Content.inRange] using readOne_refuses (k := .fail) rfl p body
  | signal => simpa [FrameKind.code, Content.inRange] using readOne_refuses (k := .signal) rfl p body
  | roster => simpa [FrameKind.code] using roster_refuses p body
  | claim =>
    simpa [FrameKind.code, Content.inRange, windowWellFormed_eq_false] using readTwo_refuses (k := .claim) rfl p body
  | release => simpa [FrameKind.code, Content.inRange] using readOne_refuses (k := .release) rfl p body
  | evict => simpa [FrameKind.code, hwords] using readOne_refuses (k := .evict) rfl p body
  | read => simpa [FrameKind.code, hread] using readTwo_refuses (k := .read) rfl p body
  | write => simpa [FrameKind.code, Content.inRange, wordAligned] using readData_refuses (k := .write) rfl p body
  | cwrite => simpa [FrameKind.code, Content.inRange, wordAligned] using readData_refuses (k := .cwrite) rfl p body

/-- Everything a kind asks of the class, the source and the destination, by its code. -/
theorem FrameKind.header_iff {kind : FrameKind} {k : Nat} (hk : kind.code.toNat = k) (cls : BitVec 2)
    (source dest : Station) :
    (cls ≠ kind.cls ∨ validStation source = false ∨ kind.destInRange dest = false) ↔
      (k ≤ 2 ∧ cls ≠ 0) ∨ (4 ≤ k ∧ k ≤ 9 ∧ cls ≠ 1) ∨ (10 ≤ k ∧ k ≤ 12 ∧ cls ≠ 2) ∨ (k = 13 ∧ cls ≠ 3) ∨
      source = 0 ∨ source = 31 ∨ dest = 0 ∨ (4 ≤ k ∧ k ≤ 9 ∧ dest ≠ 31) ∨
      ((k ≤ 2 ∨ (10 ≤ k ∧ k ≤ 12)) ∧ dest = 31) := by
  subst hk
  rw [validStation_eq_false, FrameKind.destInRange_eq_false]
  cases kind <;> simp [FrameKind.code, FrameKind.cls, or_assoc]

namespace Machine

/-! ### What a listener does with a malformed frame -/

/-- A period out of tolerance, in the words of the statements (R4). -/
theorem periodInTolerance_eq_false (bt x : Nat) :
    periodInTolerance bt x = false ↔ 4 * x < 3 * bt ∨ 3 * bt < 2 * x := by
  rw [← Bool.not_eq_true, periodInTolerance_iff]
  omega

/-- The period measured last before the edge at bit p is the one that ends there. -/
theorem periodHeld_eq_false {bt x p : Nat} {periods : List Nat} (hx : periods[p]? = some x)
    (h : periodInTolerance bt x = false) : periodHeld bt periods (p + 1) = false := by
  simp [periodHeld, hx, h]

/-- What a station hears of sampled bits: whether anything is understood at the last check bit depends on the check, on the
periods up to there and on the fields. -/
theorem State.heardBits_of_read {s : State} {bits : List Bool} {f : Frame} {c : BitVec 16}
    (hread : Frame.read bits = some (f, c)) (periods : List Nat) :
    ∃ x, s.heardBits bits periods = some x ∧ x.count = f.count ∧
      x.message = understand (Config.bitTimeNs s.tif.rate) f c (periods.take (43 + 32 * f.count.toNat)) ∧
      x.errorClock = periodHeld (Config.bitTimeNs s.tif.rate) periods (43 + 32 * f.count.toNat + 1) ∧
      x.rejectClock = periodHeld (Config.bitTimeNs s.tif.rate) periods (43 + 32 * f.count.toNat + 1 + 1) ∧
      x.acceptClock = periodHeld (Config.bitTimeNs s.tif.rate) periods (43 + 32 * f.count.toNat + 2 + 1) := by
  have herror : errorPosition f.count = 43 + 32 * f.count.toNat + 1 := by simp only [errorPosition]; omega
  refine ⟨_, by rw [State.heardBits, hread]; rfl, rfl, ?_, ?_, ?_, ?_⟩
  all_goals simp only [acceptPosition, rejectPosition, herror, Nat.add_sub_cancel]

/-- Bits that reach the last check bit are received as what is heard of them. -/
theorem exec_malformedFrame_heard {s : State} {bits : List Bool} {periods : List Nat} {x : Heard}
    (hx : s.heardBits bits periods = some x) (hr : s.resetAsserted = false) (moment : RxMoment) :
    exec (.malformedFrame bits periods moment) s = .next (s.receive x moment) := by
  simp [exec, execMalformedFrame, released, hr, State.receiveBits, hx]

/-- A check that fails, a period out of tolerance or a field malformed: nothing is understood (R15). -/
theorem understand_eq_none {bt : Nat} {f : Frame} {c : BitVec 16} {periods : List Nat}
    (h : crc16 f.coveredBits ≠ c ∨ (∃ x ∈ periods, periodInTolerance bt x = false) ∨ f.message = none) :
    understand bt f c periods = none := by
  rw [understand]
  split
  · next hc =>
    simp only [Bool.and_eq_true, beq_iff_eq, List.all_eq_true] at hc
    rcases h with h | ⟨x, hx, h⟩ | h
    · exact absurd hc.1 h
    · simp [hc.2 x hx] at h
    · exact h
  · rfl

/-- A whole frame of which nothing is understood leaves the receiver UNSYNCED and nothing else, whether the station listens or
not. -/
theorem State.receive_whole_malformed {s : State} {x : Heard} (hx : x.message = none) (others : Slots)
    (hr : s.tif.receiver = .ready) (hf : s.tif.flight = none) :
    s.receive x (.whole others) = { s with tif := s.tif.heard } := by
  cases hl : s.mc.state.isListening with
  | false => exact State.receive_whole_deaf x others hr hf hl
  | true =>
    rw [State.receive_whole x others hr hf hl, hx]
    rfl

/-- A period out of tolerance found at an early slot is marked on a reception that had none before. -/
theorem State.rxSlot_late {s : State} {r : Reception} {x : Heard} {slot : EarlySlot} (hr : s.tif.receiver = .slots)
    (hf : s.tif.flight = none) (hx : s.tif.rx = some r) (hlate : r.late = none) (hc : x.clockAt slot = false) :
    s.rxSlot x slot = { s with tif := { s.tif with rx := some { r with late := some slot } } } := by
  simp [State.rxSlot, hr, hf, hc, hx, hlate]

/-- The end of the trailer of a frame found out of tolerance in it: nothing is applied, and one that was accepted holds a FLUSH
no more (R15, R163). -/
theorem State.rxEnd_late {s : State} {r : Reception} {x : Heard} (others : Slots) (hr : s.tif.receiver = .slots)
    (hf : s.tif.flight = none) (hx : s.tif.rx = some r) (hspent : s.tif.spent = none)
    (hlate : r.late.isSome = true ∨ x.clockHeld = false) :
    let ended : State := { s with tif := { s.tif with receiver := .unsynced, rx := none, collidedHere := false } }
    ((∃ m p, r.verdict = .accept m p) → s.rxEnd x others = ended.flushTested) ∧
    ((∀ m p, r.verdict ≠ .accept m p) → s.rxEnd x others = ended) := by
  rw [State.rxEnd_of_slots x others hr hf hx hspent, State.takesAtEnd_late hlate, State.applyVerdict]
  refine ⟨?_, fun hv => ?_⟩
  · rintro ⟨m, p, hv⟩
    rw [hv]
    exact State.testFlush_eq_flushTested _
  · split
    · next m p he => exact absurd he (hv m p)
    all_goals rfl

/-- Settles O45: what is understood of the bits, the marks of the trailer's periods, and R15's conditions kind by kind. -/
theorem malformedFrame : Obligations.MalformedFrame := by
  refine ⟨fun s bits periods f c hread => ?_, fun s c r others hreset hr hf hspent hx hlate hc => ?_, fun f hcount => ?_⟩
  · intro bt out n row ended
    have hout : ∀ x, out x ↔ periodInTolerance bt x = false := fun x => (periodInTolerance_eq_false bt x).symm
    obtain ⟨x, hheard, hxcount, hxmessage, herror, hreject, haccept⟩ := State.heardBits_of_read (s := s) hread periods
    have hrow := exec_malformedFrame_heard hheard
    refine ⟨fun hbad => ?_, fun r hreset hr hf hx => ⟨fun hlate hp => ?_, fun hlate hp => ?_, fun hspent hp others => ?_⟩⟩
    · have hnone : x.message = none := by
        rw [hxmessage]
        exact understand_eq_none (by simpa only [hout] using hbad)
      refine ⟨fun h => ?_, fun hreset hr hf others => ?_⟩
      · refine ⟨_, hrow h.1 _, ?_, ?_⟩ <;> rw [State.receive, State.rxDecide_of_decides h, hnone, hxcount]
        all_goals rfl
      · rw [hrow hreset, State.receive_whole_malformed hnone others hr hf]
    · obtain ⟨y, hy, hbad⟩ := hp
      have hclock : x.clockAt .error = false := herror.trans (periodHeld_eq_false hy ((hout y).1 hbad))
      exact ⟨(hrow hreset _).trans (congrArg _ (State.rxSlot_late hr hf hx hlate hclock)), rfl⟩
    · obtain ⟨y, hy, hbad⟩ := hp
      have hclock : x.clockAt .reject = false := hreject.trans (periodHeld_eq_false hy ((hout y).1 hbad))
      exact ⟨(hrow hreset _).trans (congrArg _ (State.rxSlot_late hr hf hx hlate hclock)), rfl⟩
    · have hclock : x.clockHeld = false := by
        obtain ⟨i, y, hi, hy, hbad⟩ := hp
        have hheld := periodHeld_eq_false hy ((hout y).1 hbad)
        rw [Heard.clockHeld, herror, hreject, haccept]
        have hcases : i = 0 ∨ i = 1 ∨ i = 2 := by omega
        rcases hcases with rfl | rfl | rfl
        · simp [show periodHeld (Config.bitTimeNs s.tif.rate) periods (43 + 32 * f.count.toNat + 1) = false from hheld]
        · simp [show periodHeld (Config.bitTimeNs s.tif.rate) periods (43 + 32 * f.count.toNat + 1 + 1) = false from hheld]
        · simp [show periodHeld (Config.bitTimeNs s.tif.rate) periods (43 + 32 * f.count.toNat + 2 + 1) = false from hheld]
      obtain ⟨haccepted, hother⟩ := State.rxEnd_late others hr hf hx hspent (Or.inr hclock)
      exact ⟨fun hv => (hrow hreset _).trans (congrArg _ (haccepted hv)),
        fun hv => (hrow hreset _).trans (congrArg _ (hother hv))⟩
  · obtain ⟨x, hexec⟩ := exec_of_moment hc hreset
    obtain ⟨haccepted, hother⟩ := State.rxEnd_late (x := x) others hr hf hx hspent (Or.inl hlate)
    exact ⟨fun hv => hexec.trans (congrArg _ (haccepted hv)), fun hv => hexec.trans (congrArg _ (hother hv))⟩
  · intro k n window
    cases hk : FrameKind.ofCode f.kind with
    | none => exact iff_of_true (by rw [Frame.message, hk]) (Or.inl ((FrameKind.ofCode_eq_none _).1 hk))
    | some kind =>
      have hcode : kind.code.toNat = k := congrArg BitVec.toNat (FrameKind.eq_code_of_ofCode hk).symm
      have hassigned : ¬(k = 3 ∨ k = 14 ∨ k = 15) := by
        rw [← FrameKind.ofCode_eq_none, hk]
        nofun
      rw [Frame.message_eq_none_of_kind hk hcount, or_iff_right hassigned, ← or_assoc, ← or_assoc,
        or_assoc (b := validStation _ = _), FrameKind.header_iff hcode, FrameKind.refuses_iff hcode f.source rfl]
      simp only [or_assoc]
      rfl

end Machine

end Sys2Proof
end

section
/-! PROOF. Every step keeps the membership laws: which operations leave what the laws read, and what the others make of it. -/

namespace Sys2Proof.Machine

/-! ### What the laws read of the MC -/

/-- What the membership laws read of the MC: of the station state whether it is a member's, of a pending EVICT its station. -/
def Mc.membership (m : Mc) : Station × Bool × StationSet × StationSet × List Station × Bank 5 Nat :=
  (m.sid, m.state.isMember, m.peers, m.expected, m.evicts.map PendingEvict.station, m.miss)

/-- An MC that differs in nothing the laws read meets them too. -/
theorem MembershipLaws.congr {m m' : Mc} (h : MembershipLaws m) (e : m'.membership = m.membership) : MembershipLaws m' := by
  simp only [Mc.membership, Prod.mk.injEq] at e
  obtain ⟨hsid, hmember, hpeers, hexpected, hevicts, hmiss⟩ := e
  have hascending := h.ascending
  have hown := h.ownEvict
  rw [← List.pairwise_map (f := PendingEvict.station) (R := fun a b => a.toNat < b.toNat), ← hevicts,
    List.pairwise_map] at hascending
  rw [← List.forall_mem_map (f := PendingEvict.station) (P := fun d => d ≠ m.sid), ← hevicts, ← hsid,
    List.forall_mem_map] at hown
  exact
    { own := by rw [hpeers, hsid, hmember]; exact h.own
      ascending := hascending
      ownEvict := hown
      ownExpected := by rw [hexpected, hsid]; exact h.ownExpected
      miss := by rw [hmiss]; exact h.miss }

/-- A change of state between two members, or between two states that are none, changes nothing the laws read. -/
theorem MembershipLaws.enter {s : State} (h : MembershipLaws s.mc) {st : StationState}
    (hs : st.isMember = s.mc.state.isMember) : MembershipLaws (s.enter st).mc :=
  h.congr (by simp [Mc.membership, hs])

/-! ### The pieces of the MC -/

/-- A station with no peers, no EVICT pending and no expectation meets the laws outside the member states. -/
theorem MembershipLaws.reset (sid : Station) : MembershipLaws (Mc.reset sid) where
  own := StationSet.has_empty sid
  ascending := List.Pairwise.nil
  ownEvict := nofun
  ownExpected := StationSet.has_empty sid
  miss p := by simp [Mc.reset]

/-- A counter returned to 0 keeps the laws. -/
theorem MembershipLaws.clearMiss {m : Mc} (h : MembershipLaws m) (p : Station) : MembershipLaws (m.clearMiss p) :=
  { h with
    miss := fun q => by
      simp only [Mc.clearMiss, Bank.at_put]
      split
      · decide
      · exact h.miss q }

/-- An EVICT of another station added keeps the laws. -/
theorem MembershipLaws.addEvict {m : Mc} (h : MembershipLaws m) {d : Station} (hd : d ≠ m.sid) :
    MembershipLaws { m with evicts := addEvict d m.evicts } :=
  { h with
    ascending := addEvict_ascending d h.ascending
    ownEvict := fun e he => by
      rcases (addEvict_mem d m.evicts).2.1 e he with he | rfl
      · exact h.ownEvict e he
      · exact hd }

/-- EVICTs of other stations added keep the laws. -/
theorem MembershipLaws.addEvicts {m : Mc} (h : MembershipLaws m) {ds : List Station} (hd : ∀ d ∈ ds, d ≠ m.sid) :
    MembershipLaws { m with evicts := addEvicts ds m.evicts } := by
  induction ds generalizing m with
  | nil => exact h
  | cons d ds ih =>
    rw [List.forall_mem_cons] at hd
    exact ih (h.addEvict hd.1) hd.2

/-- An EVICT dropped keeps the laws. -/
theorem MembershipLaws.dropEvict {m : Mc} (h : MembershipLaws m) (d : Station) :
    MembershipLaws { m with evicts := dropEvict d m.evicts } :=
  { h with
    ascending := h.ascending.filter _
    ownEvict := fun e he => h.ownEvict e ((mem_dropEvict d e _).1 he).1 }

/-- A counter raised keeps the laws: the station queues no EVICT of itself. -/
theorem MembershipLaws.raiseMiss {m : Mc} (h : MembershipLaws m) (p : Station) : MembershipLaws (m.raiseMiss p) := by
  suffices hevicts : MembershipLaws { m with evicts := (m.raiseMiss p).evicts } by
    obtain ⟨hsid, hstate, hpeers, hexpected, -⟩ := Mc.raiseMiss_frame p m
    exact
      { own := by rw [hsid, hstate, hpeers]; exact h.own
        ascending := hevicts.ascending
        ownEvict := by rw [hsid]; exact hevicts.ownEvict
        ownExpected := by rw [hsid, hexpected]; exact h.ownExpected
        miss := fun q => Mc.raiseMiss_below p q h.miss }
  rw [Mc.raiseMiss]
  split
  · exact h
  · rename_i hp
    split
    · exact h
    · dsimp only
      split
      · exact h.addEvict hp
      · exact h

/-- The report of an outcome keeps the laws. -/
theorem MembershipLaws.reportOutcome {m : Mc} (h : MembershipLaws m) (p : Station) (o : Outcome) :
    MembershipLaws (m.reportOutcome p o) := by
  unfold Mc.reportOutcome
  split
  · exact h
  · cases o with
    | taken | rejected => exact h.clearMiss p
    | unanswered => exact h.raiseMiss p
    | lost | collided | voided => exact h

/-- The departure of another station keeps the laws, whatever its cause. -/
theorem MembershipLaws.departure {m : Mc} (h : MembershipLaws m) {d : Station} (hd : d ≠ m.sid) (cause : DepartureCause) :
    MembershipLaws (m.departure d cause) := by
  rw [Mc.departure_eq]
  exact
    { own := by
        dsimp only
        split <;> simp [hd, h.own]
      ascending := (h.dropEvict d).ascending
      ownEvict := (h.dropEvict d).ownEvict
      ownExpected := by
        dsimp only
        split <;> simp [h.ownExpected]
      miss := (h.clearMiss d).miss }

/-- A claimant noted in SYNCING keeps the laws: the own number is in the peer set, so that the claimant is another station. -/
theorem MembershipLaws.noteClaimant {m : Mc} (h : MembershipLaws m) (c : Station) : MembershipLaws (m.noteClaimant c) := by
  rw [Mc.noteClaimant]
  split
  · next hc =>
    obtain ⟨hs, hc⟩ := hc
    have hown : m.peers.has m.sid = true := by rw [h.own, hs]; rfl
    have hne : c ≠ m.sid := by rintro rfl; simp [hown] at hc
    exact { h with
      own := by simp [hne, h.own]
      ownExpected := by
        dsimp only
        split <;> simp [hne, h.ownExpected] }
  · exact h

/-- A ROSTER noted keeps the laws of a member: the station does not expect itself by a peer word. -/
theorem MembershipLaws.noteRoster {s : State} (h : MembershipLaws s.mc) (hm : s.mc.state.isMember = true) (src : Station)
    (w : Word) : MembershipLaws (s.noteRoster src w).mc :=
  { h with
    own := by simp [State.noteRoster, h.own, hm]
    ownExpected := by simp [State.noteRoster, Mc.peerBits, h.ownExpected] }

/-- A settle expiry that is not the third keeps the laws: the silent stations to be evicted were expected. -/
theorem MembershipLaws.settleAgain {m : Mc} (h : MembershipLaws m) (timeout : Nat) : MembershipLaws (m.settleAgain timeout) := by
  rw [Mc.settleAgain]
  split
  · exact { h with }
  · have hother : ∀ d ∈ (m.expected.minus m.answered).toList, d ≠ m.sid := by
      rintro d hd rfl
      simp [h.ownExpected] at hd
    exact (h.addEvicts hother).congr rfl

/-! ### What follows an event -/

/-- The leave test changes nothing the laws read. -/
theorem MembershipLaws.testLeave {s : State} (h : MembershipLaws s.mc) : MembershipLaws s.testLeave.mc :=
  h.congr (by simp [Mc.membership])

/-- What follows where the head may have gone changes nothing the laws read. -/
theorem MembershipLaws.afterHead {s : State} (h : MembershipLaws s.mc) : MembershipLaws s.afterHead.mc :=
  MembershipLaws.testLeave h

/-- The test of a FLUSH changes nothing the laws read. -/
theorem MembershipLaws.testFlush {s : State} (h : MembershipLaws s.mc) : MembershipLaws s.testFlush.mc := by
  simpa using h

/-- What follows where an SQ record may have gone changes nothing the laws read. -/
theorem MembershipLaws.afterResponse {s : State} (h : MembershipLaws s.mc) : MembershipLaws s.afterResponse.mc :=
  h.testLeave.testFlush

/-- The end of a command changes nothing the laws read. -/
theorem MembershipLaws.finish {s : State} (h : MembershipLaws s.mc) (r : CommandResult) : MembershipLaws (s.finish r).mc := by
  simpa using h

/-! ### Changes of state -/

/-- Claiming keeps the laws: CLAIMING and JOINED are both member states. -/
theorem MembershipLaws.claimFrom (l : List Slot) {s : State} (h : MembershipLaws s.mc) :
    MembershipLaws (State.claimFrom l s).mc := by
  obtain ⟨-, -, -, -, -, -, -, ⟨st, hmc⟩, -⟩ := State.claimFrom_frame l s
  have hst : (State.claimFrom l s).mc.state = st := by rw [hmc]
  have hmember : st.isMember = s.mc.state.isMember := by
    rcases State.claimFrom_state l s with e | ⟨e, e'⟩
    · rw [← hst, e]
    · rw [← hst, e', e]; rfl
  exact h.congr (by simp [hmc, Mc.membership, hmember])

/-- The next claim taken in course keeps the laws. -/
theorem MembershipLaws.nextClaim {s : State} (h : MembershipLaws s.mc) : MembershipLaws s.nextClaim.mc :=
  MembershipLaws.claimFrom _ h

/-- The repeated check of the CLAIM in course keeps the laws. -/
theorem MembershipLaws.recheckClaim {s : State} (h : MembershipLaws s.mc) : MembershipLaws s.recheckClaim.mc := by
  rw [State.recheckClaim]
  split
  · exact h
  · next c _ =>
    split
    · exact MembershipLaws.nextClaim h
    · exact h

/-- The completion of sync keeps the laws of a member. -/
theorem MembershipLaws.completeSync {s : State} (h : MembershipLaws s.mc) (hm : s.mc.state.isMember = true) :
    MembershipLaws s.completeSync.mc :=
  have hmoved : MembershipLaws (State.enter .claiming { s with mc := { s.mc with settle := none } }).mc :=
    h.congr (by simp [Mc.membership, hm]; rfl)
  hmoved.nextClaim

/-- The test of the sync keeps the laws. -/
theorem MembershipLaws.testSync {s : State} (h : MembershipLaws s.mc) : MembershipLaws s.testSync.mc := by
  rw [State.testSync]
  split
  · next hc => exact h.completeSync (by rw [hc.1]; rfl)
  · exact h

/-- Sync completed alone keeps the laws of a member: the peer set is the own number. -/
theorem MembershipLaws.completeAlone {s : State} (h : MembershipLaws s.mc) (hm : s.mc.state.isMember = true) :
    MembershipLaws s.completeAlone.mc :=
  MembershipLaws.completeSync (s := { s with
      mc := { s.mc with peers := StationSet.single s.mc.sid, evicts := [] }
      wmu := { s.wmu with map := [] } })
    { h with
      own := by simp [hm]
      ascending := List.Pairwise.nil
      ownEvict := nofun } hm

/-- The entry into SYNCING keeps the laws: the own number joins the peer set, and nobody is expected. -/
theorem MembershipLaws.enterSyncing {s : State} (h : MembershipLaws s.mc) : MembershipLaws s.enterSyncing.mc :=
  { h with
    own := by simp [State.enterSyncing, StationState.isMember]
    ownExpected := StationSet.has_empty s.mc.sid }

/-- The entry into LEAVING keeps the laws of a member. -/
theorem MembershipLaws.enterLeaving {s : State} (h : MembershipLaws s.mc) (hm : s.mc.state.isMember = true) :
    MembershipLaws s.enterLeaving.mc :=
  MembershipLaws.testLeave (h.congr (by simp [Mc.membership, hm]; rfl))

/-- Peer set and miss counters emptied outside the member states: the laws stand, whatever EVICTs are left. -/
theorem MembershipLaws.emptied {m m' : Mc} (h : MembershipLaws m) (hevicts : m'.evicts.Sublist m.evicts)
    (hs : m'.state.isMember = false) (hpeers : m'.peers = StationSet.empty) (hmiss : m'.miss = Bank.all 5 0)
    (hsid : m'.sid = m.sid) (hexpected : m'.expected = m.expected) : MembershipLaws m' where
  own := by rw [hpeers, hs, StationSet.has_empty]
  ascending := h.ascending.sublist hevicts
  ownEvict e he := by rw [hsid]; exact h.ownEvict e (hevicts.subset he)
  ownExpected := by rw [hexpected, hsid]; exact h.ownExpected
  miss p := by rw [hmiss, Bank.at_all]; decide

/-- The entry into FAULTED keeps the laws: peer set and miss counters are emptied. -/
theorem MembershipLaws.enterFaulted {s : State} (h : MembershipLaws s.mc) : MembershipLaws s.enterFaulted.mc :=
  MembershipLaws.finish (by exact h.emptied (List.Sublist.refl _) rfl rfl rfl rfl rfl) _

/-- A FATAL fault keeps the laws. -/
theorem MembershipLaws.fatal {s : State} (h : MembershipLaws s.mc) (k : FaultKind) (a : Option Station) :
    MembershipLaws (s.fatal k a).mc :=
  MembershipLaws.enterFaulted h

/-- The entry into DETACHED keeps the laws: peer set, pending EVICTs and miss counters are emptied. -/
theorem MembershipLaws.enterDetached {s : State} (h : MembershipLaws s.mc) : MembershipLaws s.enterDetached.mc := by
  have hmoved := h.emptied (m' := { s.mc with
    peers := StationSet.empty, miss := Bank.all 5 0, evicts := [], roster := none, bye := none, settle := none
    deadline := none, state := .detached }) (List.nil_sublist _) rfl rfl rfl rfl rfl
  simp only [State.enterDetached]
  split
  · exact MembershipLaws.finish hmoved _
  · exact hmoved

/-- The return to HALTED keeps the laws of a station that is no member. -/
theorem MembershipLaws.leaveToHalted {s : State} (h : MembershipLaws s.mc) (hm : s.mc.state.isMember = false) :
    MembershipLaws s.leaveToHalted.mc :=
  MembershipLaws.finish (h.congr (by simp [Mc.membership, hm]; rfl)) _

/-- A station whose SYNC a LEAVE waits for is no member. -/
theorem State.isMember_of_leaveWaitsForSync {s : State} (h : s.leaveWaitsForSync = true) : s.mc.state.isMember = false := by
  simp only [State.leaveWaitsForSync, Bool.and_eq_true, beq_iff_eq] at h
  rw [h.1]
  rfl

/-- The departure of a station keeps the laws. -/
theorem MembershipLaws.departs {s : State} (h : MembershipLaws s.mc) (d : Station) (cause : DepartureCause) :
    MembershipLaws (s.departure d cause).mc := by
  by_cases hd : d = s.mc.sid
  · rw [State.departure, if_pos hd]
    exact h
  · have hclean : MembershipLaws (s.cleaned d cause).mc := by
      rw [(State.cleaned_fields d cause s).1]
      exact h.departure hd cause
    rw [State.departure_eq hd]
    exact hclean.testSync.afterHead.testFlush

/-! ### Own frames -/

/-- Changed counts keep the laws: no candidate comes or goes. -/
theorem MembershipLaws.withCounts {s : State} (h : MembershipLaws s.mc) (src : Source) (c : Counts) :
    MembershipLaws (s.withCounts src c).mc := by
  cases src with
  | evict d =>
    refine h.congr ?_
    simp only [Mc.membership, State.withCounts, List.map_map, Prod.mk.injEq, true_and, and_true]
    refine List.map_congr_left (fun e _ => ?_)
    simp only [Function.comp_apply]
    split <;> rfl
  | sqHead | sync | bye | roster | release n | claim n | rqHead => exact { h with }

/-- A head given up changes nothing the laws read. -/
theorem State.giveUpHead_mc (st : Status) (s : State) : (s.giveUpHead st).mc = s.mc := by
  rw [State.giveUpHead]
  split <;> rfl

/-- An abandoned frame keeps the laws. -/
theorem MembershipLaws.abandon {s : State} (h : MembershipLaws s.mc) (src : Source) : MembershipLaws (s.abandon src).mc := by
  cases src with
  | sqHead =>
    simp only [State.abandon]
    split
    · exact h
    · exact MembershipLaws.afterResponse h
  | sync => exact h.fatal _ _
  | bye => exact MembershipLaws.enterDetached h
  | roster | release n => exact { h with }
  | evict d => exact h.dropEvict d
  | claim n =>
    simp only [State.abandon]
    split
    · exact h
    · exact MembershipLaws.nextClaim h
  | rqHead =>
    refine MembershipLaws.afterHead ?_
    rw [State.giveUpHead_mc]
    exact h

/-- A voided frame keeps the laws. -/
theorem MembershipLaws.voidFrame {s : State} (h : MembershipLaws s.mc) (src : Source) : MembershipLaws (s.voidFrame src).mc := by
  rw [State.voidFrame]
  split
  · exact h
  · split
    · exact h.withCounts _ _
    · exact h.abandon _

/-- The eighth void by COLLIDED keeps the laws. -/
theorem MembershipLaws.collideLimit {s : State} (h : MembershipLaws s.mc) (src : Source) (c : Counts) :
    MembershipLaws (s.collideLimit src c).mc := by
  have hbit : MembershipLaws (s.abandonAtBit src).mc :=
    MembershipLaws.abandon (by exact h) src
  cases src with
  | sync | bye => exact { h with }
  | rqHead => exact h.abandon _
  | sqHead | roster | evict d | release n | claim n => exact hbit

/-- A COLLIDED frame whose void count rises keeps the laws. -/
theorem MembershipLaws.collideVoid {s : State} (h : MembershipLaws s.mc) (src : Source) :
    MembershipLaws (s.collideVoid src).mc := by
  rw [State.collideVoid]
  split
  · exact h
  · split
    · exact h.withCounts _ _
    · exact h.collideLimit _ _

/-- A LOST frame keeps the laws. -/
theorem MembershipLaws.lose {s : State} (h : MembershipLaws s.mc) (f : Flight) : MembershipLaws (s.lose f).mc := by
  have hcounts : ∀ src c, MembershipLaws (State.withCounts src c
      { s with tif := { s.tif with flight := none, collisions := 0 } }).mc :=
    fun src c => MembershipLaws.withCounts (by exact h) src c
  simp only [State.lose]
  split
  · exact h
  · split
    · split
      · next hw =>
        exact MembershipLaws.leaveToHalted h
          (State.isMember_of_leaveWaitsForSync hw)
      · split
        · exact h
        · exact hcounts _ _
    · split
      · exact h
      · split
        · exact h
        · exact hcounts _ _
    · split
      · exact h
      · exact hcounts _ _

/-- A COLLIDED frame keeps the laws. -/
theorem MembershipLaws.collide {s : State} (h : MembershipLaws s.mc) (f : Flight) : MembershipLaws (s.collide f).mc := by
  generalize hx : { s with tif := { s.tif with
    flight := none, collisions := s.tif.collisions + 1, collidedHere := true } } = x
  have h₁ : MembershipLaws x.mc := by rw [← hx]; exact h
  simp only [State.collide, hx]
  split
  · exact h₁.fatal _ _
  · split
    · exact h₁
    · split
      · split
        · next hw =>
          refine h₁.leaveToHalted ?_
          rw [← hx]
          exact State.isMember_of_leaveWaitsForSync hw
        · exact h₁.collideVoid _
      · split
        · exact h₁
        · exact h₁.collideVoid _
      · exact h₁.collideVoid _

/-- The own SYNC TAKEN keeps the laws. -/
theorem MembershipLaws.syncTaken {s : State} (h : MembershipLaws s.mc) (accept : Bool) :
    MembershipLaws (s.syncTaken accept).mc := by
  rw [State.syncTaken]
  split
  · split
    · exact h.enterSyncing
    · exact h.enterSyncing.completeAlone rfl
  · next hs =>
    split
    · exact { h with }
    · exact MembershipLaws.completeAlone { h with } (by simp [hs]; rfl)
  · exact { h with }

/-- The outcome of the own SYNC keeps the laws. -/
theorem MembershipLaws.syncEnds {s : State} (h : MembershipLaws s.mc) (accept : Bool) (o : Outcome) :
    MembershipLaws (s.syncEnds accept o).mc := by
  unfold State.syncEnds
  split
  · next hw =>
    rw [State.waitedSyncEnds]
    split
    · exact h.enterSyncing.enterLeaving rfl
    · exact h.leaveToHalted (State.isMember_of_leaveWaitsForSync hw)
  · cases o with
    | rejected => exact h.fatal _ _
    | taken => exact h.syncTaken accept
    | lost | collided | voided | unanswered => exact h.voidFrame _

/-- The outcome of the own ROSTER keeps the laws. -/
theorem MembershipLaws.rosterEnds {s : State} (h : MembershipLaws s.mc) (o : Outcome) : MembershipLaws (s.rosterEnds o).mc := by
  cases o with
  | taken => exact { h with }
  | voided => exact h.voidFrame _
  | lost | collided | rejected | unanswered => exact h

/-- The outcome of the own CLAIM keeps the laws. -/
theorem MembershipLaws.claimEnds {s : State} (h : MembershipLaws s.mc) (f : Flight) (o : Outcome) :
    MembershipLaws (s.claimFrameEnds f o).mc := by
  rw [State.claimFrameEnds]
  split
  · next n _ =>
    simp only [State.claimEnds]
    split
    · split
      · exact h
      · exact h
      · split
        · exact h
        · exact h.abandon _
    · split
      · exact MembershipLaws.nextClaim h
      · exact MembershipLaws.nextClaim h
      · exact h.voidFrame _
  · exact h

/-- The outcome of the own RELEASE keeps the laws. -/
theorem MembershipLaws.releaseEnds {s : State} (h : MembershipLaws s.mc) (f : Flight) (o : Outcome) :
    MembershipLaws (s.releaseFrameEnds f o).mc := by
  rw [State.releaseFrameEnds]
  split
  · cases o with
    | taken =>
      simp only [State.releaseEnds]
      split
      · exact h
      · exact MembershipLaws.testLeave h
    | voided =>
      simp only [State.releaseEnds]
      split
      · exact h
      · exact h.voidFrame _
    | lost | collided | rejected | unanswered => exact h
  · exact h

/-- The outcome of the own EVICT keeps the laws. -/
theorem MembershipLaws.evictEnds {s : State} (h : MembershipLaws s.mc) (f : Flight) (o : Outcome) :
    MembershipLaws (s.evictFrameEnds f o).mc := by
  rw [State.evictFrameEnds]
  split
  · next d _ =>
    cases o with
    | taken => exact h.departs _ _
    | rejected => exact (h.dropEvict d).clearMiss d
    | voided => exact h.voidFrame _
    | lost | collided | unanswered => exact h
  · exact h

/-- The outcome of the own BYE keeps the laws. -/
theorem MembershipLaws.byeEnds {s : State} (h : MembershipLaws s.mc) (o : Outcome) : MembershipLaws (s.byeEnds o).mc := by
  cases o with
  | taken => exact h.enterDetached
  | voided => exact h.voidFrame _
  | lost | collided | rejected | unanswered => exact h

/-- A REJECTED head changes nothing the laws read. -/
theorem MembershipLaws.headRejected {s : State} (h : MembershipLaws s.mc) : MembershipLaws s.headRejected.mc := by
  rw [State.headRejected]
  split
  · exact h
  · split
    · exact h
    · refine MembershipLaws.afterHead ?_
      rw [State.giveUpHead_mc]
      exact h

/-- The outcome of the RQ head's frame keeps the laws. -/
theorem MembershipLaws.requestEnds {s : State} (h : MembershipLaws s.mc) (f : Flight) (o : Outcome) :
    MembershipLaws (s.requestEnds f o).mc := by
  have h₁ := h.reportOutcome f.frame.dest o
  simp only [State.requestEnds]
  split
  · exact h₁
  · split
    · exact MembershipLaws.afterHead h₁
    · exact MembershipLaws.headRejected h₁
    · refine MembershipLaws.afterHead ?_
      rw [State.giveUpHead_mc]
      exact h₁
    · exact MembershipLaws.voidFrame h₁ _

/-- The outcome of the SQ head's frame keeps the laws. -/
theorem MembershipLaws.responseEnds {s : State} (h : MembershipLaws s.mc) (f : Flight) (o : Outcome) :
    MembershipLaws (s.responseEnds f o).mc := by
  have h₁ := h.reportOutcome f.frame.dest o
  simp only [State.responseEnds]
  split
  · exact h₁
  · split
    · exact MembershipLaws.afterResponse h₁
    · exact MembershipLaws.afterResponse h₁
    · exact MembershipLaws.voidFrame h₁ _

/-- A moment of an own frame keeps the laws where its outcome does. -/
theorem MembershipLaws.ownFrame {s : State} (h : MembershipLaws s.mc) (src : Source → Bool) (moment : TxMoment)
    {ends : Slots → Flight → Outcome → State → State}
    (hends : ∀ levels f o, MembershipLaws s.endFlight.mc → MembershipLaws (ends levels f o s.endFlight).mc) :
    MembershipLaws (s.ownFrame src moment ends).mc := by
  cases moment with
  | lastCheckBit =>
    obtain ⟨p, hp, -⟩ := s.ownLastCheckBit_frame src
    rw [State.ownFrame, hp]
    exact h
  | endOfTrailer levels =>
    simp only [State.ownFrame, State.atTrailer]
    split
    · exact h
    · split
      · exact hends _ _ _ h
      · exact h

/-! ### What is received -/

/-- A taken ROSTER keeps the laws. -/
theorem MembershipLaws.applyRoster {s : State} (h : MembershipLaws s.mc) (src : Station) (w : Word)
    (ps : List (Word × Word)) : MembershipLaws (s.applyRoster src w ps).mc := by
  rw [State.applyRoster]
  split
  · next hs =>
    refine MembershipLaws.testSync ?_
    rw [(mergePairs_frame src ps (s.noteRoster src w)).2.2.1]
    exact h.noteRoster (by rw [hs]; rfl) src w
  · exact h

/-- A taken request changes nothing the laws read. -/
theorem State.applyRequest_mc (m : Message) (b : RequestBody) (p : ServicePlan) (s : State) :
    (s.applyRequest m b p).mc = s.mc := by
  cases p <;> simp [State.applyRequest]

/-- A taken response keeps the laws. -/
theorem MembershipLaws.applyResponse {s : State} (h : MembershipLaws s.mc) (src : Station) (tag : Tag) (b : ResponseBody) :
    MembershipLaws (s.applyResponse src tag b).mc := by
  rw [State.applyResponse]
  split
  · exact MembershipLaws.afterHead h
  · exact h

/-- What a member applies from a taken frame keeps the laws. -/
theorem MembershipLaws.applyAccepted {s : State} (h : MembershipLaws s.mc) (r : Reception) (m : Message)
    (p : Option ServicePlan) : MembershipLaws (s.applyAccepted r m p).mc := by
  rw [State.applyAccepted]
  split
  · exact h.departs _ _
  · exact h.applyRoster _ _ _
  · exact MembershipLaws.recheckClaim (MembershipLaws.testSync (h.noteClaimant m.source))
  · exact h
  · exact h.departs _ _
  · exact h.departs _ _
  · split
    · rw [State.applyRequest_mc]
      exact h
    · exact h
  · exact h.applyResponse _ _ _
  · exact h

/-- The end of a trailer keeps the laws. -/
theorem MembershipLaws.applyVerdict {s : State} (h : MembershipLaws s.mc) (r : Reception) (taken : Bool) :
    MembershipLaws (s.applyVerdict r taken).mc := by
  rw [State.applyVerdict]
  split
  · split
    · exact MembershipLaws.applyAccepted (h.clearMiss _) _ _ _
    · exact h.testFlush
  · split
    · exact h.clearMiss _
    · exact h
  · exact h
  · exact h

/-- What an abandoned own frame is owed keeps the laws. -/
theorem MembershipLaws.finishSpent {s : State} (h : MembershipLaws s.mc) : MembershipLaws s.finishSpent.mc := by
  rw [State.finishSpent]
  split
  · exact h
  · exact h
  · exact MembershipLaws.abandon (by exact h) _
  · exact MembershipLaws.abandon (by exact h) _

/-- A reception keeps the laws at each of its moments: all but the end of the trailer touch the TIF alone. -/
theorem MembershipLaws.receive {s : State} (h : MembershipLaws s.mc) (x : Heard) (moment : RxMoment) :
    MembershipLaws (s.receive x moment).mc := by
  have hdecide : ∀ t : State, (t.rxDecide x).mc = t.mc := fun t => by rw [State.rxDecide]; split <;> rfl
  have hend : ∀ (t : State) (others : Slots), MembershipLaws t.mc → MembershipLaws (t.rxEnd x others).mc := by
    intro t others ht
    simp only [State.rxEnd]
    split
    · have hspent := MembershipLaws.finishSpent
        (s := { t with tif := { t.tif with receiver := .unsynced, rx := none, collidedHere := false } }) ht
      split
      · exact hspent
      · exact hspent.applyVerdict _ _
    · exact ht
  cases moment with
  | startBit => exact h
  | lastCheckBit =>
    rw [State.receive, hdecide]
    exact h
  | slotSampled slot =>
    rw [State.receive, State.rxSlot]
    split <;> exact h
  | endOfTrailer others => exact hend s others h
  | whole others =>
    refine hend _ others ?_
    rw [hdecide]
    exact h

/-- Sampled bits received keep the laws. -/
theorem MembershipLaws.receiveBits {s : State} (h : MembershipLaws s.mc) (bits : List Bool) (periods : List Nat)
    (moment : RxMoment) : MembershipLaws (s.receiveBits bits periods moment).mc := by
  unfold State.receiveBits
  split
  · exact h.receive _ _
  · exact h
  · exact h
  · exact h

/-- An idle report keeps the laws: LISTEN and SYNC_WAIT are no member states. -/
theorem MembershipLaws.idleObserved {s : State} (h : MembershipLaws s.mc) : MembershipLaws s.idleObserved.mc := by
  simp only [State.idleObserved]
  split
  · split
    · next hs => exact h.congr (by simp [Mc.membership, hs, StationState.isMember])
    · exact MembershipLaws.finishSpent (MembershipLaws.testFlush h)
  · exact h

/-- A frame begun changes nothing the laws read. -/
theorem State.begin_mc (s : State) : s.begin.mc = s.mc := by
  rw [State.begin]
  split
  · split
    · rfl
    · split <;> rfl
  · rfl

/-! ### The local port -/

/-- A command write keeps the laws where its effect does. -/
theorem MembershipLaws.takeCommand {s : State} (h : MembershipLaws s.mc) {c : Command} {effect : State → State}
    (he : c.acceptedIn s.mc.state = true → MembershipLaws (effect s).mc) : MembershipLaws (s.takeCommand c effect).mc := by
  rw [State.takeCommand]
  split
  · exact h
  · exact h
  · next ha => exact he (State.admission_accepted ha).1

/-- A JOIN keeps the laws: HALTED and LISTEN are no member states. -/
theorem MembershipLaws.join {s : State} (h : MembershipLaws s.mc) : MembershipLaws s.join.mc := by
  refine h.takeCommand (fun ha => ?_)
  have hs : s.mc.state = .halted := by cases e : s.mc.state <;> simp_all [Command.acceptedIn]
  simp only [State.joinAccepted]
  split
  · exact MembershipLaws.finish (by exact h) _
  · split
    · exact MembershipLaws.finish (by exact h) _
    · exact h.congr (by simp [Mc.membership, hs, StationState.isMember])

/-- A LEAVE keeps the laws: a member stays a member in LEAVING, and a station that is none goes back to HALTED. -/
theorem MembershipLaws.leave {s : State} (h : MembershipLaws s.mc) : MembershipLaws s.leave.mc := by
  refine h.takeCommand (fun ha => ?_)
  have hmc : ((s.finish .aborted).accept .leave).mc = s.mc := by simp
  have h₁ : MembershipLaws ((s.finish .aborted).accept .leave).mc := hmc ▸ h
  simp only [State.leaveAccepted]
  split
  · next hs => exact h₁.leaveToHalted (by rw [hmc, hs]; rfl)
  · next hs =>
    split
    · exact h₁.leaveToHalted (by rw [hmc, hs]; rfl)
    · exact h₁
  · next hlisten hwait =>
    refine h₁.enterLeaving ?_
    rw [hmc]
    cases e : s.mc.state <;> simp_all [Command.acceptedIn, StationState.isMember]

/-- A FLUSH changes nothing the laws read. -/
theorem MembershipLaws.flush {s : State} (h : MembershipLaws s.mc) : MembershipLaws s.flush.mc :=
  h.takeCommand (fun _ => MembershipLaws.testFlush h)

/-- A RESTART keeps the laws. -/
theorem MembershipLaws.restart {s : State} (h : MembershipLaws s.mc) : MembershipLaws s.restart.mc :=
  h.takeCommand (fun _ => MembershipLaws.finish
    ((MembershipLaws.reset s.mc.sid).congr rfl) _)

/-- An RQ push changes nothing the laws read. -/
theorem State.rqPush_mc (s : State) : s.rqPush.mc = s.mc := by
  rw [State.rqPush]
  split
  · rfl
  · split
    · rfl
    · split
      · rfl
      · split
        · rfl
        · split <;> rfl

/-- An SQ push keeps the laws. -/
theorem MembershipLaws.sqPush {s : State} (h : MembershipLaws s.mc) : MembershipLaws s.sqPush.mc := by
  simp only [State.sqPush]
  split
  · exact h
  · split
    · exact h
    · split
      · exact h
      · split
        · exact MembershipLaws.testLeave h
        · exact h

/-- A CQ pop keeps the laws. -/
theorem MembershipLaws.cqPop {s : State} (h : MembershipLaws s.mc) : MembershipLaws s.cqPop.mc := by
  rw [State.cqPop]
  split
  · exact h
  · exact MembershipLaws.afterHead h

/-- The pops of the IQ, the NQ and the Fault List and a Setup write leave the MC. -/
theorem State.pops_mc (s : State) : s.iqPop.mc = s.mc ∧ s.nqPop.mc = s.mc ∧ s.faultPop.mc = s.mc ∧
    ∀ i v, (s.setupWrite i v).mc = s.mc := by
  refine ⟨?_, ?_, ?_, fun i v => ?_⟩
  · rw [State.iqPop]; split <;> rfl
  · rw [State.nqPop]; split <;> rfl
  · rw [State.faultPop]; split <;> rfl
  · rw [State.setupWrite]; split <;> rfl

/-- A write of the command word keeps the laws. -/
theorem MembershipLaws.commandWrite {s : State} (h : MembershipLaws s.mc) (v : Word) : MembershipLaws (s.commandWrite v).mc := by
  simp only [State.commandWrite]
  split
  · exact h.join
  · split
    · exact h.leave
    · split
      · exact h.flush
      · split
        · exact h.restart
        · exact h

/-- A write access keeps the laws. -/
theorem MembershipLaws.registerWrite {s : State} (h : MembershipLaws s.mc) (a : BitVec 10) (v : Word) (readStrobe : Bool) :
    MembershipLaws (s.registerWrite a v readStrobe).mc := by
  obtain ⟨hiq, hnq, hfault, hsetup⟩ := s.pops_mc
  rw [State.registerWrite]
  split
  · exact h
  · cases portWord a with
    | view _ | unassigned | cause | mask | severityEnable | rqStage i | sqStage i => exact h
    | command => exact h.commandWrite v
    | setup i => exact (hsetup i v).symm ▸ h
    | rqPush => exact s.rqPush_mc.symm ▸ h
    | sqPush => exact h.sqPush
    | cqPop => exact h.cqPop
    | iqPop => exact hiq.symm ▸ h
    | nqPop => exact hnq.symm ▸ h
    | faultPop => exact hfault.symm ▸ h

/-! ### The timers -/

/-- A response timeout keeps the laws. -/
theorem MembershipLaws.responseTimerExpires {s : State} (h : MembershipLaws s.mc) (tag : Tag) :
    MembershipLaws (s.responseTimerExpires tag).mc := by
  rw [State.responseTimerExpires]
  split
  · exact MembershipLaws.testLeave h
  · exact h

/-- The end of a quarantine keeps the laws. -/
theorem MembershipLaws.quarantineExpires {s : State} (h : MembershipLaws s.mc) (tag : Tag) :
    MembershipLaws (s.quarantineExpires tag).mc := by
  rw [State.quarantineExpires]
  split
  · exact MembershipLaws.afterHead h
  · exact h

/-- A settle expiry keeps the laws. -/
theorem MembershipLaws.settleExpires {s : State} (h : MembershipLaws s.mc) : MembershipLaws s.settleExpires.mc := by
  rw [State.settleExpires]
  split
  · split
    · exact h.settleAgain _
    · exact MembershipLaws.fatal (by exact { h with }) _ _
  · exact h

/-- The leave deadline keeps the laws. -/
theorem MembershipLaws.leaveDeadlineExpires {s : State} (h : MembershipLaws s.mc) :
    MembershipLaws s.leaveDeadlineExpires.mc := by
  rw [State.leaveDeadlineExpires]
  split
  · exact MembershipLaws.finish (by exact { h with }) _
  · exact h

/-! ### The step -/

/-- A row that acts while RESET_N is released keeps what its effect keeps. -/
theorem MembershipLaws.released {s t : State} {effect : State → State} (ht : released effect s = .next t)
    (h : MembershipLaws s.mc) (he : MembershipLaws s.mc → MembershipLaws (effect s).mc) : MembershipLaws t.mc := by
  simp only [Machine.released, Host.Outcome.next.injEq] at ht
  split at ht
  · exact ht ▸ h
  · exact ht ▸ he h

/-- Every command keeps the membership laws. -/
theorem MembershipLaws.exec {c : Instr} {s t : State} (ht : exec c s = .next t) (h : MembershipLaws s.mc) :
    MembershipLaws t.mc := by
  obtain ⟨hiq, hnq, hfault, hsetup⟩ := s.pops_mc
  cases c with
  | resetNAsserted | resetNReleased sid rate =>
    obtain rfl := Host.Outcome.next.inj ht
    exact MembershipLaws.reset _
  | join => exact h.released ht join
  | leave => exact h.released ht leave
  | flush => exact h.released ht flush
  | restart => exact h.released ht restart
  | rqPush => exact h.released ht (fun h => s.rqPush_mc.symm ▸ h)
  | sqPush => exact h.released ht sqPush
  | cqPop => exact h.released ht cqPop
  | iqPop => exact h.released ht (fun h => hiq.symm ▸ h)
  | nqPop => exact h.released ht (fun h => hnq.symm ▸ h)
  | faultPop => exact h.released ht (fun h => hfault.symm ▸ h)
  | setupWrite i v => exact h.released ht (fun h => (hsetup i v).symm ▸ h)
  | causeWrite v | maskWrite v | severityEnableWrite v => exact h.released ht id
  | registerWrite a v r => exact h.released ht (fun h => h.registerWrite a v r)
  | trunkIdleObserved => exact h.released ht idleObserved
  | beginningAFrame => exact h.released ht (fun h => s.begin_mc.symm ▸ h)
  | lost bit =>
    refine h.released ht (fun h => ?_)
    simp only [State.lostAt]
    split
    · exact h
    · split
      · exact h.lose _
      · exact h
  | collided bit =>
    refine h.released ht (fun h => ?_)
    simp only [State.collidedAt]
    split
    · exact h
    · split
      · exact h.collide _
      · exact h
  | syncOutcome m => exact h.released ht (fun h => h.ownFrame _ m (fun levels _ o he => he.syncEnds levels.accept o))
  | rosterOutcome m => exact h.released ht (fun h => h.ownFrame _ m (fun _ _ o he => he.rosterEnds o))
  | claimOutcome m => exact h.released ht (fun h => h.ownFrame _ m (fun _ f o he => he.claimEnds f o))
  | releaseOutcome m => exact h.released ht (fun h => h.ownFrame _ m (fun _ f o he => he.releaseEnds f o))
  | evictOutcome m => exact h.released ht (fun h => h.ownFrame _ m (fun _ f o he => he.evictEnds f o))
  | byeOutcome m => exact h.released ht (fun h => h.ownFrame _ m (fun _ _ o he => he.byeEnds o))
  | requestFrameOutcome m => exact h.released ht (fun h => h.ownFrame _ m (fun _ f o he => he.requestEnds f o))
  | responseFrameOutcome m => exact h.released ht (fun h => h.ownFrame _ m (fun _ f o he => he.responseEnds f o))
  | malformedFrame bits periods m => exact h.released ht (fun h => h.receiveBits bits periods m)
  | syncReceived p m | rosterReceived p w ps m | claimReceived p b d m | releaseReceived p b m | evictReceived p w m
  | byeReceived p m | requestReceived p t b m | responseReceived p t b m | signalReceived p b v m
  | frameForAnotherStation p d u m => exact h.released ht (fun h => h.receive _ m)
  | headPreparation => exact h.released ht afterHead
  | holdoffExpiry =>
    refine h.released ht (fun h => ?_)
    rw [State.holdoffExpires]
    split <;> exact h
  | responseTimerExpiry tag => exact h.released ht (fun h => h.responseTimerExpires tag)
  | quarantineExpiry tag => exact h.released ht (fun h => h.quarantineExpires tag)
  | settleTimerExpiry => exact h.released ht settleExpires
  | leaveDeadlineExpiry => exact h.released ht leaveDeadlineExpires
  | burstNotAFrame => exact h.released ht id

/-- Settles O59: each command keeps the membership laws, and the queue of commands has no part in them. -/
theorem membershipLawsKept : Obligations.MembershipLawsKept := by
  intro s t hstep h
  rw [step] at hstep
  split at hstep
  · exact Host.Outcome.next.inj hstep ▸ h
  · exact MembershipLaws.exec hstep h

end Sys2Proof.Machine
end

section
/-! PROOF. The reset values, the frame a station selects, and when it begins it. -/

namespace Sys2Proof.Machine

/-! ### Reset -/

/-- The Setup words after reset: no slot valid, and the timing word of R39. -/
theorem Setup.reset_word : ∀ i : Fin 9, Setup.reset.word i = if i.val = 8 then 0x00000803 else 0 := by decide

/-- After reset the CQ holds no record and no reservation. -/
theorem Ore.reset_cqSum : Ore.reset.cqSum = 0 := by decide

/-- Without an active cause LIRQ is not asserted. -/
theorem State.lirq_of_causes {s : State} (h : s.causes = 0) : s.lirq = false := by simp [State.lirq, h]

/-- With the Fault List and the queues empty no cause is active after reset. -/
theorem State.afterReset_causes (sid : Station) (rate : BitVec 2) (freeUsed : Nat) (pending : List Instr) :
    (State.afterReset sid rate freeUsed pending).causes = 0 := by
  simp [State.causes, State.afterReset, Lpu.faultCause, Lpu.reset, Isu.reset, Ore.reset]

/-- Settles O3: every block shows its reset value, and with empty queues no interrupt cause is active. -/
theorem resetReleasedLeaves : Obligations.ResetReleasedLeaves := by
  intro sid rate s
  refine ⟨State.afterReset sid rate s.freeUsed s.pending, rfl, rfl, ?mc, ?lpu, ?tif, ?wmu, ?ore, ?isu⟩
  case mc => exact ⟨rfl, rfl, rfl, Bank.at_all 0, rfl, rfl, rfl, rfl, rfl, rfl, rfl, rfl, rfl, rfl⟩
  case lpu =>
    refine ⟨rfl, rfl, rfl, Setup.reset_word, rfl, fun i => ?_, fun i => ?_, rfl, rfl, rfl,
      State.afterReset_causes _ _ _ _, State.lirq_of_causes (State.afterReset_causes _ _ _ _)⟩
    · exact Vector.getElem_replicate i.isLt
    · exact Vector.getElem_replicate i.isLt
  case tif => exact ⟨rfl, rfl, rfl, rfl, rfl, rfl⟩
  case wmu => exact ⟨rfl, Bank.at_all _, rfl⟩
  case ore => exact ⟨rfl, rfl, Bank.at_all _, rfl, Ore.reset_cqSum⟩
  case isu => exact ⟨rfl, Bank.at_all _, rfl, rfl⟩

/-! ### The queued RELEASE of the lowest base (R24) -/

/-- One slot looked at in the search for the lowest base: it replaces the best so far where its RELEASE is queued and its base
is lower. -/
def State.lowerRelease (s : State) (best : Option Slot) (n : Slot) : Option Slot :=
  if (s.wmu.own.at n).release.isSome then
    match best with
    | none => some n
    | some b => if (s.ownWindow n).low < (s.ownWindow b).low then some n else some b
  else best

/-- The search goes over the slots one by one. -/
theorem State.lowestRelease_eq (s : State) : s.lowestRelease = (Bank.indices 2).foldl s.lowerRelease none := rfl

/-- What a search over some slots finds: none where none of them has a RELEASE queued, else one of the lowest base. -/
def State.lowestAmong (s : State) (slots : List Slot) : Option Slot → Prop
  | none => ∀ n ∈ slots, (s.wmu.own.at n).release = none
  | some b => (s.wmu.own.at b).release.isSome = true ∧
      ∀ n ∈ slots, (s.wmu.own.at n).release.isSome = true → (s.ownWindow b).low ≤ (s.ownWindow n).low

/-- One more slot looked at. -/
theorem State.lowestAmong_lowerRelease {s : State} {slots : List Slot} {best : Option Slot} (h : s.lowestAmong slots best)
    (n : Slot) : s.lowestAmong (slots ++ [n]) (s.lowerRelease best n) := by
  unfold State.lowerRelease
  split
  · next hn =>
    cases best with
    | none =>
      refine ⟨hn, fun m hm hq => ?_⟩
      rcases List.mem_append.1 hm with hm | hm
      · simp [h m hm] at hq
      · rw [List.mem_singleton.1 hm]
    | some b =>
      obtain ⟨hb, hlow⟩ := h
      dsimp only
      split
      · next hlt =>
        refine ⟨hn, fun m hm hq => ?_⟩
        rcases List.mem_append.1 hm with hm | hm
        · exact hlt.le.trans (hlow m hm hq)
        · rw [List.mem_singleton.1 hm]
      · next hge =>
        refine ⟨hb, fun m hm hq => ?_⟩
        rcases List.mem_append.1 hm with hm | hm
        · exact hlow m hm hq
        · rw [List.mem_singleton.1 hm]
          exact Nat.le_of_not_lt hge
  · next hn =>
    have hnone : (s.wmu.own.at n).release = none := by simpa using hn
    cases best with
    | none =>
      intro m hm
      rcases List.mem_append.1 hm with hm | hm
      · exact h m hm
      · rw [List.mem_singleton.1 hm]
        exact hnone
    | some b =>
      refine ⟨h.1, fun m hm hq => ?_⟩
      rcases List.mem_append.1 hm with hm | hm
      · exact h.2 m hm hq
      · rw [List.mem_singleton.1 hm] at hq
        exact absurd hq hn

/-- The search over all slots finds the RELEASE of the lowest base. -/
theorem State.lowestAmong_lowestRelease (s : State) : s.lowestAmong (Bank.indices 2) s.lowestRelease := by
  rw [State.lowestRelease_eq]
  induction Bank.indices 2 using List.reverseRecOn with
  | nil => exact fun n hn => nomatch hn
  | append_singleton slots n ih =>
    rw [List.foldl_append]
    exact State.lowestAmong_lowerRelease ih n

/-- With no RELEASE queued none is found. -/
theorem State.lowestRelease_eq_none {s : State} (h : ∀ n, (s.wmu.own.at n).release = none) : s.lowestRelease = none := by
  have hfound := s.lowestAmong_lowestRelease
  cases hl : s.lowestRelease with
  | none => rfl
  | some b =>
    rw [hl] at hfound
    simpa [h b] using hfound.1

/-- Where a RELEASE is queued, one of the lowest base is found. -/
theorem State.lowestRelease_of_queued {s : State} (h : ∃ n, (s.wmu.own.at n).release.isSome = true) :
    ∃ b, s.lowestRelease = some b ∧ (s.wmu.own.at b).release.isSome = true ∧
      ∀ n, (s.wmu.own.at n).release.isSome = true → (s.ownWindow b).low ≤ (s.ownWindow n).low := by
  have hfound := s.lowestAmong_lowestRelease
  obtain ⟨n, hn⟩ := h
  cases hl : s.lowestRelease with
  | none =>
    rw [hl] at hfound
    simp [hfound n (Bank.mem_indices n)] at hn
  | some b =>
    rw [hl] at hfound
    exact ⟨b, rfl, hfound.1, fun m => hfound.2 m (Bank.mem_indices m)⟩

/-! ### The selection (R23) -/

/-- With an empty SQ a pending map frame is offered. -/
theorem State.select_map {s : State} {src : Source} (hsq : s.isu.sq = []) (h : s.mapSource = some src) :
    s.select = some src := by
  simp [State.select, hsq, h]

/-- With an empty SQ and no map frame pending the RQ head is offered where it is READY. -/
theorem State.select_head {s : State} (hsq : s.isu.sq = []) (h : s.mapSource = none) :
    s.select = if s.ore.headReady then some .rqHead else none := by
  simp [State.select, hsq, h]

/-- With no flag set the first EVICT is the pending map frame; with none pending it is a RELEASE or the CLAIM in course. -/
theorem State.mapSource_unflagged {s : State} (hsync : s.mc.sync = none) (hbye : s.mc.bye = none)
    (hroster : s.mc.roster = none) :
    (∀ e es, s.mc.evicts = e :: es → s.mapSource = some (.evict e.station)) ∧
    (∀ n, s.mc.evicts = [] → s.lowestRelease = some n → s.mapSource = some (.release n)) ∧
    (s.mc.evicts = [] → s.lowestRelease = none → s.mapSource = s.wmu.claim.map (fun c => .claim c.slot)) := by
  refine ⟨fun e es he => ?_, fun n he hl => ?_, fun he hl => ?_⟩
  · simp [State.mapSource, hsync, hbye, hroster, he]
  · simp [State.mapSource, hsync, hbye, hroster, he, hl]
  · simp [State.mapSource, hsync, hbye, hroster, he, hl]

/-- Settles O23, candidate by candidate in the order of R23 and R24. -/
theorem transmitSelection : Obligations.TransmitSelection := by
  intro s hlaws
  refine ⟨fun hsq => by simp [State.select, hsq], fun hsq => ⟨fun hsync => ?_, fun hsync hbye => ?_,
    fun hsync hbye hroster => ?_, fun hsync hbye hroster => ?_⟩⟩
  · exact State.select_map hsq (by simp [State.mapSource, hsync])
  · exact State.select_map hsq (by simp [State.mapSource, hsync, hbye])
  · exact State.select_map hsq (by simp [State.mapSource, hsync, hbye, hroster])
  obtain ⟨hevict, hrelease, hclaim⟩ := State.mapSource_unflagged hsync hbye hroster
  refine ⟨fun hne => ?_, fun hnone => ⟨fun hqueued => ?_, fun hunqueued => ?_⟩⟩
  · obtain ⟨e, es, he⟩ := List.exists_cons_of_ne_nil hne
    have hascending := hlaws.ascending
    rw [he, List.pairwise_cons] at hascending
    refine ⟨e, by simp [he], State.select_map hsq (hevict e es he), fun x hx => ?_⟩
    rw [he, List.mem_cons] at hx
    rcases hx with rfl | hx
    · exact le_rfl
    · exact (hascending.1 x hx).le
  · obtain ⟨n, hl, hn, hlow⟩ := State.lowestRelease_of_queued hqueued
    exact ⟨n, hn, State.select_map hsq (hrelease n hnone hl), hlow⟩
  · have hmap := hclaim hnone (State.lowestRelease_eq_none hunqueued)
    refine ⟨fun c hc => State.select_map hsq (by simp [hmap, hc]), fun hc => ?_⟩
    rw [State.select_head hsq (by simp [hmap, hc])]
    refine ⟨fun h hhead hphase => by simp [Ore.headReady, hhead, hphase], fun hholdoff => ?_⟩
    cases hhead : s.ore.head with
    | none => simp [Ore.headReady, hhead]
    | some h => simp [Ore.headReady, hhead, hholdoff h hhead]

/-! ### The beginning of a frame (R20 to R22, R25) -/

/-- The pending map frame is a candidate with counts. -/
theorem State.countsOf_mapSource {s : State} {src : Source} (h : s.mapSource = some src) :
    src ≠ .sqHead ∧ src ≠ .rqHead ∧ (s.countsOf src).isSome = true := by
  rw [State.mapSource] at h
  split at h
  · next hsync =>
    cases h
    exact ⟨nofun, nofun, hsync⟩
  split at h
  · next hbye =>
    cases h
    exact ⟨nofun, nofun, hbye⟩
  split at h
  · next hroster =>
    cases h
    exact ⟨nofun, nofun, hroster⟩
  split at h
  · next e es he =>
    cases h
    exact ⟨nofun, nofun, by simp [State.countsOf, he]⟩
  split at h
  · next n hl =>
    cases h
    have hfound := s.lowestAmong_lowestRelease
    rw [hl] at hfound
    exact ⟨nofun, nofun, hfound.1⟩
  · obtain ⟨c, hc, rfl⟩ := Option.map_eq_some_iff.1 h
    exact ⟨nofun, nofun, by simp [State.countsOf, hc]⟩

/-- Every map frame has a content. -/
theorem State.messageOf_map {s : State} {src : Source} (hsq : src ≠ .sqHead) (hrq : src ≠ .rqHead) :
    (s.messageOf src).isSome = true := by
  cases src with
  | sqHead => exact absurd rfl hsq
  | rqHead => exact absurd rfl hrq
  | sync | bye | roster | evict d | release n | claim n => rfl

/-- A frame can be built for every source that has a content and counts. -/
theorem State.frameOf_of_isSome {s : State} {src : Source} (hm : (s.messageOf src).isSome = true)
    (hc : (s.countsOf src).isSome = true) : ∃ f, s.frameOf src = some f := by
  obtain ⟨m, hm⟩ := Option.isSome_iff_exists.1 hm
  obtain ⟨c, hc⟩ := Option.isSome_iff_exists.1 hc
  exact ⟨m.frame c.urgent, by simp [State.frameOf, hm, hc]⟩

/-- What is selected can be built: a READY head is that of an RQ with a descriptor. -/
theorem State.frameOf_select {s : State} (hl : CompletionLaws s.ore) {src : Source} (h : s.select = some src) :
    ∃ f, s.frameOf src = some f := by
  have hselect := h
  rw [State.select] at h
  split at h
  · next hsq =>
    cases h
    have hne : s.isu.sq ≠ [] := by simpa using hsq
    obtain ⟨r, rs, hr⟩ := List.exists_cons_of_ne_nil hne
    exact State.frameOf_of_isSome (by simp [State.messageOf, hr]) (by simp [State.countsOf, hr])
  · split at h
    · next hmap =>
      cases h
      obtain ⟨hsq, hrq, hcounts⟩ := State.countsOf_mapSource hmap
      exact State.frameOf_of_isSome (State.messageOf_map hsq hrq) hcounts
    · split at h
      · cases h
        obtain ⟨x, hx, -⟩ := State.headReady_of_select hselect
        obtain ⟨d, ds, hd⟩ := List.exists_cons_of_ne_nil (hl.headQueued (by simp [hx]))
        exact State.frameOf_of_isSome (by simp [State.messageOf, hd, hx]) (by simp [State.countsOf, hx])
      · cases h

/-- Settles O22: a frame is begun where the station may begin one and selects a source whose frame can be built. -/
theorem beginningAFrame : Obligations.BeginningAFrame := by
  intro s hr
  have hexec : exec .beginningAFrame s = .next s.begin := by simp [exec, execBeginningAFrame, released, hr]
  rw [hexec]
  refine ⟨fun hnot => congrArg _ ?_, fun src hl hi hready hf hlaws hselect => ?_⟩
  · rcases hnot with h | h | h | h
    · simp [State.begin, State.mayBegin, h]
    · simp [State.begin, State.mayBegin, h]
    · simp [State.begin, State.mayBegin, h]
    · simp [State.begin, h]
  · obtain ⟨f, hframe⟩ := State.frameOf_select hlaws hselect
    have hmay : s.mayBegin = true := by simp [State.mayBegin, hl, hi, hready, hf]
    exact ⟨f, hframe, by simp [State.begin, hmay, hselect, hframe]⟩

end Sys2Proof.Machine
end

section
/-! PROOF. What LOST does to the frame in flight, and the outcomes of the own BYE and of the frames of the RQ and the SQ head. -/

namespace Sys2Proof.Machine

/-! ### Frames in flight -/

/-- A LEAVE waits for the SYNC in SYNC_WAIT, as the command in progress. -/
theorem State.leaveWaitsForSync_iff (s : State) :
    s.leaveWaitsForSync = true ↔ s.mc.state = .syncWait ∧ s.lpu.running = some .leave := by
  simp [State.leaveWaitsForSync]

/-- Of a request, signal or response frame sent for nobody the work was discarded. -/
theorem State.discarded_of_sendsForNobody {s : State} {src : Source} {f : Frame} (h : s.sendsForNobody src f)
    (hsrc : src ≠ .sync) : s.resetAsserted = false ∧ s.tif.flight = some ⟨src, f, true⟩ := by
  obtain ⟨hr, gone, hf, rfl | ⟨rfl, -⟩⟩ := h
  · exact ⟨hr, hf⟩
  · exact absurd rfl hsrc

/-- The return to HALTED of the LEAVE in progress, written out (R44). -/
theorem State.leaveToHalted_of_leave {s : State} (h : s.lpu.running = some .leave) :
    s.leaveToHalted = { s with
      tif := { s.tif with flight := none, rx := none, collidedHere := false, spent := none }
      mc := { s.mc with state := .halted, sync := none }
      wmu := { s.wmu with own := Bank.all 2 ⟨.idle, none⟩, claim := none }
      lpu := { s.lpu with running := none, last := some ⟨.leave, .done⟩, cmdDone := true, stateChange := true } } :=
  State.finish_of_running (by exact h) _

/-! ### LOST (R27, R28) -/

/-- A dominant bit sampled where the frame in flight has a recessive arbitration bit is a LOST. -/
theorem exec_lost {s : State} {f : Flight} {bit : BitVec 3} (hr : s.resetAsserted = false) (hf : s.tif.flight = some f)
    (hx : s.tif.receiver = .receiving) (hb : f.frame.bitAt (bit.toNat + 1) = some true) :
    exec (.lost bit) s = .next (s.lose f) := by
  have hcompared : s.comparedAt (bit.toNat + 1) = some (f, true) := State.comparedAt_eq_some.2 ⟨hx, hf, hb⟩
  have hlost : compareBit (bit.toNat + 1) true false = some .lost := by
    have hbit := bit.isLt
    simp [compareBit]
    omega
  simp [exec, execLost, released, hr, State.lostAt, hcompared, hlost]

/-- A LOST frame that has its owner ages. -/
theorem State.lose_ages {s : State} {src : Source} {f : Frame} {c : Counts} (hc : s.countsOf src = some c)
    (hwaits : src = .sync → s.leaveWaitsForSync = false) (hclaim : ∀ n, src = .claim n → s.mc.state ≠ .leaving) :
    s.lose ⟨src, f, false⟩ = State.withCounts src (c.lose s.lpu.setup.agingThreshold)
      { s with tif := { s.tif with flight := none, collisions := 0 } } := by
  cases src with
  | sync => simp [State.lose, hwaits rfl, hc]
  | claim n => simp [State.lose, hclaim n rfl, hc]
  | sqHead | bye | roster | evict d | release n | rqHead => simp [State.lose, hc]

/-- The loss of a frame sent for nobody ends the transmission, and that is all. -/
theorem exec_lost_forNobody {s : State} {src : Source} {f : Frame} {bit : BitVec 3} (h : s.sendsForNobody src f)
    (hx : s.tif.receiver = .receiving) (hb : f.bitAt (bit.toNat + 1) = some true) :
    exec (.lost bit) s = .next { s with tif := { s.tif with flight := none, collisions := 0 } } := by
  obtain ⟨hr, gone, hf, hgone⟩ := h
  rw [exec_lost hr hf hx hb]
  rcases hgone with rfl | ⟨rfl, hs, hsync⟩
  · simp [State.lose]
  · cases gone <;> simp [State.lose, State.leaveWaitsForSync, hs, State.countsOf, hsync]

/-- Settles O25, by what the owner of the frame does with the loss. -/
theorem lostFrameAges : Obligations.LostFrameAges := by
  refine ⟨fun s bit hx => ?_, fun s src f bit h hx hb => exec_lost_forNobody h hx hb, ?_⟩
  · simp [exec, execLost, released, State.lostAt, State.comparedAt, hx]
  intro s src f bit c hsends hx hb hc limit losses released waits
  obtain ⟨hr, hf⟩ := hsends
  rw [exec_lost hr hf hx hb]
  refine ⟨fun hnot hclaim => ?_, fun hwaits => ?_, fun n hsrc hs => ?_⟩
  · refine congrArg _ (State.lose_ages hc (fun hsrc => ?_) hclaim)
    rw [← Bool.not_eq_true, State.leaveWaitsForSync_iff]
    exact fun hw => hnot ⟨hsrc, hw⟩
  · obtain ⟨rfl, hw⟩ := hwaits
    have hlose : s.lose ⟨.sync, f, false⟩ = released.leaveToHalted := by
      simp only [State.lose, if_pos ((State.leaveWaitsForSync_iff s).2 hw)]
      rfl
    rw [hlose, State.leaveToHalted_of_leave (by exact hw.2)]
  · subst hsrc
    have hlose : s.lose ⟨.claim n, f, false⟩ = released.dropClaim n := by
      simp only [State.lose, if_pos hs]
      rfl
    rw [hlose]
    rfl

/-! ### The own BYE (R59) -/

/-- The entry into DETACHED, written out, with no command in progress but a LEAVE. -/
theorem State.enterDetached_eq {s : State} (hr : s.lpu.running = none ∨ s.lpu.running = some .leave) :
    s.enterDetached = { s with
      tif := { s.tif with rx := none, holdoff := none }
      mc := { s.mc with
        state := .detached, peers := StationSet.empty, miss := Bank.all 5 0, evicts := [], roster := none, bye := none
        settle := none, deadline := none }
      wmu := Wmu.reset
      ore := { s.ore with ort := s.ore.ort.map OrtEntry.release }
      isu := s.isu.dropService
      lpu := { s.lpu with
        stateChange := true, running := none
        last := if s.lpu.running = some .leave then some ⟨.leave, .done⟩ else s.lpu.last
        cmdDone := s.lpu.running = some .leave || s.lpu.cmdDone } } := by
  rcases hr with hr | hr
  · obtain ⟨_, _, _, _, _, _, ⟨_, _, running, _, _, _, _, _, _, _, _, _⟩, _, _⟩ := s
    obtain rfl : running = none := hr
    simp [State.enterDetached, State.enter]
  · simp [State.enterDetached, State.enter, State.finish, hr]

/-- Settles O31: the BYE TAKEN is the entry into DETACHED. -/
theorem byeTaken : Obligations.ByeTaken := by
  intro s f levels hsends hdest hclear hrun
  rw [exec_byeOutcome hsends, outcomeOf_taken hclear (Or.inr hdest)]
  refine ⟨_, rfl, ?_⟩
  rw [State.byeEnds, State.enterDetached_eq (s := s.endFlight) hrun]
  refine ⟨rfl, rfl, rfl, rfl, rfl, rfl, rfl, fun tag => ?_, rfl⟩
  rw [Bank.at_map]
  rfl

/-! ### The miss counters at the end of an own frame (R89) -/

/-- What an outcome does to the miss counters, by the levels it is drawn from. -/
theorem Mc.reportOutcome_outcomeOf (m : Mc) (dest : Station) (levels : Slots) :
    m.reportOutcome dest (outcomeOf dest levels) = m.afterFrame dest levels := by
  by_cases hd : dest = 31#5
  · simp [Mc.reportOutcome, Mc.afterFrame, hd]
  cases he : levels.error with
  | true => simp [Mc.reportOutcome, Mc.afterFrame, outcomeOf_error he, hd, he]
  | false =>
    cases hr : levels.reject with
    | true => simp [Mc.reportOutcome, Mc.afterFrame, outcomeOf_reject he hr, hd, he, hr, Mc.clearMiss]
    | false =>
      cases ha : levels.accept with
      | true =>
        simp [Mc.reportOutcome, Mc.afterFrame, outcomeOf_taken ⟨he, hr⟩ (Or.inl ha), hd, he, ha, Mc.clearMiss]
      | false =>
        simp [Mc.reportOutcome, Mc.afterFrame, outcomeOf_unanswered ⟨he, hr⟩ ha hd, hd, he, hr, ha]

/-- A frame TAKEN or REJECTED returns the counter of its destination to 0; a broadcast has none. -/
theorem Mc.reportOutcome_alive (m : Mc) (dest : Station) {o : Outcome} (ho : o = .taken ∨ o = .rejected) :
    m.reportOutcome dest o = if dest = 31 then m else { m with miss := m.miss.put dest 0 } := by
  rcases ho with rfl | rfl <;> rfl

/-- A unicast frame UNANSWERED raises the counter of its destination. -/
theorem Mc.reportOutcome_unanswered (m : Mc) {dest : Station} (hd : dest ≠ 31#5) :
    m.reportOutcome dest .unanswered = m.raiseMiss dest := by
  simp [Mc.reportOutcome, hd]

/-! ### The frame of the RQ head (R107 to R109) -/

/-- The prepared head h of descriptor d completed with a status: the descriptor leaves, the head's tag goes FREE, and one
record joins the CQ. -/
def Ore.headCompleted (o : Ore) (d : Descriptor) (ds : List Descriptor) (h : PreparedHead) (st : Status) : Ore :=
  { o with
    rq := ds, head := none
    ort := match h.tag with
      | some t => o.ort.put t .free
      | none => o.ort
    cq := o.cq ++ [⟨d.ticket, d.work.op, st, some h.dest, []⟩] }

/-- A head given up is completed towards its destination, and its holdoff stops. -/
theorem State.giveUpHead_eq {s : State} {d : Descriptor} {ds : List Descriptor} {h : PreparedHead} (hq : s.ore.rq = d :: ds)
    (hh : s.ore.head = some h) (st : Status) :
    s.giveUpHead st = { s with ore := s.ore.headCompleted d ds h st, tif := { s.tif with holdoff := none } } := by
  have hcompleted : s.ore.completeHead st (some h.dest) = s.ore.headCompleted d ds h st := by
    cases ht : h.tag <;>
      simp [Ore.completeHead, hq, Ore.freeHeadTag, hh, ht, Ore.retireHead, Ore.headCompleted]
  simp only [State.giveUpHead, hh, hcompleted]

/-- A tagged head's frame TAKEN: its entry goes from PENDING to SENT, and the descriptor leaves. -/
theorem Ore.headTaken_tagged {o : Ore} {h : PreparedHead} {t : Tag} {r : OrtRecord} (hh : o.head = some h)
    (ht : h.tag = some t) (hp : o.ort.at t = .pending r) (timeout : Nat) :
    o.headTaken timeout = { o with rq := o.rq.tail, head := none, ort := o.ort.put t (.sent r (some timeout)) } := by
  simp [Ore.headTaken, hh, ht, hp, OrtEntry.send, Ore.retireHead]

/-- A tagless head's frame TAKEN: the descriptor leaves. -/
theorem Ore.headTaken_untagged {o : Ore} {h : PreparedHead} (hh : o.head = some h) (ht : h.tag = none) (timeout : Nat) :
    o.headTaken timeout = { o with rq := o.rq.tail, head := none } := by
  simp [Ore.headTaken, hh, ht, Ore.retireHead]

/-- A frame of the RQ head whose descriptor was discarded reports its outcome to the miss counters alone. -/
theorem exec_requestFrameOutcome_forNobody {s : State} {f : Frame} (h : s.sendsForNobody .rqHead f) (levels : Slots) :
    exec (.requestFrameOutcome (.endOfTrailer levels)) s =
      .next { s with tif := s.tif.sent, mc := s.mc.afterFrame f.dest levels } := by
  obtain ⟨hr, hf⟩ := State.discarded_of_sendsForNobody h nofun
  simp [exec, execRequestFrameOutcome, released, hr, State.ownFrame, State.atTrailer, hf, State.requestEnds,
    Mc.reportOutcome_outcomeOf, State.endFlight_eq]

/-- The RQ head's frame in flight TAKEN, UNANSWERED and REJECTED, with the outcome reported to the miss counters. -/
theorem State.requestEnds_of_sends (s : State) (f : Frame) :
    s.endFlight.requestEnds ⟨.rqHead, f, false⟩ .taken = State.followed { s with
      tif := s.tif.sent, mc := s.mc.reportOutcome f.dest .taken, ore := s.ore.headTaken s.timeout } ∧
    s.endFlight.requestEnds ⟨.rqHead, f, false⟩ .unanswered = State.followed (State.giveUpHead .noPeer { s with
      tif := s.tif.sent, mc := s.mc.reportOutcome f.dest .unanswered }) ∧
    s.endFlight.requestEnds ⟨.rqHead, f, false⟩ .rejected = State.headRejected { s with
      tif := s.tif.sent, mc := s.mc.reportOutcome f.dest .rejected } :=
  ⟨State.afterHead_eq_followed _, State.afterHead_eq_followed _, rfl⟩

/-- Settles O32, outcome by outcome. -/
theorem requestFrameOutcome : Obligations.RequestFrameOutcome := by
  refine ⟨fun s f levels h => exec_requestFrameOutcome_forNobody h levels, ?_⟩
  intro s f d ds h levels hsends hq hh hdest sentMc freed ended answers
  have halive : ∀ o, o = .taken ∨ o = .rejected → s.mc.reportOutcome f.dest o = sentMc := by
    intro o ho
    rw [Mc.reportOutcome_alive _ _ ho, hdest]
  obtain ⟨htaken, hunanswered, hrejected⟩ := State.requestEnds_of_sends s f
  rw [halive _ (Or.inl rfl)] at htaken
  rw [halive _ (Or.inr rfl)] at hrejected
  have hexec := exec_requestFrameOutcome hsends levels
  refine ⟨fun hclear haccept => ?_, fun hsilent hunicast => hexec.trans (congrArg _ ?_),
    fun herror hreject hbusy => hexec.trans (congrArg _ ?_), fun herror hreject hbusy => hexec.trans (congrArg _ ?_)⟩
  · rw [outcomeOf_taken hclear (by rwa [hdest]), htaken] at hexec
    refine ⟨fun t r ht hp => hexec.trans (congrArg _ ?_), fun ht => hexec.trans (congrArg _ ?_)⟩
    · simp only [Ore.headTaken_tagged hh ht hp, hq, List.tail_cons]
      rfl
    · simp only [Ore.headTaken_untagged hh ht, hq, List.tail_cons]
  · have hunicast : f.dest ≠ 31#5 := hdest ▸ hunicast
    rw [hsilent, outcomeOf_unanswered ⟨rfl, rfl⟩ rfl hunicast, hunanswered, Mc.reportOutcome_unanswered _ hunicast, hdest]
    exact congrArg State.followed (State.giveUpHead_eq (by exact hq) (by exact hh) _)
  · have hbelow : h.busy + 1 < Config.busyLimit := Nat.succ_lt_succ hbusy
    rw [outcomeOf_reject herror hreject, hrejected]
    simp only [State.headRejected, hh, if_pos hbelow]
    rfl
  · have hlimit : ¬h.busy + 1 < Config.busyLimit := Nat.not_lt.2 (Nat.succ_le_succ hbusy)
    rw [outcomeOf_reject herror hreject, hrejected]
    simp only [State.headRejected, hh, if_neg hlimit, State.afterHead_eq_followed]
    exact congrArg State.followed (State.giveUpHead_eq (by exact hq) (by exact hh) _)

/-! ### The frame of the SQ head (R147) -/

/-- The SQ without its head: the handle is FREE, and the next record starts with counts of 0. -/
theorem Isu.popSq_cons {i : Isu} {r : SqRecord} {rs : List SqRecord} (h : i.sq = r :: rs) :
    i.popSq = { i with sq := rs, itt := i.itt.put r.handle none, sqCounts := Counts.zero } := by
  simp [Isu.popSq, h]

/-- A frame of the SQ head whose record was discarded reports its outcome to the miss counters alone. -/
theorem exec_responseFrameOutcome_forNobody {s : State} {f : Frame} (h : s.sendsForNobody .sqHead f) (levels : Slots) :
    exec (.responseFrameOutcome (.endOfTrailer levels)) s =
      .next { s with tif := s.tif.sent, mc := s.mc.afterFrame f.dest levels } := by
  obtain ⟨hr, hf⟩ := State.discarded_of_sendsForNobody h nofun
  simp [exec, execResponseFrameOutcome, released, hr, State.ownFrame, State.atTrailer, hf, State.responseEnds,
    Mc.reportOutcome_outcomeOf, State.endFlight_eq]

/-- A response in flight TAKEN, UNANSWERED and REJECTED, with the outcome reported to the miss counters. -/
theorem State.responseEnds_of_sends (s : State) (f : Frame) :
    s.endFlight.responseEnds ⟨.sqHead, f, false⟩ .taken = State.responded { s with
      tif := s.tif.sent, mc := s.mc.reportOutcome f.dest .taken, isu := s.isu.popSq } ∧
    s.endFlight.responseEnds ⟨.sqHead, f, false⟩ .unanswered = State.responded { s with
      tif := s.tif.sent, mc := s.mc.reportOutcome f.dest .unanswered, isu := s.isu.popSq } ∧
    s.endFlight.responseEnds ⟨.sqHead, f, false⟩ .rejected = State.voidFrame .sqHead { s with
      tif := s.tif.sent, mc := s.mc.reportOutcome f.dest .rejected } :=
  ⟨State.afterResponse_eq_responded _, State.afterResponse_eq_responded _, rfl⟩

/-- The abandonment of a response: its record leaves the SQ, and VOID_LIMIT names its destination and its handle (R147). -/
theorem State.abandon_sqHead {s : State} {r : SqRecord} {rs : List SqRecord} (h : s.isu.sq = r :: rs) :
    s.abandon .sqHead = State.responded { s with
      isu := { s.isu with sq := rs, itt := s.isu.itt.put r.handle none, sqCounts := Counts.zero }
      lpu := { s.lpu with
        faults := addFault ⟨.voidLimit, some r.dest, some (r.handle.setWidth 5), none, false⟩ s.lpu.faults } } := by
  simp only [State.abandon, h, Isu.popSq_cons h, State.afterResponse_eq_responded]
  rfl

/-- Settles O33, outcome by outcome. -/
theorem responseFrameOutcome : Obligations.ResponseFrameOutcome := by
  refine ⟨fun s f levels h => exec_responseFrameOutcome_forNobody h levels, ?_⟩
  intro s f r rs levels hsends hsq hunicast gone alive
  have hunicast : f.dest ≠ 31#5 := hunicast
  have halive : ∀ o, o = .taken ∨ o = .rejected → s.mc.reportOutcome f.dest o = alive := by
    intro o ho
    rw [Mc.reportOutcome_alive _ _ ho]
    exact if_neg hunicast
  have hcounts : State.countsOf .sqHead { s with tif := s.tif.sent, mc := alive } = some s.isu.sqCounts := by
    simp [State.countsOf, hsq]
  obtain ⟨htaken, hunanswered, hrejected⟩ := State.responseEnds_of_sends s f
  rw [halive _ (Or.inl rfl), Isu.popSq_cons hsq] at htaken
  rw [Mc.reportOutcome_unanswered _ hunicast, Isu.popSq_cons hsq] at hunanswered
  rw [halive _ (Or.inr rfl)] at hrejected
  rw [exec_responseFrameOutcome hsends levels]
  refine ⟨fun hclear haccept => congrArg _ ?_, fun hsilent => congrArg _ ?_, fun herror hreject hvoids => congrArg _ ?_,
    fun herror hreject hvoids => congrArg _ ?_⟩
  · rw [outcomeOf_taken hclear (Or.inl haccept), htaken]
  · rw [hsilent, outcomeOf_unanswered ⟨rfl, rfl⟩ rfl hunicast, hunanswered]
  · rw [outcomeOf_reject herror hreject, hrejected, State.voidFrame_below hcounts hvoids]
    simp [State.withCounts, hsq]
  · rw [outcomeOf_reject herror hreject, hrejected, State.voidFrame_limit hcounts hvoids.ge,
      State.abandon_sqHead (by exact hsq)]

end Sys2Proof.Machine
end

section
/-! PROOF. The void limit: a voided frame below it stays a candidate, and the eighth void abandons a frame by its kind. -/

namespace Sys2Proof.Machine

/-! ### A void at the end of the trailer -/

/-- A voided frame reports no outcome to the miss counters. -/
theorem Mc.reportOutcome_voided (m : Mc) (dest : Station) : m.reportOutcome dest .voided = m := by
  simp [Mc.reportOutcome]

/-- The VOIDED frame of any source raises the void count, but for a SYNC a LEAVE waits for and a CLAIM in LEAVING. -/
theorem exec_row_voided {s : State} {src : Source} {f : Frame} {levels : Slots} (h : s.sends src f)
    (he : levels.error = true) (hwaits : src = .sync → s.leaveWaitsForSync = false)
    (hclaim : ∀ n, src = .claim n → s.mc.state ≠ .leaving) :
    exec (src.row (.endOfTrailer levels)) s = .next (State.voidFrame src { s with tif := s.tif.sent }) := by
  cases src with
  | sync =>
    have hw : s.endFlight.leaveWaitsForSync = false := hwaits rfl
    rw [Source.row, exec_syncOutcome h, outcomeOf_error he]
    simp only [State.syncEnds, hw]
    rfl
  | claim n =>
    have hs : s.endFlight.mc.state ≠ .leaving := hclaim n rfl
    rw [Source.row, exec_claimOutcome h, outcomeOf_error he]
    simp only [State.claimEnds, if_neg hs]
    rfl
  | bye => rw [Source.row, exec_byeOutcome h, outcomeOf_error he]; rfl
  | roster => rw [Source.row, exec_rosterOutcome h, outcomeOf_error he]; rfl
  | evict d => rw [Source.row, exec_evictOutcome h, outcomeOf_error he]; rfl
  | release n => rw [Source.row, exec_releaseOutcome h, outcomeOf_error he]; rfl
  | rqHead =>
    rw [Source.row, exec_requestFrameOutcome h, outcomeOf_error he]
    simp only [State.requestEnds, Mc.reportOutcome_voided, State.endFlight_eq, Bool.false_eq_true, if_false]
  | sqHead =>
    rw [Source.row, exec_responseFrameOutcome h, outcomeOf_error he]
    simp only [State.responseEnds, Mc.reportOutcome_voided, State.endFlight_eq, Bool.false_eq_true, if_false]

/-- The VOIDED CLAIM of a station in LEAVING is given up, and abandoned at its eighth void (R57). -/
theorem exec_claimOutcome_voided_leaving {s : State} {n : Slot} {f : Frame} {levels : Slots} {c : Counts}
    (h : s.sends (.claim n) f) (he : levels.error = true) (hs : s.mc.state = .leaving) (hc : s.countsOf (.claim n) = some c) :
    exec (.claimOutcome (.endOfTrailer levels)) s = .next (
      if c.voids + 1 < Config.voidLimit then State.dropClaim n { s with tif := s.tif.sent }
      else State.abandon (.claim n) { s with tif := s.tif.sent }) := by
  have hvoids : State.voidsAfter (.claim n) { s with tif := s.tif.sent } = c.voids + 1 := by
    simp [State.voidsAfter, hc]
  rw [exec_claimOutcome h, outcomeOf_error he]
  simp only [State.claimEnds, State.endFlight_eq, if_pos hs, hvoids]

/-- Settles O34: below the limit a void raises the void count, and in LEAVING it gives a CLAIM up. -/
theorem voidedFrameStaysACandidate : Obligations.VoidedFrameStaysACandidate := by
  intro s src f levels c hsends he hc hv
  refine ⟨fun hnot hclaim => ?_, fun n hsrc hs => ?_⟩
  · rw [exec_row_voided hsends he (fun hsrc => ?_) hclaim]
    · exact congrArg _ (State.voidFrame_below (by rw [State.countsOf_tif]; exact hc) hv)
    · rw [← Bool.not_eq_true, State.leaveWaitsForSync_iff]
      exact fun hw => hnot ⟨hsrc, hw⟩
  · subst hsrc
    rw [Source.row, exec_claimOutcome_voided_leaving hsends he hs hc, if_pos (Nat.succ_lt_succ hv)]
    rfl

/-! ### The eighth void -/

/-- The eighth void at the end of the trailer abandons the frame, that of a CLAIM in LEAVING too. -/
theorem exec_row_eighthVoid {s : State} {src : Source} {f : Frame} {levels : Slots} {c : Counts} (h : s.sends src f)
    (he : levels.error = true) (hc : s.countsOf src = some c) (hv : c.voids = 7)
    (hwaits : src = .sync → s.leaveWaitsForSync = false) :
    exec (src.row (.endOfTrailer levels)) s = .next (State.abandon src { s with tif := s.tif.sent }) := by
  by_cases hleave : s.mc.state = .leaving ∧ ∃ n, src = .claim n
  · obtain ⟨hs, n, rfl⟩ := hleave
    rw [Source.row, exec_claimOutcome_voided_leaving h he hs hc, hv, if_neg (by decide)]
  · rw [exec_row_voided h he hwaits (fun n hsrc hs => hleave ⟨hs, n, hsrc⟩)]
    exact congrArg _ (State.voidFrame_limit (by rw [State.countsOf_tif]; exact hc) hv.ge)

/-- The row i is a first collision of the frame in flight, at a bit that is no LOST (R26, R29). -/
def State.collidesAt (s : State) (f : Frame) (i : Instr) : Prop :=
  s.tif.receiver = .receiving ∧ s.tif.collisions = 0 ∧
  ∃ p b, i = .collided p ∧ f.bitAt p = some b ∧ (p = 0 ∨ 9 ≤ p ∨ b = false)

/-- The TIF right after a first collision, with what the end of the frame on the trunk owes. -/
def Tif.collidedOnce (t : Tif) (owed : Option Aftermath) : Tif :=
  { t with flight := none, collisions := 1, collidedHere := true, spent := owed }

/-- The TIF with fault records waiting for the end of the frame on the trunk. -/
def Tif.owes (rs : List FaultRecord) (t : Tif) : Tif := { t with spent := some (.faults rs) }

/-- At a CLAIM's eighth COLLIDED void, the TIF is that of the abandonment, and it owes the records of the abandonment. -/
theorem State.collideLimit_claim_tif (n : Slot) (c : Counts) (s : State) :
    (State.collideLimit (.claim n) c s).tif =
      Tif.owes (State.collideLimit (.claim n) c s).tif.due
        (State.abandon (.claim n) { s with lpu := { s.lpu with faults := [] } }).tif := rfl

/-- The row of such a collision. -/
theorem exec_collides {s : State} {src : Source} {f : Frame} {i : Instr} (h : s.sends src f) (hi : s.collidesAt f i) :
    exec i s = .next (s.collide ⟨src, f, false⟩) := by
  obtain ⟨hx, -, p, b, rfl, hb, hp⟩ := hi
  have hcompared : s.comparedAt p = some (⟨src, f, false⟩, b) := State.comparedAt_eq_some.2 ⟨hx, h.2, hb⟩
  have hcollided : compareBit p b (!b) = some .collided := by
    have hnotlost : ¬(1 ≤ p ∧ p ≤ 8 ∧ b = true) := by
      rintro ⟨h1, h8, rfl⟩
      rcases hp with hp | hp | hp
      · omega
      · omega
      · cases hp
    simp [compareBit] at hnotlost ⊢
    exact hnotlost
  simp [exec, execCollided, released, h.1, State.collidedAt, hcompared, hcollided]

/-- The eighth void at a collision: the limit is met at that bit, that of a CLAIM in LEAVING too. -/
theorem exec_collided_eighthVoid {s : State} {src : Source} {f : Frame} {i : Instr} {c : Counts} (h : s.sends src f)
    (hi : s.collidesAt f i) (hc : s.countsOf src = some c) (hv : c.voids = 7)
    (hwaits : src = .sync → s.leaveWaitsForSync = false) :
    exec i s = .next (State.collideLimit src ⟨c.losses, 8, c.urgent⟩
      { s with tif := s.tif.collidedOnce s.tif.spent }) := by
  have hfirst : s.tif.collisions = 0 := hi.2.1
  have hlimit : ¬Config.collisionLimit ≤ 0 + 1 := by decide
  have hvoid : State.collideVoid src { s with tif := s.tif.collidedOnce s.tif.spent } =
      State.collideLimit src ⟨c.losses, 8, c.urgent⟩ { s with tif := s.tif.collidedOnce s.tif.spent } := by
    rw [State.collideVoid_limit (by rw [State.countsOf_tif]; exact hc) hv.ge, hv]
  rw [exec_collides h hi, ← hvoid]
  simp only [State.collide, hfirst, if_neg hlimit]
  cases src with
  | sync => simp only [hwaits rfl]; rfl
  | claim n =>
    have hvoids : ¬(s.mc.state = .leaving ∧ s.voidsAfter (.claim n) < Config.voidLimit) := by
      rintro ⟨-, hlt⟩
      simp [State.voidsAfter, hc, hv] at hlt
    simp only [if_neg hvoids]
    rfl
  | sqHead | bye | roster | evict d | release n | rqHead => rfl

/-- The eighth void of a frame whose abandonment leaves one fault record: VOIDED, the record is appended; COLLIDED, it waits.
G gives the state after the abandonment from the TIF and the Fault List. -/
theorem exec_eighthVoid {s : State} {src : Source} {f : Frame} {levels : Slots} {c : Counts} {r : FaultRecord}
    {G : Tif → List FaultRecord → State} (hbit : src.abandonedAtBit = true)
    (habandon : ∀ tif faults,
      State.abandon src { s with tif := tif, lpu := { s.lpu with faults := faults } } = G tif (addFault r faults))
    (howing : ∀ tif faults faults' a, (G tif faults).owing faults' a = G { tif with spent := some a } faults')
    (hfaults : ∀ tif faults, (G tif faults).lpu.faults = faults)
    (h : s.sends src f) (he : levels.error = true) (hc : s.countsOf src = some c) (hv : c.voids = 7) {i : Instr} {tif : Tif}
    {faults : List FaultRecord}
    (hends : ((i = src.row (.endOfTrailer levels) ∧ tif = s.tif.sent) ∧ faults = addFault r s.lpu.faults) ∨
      (s.collidesAt f i ∧ tif = s.tif.collidedOnce (some (.faults [r]))) ∧ faults = s.lpu.faults) :
    exec i s = .next (G tif faults) := by
  have hwaits : src = .sync → s.leaveWaitsForSync = false := by rintro rfl; cases hbit
  rcases hends with ⟨⟨rfl, rfl⟩, rfl⟩ | ⟨⟨hi, rfl⟩, rfl⟩
  · rw [exec_row_eighthVoid h he hc hv hwaits]
    exact congrArg _ (habandon s.tif.sent s.lpu.faults)
  · have hatBit : State.abandonAtBit src { s with tif := s.tif.collidedOnce s.tif.spent } =
        G (s.tif.collidedOnce (some (.faults [r]))) s.lpu.faults := by
      have hrecord : addFault r [] = [r] := rfl
      simp only [State.abandonAtBit, habandon, howing, hfaults, hrecord]
      rfl
    rw [exec_collided_eighthVoid h hi hc hv hwaits, ← hatBit]
    cases src with
    | sync | bye | rqHead => cases hbit
    | sqHead | roster | evict d | release n | claim n => rfl

/-! ### The claims after a CLAIM abandoned (R68, R69) -/

/-- The entry into JOINED from CLAIMING with the JOIN in progress, written out. -/
theorem State.enterJoined_of_join {s : State} (hs : s.mc.state = .claiming) (hr : s.lpu.running = some .join) :
    s.enterJoined = { s with
      mc := { s.mc with state := .joined }
      lpu := { s.lpu with running := none, last := some ⟨.join, .done⟩, cmdDone := true, stateChange := true } } := by
  simp [State.enterJoined, hs, State.enter, State.finish, hr]

/-- Records that are not WANTED are passed over. -/
theorem State.claimFrom_append {s : State} {before : List Slot} (h : ∀ k ∈ before, (s.wmu.own.at k).state ≠ .wanted)
    (after : List Slot) : State.claimFrom (before ++ after) s = State.claimFrom after s := by
  induction before with
  | nil => rfl
  | cons k ks ih =>
    rw [List.forall_mem_cons] at h
    rw [List.cons_append, State.claimFrom, if_neg h.1, ih h.2]

/-- The first WANTED record is the first to be checked. -/
theorem State.nextClaim_first {s : State} {m : Slot}
    (h : ∀ k : Slot, k.toNat < m.toNat → (s.wmu.own.at k).state ≠ .wanted) :
    ∃ after, s.nextClaim = State.claimFrom (m :: after) { s with wmu := { s.wmu with claim := none } } := by
  obtain ⟨before, after, hsplit⟩ := List.append_of_mem (Bank.mem_indices m)
  have hascending := Bank.indices_ascending 2
  rw [hsplit, List.pairwise_append] at hascending
  refine ⟨after, ?_⟩
  rw [State.nextClaim, hsplit]
  exact State.claimFrom_append (by exact fun k hk => h k (hascending.2.2 k hk m List.mem_cons_self)) _

/-- With no record WANTED a station in CLAIMING with the JOIN in progress is JOINED. -/
theorem State.claimFrom_joined (l : List Slot) {s : State} (hs : s.mc.state = .claiming) (hr : s.lpu.running = some .join)
    (hnone : ∀ k, (s.wmu.own.at k).state ≠ .wanted) :
    State.claimFrom l s = { s with
      mc := { s.mc with state := .joined }
      lpu := { s.lpu with running := none, last := some ⟨.join, .done⟩, cmdDone := true, stateChange := true } } := by
  rw [State.claimFrom_none l hnone, State.enterJoined_of_join hs hr]

/-- Where the first window to be checked does not fit, its record is REFUSED; and if no other is WANTED, JOIN ends. -/
theorem State.claimFrom_refused {s : State} {m : Slot} (after : List Slot) (hm : (s.wmu.own.at m).state = .wanted)
    (hfits : claimFits s.wmu.map (s.ownWindow m) = false) :
    (State.claimFrom (m :: after) s).wmu.own.at m = ⟨.refused, none⟩ ∧
    (s.mc.state = .claiming → s.lpu.running = some .join → (∀ k, k ≠ m → (s.wmu.own.at k).state ≠ .wanted) →
      State.claimFrom (m :: after) s = { s.refuseClaim m with
        mc := { s.mc with state := .joined }
        lpu := { s.lpu with
          running := none, last := some ⟨.join, .done⟩, cmdDone := true, stateChange := true
          faults := addFault ⟨.claimRefused, none, none, some (s.ownWindow m).base, false⟩ s.lpu.faults } }) := by
  have hstep : State.claimFrom (m :: after) s = State.claimFrom after (s.refuseClaim m) := by
    rw [State.claimFrom, if_pos hm, if_neg (by simp [hfits])]
  have hown : ∀ k, (s.refuseClaim m).wmu.own.at k = if m = k then ⟨.refused, none⟩ else s.wmu.own.at k :=
    fun k => Bank.at_put _ _ _ _
  have hrefused : (s.refuseClaim m).wmu.own.at m = ⟨.refused, none⟩ := by rw [hown, if_pos rfl]
  rw [hstep]
  refine ⟨?_, fun hs hr hnone => ?_⟩
  · rw [(State.claimFrom_frame after _).2.2.2.2.2.2.2.2 m (by rw [hrefused]; nofun), hrefused]
  · refine State.claimFrom_joined after hs hr (fun k => ?_)
    rw [hown]
    split
    · nofun
    · next hmk => exact hnone k (Ne.symm hmk)

/-- The claims go on from a station in CLAIMING whose record n is REFUSED, with the map and the Fault List it has then. -/
theorem State.nextClaim_claimsOn {s x : State} {n : Slot} {faults : List FaultRecord} (hs : s.mc.state = .claiming)
    (hmc : x.mc = s.mc) (hown : x.wmu.own = s.wmu.own.put n ⟨.refused, none⟩)
    (hlpu : x.lpu = { s.lpu with faults := faults }) : s.claimsOn n x.wmu.map faults x.nextClaim := by
  have hother : ∀ m, m ≠ n → x.wmu.own.at m = s.wmu.own.at m := fun m hm => by rw [hown, Bank.at_put_ne _ _ (Ne.symm hm)]
  have hnot : ∀ k, (k ≠ n → (s.wmu.own.at k).state ≠ .wanted) → (x.wmu.own.at k).state ≠ .wanted := by
    intro k hk
    by_cases hkn : k = n
    · rw [hkn, hown, Bank.at_put_same]
      nofun
    · rw [hother k hkn]
      exact hk hkn
  have hwindow : ∀ m, x.ownWindow m = s.lpu.setup.window m s.mc.sid := fun m => by rw [State.ownWindow, hlpu, hmc]
  have hxs : x.mc.state = .claiming := by rw [hmc, hs]
  refine ⟨fun m hm hwanted hfirst => ?_, fun m hm hkeep => ?_, fun hnone hjoin => ?_⟩
  · obtain ⟨after, hnext⟩ := State.nextClaim_first (s := x) (m := m)
      (fun k hk => hnot k (fun hkn => hfirst k hkn hk))
    have hxm : (x.wmu.own.at m).state = .wanted := by rw [hother m hm]; exact hwanted
    rw [hnext, ← hwindow m]
    refine ⟨fun hfits => ?_, fun hfits => ?_⟩
    · rw [State.claimFrom, if_pos (by exact hxm), if_pos (by exact hfits)]
      exact ⟨rfl, hother m hm, hmc, hlpu⟩
    · obtain ⟨hrefused, hjoined⟩ := State.claimFrom_refused (s := { x with wmu := { x.wmu with claim := none } }) after
        hxm hfits
      refine ⟨hrefused, fun hnone hjoin => ?_⟩
      rw [hjoined hxs (by rw [hlpu]; exact hjoin) (fun k hk => hnot k (fun hkn => hnone k hkn hk))]
      refine ⟨by rw [hmc], rfl, ?_⟩
      have hbase : (State.ownWindow { x with wmu := { x.wmu with claim := none } } m).base =
          (s.lpu.setup.slots.at m).base := congrArg MapEntry.base (hwindow m)
      rw [hbase]
      simp only [hlpu]
  · rw [x.nextClaim_frame.2.2.2.2.2.2.2.2 m (hnot m (fun _ => hkeep)), hother m hm]
  · rw [State.nextClaim, State.claimFrom_joined _ (by exact hxs) (by rw [hlpu]; exact hjoin)
      (by exact fun k => hnot k (hnone k))]
    exact ⟨by rw [hmc], rfl, by rw [hlpu]⟩

/-- What is said of the claims that go on reads three blocks of the state reached. -/
theorem State.claimsOn_congr {s t t' : State} {n : Slot} {map : List MapEntry} {faults : List FaultRecord}
    (h : s.claimsOn n map faults t) (hwmu : t'.wmu = t.wmu) (hmc : t'.mc = t.mc) (hlpu : t'.lpu = t.lpu) :
    s.claimsOn n map faults t' := by
  unfold State.claimsOn at h ⊢
  rw [hwmu, hmc, hlpu]
  exact h

/-- A CLAIM abandoned in CLAIMING: its record is REFUSED, VOID_LIMIT is appended, and the claims go on (R68, R70). -/
theorem State.abandon_claim_claiming {s x t : State} {n : Slot} {faults : List FaultRecord} (hs : s.mc.state = .claiming)
    (hmc : x.mc = s.mc) (hwmu : x.wmu = s.wmu) (hlpu : x.lpu = { s.lpu with faults := faults })
    (ht : x.abandon (.claim n) = t) :
    t.tif = x.tif ∧ t.ore = x.ore ∧ t.isu = x.isu ∧ t.wmu.map = s.wmu.map ∧ t.wmu.own.at n = ⟨.refused, none⟩ ∧
    s.claimsOn n s.wmu.map (addFault ⟨.voidLimit, none, none, some (s.lpu.setup.slots.at n).base, false⟩ faults) t := by
  generalize hy : State.fault .voidLimit none none (some (x.ownWindow n).base)
    { x with wmu := x.wmu.setRecord n .refused } = y
  have hnext : t = y.nextClaim := by
    have hne : x.mc.state ≠ .leaving := by rw [hmc, hs]; nofun
    simp only [← ht, State.abandon, if_neg hne, hy]
  have hown : y.wmu.own = s.wmu.own.put n ⟨.refused, none⟩ := by rw [← hy, ← hwmu]; rfl
  have hmap : y.wmu.map = s.wmu.map := by rw [← hy, ← hwmu]; rfl
  have hrefused : y.wmu.own.at n = ⟨.refused, none⟩ := by rw [hown, Bank.at_put_same]
  have hylpu : y.lpu = { s.lpu with
      faults := addFault ⟨.voidLimit, none, none, some (s.lpu.setup.slots.at n).base, false⟩ faults } := by
    rw [← hy]
    simp [State.ownWindow, Setup.window, hlpu]
  have hclaims := State.nextClaim_claimsOn hs (by rw [← hy]; exact hmc) hown hylpu
  obtain ⟨-, htif, hore, hisu, -, -, hmap', -, hkept⟩ := y.nextClaim_frame
  rw [hnext]
  refine ⟨?_, ?_, ?_, hmap'.trans hmap, ?_, hmap ▸ hclaims⟩
  · rw [htif, ← hy]; rfl
  · rw [hore, ← hy]; rfl
  · rw [hisu, ← hy]; rfl
  · rw [hkept n (by rw [hrefused]; nofun), hrefused]

/-! ### The other abandonments -/

/-- The RQ head abandoned: it completes TRUNK_ERROR, and what follows follows (R110). -/
theorem State.abandon_rqHead {s : State} {d : Descriptor} {ds : List Descriptor} {h : PreparedHead}
    (hq : s.ore.rq = d :: ds) (hh : s.ore.head = some h) :
    s.abandon .rqHead = State.followed { s with
      ore := s.ore.headCompleted d ds h .trunkError, tif := { s.tif with holdoff := none } } := by
  rw [State.abandon, State.afterHead_eq_followed, State.giveUpHead_eq hq hh]

/-- The BYE abandoned: VOID_LIMIT, and the entry into DETACHED (R35, R59). -/
theorem State.abandon_bye_detachedFrom {s : State} (hr : s.lpu.running = none ∨ s.lpu.running = some .leave) :
    s.detachedFrom (s.abandon .bye) := by
  rw [State.abandon, State.enterDetached_eq (by exact hr)]
  exact ⟨rfl, rfl, rfl, rfl, rfl, rfl, rfl, rfl⟩

/-! ### The end of the frame on the trunk -/

/-- At a station outside LISTEN that sends nothing and ends no FLUSH by it, an idle report gives an abandoned frame what it is
owed. -/
theorem State.idleObserved_of_cutOff {s : State} (hf : s.tif.flight = none) (hs : s.mc.state ≠ .listen)
    (hflush : s.lpu.running ≠ some .flush ∨ s.isu.sq ≠ []) :
    s.idleObserved = State.finishSpent { s with tif := { s.tif with
      idleCount := 10, receiver := .ready, rx := none, collidedHere := false } } := by
  simp only [State.idleObserved, if_pos hf, if_neg hs, State.testFlush_eq_flushTested]
  rw [State.flushTested, if_neg]
  rintro ⟨hrun, hsq, -⟩
  exact hflush.elim (fun h => h hrun) (fun h => h hsq)

/-- The end of the trailer of a frame malformed here gives an abandoned frame what it is owed, and does nothing else. -/
theorem State.rxEnd_malformed {s : State} {r : Reception} (x : Heard) (others : Slots) (hp : s.tif.receiver = .slots)
    (hf : s.tif.flight = none) (hx : s.tif.rx = some r) (hv : r.verdict = .malformed) :
    s.rxEnd x others = State.finishSpent { s with tif := { s.tif with
      receiver := .unsynced, rx := none, collidedHere := false } } := by
  simp [State.rxEnd, hp, hf, hx, State.applyVerdict, hv]

/-- What an abandoned frame is owed, by kind (R35, R47, R59, R165). -/
theorem State.finishSpent_owed (s : State) :
    (∀ rs, s.tif.spent = some (.faults rs) → s.finishSpent = { s with
      tif := { s.tif with spent := none }, lpu := { s.lpu with faults := addFaults rs s.lpu.faults } }) ∧
    (s.tif.spent = some .syncIncomplete →
      State.faultedFrom { s with tif := { s.tif with spent := none } } ⟨.syncIncomplete, none, none, none, false⟩
        s.finishSpent) ∧
    (s.tif.spent = some .detach → s.lpu.running = none ∨ s.lpu.running = some .leave →
      State.detachedFrom { s with tif := { s.tif with spent := none } } s.finishSpent) := by
  refine ⟨fun rs h => State.finishSpent_faults h, fun h => ?_, fun h hr => ?_⟩
  · rw [State.finishSpent, h]
    exact State.fatal_faultedFrom _ _ _
  · rw [State.finishSpent, h]
    exact State.abandon_bye_detachedFrom (by exact hr)

/-- Settles O35: kind by kind, with the void at the end of the trailer and at the collision bit; then what the end of the frame
on the trunk owes. -/
theorem eighthVoidAbandons : Obligations.EighthVoidAbandons := by
  refine ⟨?_, ?_⟩
  · intro s f levels he record base voided collided ends
    have hcollided : ∀ i owed tif, collided i owed tif → s.collidesAt f i ∧ tif = s.tif.collidedOnce owed :=
      fun i owed tif ⟨hx, hfirst, hbit, htif⟩ => ⟨⟨hx, hfirst, hbit⟩, htif⟩
    refine ⟨?roster, ?evict, ?release, ?response, ?claimLeaving, ?claimClaiming, ?request, ?sync, ?bye⟩
    case roster =>
      rintro c i tif faults ⟨hsends, hv, hends⟩ hc
      exact exec_eighthVoid (G := fun tif faults => { s with
        tif := tif
        mc := { s.mc with roster := none }
        lpu := { s.lpu with faults := faults } }) rfl (fun _ _ => rfl) (fun _ _ _ _ => rfl) (fun _ _ => rfl) hsends he hc hv
        (hends.imp_right (And.imp_left (hcollided _ _ _)))
    case evict =>
      rintro d c i tif faults ⟨hsends, hv, hends⟩ hc
      exact exec_eighthVoid (G := fun tif faults => { s with
        tif := tif
        mc := { s.mc with evicts := s.mc.evicts.filter (fun e => e.station != d) }
        lpu := { s.lpu with faults := faults } }) rfl (fun _ _ => rfl) (fun _ _ _ _ => rfl) (fun _ _ => rfl) hsends he hc hv
        (hends.imp_right (And.imp_left (hcollided _ _ _)))
    case release =>
      rintro n c i tif faults ⟨hsends, hv, hends⟩ hc
      exact exec_eighthVoid (G := fun tif faults => { s with
        tif := tif
        wmu := { s.wmu with own := s.wmu.own.put n { s.wmu.own.at n with release := none } }
        lpu := { s.lpu with faults := faults } }) rfl (fun _ _ => rfl) (fun _ _ _ _ => rfl) (fun _ _ => rfl) hsends he hc hv
        (hends.imp_right (And.imp_left (hcollided _ _ _)))
    case response =>
      rintro r rs i tif faults ⟨hsends, hv, hends⟩ hsq
      have hc : s.countsOf .sqHead = some s.isu.sqCounts := by simp [State.countsOf, hsq]
      refine exec_eighthVoid (G := fun tif faults => State.responded { s with
        tif := tif
        isu := { s.isu with sq := rs, itt := s.isu.itt.put r.handle none, sqCounts := Counts.zero }
        lpu := { s.lpu with faults := faults } }) rfl (fun _ _ => State.abandon_sqHead (by exact hsq)) ?_ ?_ hsends he hc hv
        (hends.imp_right (And.imp_left (hcollided _ _ _)))
      · intro tif faults faults' a
        simp only [← State.afterResponse_eq_responded, ← State.owing_afterResponse]
        rfl
      · intro tif faults
        rw [← State.afterResponse_eq_responded]
        simp [State.afterResponse]
    case claimLeaving =>
      rintro n k i tif faults ⟨hsends, hv, hends⟩ hclaim hs
      have hc : s.countsOf (.claim n) = some k := by simp [State.countsOf, hclaim]
      refine exec_eighthVoid (G := fun tif faults => { s with
        tif := tif
        wmu := { s.wmu with own := s.wmu.own.put n ⟨.idle, none⟩, claim := none }
        lpu := { s.lpu with faults := faults } }) rfl ?_ (fun _ _ _ _ => rfl) (fun _ _ => rfl) hsends he hc hv
        (hends.imp_right (And.imp_left (hcollided _ _ _)))
      intro _ _
      rw [State.abandon, if_pos (by exact hs)]
      rfl
    case claimClaiming =>
      intro n k hsends hv hclaim hs refused
      have hc : s.countsOf (.claim n) = some k := by simp [State.countsOf, hclaim]
      refine ⟨fun i tif hi => ?_, fun i tif rs hi => ?_⟩
      · obtain ⟨rfl, rfl⟩ := hi
        obtain ⟨htif, hore, hisu, hmap, hown, hclaims⟩ := State.abandon_claim_claiming
          (x := { s with tif := s.tif.sent }) (faults := s.lpu.faults) hs rfl rfl rfl rfl
        exact ⟨_, exec_row_eighthVoid hsends he hc hv nofun, htif, ⟨hore, hisu, hmap, hown⟩, hclaims⟩
      · obtain ⟨hat, rfl⟩ := hcollided _ _ _ hi
        obtain ⟨htif, hore, hisu, hmap, hown, hclaims⟩ := State.abandon_claim_claiming
          (x := { s with tif := s.tif.collidedOnce s.tif.spent, lpu := { s.lpu with faults := [] } }) (faults := [])
          hs rfl rfl rfl rfl
        refine ⟨_, exec_collided_eighthVoid hsends hat hc hv nofun, ?_, ⟨hore, hisu, hmap, hown⟩, rfl,
          State.claimsOn_congr hclaims rfl rfl rfl⟩
        have howes := fun rs => congrArg (Tif.owes rs) htif
        exact (State.collideLimit_claim_tif n _ _).trans (howes _)
    case request =>
      intro d ds h i tif hsends hq hh hv hi
      have hc : s.countsOf .rqHead = some h.counts := by simp [State.countsOf, hh]
      rcases hi with ⟨rfl, rfl⟩ | hi
      · rw [exec_row_eighthVoid hsends he hc hv nofun]
        exact congrArg _ (State.abandon_rqHead (by exact hq) (by exact hh))
      · obtain ⟨hat, rfl⟩ := hcollided _ _ _ hi
        rw [exec_collided_eighthVoid hsends hat hc hv nofun]
        exact congrArg _ (State.abandon_rqHead (by exact hq) (by exact hh))
    case sync =>
      intro c i tif hsends hc hv hnot
      have hwaits : s.leaveWaitsForSync = false := by
        rw [← Bool.not_eq_true, State.leaveWaitsForSync_iff]
        exact hnot
      refine ⟨fun hi => ?_, fun hi => ?_⟩
      · obtain ⟨rfl, rfl⟩ := hi
        exact ⟨_, exec_row_eighthVoid hsends he hc hv (fun _ => hwaits), State.fatal_faultedFrom _ _ _⟩
      · obtain ⟨hat, rfl⟩ := hcollided _ _ _ hi
        rw [exec_collided_eighthVoid hsends hat hc hv (fun _ => hwaits)]
        simp [State.collideLimit, State.withCounts, hc, Tif.collidedOnce]
    case bye =>
      intro c i tif hsends hc hv hrun
      refine ⟨fun hi => ?_, fun hi => ?_⟩
      · obtain ⟨rfl, rfl⟩ := hi
        exact ⟨_, exec_row_eighthVoid hsends he hc hv nofun, State.abandon_bye_detachedFrom (by exact hrun)⟩
      · obtain ⟨hat, rfl⟩ := hcollided _ _ _ hi
        rw [exec_collided_eighthVoid hsends hat hc hv nofun]
        simp [State.collideLimit, State.withCounts, hc, Tif.collidedOnce]
  · intro s i tif hr hf cutOff ended hi
    have hexec : exec i s = .next (State.finishSpent { s with tif := { tif with spent := s.tif.spent } }) ∧
        tif.spent = none := by
      rcases hi with ⟨rfl, hs, hflush, rfl⟩ | ⟨hp, ⟨r, hx, hv⟩, ⟨others, hmoment⟩, rfl⟩
      · exact ⟨by simp [exec, execTrunkIdleObserved, released, hr, State.idleObserved_of_cutOff hf hs hflush], rfl⟩
      · obtain ⟨x, hx'⟩ := exec_of_moment hmoment hr
        exact ⟨by rw [hx', State.receive, State.rxEnd_malformed x others hp hf hx hv], rfl⟩
    obtain ⟨hexec, hspent⟩ := hexec
    have htif : { tif with spent := none } = tif := by rw [← hspent]
    obtain ⟨hfaults, hsync, hdetach⟩ := State.finishSpent_owed { s with tif := { tif with spent := s.tif.spent } }
    dsimp only at hfaults hsync hdetach
    rw [htif] at hfaults hsync hdetach
    rw [hexec]
    exact ⟨fun rs h => congrArg _ (hfaults rs h), fun h => ⟨_, rfl, hsync h⟩, fun h hrun => ⟨_, rfl, hdetach h hrun⟩⟩

end Sys2Proof.Machine
end

section
/-! PROOF. The frames to all stations received by a member: the departures of a BYE, a SYNC and an EVICT, and the map entries of a
CLAIM and a RELEASE. -/

namespace Sys2Proof.Machine

/-! ### A whole frame to all stations -/

/-- What a member decides on a frame received from its start and addressed to it or to all stations. -/
theorem State.verdictOn_addressed {s : State} {m : Message} (hm : s.mc.state.isMember = true)
    (hd : m.dest = s.mc.sid ∨ m.dest = allStations) : s.verdictOn (some m) = s.decideAddressed m := by
  simp only [State.verdictOn, hm, Bool.true_eq_false, if_false, if_pos hd]

/-- A frame on which another station drives ERROR or REJECT is not taken. -/
theorem takenBy_of_not_clear {dest : Station} {others here : Slots} (h : ¬others.clear) :
    takenBy dest (others.wired here) = false := by
  cases he : others.error with
  | true => exact takenBy_error he
  | false =>
    have hr : others.reject = true := by simpa [Slots.clear, he] using h
    cases hh : here.error <;> simp [takenBy, Slots.wired, outcomeOf, he, hr, hh]

/-- An accepted frame on which another station drives ERROR or REJECT is applied nowhere; it may have held a FLUSH (R163). -/
theorem State.receive_whole_not_clear {s : State} {x : Heard} {m : Message} {p : Option ServicePlan} {others : Slots}
    (h : s.hears) (hv : s.verdictOn x.message = .accept m p) (hc : ¬others.clear) :
    s.receive x (.whole others) = State.flushTested { s with tif := s.tif.heard } := by
  obtain ⟨-, hmember, hready, hflight⟩ := h
  rw [State.receive_whole _ _ hready hflight (StationState.listening_of_member hmember), hv, takenBy_of_not_clear hc,
    Bool.and_false, ← State.testFlush_eq_flushTested]
  rfl

/-- The row is the whole reception of the message m, sent to all stations, with the clock in tolerance. -/
def State.receivesAll (s : State) (row : Instr) (others : Slots) (m : Message) : Prop :=
  ∃ x : Heard, x.clockHeld = true ∧ x.message = some m ∧ m.dest = allStations ∧
    exec row s = .next (s.receive x (.whole others))

section
variable {s : State} {row : Instr} {others : Slots} {m : Message} (h : s.hears) (hrow : s.receivesAll row others m)
include h hrow

/-- What the station accepts is applied where nobody else drives ERROR or REJECT. -/
theorem State.receivesAll_accept (hv : s.decideAddressed m = .accept m none) (hc : others.clear) :
    ∃ r, exec row s = .next ((State.hear m.source { s with tif := s.tif.heard }).applyAccepted r m none) := by
  obtain ⟨x, hclock, hx, hdest, hexec⟩ := hrow
  have hverdict : s.verdictOn x.message = .accept m none := by
    rw [hx, State.verdictOn_addressed h.2.1 (Or.inr hdest), hv]
  exact ⟨_, by rw [hexec, State.receive_whole_accept h hverdict hclock hc]⟩

/-- What the station accepts is applied nowhere where another station drives ERROR or REJECT (R34). -/
theorem State.receivesAll_not_clear (hv : s.decideAddressed m = .accept m none) (hc : ¬others.clear) :
    exec row s = .next (State.flushTested { s with tif := s.tif.heard }) := by
  obtain ⟨x, -, hx, hdest, hexec⟩ := hrow
  have hverdict : s.verdictOn x.message = .accept m none := by
    rw [hx, State.verdictOn_addressed h.2.1 (Or.inr hdest), hv]
  rw [hexec, State.receive_whole_not_clear h hverdict hc]

/-- What the station rejects it does not apply. -/
theorem State.receivesAll_reject (hv : s.decideAddressed m = .reject m) :
    exec row s = .next { s with tif := s.tif.heard } := by
  obtain ⟨x, -, hx, hdest, hexec⟩ := hrow
  have hverdict : s.verdictOn x.message = .reject m := by
    rw [hx, State.verdictOn_addressed h.2.1 (Or.inr hdest), hv]
  rw [hexec, State.receive_whole_reject h hverdict]

end

section
variable {s : State} {p : Station} (others : Slots) (h : s.hears) (hp : validStation p = true)
include h hp

/-- BYE_RECEIVED, whole. -/
theorem State.receivesAll_bye : s.receivesAll (.byeReceived p (.whole others)) others ⟨p, allStations, 0, .bye⟩ :=
  ⟨_, rfl, heard_bye hp 0, rfl, by simp only [exec, execByeReceived, released, h.1]; rfl⟩

/-- SYNC_RECEIVED, whole. -/
theorem State.receivesAll_sync : s.receivesAll (.syncReceived p (.whole others)) others ⟨p, allStations, 0, .sync⟩ :=
  ⟨_, rfl, heard_sync hp 0, rfl, by simp only [exec, execSyncReceived, released, h.1]; rfl⟩

/-- EVICT_RECEIVED, whole. -/
theorem State.receivesAll_evict {d : Station} (hd : validStation d = true) (hne : d ≠ p) :
    s.receivesAll (.evictReceived p (d.setWidth 32) (.whole others)) others
      ⟨p, allStations, 0, .evict (d.setWidth 32)⟩ :=
  ⟨_, rfl, heard_evict hp hd hne 0, rfl, by simp only [exec, execEvictReceived, released, h.1]; rfl⟩

/-- CLAIM_RECEIVED, whole. -/
theorem State.receivesAll_claim {b d : Word} (hw : windowWellFormed b d = true) :
    s.receivesAll (.claimReceived p b d (.whole others)) others ⟨p, allStations, 0, .claim b d⟩ :=
  ⟨_, rfl, heard_claim hp hw 0, rfl, by simp only [exec, execClaimReceived, released, h.1]; rfl⟩

/-- RELEASE_RECEIVED, whole. -/
theorem State.receivesAll_release {b : Word} (hb : 4096 ∣ b.toNat) :
    s.receivesAll (.releaseReceived p b (.whole others)) others ⟨p, allStations, 0, .release b⟩ :=
  ⟨_, rfl, heard_release hp hb 0, rfl, by simp only [exec, execReleaseReceived, released, h.1]; rfl⟩

end

/-! ### Departures -/

/-- The miss counter cleared by the frame itself is one the departure clears. -/
theorem State.departed_of_hear {s t : State} {d : Station} {faults : List FaultRecord} {late : StationSet}
    (h : (State.hear d { s with tif := s.tif.heard }).departed d faults late t) : s.departed d faults late t := by
  simp only [State.departed, State.cleanedOf, State.hear, Mc.clearMiss, Bank.put_put] at h
  exact h

/-- Settles O41: each row is a reception of its message, whose acceptance applies a departure. -/
theorem departureFrames : Obligations.DepartureFrames := by
  intro s d p others h hd hp hne
  have hbye := State.receivesAll_bye others h hd
  have hsync := State.receivesAll_sync others h hd
  have hevict := State.receivesAll_evict others h hp hd hne.symm
  have hvbye : s.decideAddressed ⟨d, allStations, 0, .bye⟩ = .accept _ none := rfl
  have hvsync : d ≠ s.mc.sid → s.decideAddressed ⟨d, allStations, 0, .sync⟩ = .accept _ none := fun hself => if_neg hself
  have hvevict : d ≠ s.mc.sid →
      s.decideAddressed ⟨p, allStations, 0, .evict (d.setWidth 32)⟩ = .accept _ none :=
    fun hself => if_neg (by rw [setWidth_stationWord]; exact hself)
  refine ⟨fun hself hclear hl => ⟨?_, ?_, ?_⟩, fun hself hnot => ?_, fun hself => ⟨?_, ?_⟩⟩
  · obtain ⟨r, hexec⟩ := State.receivesAll_accept h hbye hvbye hclear
    obtain ⟨hdeparted, hpeers, -⟩ := State.departure_departed
      (s := State.hear d { s with tif := s.tif.heard }) hself .bye hl
    exact ⟨_, hexec, hpeers, State.departed_of_hear hdeparted⟩
  · obtain ⟨r, hexec⟩ := State.receivesAll_accept h hsync (hvsync hself) hclear
    obtain ⟨hdeparted, hpeers, hroster⟩ := State.departure_departed
      (s := State.hear d { s with tif := s.tif.heard }) hself .sync hl
    exact ⟨_, hexec, hpeers, hroster rfl, State.departed_of_hear hdeparted⟩
  · obtain ⟨r, hexec⟩ := State.receivesAll_accept h hevict (hvevict hself) hclear
    obtain ⟨hdeparted, hpeers, -⟩ := State.departure_departed
      (s := State.hear p { s with tif := s.tif.heard }) hself .evict hl
    refine ⟨_, hexec, ?_⟩
    simp only [State.applyAccepted, setWidth_stationWord]
    exact ⟨hpeers, hdeparted⟩
  · rw [List.forall_mem_cons, List.forall_mem_cons, List.forall_mem_singleton]
    exact ⟨State.receivesAll_not_clear h hbye hvbye hnot, State.receivesAll_not_clear h hsync (hvsync hself) hnot,
      State.receivesAll_not_clear h hevict (hvevict hself) hnot⟩
  · exact State.receivesAll_reject h hevict (if_pos (by rw [setWidth_stationWord]; exact hself))
  · exact State.receivesAll_reject h hsync (if_pos hself)

end Sys2Proof.Machine
end

section
/-! PROOF. The CLAIM and the RELEASE of another station, received by a member. -/

namespace Sys2Proof.Machine

/-! ### The CLAIM in course, checked again -/

/-- Outside CLAIMING there is nothing to check again. -/
theorem State.recheckClaim_of_ne {s : State} (hs : s.mc.state ≠ .claiming) : s.recheckClaim = s := by
  rw [State.recheckClaim]
  split
  · rfl
  · exact if_neg fun hc => hs hc.1

/-- A CLAIM in course whose window still fits stays in course. -/
theorem State.recheckClaim_of_fits {s : State} {c : ClaimInCourse} (hc : s.wmu.claim = some c)
    (hfits : claimFits s.wmu.map (s.ownWindow c.slot) = true) : s.recheckClaim = s := by
  simp [State.recheckClaim, hc, hfits]

/-- A CLAIM in course whose window no longer fits is refused in CLAIMING, and the next one is taken up (R69). -/
theorem State.recheckClaim_of_not_fits {s : State} {c : ClaimInCourse} (hs : s.mc.state = .claiming) (hc : s.wmu.claim = some c)
    (hfits : claimFits s.wmu.map (s.ownWindow c.slot) = false) :
    s.recheckClaim = (s.refuseClaim c.slot).nextClaim := by
  simp [State.recheckClaim, hs, hc, hfits]

/-- What is left where the CLAIM of slot n is refused in CLAIMING: the record REFUSED and, if no other is WANTED, the station in
JOINED with CLAIM_REFUSED recorded (R56, R69). -/
theorem State.refuseClaim_nextClaim {s : State} (n : Slot) (hs : s.mc.state = .claiming) :
    let t := (s.refuseClaim n).nextClaim
    t.wmu.map = s.wmu.map ∧ t.wmu.own.at n = ⟨.refused, none⟩ ∧
    ((∀ k, k ≠ n → (s.wmu.own.at k).state ≠ .wanted) →
      t.mc.state = .joined ∧ t.wmu.claim = none ∧ t.lpu.faults =
        addFault ⟨.claimRefused, none, none, some (s.lpu.setup.slots.at n).base, false⟩ s.lpu.faults) := by
  have hown : ∀ k, (s.refuseClaim n).wmu.own.at k = if n = k then ⟨.refused, none⟩ else s.wmu.own.at k :=
    fun k => Bank.at_put _ _ _ _
  have hrefused : (s.refuseClaim n).wmu.own.at n = ⟨.refused, none⟩ := by rw [hown, if_pos rfl]
  obtain ⟨-, -, -, -, -, -, hmap, -, hkept⟩ := (s.refuseClaim n).nextClaim_frame
  refine ⟨hmap, by rw [hkept n (by rw [hrefused]; nofun), hrefused], fun hnone => ?_⟩
  have hjoined : (s.refuseClaim n).nextClaim = State.enterJoined { s.refuseClaim n with
      wmu := { (s.refuseClaim n).wmu with claim := none } } := by
    refine State.claimFrom_none _ (fun k => ?_)
    rw [hown]
    split
    · nofun
    · next hnk => exact hnone k (Ne.symm hnk)
  simp only [hjoined, State.enterJoined_mc, State.enterJoined_frame, State.enterJoined_lpu_frame]
  exact ⟨if_pos hs, trivial, rfl⟩

/-! ### The entry of another station's CLAIM -/

/-- Outside SYNCING a claimant is not noted. -/
theorem Mc.noteClaimant_of_ne {m : Mc} (h : m.state ≠ .syncing) (c : Station) : m.noteClaimant c = m := by
  simp [Mc.noteClaimant, h]

/-- In SYNCING an unknown claimant joins the peer set and, unless it joined late, Expected (R53). -/
theorem Mc.noteClaimant_syncing {m : Mc} (h : m.state = .syncing) (c : Station) :
    (m.noteClaimant c).peers = (if m.peers.has c then m.peers else m.peers.insert c) ∧
    (m.noteClaimant c).expected = if m.peers.has c ∨ m.late.has c then m.expected else m.expected.insert c := by
  cases hp : m.peers.has c <;> simp [Mc.noteClaimant, h, hp]

/-- Outside SYNCING a taken CLAIM that fits adds its entry, and the own CLAIM in course is checked again. -/
theorem State.applyClaim_of_ne {s : State} {src : Station} {b d : Word} (hs : s.mc.state ≠ .syncing)
    (hfits : claimRefusedBy s.wmu.map (pairEntry (b, d) src) = false) :
    s.applyClaim src b d =
      State.recheckClaim { s with wmu := { s.wmu with map := insertEntry (pairEntry (b, d) src) s.wmu.map } } := by
  rw [State.applyClaim, Mc.noteClaimant_of_ne hs, addEntry_of_fits hfits, State.testSync_of_ne (by exact hs)]

/-- The test of the sync and the check of the CLAIM in course leave the map, the peer set and Expected. -/
theorem State.testSync_recheckClaim (s : State) :
    s.testSync.recheckClaim.wmu.map = s.wmu.map ∧ s.testSync.recheckClaim.mc.peers = s.mc.peers ∧
    s.testSync.recheckClaim.mc.expected = s.mc.expected := by
  obtain ⟨-, -, -, -, -, hsync, st, x, hmc⟩ := s.testSync_frame
  obtain ⟨-, -, -, -, -, -, hcheck, st', hmc'⟩ := s.testSync.recheckClaim_frame
  rw [hcheck, hsync, hmc', hmc]
  exact ⟨rfl, rfl, rfl⟩

/-- In SYNCING a taken CLAIM that fits adds its entry, and its station may be noted. -/
theorem State.applyClaim_syncing {s : State} {src : Station} {b d : Word} (hs : s.mc.state = .syncing)
    (hfits : claimRefusedBy s.wmu.map (pairEntry (b, d) src) = false) :
    let t := s.applyClaim src b d
    t.wmu.map = insertEntry (pairEntry (b, d) src) s.wmu.map ∧
    t.mc.peers = (if s.mc.peers.has src then s.mc.peers else s.mc.peers.insert src) ∧
    t.mc.expected = if s.mc.peers.has src ∨ s.mc.late.has src then s.mc.expected else s.mc.expected.insert src := by
  obtain ⟨hpeers, hexpected⟩ := Mc.noteClaimant_syncing hs src
  obtain ⟨hmap, hpeers', hexpected'⟩ := State.testSync_recheckClaim { s with
    mc := s.mc.noteClaimant src
    wmu := { s.wmu with map := addEntry (pairEntry (b, d) src) s.wmu.map } }
  exact ⟨hmap.trans (addEntry_of_fits hfits), hpeers'.trans hpeers, hexpected'.trans hexpected⟩

/-- Settles O43: the two rows are receptions of their messages; an accepted CLAIM by the station state, then the RELEASE. -/
theorem claimAndReleaseReceived : Obligations.ClaimAndReleaseReceived := by
  refine ⟨?claim, ?release⟩
  case release =>
    intro s p b others h hp hb
    have hrow := State.receivesAll_release others h hp hb
    refine ⟨fun hclear => ?_, State.receivesAll_not_clear h hrow rfl⟩
    obtain ⟨r, hexec⟩ := State.receivesAll_accept h hrow rfl hclear
    exact hexec
  case claim =>
    intro s p b d others h hp hw e refused taken runs
    have hrow := State.receivesAll_claim others h hp hw
    have hrefused : refused ↔ claimRefusedBy s.wmu.map (pairEntry (b, d) p) = true := by
      rw [claimRefusedBy_iff, List.any_eq_true]
      rfl
    have hfits : ¬refused → claimRefusedBy s.wmu.map (pairEntry (b, d) p) = false :=
      fun hnot => Bool.eq_false_iff.2 fun hc => hnot (hrefused.2 hc)
    have haccept : ¬refused → s.decideAddressed ⟨p, allStations, 0, .claim b d⟩ = .accept _ none :=
      fun hnot => if_neg (by rw [hfits hnot]; nofun)
    refine ⟨fun hc => State.receivesAll_reject h hrow (if_pos (hrefused.1 hc)),
      fun hnot => State.receivesAll_not_clear h hrow (haccept hnot), fun hnot hclear => ?_⟩
    obtain ⟨r, hexec⟩ := State.receivesAll_accept h hrow (haccept hnot) hclear
    have houtside : s.mc.state ≠ .syncing → runs taken.recheckClaim :=
      fun hs => hexec.trans (congrArg _ (State.applyClaim_of_ne (by exact hs) (by exact hfits hnot)))
    refine ⟨fun hs => ?_, fun hs => ⟨fun c hc hown => ?_, fun c hc hown => ?_⟩, fun hs => ?_⟩
    · have hnotclaiming : taken.recheckClaim = taken :=
        State.recheckClaim_of_ne (by rcases hs with hs | hs <;> simp [taken, hs])
      rw [← hnotclaiming]
      exact houtside (by rcases hs with hs | hs <;> simp [hs])
    · rw [← State.recheckClaim_of_fits (s := taken) hc hown]
      exact houtside (by simp [hs])
    · refine ⟨_, houtside (by simp [hs]), ?_⟩
      rw [State.recheckClaim_of_not_fits (s := taken) hs hc hown]
      exact State.refuseClaim_nextClaim (s := taken) c.slot hs
    · exact ⟨_, hexec, State.applyClaim_syncing (s := State.hear p { s with tif := s.tif.heard }) hs (hfits hnot)⟩

end Sys2Proof.Machine
end

section
/-! PROOF. The commands of the local port that change the station state, the Setup check and the Setup write. -/

namespace Sys2Proof

/-! ### A bank, cell by cell -/

/-- A bank changed cell by cell, at a list of different indices. -/
theorem Bank.foldl_put_at {w : Nat} {α : Type} (g : BitVec w → α → α) {l : List (BitVec w)} (hl : l.Nodup) (b : Bank w α)
    (n : BitVec w) :
    (l.foldl (fun b k => b.put k (g k (b.at k))) b).at n = if n ∈ l then g n (b.at n) else b.at n := by
  induction l generalizing b with
  | nil => simp
  | cons k ks ih =>
    rw [List.nodup_cons] at hl
    rw [List.foldl_cons, ih hl.2]
    by_cases hn : n = k
    · simp [hn, hl.1]
    · simp [hn, Bank.at_put_ne _ _ (Ne.symm hn)]

/-- The indices of a bank are different. -/
theorem Bank.nodup_indices (w : Nat) : (Bank.indices w).Nodup :=
  (Bank.indices_ascending w).imp fun h e => by simp [e] at h

namespace Machine

/-! ### The treatment of a command write (R41) -/

/-- What an accepted command does. -/
def Command.effect : Command → State → State
  | .join => State.joinAccepted
  | .leave => State.leaveAccepted
  | .flush => State.flushAccepted
  | .restart => State.restartAccepted

/-- The row of a command is the write of that command. -/
theorem Command.exec_row (c : Command) {s : State} (hr : s.resetAsserted = false) :
    exec c.row s = .next (s.takeCommand c c.effect) := by
  cases c with
  | join => simp only [Command.row, exec, execJoin, released, hr]; rfl
  | leave => simp only [Command.row, exec, execLeave, released, hr]; rfl
  | flush => simp only [Command.row, exec, execFlush, released, hr]; rfl
  | restart => simp only [Command.row, exec, execRestart, released, hr]; rfl

/-- The states that accept a command are those R41 lists. -/
theorem Command.acceptedIn_iff (c : Command) (st : StationState) : c.acceptedIn st = true ↔ st ∈ c.states := by
  cases c <;> cases st <;> decide

/-- No command is in progress, or the JOIN that a LEAVE may end. -/
def State.freeFor (s : State) (c : Command) : Prop := s.lpu.running = none ∨ (c = .leave ∧ s.lpu.running = some .join)

/-- A command in progress refuses another, but for the LEAVE during a JOIN. -/
theorem State.admission_of_busy {s : State} {c r : Command} (h : s.lpu.running = some r)
    (hc : ¬(c = .leave ∧ r = .join)) : s.admission c = .refusedBusy := by
  simp [State.admission, h]
  tauto

/-- With none in its way the station state decides on a command. -/
theorem State.admission_of_free {s : State} {c : Command} (h : s.freeFor c) :
    s.admission c = if s.mc.state ∈ c.states then .accepted else .refusedState := by
  have hfree : (s.lpu.running.isSome && !(c == .leave && s.lpu.running == some .join)) = false := by
    rcases h with h | ⟨rfl, h⟩ <;> simp [h]
  rw [State.admission, hfree]
  simp [Command.acceptedIn_iff]

/-- A command that is accepted has its effect. -/
theorem Command.exec_row_accepted {c : Command} {s : State} (hr : s.resetAsserted = false) (h : s.freeFor c)
    (hs : s.mc.state ∈ c.states) : exec c.row s = .next (c.effect s) := by
  rw [Command.exec_row c hr, State.takeCommand, State.admission_of_free h, if_pos hs]

/-- Settles O7: the command in progress refuses first, the station state second. -/
theorem commandsRefused : Obligations.CommandsRefused := by
  intro c s hr
  refine ⟨fun r hrun hc => ?_, fun hfree hs => ?_⟩
  · rw [Command.exec_row c hr, State.takeCommand, State.admission_of_busy hrun hc]
    rfl
  · rw [Command.exec_row c hr, State.takeCommand, State.admission_of_free hfree, if_neg hs]
    rfl

/-! ### JOIN (R42) -/

/-- Settles O5: the two checks in their order, then the move to LISTEN. -/
theorem joinInHalted : Obligations.JoinInHalted := by
  intro s hr hs hrun
  have hexec : exec .join s = .next s.joinAccepted :=
    Command.exec_row_accepted (c := .join) hr (Or.inl hrun) (by simp [hs, Command.states])
  rw [hexec]
  refine ⟨fun hstrap => ?_, fun hstrap hsetup => ?_, fun hstrap hsetup => ?_⟩
  · simp only [State.joinAccepted, hstrap]
    rfl
  · simp only [State.joinAccepted, hstrap, hsetup]
    rfl
  · simp only [State.joinAccepted, hstrap, hsetup]
    rfl

/-- Two ranges that are not empty overlap where they share a byte address. -/
theorem rangesOverlap_iff {b₁ n₁ b₂ n₂ : Nat} (h₁ : 0 < n₁) (h₂ : 0 < n₂) :
    rangesOverlap b₁ n₁ b₂ n₂ = true ↔ ∃ a, b₁ ≤ a ∧ a < b₁ + n₁ ∧ b₂ ≤ a ∧ a < b₂ + n₂ := by
  rw [rangesOverlap, Bool.and_eq_true, decide_eq_true_iff, decide_eq_true_iff]
  refine ⟨fun ⟨h, h'⟩ => ⟨max b₁ b₂, ?_⟩, fun ⟨a, h⟩ => ?_⟩ <;> omega

/-- A window of the Setup block: a size code of at most 18 and a base that is a multiple of its size. -/
theorem SlotWords.passes_iff (w : SlotWords) :
    w.passes = true ↔ (w.valid = true → w.size.toNat ≤ 18 ∧ 4096 * 2 ^ w.size.toNat ∣ w.base.toNat) := by
  rw [SlotWords.passes, Bool.or_eq_true, Bool.not_eq_true', ← Bool.not_eq_true, ← imp_iff_not_or, windowWellFormed,
    Bool.and_eq_true, decide_eq_true_iff, beq_iff_eq, ← Nat.dvd_iff_mod_eq_zero]
  rfl

/-- Two valid slots overlap where they share a byte address. -/
theorem SlotWords.overlaps_iff (w x : SlotWords) :
    w.overlaps x = true ↔ w.valid = true ∧ x.valid = true ∧ ∃ a : Nat,
      w.base.toNat ≤ a ∧ a < w.base.toNat + 4096 * 2 ^ w.size.toNat ∧
      x.base.toNat ≤ a ∧ a < x.base.toNat + 4096 * 2 ^ x.size.toNat := by
  have hpos : ∀ k : BitVec 5, 0 < windowSize k := fun k => by simp [windowSize]
  rw [SlotWords.overlaps, Bool.and_eq_true, Bool.and_eq_true, and_assoc, rangesOverlap_iff (hpos _) (hpos _)]
  rfl

/-- Settles O6: the check looks at each slot, at each pair of slots and at the aging threshold. -/
theorem setupCheckConditions : Obligations.SetupCheckConditions := by
  intro u
  have hpair : ∀ i j : Slot, (i == j || !(u.slots.at i).overlaps (u.slots.at j)) = true ↔
      (i ≠ j → (u.slots.at i).valid = true → (u.slots.at j).valid = true → ¬∃ a : Nat,
        (u.slots.at i).base.toNat ≤ a ∧ a < (u.slots.at i).base.toNat + 4096 * 2 ^ (u.slots.at i).size.toNat ∧
        (u.slots.at j).base.toNat ≤ a ∧ a < (u.slots.at j).base.toNat + 4096 * 2 ^ (u.slots.at j).size.toNat) := by
    intro i j
    rw [Bool.or_eq_true, beq_iff_eq, Bool.not_eq_true', ← Bool.not_eq_true, SlotWords.overlaps_iff]
    simp only [or_iff_not_imp_left, not_and, ne_eq]
  simp only [Setup.passes, Bool.and_eq_true, decide_eq_true_iff, Bank.cells_eq, List.all_map, List.all_eq_true,
    Bank.mem_indices, true_implies, hpair, Function.comp_apply, SlotWords.passes_iff, and_assoc]

/-! ### LEAVE (R44, R57) -/

/-- The LEAVE taken up: a JOIN in progress ends ABORTED, and the LEAVE is the command in progress. -/
theorem State.finish_aborted_accept {s : State} (h : s.lpu.running = none ∨ s.lpu.running = some .join) :
    (s.finish .aborted).accept .leave = { s with lpu := { s.lpu with
      running := some .leave
      last := if s.lpu.running = some .join then some ⟨.join, .aborted⟩ else s.lpu.last
      cmdDone := s.lpu.running = some .join || s.lpu.cmdDone } } := by
  rcases h with h | h
  · simp [State.finish, State.accept, h]
  · simp [State.finish, State.accept, h]

/-- The row of a LEAVE where a state accepts it. -/
theorem exec_leave {s : State} (hr : s.resetAsserted = false) (hrun : s.lpu.running = none ∨ s.lpu.running = some .join)
    (hs : s.mc.state ∈ Command.leave.states) : exec .leave s = .next s.leaveAccepted :=
  Command.exec_row_accepted (c := .leave) hr (hrun.imp_right fun h => ⟨rfl, h⟩) hs

/-- Settles O8: a LEAVE with nothing to wait for goes straight to HALTED. -/
theorem leaveBeforeMembership : Obligations.LeaveBeforeMembership := by
  intro s hr hrun
  refine ⟨fun hs => ?_, fun hs hf hjoin => ?_⟩
  · have haccepted : s.leaveAccepted = ((s.finish .aborted).accept .leave).leaveToHalted := by
      rcases hs with hs | ⟨hs, hf⟩
      · simp only [State.leaveAccepted, hs]
      · simp only [State.leaveAccepted, hs, hf]
        rfl
    rw [exec_leave hr hrun (by rcases hs with hs | ⟨hs, -⟩ <;> simp [hs, Command.states]), haccepted,
      State.leaveToHalted_of_leave (by simp), State.finish_aborted_accept hrun]
  · have haccepted : s.leaveAccepted = (s.finish .aborted).accept .leave := by
      simp [State.leaveAccepted, hs, hf]
    rw [exec_leave hr hrun (by simp [hs, Command.states]), haccepted, State.finish_aborted_accept hrun]
    simp [hjoin]

/-- No entry holds a reservation where none is PENDING or SENT. -/
theorem OrtEntry.reserved_eq_false (e : OrtEntry) : e.reserved = false ↔ ∀ r x, e ≠ .pending r ∧ e ≠ .sent r x := by
  cases e with
  | pending r => simp only [OrtEntry.reserved]; simp
  | sent r x => simp only [OrtEntry.reserved]; simp
  | free | quarantined _ _ => simp only [OrtEntry.reserved]; simp

/-- The leave condition, item by item (R58). -/
theorem State.leaveCondition_iff (s : State) :
    s.leaveCondition = true ↔
      s.ore.rq = [] ∧ (∀ tag r x, s.ore.ort.at tag ≠ .pending r ∧ s.ore.ort.at tag ≠ .sent r x) ∧
      (∀ n, (s.wmu.own.at n).state ≠ .held ∧ (s.wmu.own.at n).state ≠ .releasing) ∧
      (∀ h, s.isu.itt.at h = none) ∧ s.isu.sq = [] := by
  have hactive : ∀ st : WindowState, st.active = false ↔ st ≠ .held ∧ st ≠ .releasing := fun st => by
    rw [← not_or, ← WindowState.active_iff, Bool.not_eq_true]
  simp only [State.leaveCondition, Bool.and_eq_true, List.isEmpty_iff, beq_iff_eq, Wmu.heldCount, Isu.live,
    Bank.count_eq_zero, OrtEntry.reserved_eq_false, hactive, Option.isSome_eq_false_iff, Option.isNone_iff_eq_none, and_assoc]

/-- The own-window records at the entry into LEAVING, record by record (R57). -/
theorem State.leaveRecords_at (s : State) (n : Slot) :
    s.leaveRecords.at n = leaveRecord (s.tif.claimInFlight n) (s.wmu.own.at n) := by
  rw [State.leaveRecords, Bank.foldl_put_at (fun k r => leaveRecord (s.tif.claimInFlight k) r) (Bank.nodup_indices 2),
    if_pos (Bank.mem_indices n)]

/-- The leave condition does not read the MC. -/
@[simp] theorem State.leaveCondition_testLeave (s : State) : s.testLeave.leaveCondition = s.leaveCondition := by
  simp [State.leaveCondition]

/-- Settles O9: the leave condition item by item, and the entry into LEAVING block by block. -/
theorem leaveAsMember : Obligations.LeaveAsMember := by
  refine ⟨State.leaveCondition_iff, fun s hr hrun hs => ?_⟩
  have haccepted : s.leaveAccepted = ((s.finish .aborted).accept .leave).enterLeaving := by
    rcases hs with hs | hs | hs <;> simp only [State.leaveAccepted, hs]
  rw [exec_leave hr hrun (by rcases hs with hs | hs | hs <;> simp [hs, Command.states]), haccepted,
    State.finish_aborted_accept hrun]
  refine ⟨_, rfl, ?_⟩
  simp only [State.enterLeaving, State.testLeave_mc, State.testLeave_frame, State.leaveCondition_testLeave]
  refine ⟨?_, rfl, fun n => ?_, rfl, rfl, rfl, rfl, hr, rfl⟩
  · simp [State.timeout, Setup.responseTimeout]
    rfl
  · refine (State.leaveRecords_at _ n).trans ?_
    simp only [leaveRecord]
    cases (s.wmu.own.at n).state <;> rfl

/-! ### RESTART (R45) -/

/-- Settles O11: the command is accepted and ends in the same step. -/
theorem restartReturnsToHalted : Obligations.RestartReturnsToHalted := by
  intro s hr hrun hs
  exact Command.exec_row_accepted (c := .restart) hr (Or.inl hrun)
    (by rcases hs with hs | hs <;> simp [hs, Command.states])

/-! ### Setup writes (R39, R176) -/

/-- A Setup word replaced, and the other eight as they were. -/
theorem Setup.word_setWord (u : Setup) (i j : Fin 9) (v : Word) :
    (u.setWord i v).word j = if j = i then v else u.word j := by
  have hi := i.isLt
  have hj := j.isLt
  have hslot : i.val ≠ 8 → j.val ≠ 8 →
      (BitVec.ofNat 2 (i.val / 2) = BitVec.ofNat 2 (j.val / 2) ↔ i.val / 2 = j.val / 2) := by
    intro hi8 hj8
    rw [← BitVec.toNat_inj, BitVec.toNat_ofNat, BitVec.toNat_ofNat]
    omega
  by_cases hi8 : i.val = 8
  · by_cases hj8 : j.val = 8
    · simp [Setup.setWord, Setup.word, hi8, hj8, Fin.ext_iff]
    · simp [Setup.setWord, Setup.word, hi8, hj8, Fin.ext_iff]
  · by_cases hj8 : j.val = 8
    · simp [Setup.setWord, Setup.word, hi8, hj8, Fin.ext_iff, Ne.symm hi8]
    · simp only [Setup.setWord, Setup.word, if_neg hi8, if_neg hj8, Bank.at_put, hslot hi8 hj8, Fin.ext_iff]
      grind

/-- Settles O16. -/
theorem setupWrite : Obligations.SetupWrite := by
  intro i v s hr
  have hexec : exec (.setupWrite i v) s = .next (s.setupWrite i v) := by
    simp only [exec, execSetupWrite, released, hr]; rfl
  rw [hexec]
  refine ⟨fun hs => congrArg _ (if_neg hs), fun hs => ⟨s.lpu.setup.setWord i v, congrArg _ (if_pos hs), fun j => ?_⟩⟩
  exact Setup.word_setWord _ _ _ _

end Machine

end Sys2Proof
end

section
/-! PROOF. What COLLIDED does to the frame in flight, and the outcomes of the own SYNC, ROSTER, RELEASE and EVICT. -/

namespace Sys2Proof.Machine

/-! ### COLLIDED (R26, R29, R30) -/

/-- The other level sampled on the start bit, on a dominant bit or behind the arbitration field is a COLLIDED. -/
theorem exec_collided {s : State} {f : Flight} {p : Nat} {b : Bool} (hr : s.resetAsserted = false)
    (hf : s.tif.flight = some f) (hx : s.tif.receiver = .receiving) (hb : f.frame.bitAt p = some b)
    (hp : p = 0 ∨ 9 ≤ p ∨ b = false) : exec (.collided p) s = .next (s.collide f) := by
  have hcompared : s.comparedAt p = some (f, b) := State.comparedAt_eq_some.2 ⟨hx, hf, hb⟩
  have hcollided : compareBit p b (!b) = some .collided := by
    have hlost : ¬(1 ≤ p ∧ p ≤ 8 ∧ b = true) := by
      rintro ⟨h1, h8, rfl⟩
      simp at hp
      omega
    simpa [compareBit] using hlost
  simp [exec, execCollided, released, hr, State.collidedAt, hcompared, hcollided]

/-- The second collision in a row is FATAL, whoever owns the frame (R30). -/
theorem State.collide_second {s : State} (h : 1 ≤ s.tif.collisions) (f : Flight) :
    s.faultedFrom ⟨.collision, some s.mc.sid, none, none, false⟩ (s.collide f) := by
  have hlimit : Config.collisionLimit ≤ s.tif.collisions + 1 := Nat.succ_le_succ h
  simp only [State.collide, if_pos hlimit]
  exact State.fatal_faultedFrom _ _ _

/-- The first collision of a frame sent for nobody ends the transmission, and that is all. -/
theorem State.collide_forNobody {s : State} {src : Source} {f : Frame} {gone : Bool} (h : s.tif.collisions = 0)
    (hgone : gone = true ∨ (src = .sync ∧ s.mc.state = .leaving ∧ s.mc.sync = none)) :
    s.collide ⟨src, f, gone⟩ = { s with tif := s.tif.collidedOnce s.tif.spent } := by
  have hlimit : ¬Config.collisionLimit ≤ 0 + 1 := by decide
  simp only [State.collide, h, if_neg hlimit]
  rcases hgone with rfl | ⟨rfl, hs, hsync⟩
  · rfl
  · have hwaits : s.leaveWaitsForSync = false := by simp [State.leaveWaitsForSync, hs]
    have hcounts : State.countsOf .sync { s with tif := s.tif.collidedOnce s.tif.spent } = none := hsync
    cases gone with
    | true => rfl
    | false =>
      have hvoid : State.collideVoid .sync { s with tif := s.tif.collidedOnce s.tif.spent } =
          { s with tif := s.tif.collidedOnce s.tif.spent } := by rw [State.collideVoid, hcounts]
      simp only [hwaits]
      exact hvoid

/-- The first collision of a frame below the void limit raises its void count, but where a LEAVE waits for it. -/
theorem State.collide_below {s : State} {src : Source} {f : Frame} {c : Counts} (h : s.tif.collisions = 0)
    (hc : s.countsOf src = some c) (hv : c.voids < 7) (hwaits : src = .sync → s.leaveWaitsForSync = false)
    (hclaim : ∀ n, src = .claim n → s.mc.state ≠ .leaving) :
    s.collide ⟨src, f, false⟩ =
      State.withCounts src ⟨c.losses, c.voids + 1, c.urgent⟩ { s with tif := s.tif.collidedOnce s.tif.spent } := by
  have hlimit : ¬Config.collisionLimit ≤ 0 + 1 := by decide
  have hvoid : State.collideVoid src { s with tif := s.tif.collidedOnce s.tif.spent } =
      State.withCounts src ⟨c.losses, c.voids + 1, c.urgent⟩ { s with tif := s.tif.collidedOnce s.tif.spent } :=
    State.collideVoid_below (by rw [State.countsOf_tif]; exact hc) hv
  rw [← hvoid]
  simp only [State.collide, h, if_neg hlimit]
  cases src with
  | sync => simp only [hwaits rfl]; rfl
  | claim n => simp only [hclaim n rfl]; rfl
  | sqHead | bye | roster | evict d | release n | rqHead => rfl

/-- The first collision of a SYNC a LEAVE waits for returns the station to HALTED (R44). -/
theorem State.collide_waits {s : State} {f : Frame} (h : s.tif.collisions = 0) (hwaits : s.leaveWaitsForSync = true) :
    s.collide ⟨.sync, f, false⟩ = State.leaveToHalted { s with tif := s.tif.collidedOnce s.tif.spent } := by
  have hlimit : ¬Config.collisionLimit ≤ 0 + 1 := by decide
  simp only [State.collide, h, if_neg hlimit, hwaits]
  rfl

/-- The first collision of a CLAIM in LEAVING, below the void limit, gives the CLAIM up (R57). -/
theorem State.collide_claim_leaving {s : State} {n : Slot} {f : Frame} {c : Counts} (h : s.tif.collisions = 0)
    (hs : s.mc.state = .leaving) (hc : s.countsOf (.claim n) = some c) (hv : c.voids < 7) :
    s.collide ⟨.claim n, f, false⟩ = State.dropClaim n { s with tif := s.tif.collidedOnce s.tif.spent } := by
  have hlimit : ¬Config.collisionLimit ≤ 0 + 1 := by decide
  have hvoids : s.mc.state = .leaving ∧ s.voidsAfter (.claim n) < Config.voidLimit :=
    ⟨hs, by simp only [State.voidsAfter, hc]; exact Nat.succ_lt_succ hv⟩
  simp only [State.collide, h, if_neg hlimit, if_pos hvoids]
  rfl

/-- Settles O26: the moments of the collided frame, then the collision by what the owner of the frame does with it. -/
theorem collidedFrame : Obligations.CollidedFrame := by
  refine ⟨?past, ?lastCheckBit, ?endOfTrailer, ?forNobody, ?owned⟩
  case past =>
    intro s p hx
    simp [exec, execCollided, released, State.collidedAt, State.comparedAt, hx]
  case lastCheckBit =>
    intro s c hr hl hx hf hcollided hmoment
    obtain ⟨x, hexec⟩ := exec_of_moment hmoment hr
    have hverdict : s.decide x.message = .malformed := by
      cases hm : x.message <;> simp [State.decide, hcollided]
    refine ⟨⟨.malformed, x.count, false, false, none⟩, ?_, rfl, rfl⟩
    rw [hexec, State.receive]
    simp [State.rxDecide, hx, hf, hl, hverdict]
  case endOfTrailer =>
    intro s c r others hr hx hf hrx hv hspent hmoment
    obtain ⟨x, hexec⟩ := exec_of_moment hmoment hr
    rw [hexec, State.receive, State.rxEnd_malformed x others hx hf hrx hv]
    exact congrArg _ (State.finishSpent_of_none hspent)
  case forNobody =>
    rintro s src f p b ⟨hr, gone, hf, hgone⟩ hx hb hp
    rw [exec_collided hr hf hx hb hp]
    exact ⟨fun h => congrArg _ (State.collide_forNobody h hgone), fun h => ⟨_, rfl, State.collide_second h _⟩⟩
  case owned =>
    rintro s src f p b ⟨hr, hf⟩ hx hb hp released waits
    rw [exec_collided hr hf hx hb hp]
    refine ⟨fun c hfirst hc hv => ⟨fun hnot hclaim => ?_, fun hwaits => ?_, fun n hsrc hs => ?_⟩,
      fun h => ⟨_, rfl, State.collide_second h _⟩⟩
    · refine congrArg _ (State.collide_below hfirst hc hv (fun hsrc => ?_) hclaim)
      rw [← Bool.not_eq_true, State.leaveWaitsForSync_iff]
      exact fun hw => hnot ⟨hsrc, hw⟩
    · obtain ⟨rfl, hw⟩ := hwaits
      rw [State.collide_waits hfirst ((State.leaveWaitsForSync_iff s).2 hw), State.leaveToHalted_of_leave (by exact hw.2)]
      rfl
    · subst hsrc
      rw [State.collide_claim_leaving hfirst hs hc hv]
      rfl

/-! ### The sync completed alone (R54, R68) -/

/-- Every window fits the empty map. -/
theorem claimFits_nil (e : MapEntry) : claimFits [] e = true := by simp [claimFits, overlapsAny]

/-- A station that enters CLAIMING alone, before it takes a CLAIM in course. -/
def State.alone (s : State) : State :=
  State.enter .claiming { s with
    mc := { s.mc with peers := StationSet.single s.mc.sid, evicts := [], settle := none }
    wmu := { s.wmu with map := [] } }

/-- With an empty RQ the sync completed alone is the entry into CLAIMING and the first CLAIM. -/
theorem State.completeAlone_eq {s : State} (hq : s.ore.rq = []) : s.completeAlone = s.alone.nextClaim := by
  have hore : s.alone.nextClaim.ore = s.ore := s.alone.nextClaim_frame.2.2.1
  exact State.prepareHead_idle (s := s.alone.nextClaim) (Or.inl (by rw [hore, hq]))

/-- A station alone takes its first WANTED record in course, as every window fits. -/
theorem State.alone_nextClaim_wanted {s : State} {m : Slot} (hm : (s.wmu.own.at m).state = .wanted)
    (hfirst : ∀ k : Slot, k.toNat < m.toNat → (s.wmu.own.at k).state ≠ .wanted) :
    s.alone.nextClaim = { s.alone with wmu := { s.alone.wmu with claim := some ⟨m, Counts.zero⟩ } } := by
  obtain ⟨after, hnext⟩ := State.nextClaim_first (s := s.alone) hfirst
  rw [hnext, State.claimFrom, if_pos (by exact hm), if_pos (by exact claimFits_nil _)]

/-- A station alone with no WANTED record is at once JOINED. -/
theorem State.alone_nextClaim_none {s : State} (hnone : ∀ n, (s.wmu.own.at n).state ≠ .wanted) :
    s.alone.nextClaim = State.enterJoined { s.alone with wmu := { s.alone.wmu with claim := none } } :=
  State.claimFrom_none _ hnone

/-- What the sync completed alone leaves of s, whose SYNC flag is cleared with it (R54, R56, R68, R77). -/
def State.aloneFrom (s t : State) : Prop :=
  t.mc.peers = StationSet.single s.mc.sid ∧ t.mc.evicts = [] ∧ t.mc.settle = none ∧ t.mc.sync = none ∧
  t.wmu.map = [] ∧ t.wmu.own = s.wmu.own ∧ t.ore = s.ore ∧ t.isu = s.isu ∧
  (∀ n, (s.wmu.own.at n).state = .wanted → (∀ m : Slot, m.toNat < n.toNat → (s.wmu.own.at m).state ≠ .wanted) →
    t.mc.state = .claiming ∧ t.wmu.claim = some ⟨n, Counts.zero⟩ ∧ t.lpu = { s.lpu with stateChange := true }) ∧
  ((∀ n, (s.wmu.own.at n).state ≠ .wanted) → s.lpu.running = some .join →
    t.mc.state = .joined ∧ t.wmu.claim = none ∧ t.lpu = { s.lpu with
      running := none, last := some ⟨.join, .done⟩, cmdDone := true, stateChange := true })

/-- The sync completed alone, from a state x that s has become by the end of its SYNC. -/
theorem State.completeAlone_aloneFrom {s x : State} (hq : s.ore.rq = []) (hsid : x.mc.sid = s.mc.sid)
    (hsync : x.mc.sync = none) (hwmu : x.wmu = s.wmu) (hore : x.ore = s.ore) (hisu : x.isu = s.isu)
    (hlpu : x.lpu = { s.lpu with stateChange := x.lpu.stateChange }) : s.aloneFrom x.completeAlone := by
  have hrunning : x.lpu.running = s.lpu.running := by rw [hlpu]
  have hchanged : { x.lpu with stateChange := true } = { s.lpu with stateChange := true } := by rw [hlpu]
  have hnext : x.completeAlone = x.alone.nextClaim := State.completeAlone_eq (by rw [hore, hq])
  have hown : x.completeAlone.wmu.own = s.wmu.own := by
    rw [hnext, ← hwmu]
    cases hlow : x.wmu.own.lowest (fun r => r.state == .wanted) with
    | none =>
      rw [State.alone_nextClaim_none (fun n => by simpa using (Bank.lowest_eq_none _ _).1 hlow n)]
      simp only [State.enterJoined_frame]
      rfl
    | some m =>
      obtain ⟨hm, hfirst⟩ := (Bank.lowest_eq_some _ _ _).1 hlow
      rw [State.alone_nextClaim_wanted (by simpa using hm) (fun k hk => by simpa using hfirst k hk)]
      rfl
  obtain ⟨-, -, hore', hisu', -, -, hmap, ⟨st, hmc⟩, -⟩ := x.alone.nextClaim_frame
  rw [← hnext] at hore' hisu' hmap hmc
  refine ⟨?_, ?_, ?_, ?_, hmap, hown, hore'.trans hore, hisu'.trans hisu, fun n hn hfirst => ?_, fun hnone hjoin => ?_⟩
  · rw [hmc, ← hsid]; rfl
  · rw [hmc]; rfl
  · rw [hmc]; rfl
  · rw [hmc]; exact hsync
  · rw [hnext, State.alone_nextClaim_wanted (by rw [hwmu]; exact hn) (by rw [hwmu]; exact hfirst)]
    exact ⟨rfl, rfl, hchanged⟩
  · rw [hnext, State.alone_nextClaim_none (by rw [hwmu]; exact hnone), State.enterJoined_of_join (by rfl)
      (by exact hrunning.trans hjoin)]
    exact ⟨rfl, rfl, congrArg (fun l : Lpu => { l with
      running := none, last := some ⟨.join, .done⟩, cmdDone := true }) hchanged⟩

/-! ### The own SYNC (R44, R47) -/

/-- A frame that is not TAKEN by all stations was voided or rejected. -/
theorem outcomeOf_not_clear {dest : Station} {l : Slots} (h : ¬l.clear) :
    outcomeOf dest l = .voided ∨ outcomeOf dest l = .rejected := by
  cases he : l.error with
  | true => exact Or.inl (outcomeOf_error he)
  | false => exact Or.inr (outcomeOf_reject he (by simpa [Slots.clear, he] using h))

/-- The own SYNC TAKEN where no LEAVE waits for it. -/
theorem State.syncEnds_taken {s : State} (h : s.leaveWaitsForSync = false) (accept : Bool) :
    s.syncEnds accept .taken = s.syncTaken accept := by
  simp [State.syncEnds, h]

/-- A SYNC withdrawn by a LEAVE has no effect in LEAVING (R57). -/
theorem State.syncTaken_withdrawn {s : State} (hs : s.mc.state = .leaving) (hsync : s.mc.sync = none) (accept : Bool) :
    s.syncTaken accept = s := by
  have hmc : { s.mc with sync := none } = s.mc := by rw [← hsync]
  rw [State.syncTaken, hs]
  exact congrArg (fun m => { s with mc := m }) hmc

/-- Settles O27, by the station state and the outcome; a LEAVE that waits comes first. -/
theorem syncOutcome : Obligations.SyncOutcome := by
  intro s f levels hsends hdest tr waits
  have hnowait : ¬waits → s.endFlight.leaveWaitsForSync = false := fun hnot => by
    rw [← Bool.not_eq_true, State.leaveWaitsForSync_iff]
    exact hnot
  have htaken : levels.clear → outcomeOf f.dest levels = .taken := fun hclear => outcomeOf_taken hclear (Or.inr hdest)
  rw [exec_syncOutcome hsends]
  refine ⟨fun hnot hclear haccept hs => ?_, fun hclear haccept hs => ?_, fun hnot hclear haccept hs hq => ?_,
    fun hs hsync houtcome => ?_, fun hnot he hreject => ?_, fun hw hclear => ?_, fun hw hnot => ?_⟩
  · have hs' : s.endFlight.mc.state = .syncWait := hs
    rw [htaken hclear, State.syncEnds_taken (hnowait hnot), haccept, State.syncTaken, hs']
    rfl
  · have hs' : s.endFlight.mc.state = .syncing := hs
    have hnot : ¬waits := fun hw => by simp [hw.1] at hs
    rw [htaken hclear, State.syncEnds_taken (hnowait hnot), haccept, State.syncTaken, hs']
    rfl
  · rw [htaken hclear, State.syncEnds_taken (hnowait hnot), haccept, State.syncTaken]
    rcases hs with hs | hs
    · have hs' : s.endFlight.mc.state = .syncWait := hs
      rw [hs']
      exact ⟨_, rfl, State.completeAlone_aloneFrom hq rfl rfl rfl rfl rfl rfl⟩
    · have hs' : s.endFlight.mc.state = .syncing := hs
      rw [hs']
      exact ⟨_, rfl, State.completeAlone_aloneFrom hq rfl rfl rfl rfl rfl rfl⟩
  · have hnot : ¬waits := fun hw => by simp [hw.1] at hs
    have hcounts : s.endFlight.countsOf .sync = none := hsync
    rcases houtcome with he | hclear
    · simp only [outcomeOf_error he, State.syncEnds, hnowait hnot, State.voidFrame, hcounts]
      rfl
    · rw [htaken hclear, State.syncEnds_taken (hnowait hnot)]
      exact congrArg _ (State.syncTaken_withdrawn (s := s.endFlight) hs hsync _)
  · simp only [State.syncEnds, hnowait hnot, outcomeOf_reject he hreject]
    exact ⟨_, rfl, State.fatal_faultedFrom _ _ _⟩
  · have hends : s.endFlight.syncEnds levels.accept .taken = s.endFlight.enterSyncing.enterLeaving := by
      simp only [State.syncEnds, if_pos ((State.leaveWaitsForSync_iff s.endFlight).2 hw), State.waitedSyncEnds, if_true]
    rw [htaken hclear, hends]
    refine ⟨_, rfl, ?_⟩
    simp only [State.enterLeaving, State.testLeave_mc, State.testLeave_frame]
    exact ⟨rfl, rfl, rfl, hw.2⟩
  · have hnottaken : outcomeOf f.dest levels ≠ .taken := by
      rcases outcomeOf_not_clear (dest := f.dest) hnot with h | h <;> simp [h]
    have hends : s.endFlight.syncEnds levels.accept (outcomeOf f.dest levels) = s.endFlight.leaveToHalted := by
      simp only [State.syncEnds, if_pos ((State.leaveWaitsForSync_iff s.endFlight).2 hw), State.waitedSyncEnds,
        if_neg hnottaken]
    rw [hends, State.leaveToHalted_of_leave (by exact hw.2)]
    rfl

/-! ### The own ROSTER and the own RELEASE (R50, R74, R75) -/

/-- A RELEASE dropped at the leave deadline, at its end: TAKEN it removes the own entry, and else it does nothing. -/
theorem exec_releaseOutcome_forNobody {s : State} {n : Slot} {f : Frame} (h : s.sendsForNobody (.release n) f)
    (levels : Slots) :
    exec (.releaseOutcome (.endOfTrailer levels)) s =
      .next (s.endFlight.releaseEnds n ⟨.release n, f, true⟩ (outcomeOf f.dest levels)) := by
  obtain ⟨hr, hf⟩ := State.discarded_of_sendsForNobody h nofun
  simp [exec, execReleaseOutcome, released, hr, State.ownFrame, State.atTrailer, hf, Source.isRelease,
    State.releaseFrameEnds]

/-- Settles O28. -/
theorem rosterAndReleaseTaken : Obligations.RosterAndReleaseTaken := by
  refine ⟨fun s n f levels h hdest => ?_, fun s f levels hclear hdest => ⟨fun h => ?_, fun n h => ?_⟩⟩
  · rw [exec_releaseOutcome_forNobody h]
    refine ⟨fun hclear => ?_, fun hnot => ?_⟩
    · rw [outcomeOf_taken hclear (Or.inr hdest)]
      rfl
    · rcases outcomeOf_not_clear (dest := f.dest) hnot with ho | ho <;> rw [ho] <;> rfl
  · rw [exec_rosterOutcome h, outcomeOf_taken hclear (Or.inr hdest)]
    rfl
  · rw [exec_releaseOutcome h, outcomeOf_taken hclear (Or.inr hdest)]
    simp only [State.releaseEnds, Bool.false_eq_true, if_false]
    refine ⟨_, rfl, ?_⟩
    simp only [State.testLeave_frame, State.testLeave_mc, State.leaveCondition_testLeave]
    exact ⟨rfl, rfl, rfl, rfl, rfl, rfl⟩

/-! ### The own EVICT (R93) -/

/-- Settles O30: TAKEN is the departure, from the state at the end of the own frame. -/
theorem evictOutcome : Obligations.EvictOutcome := by
  intro s d f levels hsends hdest hself
  rw [exec_evictOutcome hsends]
  refine ⟨fun hclear hl => ?_, fun he hreject => ?_⟩
  · rw [outcomeOf_taken hclear (Or.inr hdest)]
    obtain ⟨hdeparted, hpeers, -⟩ := State.departure_departed (s := s.endFlight) hself .evict hl
    exact ⟨_, rfl, hpeers, hdeparted⟩
  · rw [outcomeOf_reject he hreject]
    rfl

end Sys2Proof.Machine
end

section
/-! PROOF. The ROSTER of another station, the two timers of the membership controller, and the reset pin. -/

namespace Sys2Proof.Machine

/-! ### A received ROSTER (R51, R53, R54, R76) -/

/-- ROSTER_RECEIVED, whole. -/
theorem State.receivesAll_roster {s : State} {p : Station} {w : Word} {pairs : List (Word × Word)} {others : Slots}
    (h : s.hears) (hw : (Instr.rosterReceived p w pairs (.whole others)).wellFormed = true) :
    s.receivesAll (.rosterReceived p w pairs (.whole others)) others ⟨p, allStations, 0, .roster w pairs⟩ :=
  ⟨_, rfl, heard_of_passes hw, rfl, by simp only [exec, execRosterReceived, released, h.1]; rfl⟩

/-- Outside SYNCING the contents of a ROSTER are ignored. -/
theorem State.applyRoster_of_ne {s : State} (hs : s.mc.state ≠ .syncing) (p : Station) (w : Word)
    (pairs : List (Word × Word)) : s.applyRoster p w pairs = s := if_neg hs

/-- In SYNCING a ROSTER is noted, its pairs are merged, and the sync is tested. -/
theorem State.applyRoster_syncing {s : State} (hs : s.mc.state = .syncing) (p : Station) (w : Word)
    (pairs : List (Word × Word)) : s.applyRoster p w pairs = (mergePairs p pairs (s.noteRoster p w)).testSync := if_pos hs

/-- Once somebody has answered, the sync completes exactly when everybody expected has (R54). -/
theorem State.testSync_of_answered {s : State} {p : Station} (hs : s.mc.state = .syncing)
    (hp : s.mc.answered.has p = true) :
    s.testSync = if s.mc.expected &&& ~~~s.mc.answered = 0 then s.completeSync else s := by
  have hsome : s.mc.answered ≠ StationSet.empty := fun he => by simp [he] at hp
  simp only [State.testSync, hs, ne_eq, hsome, not_false_eq_true, true_and]
  rfl

/-- A ROSTER noted in SYNCING has its source among those that answered. -/
theorem State.noteRoster_answered (s : State) (p : Station) (w : Word) : (s.noteRoster p w).mc.answered.has p = true := by
  simp [State.noteRoster]

/-- The merge of one pair, by what the map holds (R76). -/
theorem mergePairs_single (p : Station) (x : Word × Word) (s : State) :
    mergePairs p [x] s =
      if s.wmu.map.any (fun e => e.base == x.1 && e.owner == p) = true then s
      else if claimRefusedBy s.wmu.map (pairEntry x p) = true then s.fault .mapOverlap (some p) none (some x.1)
      else { s with wmu := { s.wmu with map := insertEntry (pairEntry x p) s.wmu.map } } := rfl

/-- Settles O42: the row is the reception of its message, which a member accepts; then the merge, pair by pair. -/
theorem rosterReceived : Obligations.RosterReceived := by
  refine ⟨?received, ?pair, fun s p => rfl, fun s p x xs => rfl⟩
  case received =>
    intro s p w pairs others h hw bits noted everybody
    have hrow := State.receivesAll_roster h hw
    have haccept : s.decideAddressed ⟨p, allStations, 0, .roster w pairs⟩ = .accept _ none := rfl
    refine ⟨fun hnot => State.receivesAll_not_clear h hrow haccept hnot, fun hs hclear => ?_, fun hs hclear hwait => ?_,
      fun hs hclear hall => ?_⟩
    all_goals obtain ⟨r, hexec⟩ := State.receivesAll_accept h hrow haccept hclear
    · exact hexec.trans (congrArg _ (State.applyRoster_of_ne (by exact hs) p w pairs))
    all_goals
      have happly := State.applyRoster_syncing (s := State.hear p { s with tif := s.tif.heard }) hs p w pairs
      have htest : (mergePairs p pairs noted).testSync =
          if everybody then (mergePairs p pairs noted).completeSync else mergePairs p pairs noted := by
        have hmc : (mergePairs p pairs noted).mc = noted.mc := by simp
        rw [State.testSync_of_answered (p := p) (by rw [hmc]; exact hs)
          (by rw [hmc]; exact State.noteRoster_answered s p w), hmc]
    · rw [if_neg hwait] at htest
      exact hexec.trans (congrArg _ (happly.trans htest))
    · rw [if_pos hall] at htest
      obtain ⟨hmc, -⟩ := (mergePairs p pairs noted).completeSync_end
      obtain ⟨-, -, -, -, -, hmap, -⟩ := (mergePairs p pairs noted).completeSync_frame
      refine ⟨_, hexec.trans (congrArg _ (happly.trans htest)), ?_, ?_, hmap, ?_⟩
      · rw [hmc]
      · rw [hmc]; simp
      · rw [hmc]
  case pair =>
    intro s p b d _ e known refused
    have hknown : s.wmu.map.any (fun x => x.base == b && x.owner == p) = true ↔ known := by simp [known]
    have hrefused : claimRefusedBy s.wmu.map (pairEntry (b, d) p) = true ↔ refused := by
      rw [claimRefusedBy_iff, List.any_eq_true]
      rfl
    simp only [mergePairs_single, hknown, hrefused]
    exact ⟨fun h => if_pos h, fun h hr => by rw [if_neg h, if_pos hr]; rfl, fun h hr => by rw [if_neg h, if_neg hr]; rfl⟩

/-! ### The settle timer (R55) -/

/-- The pending EVICTs after those of a list of stations joined: what stood stays, and each station of the list has one. -/
theorem addEvicts_mem (ds : List Station) (es : List PendingEvict) :
    (∀ e ∈ es, e ∈ addEvicts ds es) ∧ (∀ e ∈ addEvicts ds es, e ∈ es ∨ (e.station ∈ ds ∧ e.counts = Counts.zero)) ∧
    (∀ d ∈ ds, ∃ e ∈ addEvicts ds es, e.station = d) := by
  induction ds generalizing es with
  | nil => exact ⟨fun e he => he, fun e he => Or.inl he, nofun⟩
  | cons d ds ih =>
    obtain ⟨hkept, hnew, hhas⟩ := addEvict_mem d es
    obtain ⟨hkept', hnew', hhas'⟩ := ih (addEvict d es)
    refine ⟨fun e he => hkept' e (hkept e he), fun e he => ?_, fun k hk => ?_⟩
    · rcases hnew' e he with he | ⟨hin, hzero⟩
      · rcases hnew e he with he | rfl
        · exact Or.inl he
        · exact Or.inr ⟨List.mem_cons_self, rfl⟩
      · exact Or.inr ⟨List.mem_cons_of_mem d hin, hzero⟩
    · rcases List.mem_cons.1 hk with rfl | hk
      · obtain ⟨e, he, hstation⟩ := hhas
        exact ⟨e, hkept' e he, hstation⟩
      · exact hhas' k hk

/-- Settles O49: the first two expiries by who has answered, the third as the FATAL fault it is. -/
theorem settleTimerExpiry : Obligations.SettleTimerExpiry := by
  intro s hr again
  have hexec : exec .settleTimerExpiry s = .next s.settleExpires := by
    simp only [exec, execSettleTimerExpiry, released, hr]; rfl
  rw [hexec]
  refine ⟨fun hs hrun => ⟨fun hfirst hnobody => ?_, fun hfirst hsome => ?_, fun hthird => ?_⟩, fun hidle => ?_⟩
  · have hbelow : s.mc.attempts + 1 < Config.settleLimit := Nat.succ_lt_succ hfirst
    simp only [State.settleExpires, hs, hrun, hbelow, Mc.settleAgain, hnobody, and_self, if_true]
    rfl
  · have hbelow : s.mc.attempts + 1 < Config.settleLimit := Nat.succ_lt_succ hfirst
    obtain ⟨hkept, hnew, hhas⟩ := addEvicts_mem (s.mc.expected.minus s.mc.answered).toList s.mc.evicts
    have hsilent : ∀ d, d ∈ (s.mc.expected.minus s.mc.answered).toList ↔
        s.mc.expected.has d = true ∧ s.mc.answered.has d = false := fun d => by simp
    refine ⟨addEvicts (s.mc.expected.minus s.mc.answered).toList s.mc.evicts, ?_, fun d => ⟨?_, ?_⟩, hkept, fun e he => ?_⟩
    · simp only [State.settleExpires, hs, hrun, hbelow, Mc.settleAgain, hsome, and_self, if_true, if_false]
      rfl
    · rintro ⟨e, he, rfl⟩
      exact (hnew e he).imp (fun he => ⟨e, he, rfl⟩) (fun he => (hsilent e.station).1 he.1)
    · rintro (⟨e, he, rfl⟩ | hd)
      · exact ⟨e, hkept e he, rfl⟩
      · exact hhas d ((hsilent d).2 hd)
    · exact (hnew e he).imp id And.right
  · have hlimit : ¬s.mc.attempts + 1 < Config.settleLimit := Nat.not_lt.2 (Nat.succ_le_succ hthird)
    simp only [State.settleExpires, hs, hrun, and_self, if_true, if_neg hlimit]
    exact ⟨_, rfl, State.fatal_faultedFrom _ _ _⟩
  · refine congrArg _ (if_neg ?_)
    rcases hidle with hs | hnone
    · exact fun h => hs h.1
    · simp [hnone]

/-! ### The leave deadline (R60) -/

/-- At the leave deadline every entry that is not QUARANTINED goes FREE, that of the head's tag too. -/
theorem Ore.deadline_ort {o : Ore} (hl : CompletionLaws o) (tag : Tag) :
    o.deadline.ort.at tag =
      match o.ort.at tag with
      | .quarantined r x => .quarantined r x
      | _ => .free := by
  simp only [Ore.deadline, Ore.discardQueue, Bank.at_map]
  cases he : o.ort.at tag with
  | pending r =>
    rw [Ore.freeHeadTag_ort, he]
    split <;> rfl
  | free | sent r x | quarantined r x =>
    rw [hl.freeHeadTag_ort (by simp [he]), he]
    rfl

/-- The leave deadline leaves no head, no descriptor and no reservation; the CQ stays. -/
theorem Ore.deadline_frame (o : Ore) :
    o.deadline.rq = [] ∧ o.deadline.head = none ∧ o.deadline.cq = o.cq ∧ o.deadline.cqSum = o.cq.length := by
  have hcq : o.deadline.cq = o.cq := o.freeHeadTag_frame.2.2
  have hnone : o.deadline.ort.count OrtEntry.reserved = 0 := by
    rw [Bank.count_eq_zero]
    intro tag
    simp only [Ore.deadline, Bank.at_map]
    split
    · rfl
    · next h => simpa using h
  refine ⟨rfl, rfl, hcq, ?_⟩
  rw [Ore.cqSum_eq, hnone, hcq]
  rfl

/-- An own-window record after the leave deadline. -/
theorem OwnRecord.deadline_eq (r : OwnRecord) :
    r.deadline = ⟨if r.state = .releasing then .idle else r.state, none⟩ := by
  rw [OwnRecord.deadline]
  cases r.state <;> rfl

/-- Settles O50, block by block. -/
theorem leaveDeadlineExpiry : Obligations.LeaveDeadlineExpiry := by
  intro s hr
  have hexec : exec .leaveDeadlineExpiry s = .next s.leaveDeadlineExpires := by
    simp only [exec, execLeaveDeadlineExpiry, released, hr]; rfl
  rw [hexec]
  refine ⟨fun hs hdeadline hrun hl => ⟨_, rfl, ?_⟩, fun hidle => ?_⟩
  · obtain ⟨hrq, hhead, hcq, hsum⟩ := s.ore.deadline_frame
    obtain ⟨hsq, hitt, -, hiq, hnq⟩ := s.isu.dropService_fields
    rw [State.leaveDeadlineExpires, if_pos ⟨hs, hdeadline⟩, State.finish_of_running (by exact hrun)]
    refine ⟨rfl, hrq, hhead, hcq, hsum, Ore.deadline_ort hl, hitt, hsq, hiq, hnq, rfl, rfl, fun n => ?_, rfl, rfl,
      fun f hf => ?_, rfl⟩
    · exact (Bank.at_map _ _ _).trans (OwnRecord.deadline_eq _)
    · obtain ⟨src, frame, gone⟩ := f
      simp only [Tif.deadline, hf, Option.map_some]
      cases src <;> rfl
  · refine congrArg _ (if_neg ?_)
    rcases hidle with hs | hnone
    · exact fun h => hs h.1
    · simp [hnone]

/-! ### The reset pin (R62, R63) -/

/-- In HALTED the state field of the status word reads 0. -/
theorem State.statusWord_halted {s : State} (h : s.mc.state = .halted) : s.statusWord.extractLsb' 0 4 = 0 := by
  have hshows := (packFields_shows [⟨0, 4, s.mc.state.code⟩, ⟨4, 5, s.mc.sid.toNat⟩, ⟨9, 1, s.mc.state.isMember.toNat⟩,
    ⟨10, 1, s.lpu.locked.toNat⟩, ⟨12, 2, s.mc.attempts⟩, ⟨16, 5, s.mc.peers.card⟩, ⟨24, 3, s.wmu.heldCount⟩]
    (by simp) (by simp [Field.apart])).1 (0, 4, s.mc.state.code) (by simp)
  have hcode : s.mc.state.code = 0 := by rw [h]; rfl
  simp only [pow_zero, Nat.div_one, hcode] at hshows
  apply BitVec.eq_of_toNat_eq
  rw [BitVec.extractLsb'_toNat, Nat.shiftRight_zero, State.statusWord, hcode]
  exact hshows

/-- Settles O4: the state is the reset state, with RESET_N asserted. -/
theorem resetAssertedAbandonsEverything : Obligations.ResetAssertedAbandonsEverything := by
  intro s
  have hword : ∀ t : State, t.readWord 0 false = t.statusWord := fun _ => rfl
  refine ⟨_, rfl, rfl, rfl, rfl, rfl, fun _ => rfl, rfl, rfl, rfl, rfl, rfl, Bank.at_all _, rfl, ?_, rfl⟩
  rw [hword]
  exact State.statusWord_halted rfl

/-- The ORE after reset meets the completion laws. -/
theorem CompletionLaws.reset : CompletionLaws Ore.reset where
  sum := by rw [Ore.reset_cqSum]; decide
  queue := Nat.zero_le _
  headQueued := nofun
  headTag := nofun
  pendingHead t r h := by simp [Ore.reset] at h

/-- The IQ and the NQ after reset meet their laws: nothing is being received. -/
theorem InboundLaws.reset (rate : BitVec 2) : InboundLaws (Tif.reset rate) Isu.reset where
  iq := Nat.zero_le _
  nq := Nat.zero_le _
  iqRoom _ _ h := nomatch h
  nqRoom _ _ _ _ h := nomatch h

/-- The state right after reset meets every law of the station. -/
theorem StationLaws.afterReset (sid : Station) (rate : BitVec 2) (freeUsed : Nat) (pending : List Instr) :
    StationLaws (State.afterReset sid rate freeUsed pending) where
  map := MapLaws.nil
  completion := CompletionLaws.reset
  response := ResponseLaws.of_empty rfl fun h e he => by simp [State.afterReset, Isu.reset] at he
  inbound := InboundLaws.reset rate
  membership := MembershipLaws.reset sid
  control := ControlLaws.of_halted rfl (Nat.zero_le _) rfl rfl rfl rfl rfl rfl rfl rfl

/-- Settles O55. -/
theorem lawsHoldAtReset : Obligations.LawsHoldAtReset :=
  ⟨StationLaws.afterReset 1 0 0 [], fun sid rate s => ⟨_, rfl, StationLaws.afterReset sid rate s.freeUsed s.pending⟩⟩

end Sys2Proof.Machine
end

section
/-! PROOF. Every command answers a next state and leaves the commands that wait: one frame lemma per operation, in the order of
the model's files, and then row by row. -/

namespace Sys2Proof.Machine

/-! ### Changes of station state -/

/-- The entry into FAULTED leaves the commands that wait. -/
@[simp] theorem State.enterFaulted_pending (s : State) : s.enterFaulted.pending = s.pending := by
  simp [State.enterFaulted]

/-- A FATAL fault leaves the commands that wait. -/
@[simp] theorem State.fatal_pending (k : FaultKind) (a : Option Station) (s : State) : (s.fatal k a).pending = s.pending := by
  simp [State.fatal]

/-- The entry into DETACHED leaves the commands that wait. -/
@[simp] theorem State.enterDetached_pending (s : State) : s.enterDetached.pending = s.pending := by
  simp only [State.enterDetached]
  split <;> simp

/-- The return to HALTED of a LEAVE leaves the commands that wait. -/
@[simp] theorem State.leaveToHalted_pending (s : State) : s.leaveToHalted.pending = s.pending := by
  simp [State.leaveToHalted]

/-- The next claim leaves the commands that wait. -/
@[simp] theorem State.nextClaim_pending (s : State) : s.nextClaim.pending = s.pending := by
  obtain ⟨-, -, -, -, -, h, -⟩ := s.nextClaim_frame
  exact h

/-- The repeated check of a CLAIM leaves the commands that wait. -/
@[simp] theorem State.recheckClaim_pending (s : State) : s.recheckClaim.pending = s.pending := by
  obtain ⟨-, -, -, -, -, h, -⟩ := s.recheckClaim_frame
  exact h

/-- The entry into SYNCING leaves the commands that wait. -/
@[simp] theorem State.enterSyncing_pending (s : State) : s.enterSyncing.pending = s.pending := rfl

/-- The completion of sync leaves the commands that wait. -/
@[simp] theorem State.completeSync_pending (s : State) : s.completeSync.pending = s.pending := by
  obtain ⟨-, -, -, -, h, -⟩ := s.completeSync_frame
  exact h

/-- So does the completion of sync alone. -/
@[simp] theorem State.completeAlone_pending (s : State) : s.completeAlone.pending = s.pending :=
  State.completeSync_pending _

/-- The test of the sync leaves the commands that wait. -/
@[simp] theorem State.testSync_pending (s : State) : s.testSync.pending = s.pending := by
  obtain ⟨-, -, -, -, h, -⟩ := s.testSync_frame
  exact h

/-- The entry into LEAVING leaves the commands that wait. -/
@[simp] theorem State.enterLeaving_pending (s : State) : s.enterLeaving.pending = s.pending := by
  simp [State.enterLeaving]

/-- The cleanup of a departure leaves the commands that wait. -/
@[simp] theorem State.cleaned_pending (d : Station) (cause : DepartureCause) (s : State) :
    (s.cleaned d cause).pending = s.pending := by
  simp only [State.cleaned]
  split <;> rfl

/-- A departure leaves the commands that wait. -/
@[simp] theorem State.departure_pending (d : Station) (cause : DepartureCause) (s : State) :
    (s.departure d cause).pending = s.pending := by
  simp only [State.departure]
  split <;> simp

/-! ### The transmitter -/

/-- Changed counts leave the commands that wait. -/
@[simp] theorem State.withCounts_pending (src : Source) (c : Counts) (s : State) :
    (s.withCounts src c).pending = s.pending := by
  cases src <;> rfl

/-- A head given up leaves the commands that wait. -/
@[simp] theorem State.giveUpHead_pending (st : Status) (s : State) : (s.giveUpHead st).pending = s.pending := by
  rw [State.giveUpHead]
  split <;> rfl

/-- A CLAIM given up leaves the commands that wait. -/
@[simp] theorem State.dropClaim_pending (n : Slot) (s : State) : (s.dropClaim n).pending = s.pending := rfl

/-- A frame abandoned leaves the commands that wait. -/
@[simp] theorem State.abandon_pending (src : Source) (s : State) : (s.abandon src).pending = s.pending := by
  cases src with
  | sqHead =>
    simp only [State.abandon]
    split <;> simp
  | claim n =>
    simp only [State.abandon]
    split <;> simp
  | sync | bye | roster | evict d | release n | rqHead => simp [State.abandon]

/-- A voided frame leaves the commands that wait. -/
@[simp] theorem State.voidFrame_pending (src : Source) (s : State) : (s.voidFrame src).pending = s.pending := by
  rw [State.voidFrame]
  split
  · rfl
  · split <;> simp

/-- A frame abandoned at a collision bit leaves the commands that wait. -/
@[simp] theorem State.abandonAtBit_pending (src : Source) (s : State) : (s.abandonAtBit src).pending = s.pending :=
  State.abandon_pending src _

/-- A frame that meets the void limit at a collision bit leaves the commands that wait. -/
@[simp] theorem State.collideLimit_pending (src : Source) (c : Counts) (s : State) :
    (s.collideLimit src c).pending = s.pending := by
  cases src <;> simp [State.collideLimit]

/-- The void of a collision leaves the commands that wait. -/
@[simp] theorem State.collideVoid_pending (src : Source) (s : State) : (s.collideVoid src).pending = s.pending := by
  rw [State.collideVoid]
  split
  · rfl
  · split <;> simp

/-- What an abandoned frame is owed leaves the commands that wait. -/
@[simp] theorem State.finishSpent_pending (s : State) : s.finishSpent.pending = s.pending := by
  rw [State.finishSpent]
  split
  · rfl
  · rfl
  · simp
  · simp

/-- A LOST leaves the commands that wait. -/
@[simp] theorem State.lose_pending (f : Flight) (s : State) : (s.lose f).pending = s.pending := by
  simp only [State.lose]
  split
  · rfl
  · split
    · split
      · simp
      · split <;> simp
    · split
      · simp
      · split <;> simp
    · split <;> simp

/-- A COLLIDED leaves the commands that wait. -/
@[simp] theorem State.collide_pending (f : Flight) (s : State) : (s.collide f).pending = s.pending := by
  simp only [State.collide]
  split
  · simp
  · split
    · rfl
    · split
      · split <;> simp
      · split <;> simp
      · simp

/-- The beginning of a frame leaves the commands that wait. -/
@[simp] theorem State.begin_pending (s : State) : s.begin.pending = s.pending := by
  rw [State.begin]
  split
  · split
    · rfl
    · split <;> rfl
  · rfl

/-- A bit compared leaves the commands that wait, whether it is a LOST or none. -/
@[simp] theorem State.lostAt_pending (p : Nat) (s : State) : (s.lostAt p).pending = s.pending := by
  rw [State.lostAt]
  split
  · rfl
  · split <;> simp

/-- A bit compared leaves the commands that wait, whether it is a COLLIDED or none. -/
@[simp] theorem State.collidedAt_pending (p : Nat) (s : State) : (s.collidedAt p).pending = s.pending := by
  rw [State.collidedAt]
  split
  · rfl
  · split <;> simp

/-! ### Outcomes of own frames -/

/-- The own SYNC TAKEN leaves the commands that wait. -/
@[simp] theorem State.syncTaken_pending (accept : Bool) (s : State) : (s.syncTaken accept).pending = s.pending := by
  rw [State.syncTaken]
  split
  · split <;> simp
  · split <;> simp
  · rfl

/-- The own SYNC's outcome leaves the commands that wait. -/
@[simp] theorem State.syncEnds_pending (accept : Bool) (o : Outcome) (s : State) :
    (s.syncEnds accept o).pending = s.pending := by
  unfold State.syncEnds
  split
  · rw [State.waitedSyncEnds]
    split <;> simp
  · split <;> simp

/-- The own ROSTER's outcome leaves the commands that wait. -/
@[simp] theorem State.rosterEnds_pending (o : Outcome) (s : State) : (s.rosterEnds o).pending = s.pending := by
  cases o <;> simp [State.rosterEnds]

/-- The own CLAIM's outcome leaves the commands that wait. -/
@[simp] theorem State.claimEnds_pending (n : Slot) (o : Outcome) (s : State) : (s.claimEnds n o).pending = s.pending := by
  simp only [State.claimEnds]
  split
  · split
    · rfl
    · simp
    · split <;> simp
  · split <;> simp

/-- The own RELEASE's outcome leaves the commands that wait. -/
@[simp] theorem State.releaseEnds_pending (n : Slot) (f : Flight) (o : Outcome) (s : State) :
    (s.releaseEnds n f o).pending = s.pending := by
  simp only [State.releaseEnds]
  split
  · split <;> simp
  · split <;> simp
  · rfl

/-- The own EVICT's outcome leaves the commands that wait. -/
@[simp] theorem State.evictEnds_pending (d : Station) (o : Outcome) (s : State) : (s.evictEnds d o).pending = s.pending := by
  cases o <;> simp [State.evictEnds]

/-- The own BYE's outcome leaves the commands that wait. -/
@[simp] theorem State.byeEnds_pending (o : Outcome) (s : State) : (s.byeEnds o).pending = s.pending := by
  cases o <;> simp [State.byeEnds]

/-- A REJECTED head leaves the commands that wait. -/
@[simp] theorem State.headRejected_pending (s : State) : s.headRejected.pending = s.pending := by
  rw [State.headRejected]
  split
  · rfl
  · split <;> simp

/-- The outcome of the RQ head's frame leaves the commands that wait. -/
@[simp] theorem State.requestEnds_pending (f : Flight) (o : Outcome) (s : State) :
    (s.requestEnds f o).pending = s.pending := by
  simp only [State.requestEnds]
  split
  · rfl
  · split <;> simp

/-- The outcome of the SQ head's frame leaves the commands that wait. -/
@[simp] theorem State.responseEnds_pending (f : Flight) (o : Outcome) (s : State) :
    (s.responseEnds f o).pending = s.pending := by
  simp only [State.responseEnds]
  split
  · rfl
  · split <;> simp

/-- The end of the own CLAIM leaves the commands that wait. -/
theorem State.claimFrameEnds_pending (f : Flight) (o : Outcome) (s : State) :
    (s.claimFrameEnds f o).pending = s.pending := by
  rw [State.claimFrameEnds]
  split <;> simp

/-- The end of the own RELEASE leaves the commands that wait. -/
theorem State.releaseFrameEnds_pending (f : Flight) (o : Outcome) (s : State) :
    (s.releaseFrameEnds f o).pending = s.pending := by
  rw [State.releaseFrameEnds]
  split <;> simp

/-- The end of the own EVICT leaves the commands that wait. -/
theorem State.evictFrameEnds_pending (f : Flight) (o : Outcome) (s : State) :
    (s.evictFrameEnds f o).pending = s.pending := by
  rw [State.evictFrameEnds]
  split <;> simp

/-- A moment of an own frame leaves the commands that wait where its owner does. -/
theorem State.ownFrame_pending {ends : Slots → Flight → Outcome → State → State}
    (h : ∀ levels f o s, (ends levels f o s).pending = s.pending) (src : Source → Bool) (moment : TxMoment) (s : State) :
    (s.ownFrame src moment ends).pending = s.pending := by
  cases moment with
  | lastCheckBit =>
    obtain ⟨phase, hbit, -⟩ := s.ownLastCheckBit_frame src
    rw [State.ownFrame, hbit]
  | endOfTrailer levels =>
    rw [State.ownFrame, State.atTrailer]
    split
    · rfl
    · split
      · exact h _ _ _ _
      · rfl

/-! ### Reception -/

/-- A taken ROSTER leaves the commands that wait. -/
@[simp] theorem State.applyRoster_pending (p : Station) (w : Word) (pairs : List (Word × Word)) (s : State) :
    (s.applyRoster p w pairs).pending = s.pending := by
  rw [State.applyRoster]
  split
  · simp [State.noteRoster]
  · rfl

/-- A taken CLAIM leaves the commands that wait. -/
@[simp] theorem State.applyClaim_pending (p : Station) (b d : Word) (s : State) :
    (s.applyClaim p b d).pending = s.pending := by
  simp [State.applyClaim]

/-- A taken request leaves the commands that wait. -/
@[simp] theorem State.applyRequest_pending (m : Message) (b : RequestBody) (p : ServicePlan) (s : State) :
    (s.applyRequest m b p).pending = s.pending := by
  cases p <;> simp [State.applyRequest]

/-- A taken response leaves the commands that wait. -/
@[simp] theorem State.applyResponse_pending (p : Station) (tag : Tag) (b : ResponseBody) (s : State) :
    (s.applyResponse p tag b).pending = s.pending := by
  rw [State.applyResponse]
  split <;> simp

/-- What an accepted frame does leaves the commands that wait. -/
@[simp] theorem State.applyAccepted_pending (r : Reception) (m : Message) (p : Option ServicePlan) (s : State) :
    (s.applyAccepted r m p).pending = s.pending := by
  rw [State.applyAccepted]
  split
  case h_7 => split <;> simp
  all_goals simp [State.applySync, State.applyRelease, State.applySignal]

/-- The end of a trailer leaves the commands that wait, whatever the verdict. -/
@[simp] theorem State.applyVerdict_pending (r : Reception) (taken : Bool) (s : State) :
    (s.applyVerdict r taken).pending = s.pending := by
  rw [State.applyVerdict]
  split
  · split <;> simp [State.hear]
  · split <;> rfl
  · rfl
  · rfl

/-- The start bit leaves the commands that wait. -/
@[simp] theorem State.rxStart_pending (s : State) : s.rxStart.pending = s.pending := rfl

/-- The last check bit leaves the commands that wait. -/
@[simp] theorem State.rxDecide_pending (x : Heard) (s : State) : (s.rxDecide x).pending = s.pending := by
  rw [State.rxDecide]
  split <;> rfl

/-- The edge of an early slot leaves the commands that wait. -/
@[simp] theorem State.rxSlot_pending (x : Heard) (slot : EarlySlot) (s : State) : (s.rxSlot x slot).pending = s.pending := by
  rw [State.rxSlot]
  split <;> rfl

/-- The end of a trailer leaves the commands that wait. -/
@[simp] theorem State.rxEnd_pending (x : Heard) (others : Slots) (s : State) : (s.rxEnd x others).pending = s.pending := by
  simp only [State.rxEnd]
  split
  · split <;> simp
  · rfl

/-- A reception leaves the commands that wait, at every moment. -/
@[simp] theorem State.receive_pending (x : Heard) (moment : RxMoment) (s : State) :
    (s.receive x moment).pending = s.pending := by
  cases moment <;> simp [State.receive]

/-- Sampled bits leave the commands that wait. -/
@[simp] theorem State.receiveBits_pending (bits : List Bool) (periods : List Nat) (moment : RxMoment) (s : State) :
    (s.receiveBits bits periods moment).pending = s.pending := by
  unfold State.receiveBits
  split <;> simp

/-- The idle report leaves the commands that wait. -/
@[simp] theorem State.idleObserved_pending (s : State) : s.idleObserved.pending = s.pending := by
  simp only [State.idleObserved]
  split
  · split <;> simp
  · rfl

/-! ### The local port -/

/-- An accepted command leaves the commands that wait. -/
theorem Command.effect_pending (c : Command) (s : State) : (c.effect s).pending = s.pending := by
  cases c with
  | join =>
    simp only [Command.effect, State.joinAccepted]
    split
    · simp
    · split <;> simp
  | leave =>
    simp only [Command.effect, State.leaveAccepted]
    split
    · simp
    · split <;> simp
    · simp
  | flush => simp [Command.effect, State.flushAccepted]
  | restart => simp [Command.effect, State.restartAccepted]

/-- A command write leaves the commands that wait. -/
theorem State.takeCommand_pending (c : Command) (s : State) : (s.takeCommand c c.effect).pending = s.pending := by
  rw [State.takeCommand]
  split
  · rfl
  · rfl
  · exact c.effect_pending s

/-- The four commands leave the commands that wait. -/
@[simp] theorem State.commands_pending (s : State) :
    s.join.pending = s.pending ∧ s.leave.pending = s.pending ∧ s.flush.pending = s.pending ∧
    s.restart.pending = s.pending :=
  ⟨s.takeCommand_pending .join, s.takeCommand_pending .leave, s.takeCommand_pending .flush, s.takeCommand_pending .restart⟩

/-- An RQ push leaves the commands that wait. -/
@[simp] theorem State.rqPush_pending (s : State) : s.rqPush.pending = s.pending := by
  rw [State.rqPush]
  split
  · rfl
  · split
    · rfl
    · split
      · rfl
      · split
        · rfl
        · split <;> rfl

/-- An SQ push leaves the commands that wait. -/
@[simp] theorem State.sqPush_pending (s : State) : s.sqPush.pending = s.pending := by
  simp only [State.sqPush]
  split
  · rfl
  · split
    · rfl
    · split
      · rfl
      · split <;> simp

/-- The pops leave the commands that wait. -/
@[simp] theorem State.pops_pending (s : State) :
    s.cqPop.pending = s.pending ∧ s.iqPop.pending = s.pending ∧ s.nqPop.pending = s.pending ∧
    s.faultPop.pending = s.pending := by
  refine ⟨?_, ?_, ?_, ?_⟩
  · rw [State.cqPop]
    split <;> simp
  · rw [State.iqPop]
    split <;> rfl
  · rw [State.nqPop]
    split <;> rfl
  · rw [State.faultPop]
    split <;> rfl

/-- A Setup write leaves the commands that wait. -/
@[simp] theorem State.setupWrite_pending (i : Fin 9) (v : Word) (s : State) : (s.setupWrite i v).pending = s.pending := by
  rw [State.setupWrite]
  split <;> rfl

/-- A write of the command word leaves the commands that wait. -/
@[simp] theorem State.commandWrite_pending (v : Word) (s : State) : (s.commandWrite v).pending = s.pending := by
  simp only [State.commandWrite, apply_ite State.pending, State.commands_pending, ite_self]

/-- A write access leaves the commands that wait. -/
@[simp] theorem State.registerWrite_pending (a : BitVec 10) (v : Word) (strobe : Bool) (s : State) :
    (s.registerWrite a v strobe).pending = s.pending := by
  rw [State.registerWrite]
  split
  · rfl
  · cases portWord a <;> simp [State.writeWord, State.causeWrite, State.maskWrite, State.severityEnableWrite]

/-! ### The timers -/

/-- The expiry of the busy holdoff leaves the commands that wait. -/
@[simp] theorem State.holdoffExpires_pending (s : State) : s.holdoffExpires.pending = s.pending := by
  rw [State.holdoffExpires]
  split <;> rfl

/-- The expiries of a tag's timers leave the commands that wait. -/
@[simp] theorem State.tagTimers_pending (tag : Tag) (s : State) :
    (s.responseTimerExpires tag).pending = s.pending ∧ (s.quarantineExpires tag).pending = s.pending := by
  refine ⟨?_, ?_⟩
  · rw [State.responseTimerExpires]
    split <;> simp
  · rw [State.quarantineExpires]
    split <;> simp

/-- The expiry of the settle timer leaves the commands that wait. -/
@[simp] theorem State.settleExpires_pending (s : State) : s.settleExpires.pending = s.pending := by
  rw [State.settleExpires]
  split
  · split
    · rfl
    · exact State.fatal_pending _ _ _
  · rfl

/-- The leave deadline leaves the commands that wait. -/
@[simp] theorem State.leaveDeadlineExpires_pending (s : State) : s.leaveDeadlineExpires.pending = s.pending := by
  rw [State.leaveDeadlineExpires]
  split <;> simp

/-! ### Row by row -/

/-- A row other than the two of the reset pin has an effect while RESET_N is released alone, and its effect leaves the commands
that wait. -/
theorem exec_eq_released (c : Instr) (hasserted : c ≠ .resetNAsserted)
    (hreleased : ∀ sid rate, c ≠ .resetNReleased sid rate) :
    ∃ effect : State → State, (∀ s, (effect s).pending = s.pending) ∧ ∀ s, exec c s = released effect s := by
  cases c with
  | resetNAsserted => exact absurd rfl hasserted
  | resetNReleased sid rate => exact absurd rfl (hreleased sid rate)
  | join => exact ⟨State.join, fun s => by simp, fun _ => rfl⟩
  | leave => exact ⟨State.leave, fun s => by simp, fun _ => rfl⟩
  | flush => exact ⟨State.flush, fun s => by simp, fun _ => rfl⟩
  | restart => exact ⟨State.restart, fun s => by simp, fun _ => rfl⟩
  | rqPush => exact ⟨_, State.rqPush_pending, fun _ => rfl⟩
  | sqPush => exact ⟨_, State.sqPush_pending, fun _ => rfl⟩
  | cqPop => exact ⟨State.cqPop, fun s => by simp, fun _ => rfl⟩
  | iqPop => exact ⟨State.iqPop, fun s => by simp, fun _ => rfl⟩
  | nqPop => exact ⟨State.nqPop, fun s => by simp, fun _ => rfl⟩
  | faultPop => exact ⟨State.faultPop, fun s => by simp, fun _ => rfl⟩
  | setupWrite i v => exact ⟨_, State.setupWrite_pending i v, fun _ => rfl⟩
  | causeWrite v => exact ⟨State.causeWrite v, fun _ => rfl, fun _ => rfl⟩
  | maskWrite v => exact ⟨State.maskWrite v, fun _ => rfl, fun _ => rfl⟩
  | severityEnableWrite v => exact ⟨State.severityEnableWrite v, fun _ => rfl, fun _ => rfl⟩
  | registerWrite a v strobe => exact ⟨_, State.registerWrite_pending a v strobe, fun _ => rfl⟩
  | trunkIdleObserved => exact ⟨_, State.idleObserved_pending, fun _ => rfl⟩
  | beginningAFrame => exact ⟨_, State.begin_pending, fun _ => rfl⟩
  | lost bit => exact ⟨_, State.lostAt_pending (bit.toNat + 1), fun _ => rfl⟩
  | collided bit => exact ⟨_, State.collidedAt_pending bit, fun _ => rfl⟩
  | syncOutcome moment =>
    exact ⟨_, State.ownFrame_pending (fun levels _ o t => t.syncEnds_pending levels.accept o) _ moment, fun _ => rfl⟩
  | rosterOutcome moment =>
    exact ⟨_, State.ownFrame_pending (fun _ _ => State.rosterEnds_pending) _ moment, fun _ => rfl⟩
  | claimOutcome moment =>
    exact ⟨_, State.ownFrame_pending (fun _ => State.claimFrameEnds_pending) _ moment, fun _ => rfl⟩
  | releaseOutcome moment =>
    exact ⟨_, State.ownFrame_pending (fun _ => State.releaseFrameEnds_pending) _ moment, fun _ => rfl⟩
  | evictOutcome moment =>
    exact ⟨_, State.ownFrame_pending (fun _ => State.evictFrameEnds_pending) _ moment, fun _ => rfl⟩
  | byeOutcome moment =>
    exact ⟨_, State.ownFrame_pending (fun _ _ => State.byeEnds_pending) _ moment, fun _ => rfl⟩
  | requestFrameOutcome moment =>
    exact ⟨_, State.ownFrame_pending (fun _ => State.requestEnds_pending) _ moment, fun _ => rfl⟩
  | responseFrameOutcome moment =>
    exact ⟨_, State.ownFrame_pending (fun _ => State.responseEnds_pending) _ moment, fun _ => rfl⟩
  | malformedFrame bits periods moment => exact ⟨_, State.receiveBits_pending bits periods moment, fun _ => rfl⟩
  | syncReceived | rosterReceived | claimReceived | releaseReceived | evictReceived | byeReceived
  | frameForAnotherStation => exact ⟨_, State.receive_pending _ _, fun _ => rfl⟩
  | requestReceived | responseReceived | signalReceived => exact ⟨_, fun s => s.receive_pending _ _, fun _ => rfl⟩
  | headPreparation => exact ⟨State.afterHead, fun s => by simp, fun _ => rfl⟩
  | holdoffExpiry => exact ⟨_, State.holdoffExpires_pending, fun _ => rfl⟩
  | responseTimerExpiry tag => exact ⟨State.responseTimerExpires tag, fun s => by simp, fun _ => rfl⟩
  | quarantineExpiry tag => exact ⟨State.quarantineExpires tag, fun s => by simp, fun _ => rfl⟩
  | settleTimerExpiry => exact ⟨_, State.settleExpires_pending, fun _ => rfl⟩
  | leaveDeadlineExpiry => exact ⟨_, State.leaveDeadlineExpires_pending, fun _ => rfl⟩
  | burstNotAFrame => exact ⟨State.burst, fun _ => rfl, fun _ => rfl⟩

/-- Settles O2: the two rows of the reset pin, and every other row by what RESET_N lets it do. -/
theorem everyCommandAnswersNext : Obligations.EveryCommandAnswersNext := by
  refine ⟨fun c s => ?_, fun c s hr hasserted hreleased => ?_⟩
  · by_cases hpin : c = .resetNAsserted ∨ ∃ sid rate, c = .resetNReleased sid rate
    · rcases hpin with rfl | ⟨sid, rate, rfl⟩
      · exact ⟨_, rfl, rfl⟩
      · exact ⟨_, rfl, rfl⟩
    · obtain ⟨effect, hpending, hexec⟩ := exec_eq_released c (fun h => hpin (Or.inl h))
        (fun sid rate h => hpin (Or.inr ⟨sid, rate, h⟩))
      refine ⟨_, hexec s, ?_⟩
      split
      · rfl
      · exact hpending s
  · obtain ⟨effect, -, hexec⟩ := exec_eq_released c hasserted hreleased
    rw [hexec, released, if_pos hr]

end Sys2Proof.Machine
end

section
/-! PROOF. Every step keeps the window map lawful and its owners in the peer set: what each operation makes of the map and the
peer set, and then row by row. -/

namespace Sys2Proof.Machine

/-! ### What is kept of the map and the peer set -/

/-- What the two laws of the map read of the state: the map and the peer set. -/
def State.mapAndPeers (s : State) : List MapEntry × StationSet := (s.wmu.map, s.mc.peers)

/-- How the map and the peer set of t come from a station with this MC and this map: the map is lawful where that one was, an
owner that was a peer is one still, and in SYNCING an entry that is new is the station's own or of a peer (R53, R65, R76). -/
structure MapKept (m : Mc) (map : List MapEntry) (t : State) : Prop where
  laws : MapLaws map → MapLaws t.wmu.map
  stayed : ∀ e ∈ t.wmu.map, m.peers.has e.owner = true → t.mc.peers.has e.owner = true
  added : m.state = .syncing → ∀ e ∈ t.wmu.map, e ∈ map ∨ e.owner = m.sid ∨ t.mc.peers.has e.owner = true

section

variable {m : Mc} {map : List MapEntry} {s t : State}

/-- The station itself, before anything happens. -/
theorem MapKept.refl (s : State) : MapKept s.mc s.wmu.map s := ⟨id, fun _ _ => id, fun _ _ => Or.inl⟩

/-- An operation that leaves the map and the peer set leaves what is kept. -/
theorem MapKept.frame (h : MapKept m map s) (e : t.mapAndPeers = s.mapAndPeers) : MapKept m map t := by
  obtain ⟨hmap, hpeers⟩ := Prod.mk.inj e
  exact ⟨hmap ▸ h.laws, by rw [hmap, hpeers]; exact h.stayed, by rw [hmap, hpeers]; exact h.added⟩

/-- An empty map names no owner. -/
theorem MapKept.of_empty (e : t.wmu.map = []) : MapKept m map t where
  laws _ := e ▸ MapLaws.nil
  stayed x hx := by rw [e] at hx; cases hx
  added _ x hx := by rw [e] at hx; cases hx

/-- Some entries go, and no peer but those whose entries all go. -/
theorem MapKept.filter (h : MapKept m map s) (p : MapEntry → Bool) (hmap : t.wmu.map = s.wmu.map.filter p)
    (hpeers : ∀ e, p e = true → s.mc.peers.has e.owner = true → t.mc.peers.has e.owner = true) : MapKept m map t where
  laws hl := hmap ▸ (h.laws hl).filter p
  stayed e he hp := by
    rw [hmap, List.mem_filter] at he
    exact hpeers e he.2 (h.stayed e he.1 hp)
  added hs e he := by
    rw [hmap, List.mem_filter] at he
    exact (h.added hs e he.1).imp_right (Or.imp_right (hpeers e he.2))

/-- Peers are added. -/
theorem MapKept.grow (h : MapKept m map s) (hmap : t.wmu.map = s.wmu.map)
    (hpeers : ∀ p, s.mc.peers.has p = true → t.mc.peers.has p = true) : MapKept m map t :=
  h.filter (fun _ => true) (by simp [hmap]) (fun e _ => hpeers e.owner)

/-- An entry that fits is added, in SYNCING one of the station's own or of a peer. -/
theorem MapKept.insert (h : MapKept m map s) {e : MapEntry} (hfits : claimRefusedBy s.wmu.map e = false)
    (hmap : t.wmu.map = insertEntry e s.wmu.map) (hpeers : t.mc.peers = s.mc.peers)
    (hstayed : m.peers.has e.owner = true → s.mc.peers.has e.owner = true)
    (hadded : m.state = .syncing → e.owner = m.sid ∨ s.mc.peers.has e.owner = true) : MapKept m map t where
  laws hl := hmap ▸ (h.laws hl).insert hfits
  stayed x hx := by
    rw [hmap, mem_insertEntry] at hx
    rw [hpeers]
    rcases hx with rfl | hx
    · exact hstayed
    · exact h.stayed x hx
  added hs x hx := by
    rw [hmap, mem_insertEntry] at hx
    rw [hpeers]
    rcases hx with rfl | hx
    · exact Or.inr (hadded hs)
    · exact h.added hs x hx

/-- An addition adds the entry where it fits, and else nothing (log entry 13). -/
theorem MapKept.add (h : MapKept m map s) {e : MapEntry} (hmap : t.wmu.map = addEntry e s.wmu.map)
    (hpeers : t.mc.peers = s.mc.peers) (hstayed : m.peers.has e.owner = true → s.mc.peers.has e.owner = true)
    (hadded : m.state = .syncing → e.owner = m.sid ∨ s.mc.peers.has e.owner = true) : MapKept m map t := by
  rw [addEntry] at hmap
  split at hmap
  · exact h.frame (Prod.ext hmap hpeers)
  · next hf => exact h.insert (by simpa using hf) hmap hpeers hstayed hadded

/-! ### What leaves the map and the peer set -/

/-- The end of a command leaves the map and the peer set. -/
@[simp] theorem State.finish_mapAndPeers (r : CommandResult) (s : State) : (s.finish r).mapAndPeers = s.mapAndPeers := by
  simp [State.mapAndPeers]

/-- The leave test leaves the map and the peer set. -/
@[simp] theorem State.testLeave_mapAndPeers (s : State) : s.testLeave.mapAndPeers = s.mapAndPeers := by
  simp [State.mapAndPeers]

/-- The test of a FLUSH leaves the map and the peer set. -/
@[simp] theorem State.testFlush_mapAndPeers (s : State) : s.testFlush.mapAndPeers = s.mapAndPeers := by
  simp [State.mapAndPeers]

/-- What follows where the head may have gone leaves the map and the peer set. -/
@[simp] theorem State.afterHead_mapAndPeers (s : State) : s.afterHead.mapAndPeers = s.mapAndPeers :=
  s.prepareHead.testLeave_mapAndPeers

/-- What follows where an SQ record may have gone leaves the map and the peer set. -/
@[simp] theorem State.afterResponse_mapAndPeers (s : State) : s.afterResponse.mapAndPeers = s.mapAndPeers := by
  simp [State.afterResponse]

/-- The next claim leaves the map and the peer set. -/
@[simp] theorem State.nextClaim_mapAndPeers (s : State) : s.nextClaim.mapAndPeers = s.mapAndPeers := by
  obtain ⟨-, -, -, -, -, -, hmap, ⟨st, hmc⟩, -⟩ := s.nextClaim_frame
  simp [State.mapAndPeers, hmap, hmc]

/-- The repeated check of a CLAIM leaves the map and the peer set. -/
@[simp] theorem State.recheckClaim_mapAndPeers (s : State) : s.recheckClaim.mapAndPeers = s.mapAndPeers := by
  obtain ⟨-, -, -, -, -, -, hmap, ⟨st, hmc⟩⟩ := s.recheckClaim_frame
  simp [State.mapAndPeers, hmap, hmc]

/-- The test of the sync leaves the map and the peer set. -/
@[simp] theorem State.testSync_mapAndPeers (s : State) : s.testSync.mapAndPeers = s.mapAndPeers := by
  obtain ⟨-, -, -, -, -, hmap, st, x, hmc⟩ := s.testSync_frame
  simp [State.mapAndPeers, hmap, hmc]

/-- The entry into LEAVING leaves the map and the peer set. -/
@[simp] theorem State.enterLeaving_mapAndPeers (s : State) : s.enterLeaving.mapAndPeers = s.mapAndPeers :=
  State.testLeave_mapAndPeers _

/-- The return to HALTED leaves the map and the peer set. -/
@[simp] theorem State.leaveToHalted_mapAndPeers (s : State) : s.leaveToHalted.mapAndPeers = s.mapAndPeers :=
  State.finish_mapAndPeers _ _

/-- Changed counts leave the map and the peer set. -/
@[simp] theorem State.withCounts_mapAndPeers (src : Source) (c : Counts) (s : State) :
    (s.withCounts src c).mapAndPeers = s.mapAndPeers := by
  cases src <;> rfl

/-- A head given up leaves the map and the peer set. -/
@[simp] theorem State.giveUpHead_mapAndPeers (st : Status) (s : State) : (s.giveUpHead st).mapAndPeers = s.mapAndPeers := by
  rw [State.giveUpHead]
  split <;> rfl

/-! ### Changes of station state -/

/-- The entry into FAULTED empties the map. -/
theorem MapKept.fatal (k : FaultKind) (a : Option Station) (s : State) : MapKept m map (s.fatal k a) :=
  .of_empty (congrArg Wmu.map (State.finish_frame _ _).2.2.2.1)

/-- The entry into DETACHED empties the map. -/
theorem MapKept.enterDetached (s : State) : MapKept m map s.enterDetached := by
  refine .of_empty ?_
  simp only [State.enterDetached]
  split
  · rw [(State.finish_frame _ _).2.2.2.1]; rfl
  · rfl

/-- The entry into SYNCING adds the own number to the peers. -/
theorem MapKept.enterSyncing (h : MapKept m map s) : MapKept m map s.enterSyncing :=
  h.grow rfl (fun p hp => by simp [State.enterSyncing, hp])

/-- Sync completed alone empties the map. -/
theorem MapKept.completeAlone (s : State) : MapKept m map s.completeAlone :=
  .of_empty (State.completeSync_frame _).2.2.2.2.2.1

/-- The departure of a station takes its entries out of the map with it. -/
theorem MapKept.departure (h : MapKept m map s) (d : Station) (cause : DepartureCause) : MapKept m map (s.departure d cause) := by
  obtain ⟨hmc, hwmu, -⟩ := s.cleaned_fields d cause
  by_cases hd : d = s.mc.sid
  · rw [State.departure, if_pos hd]
    exact h
  · have hclean : MapKept m map (s.cleaned d cause) := by
      refine h.filter (fun e => e.owner != d) (by rw [hwmu]; rfl) (fun e he hp => ?_)
      have hne : d ≠ e.owner := fun e' => by simp [e'] at he
      rw [hmc, Mc.departure_eq]
      dsimp only
      split <;> simp [hp, hne]
    rw [State.departure_eq hd]
    exact hclean.frame (by simp)

/-! ### Own frames -/

/-- An abandoned frame leaves the map and the peer set, or empties the map. -/
theorem MapKept.abandon (h : MapKept m map s) (src : Source) : MapKept m map (s.abandon src) := by
  cases src with
  | sqHead =>
    simp only [State.abandon]
    split
    · exact h
    · exact h.frame (State.afterResponse_mapAndPeers _)
  | sync => exact .fatal _ _ _
  | bye => exact .enterDetached _
  | roster | evict d | release n => exact h.frame rfl
  | claim n =>
    simp only [State.abandon]
    split
    · exact h.frame rfl
    · exact h.frame (State.nextClaim_mapAndPeers _)
  | rqHead => exact h.frame (by simp [State.abandon])

/-- A voided frame: counted, or abandoned. -/
theorem MapKept.voidFrame (h : MapKept m map s) (src : Source) : MapKept m map (s.voidFrame src) := by
  rw [State.voidFrame]
  split
  · exact h
  · split
    · exact h.frame (State.withCounts_mapAndPeers _ _ _)
    · exact h.abandon _

/-- The eighth void by COLLIDED. -/
theorem MapKept.collideLimit (h : MapKept m map s) (src : Source) (c : Counts) : MapKept m map (s.collideLimit src c) := by
  have hbit : MapKept m map (s.abandonAtBit src) :=
    (MapKept.abandon (s := { s with lpu := { s.lpu with faults := [] } }) (h.frame rfl) src).frame rfl
  cases src with
  | sync | bye => exact h.frame rfl
  | rqHead => exact h.abandon .rqHead
  | sqHead | roster | evict d | release n | claim n => exact hbit

/-- A COLLIDED frame whose void count rises. -/
theorem MapKept.collideVoid (h : MapKept m map s) (src : Source) : MapKept m map (s.collideVoid src) := by
  rw [State.collideVoid]
  split
  · exact h
  · split
    · exact h.frame (State.withCounts_mapAndPeers _ _ _)
    · exact h.collideLimit _ _

/-- A LOST frame leaves the map and the peer set. -/
theorem State.lose_mapAndPeers (f : Flight) (s : State) : (s.lose f).mapAndPeers = s.mapAndPeers := by
  simp only [State.lose]
  split
  · rfl
  · split
    · split
      · exact State.leaveToHalted_mapAndPeers _
      · split
        · rfl
        · exact State.withCounts_mapAndPeers _ _ _
    · split
      · rfl
      · split
        · rfl
        · exact State.withCounts_mapAndPeers _ _ _
    · split
      · rfl
      · exact State.withCounts_mapAndPeers _ _ _

/-- A COLLIDED frame. -/
theorem MapKept.collide (h : MapKept m map s) (f : Flight) : MapKept m map (s.collide f) := by
  generalize hx : { s with tif := { s.tif with
    flight := none, collisions := s.tif.collisions + 1, collidedHere := true } } = x
  have h₁ : MapKept m map x := h.frame (hx ▸ rfl)
  simp only [State.collide, hx]
  split
  · exact .fatal _ _ _
  · split
    · exact h₁
    · split
      · split
        · exact h₁.frame (State.leaveToHalted_mapAndPeers _)
        · exact h₁.collideVoid _
      · split
        · exact h₁.frame rfl
        · exact h₁.collideVoid _
      · exact h₁.collideVoid _

/-- The own SYNC TAKEN. -/
theorem MapKept.syncTaken (h : MapKept m map s) (accept : Bool) : MapKept m map (s.syncTaken accept) := by
  rw [State.syncTaken]
  split
  · split
    · exact h.enterSyncing
    · exact .completeAlone _
  · split
    · exact h.frame rfl
    · exact .completeAlone _
  · exact h.frame rfl

/-- The outcome of the own SYNC. -/
theorem MapKept.syncEnds (h : MapKept m map s) (accept : Bool) (o : Outcome) : MapKept m map (s.syncEnds accept o) := by
  unfold State.syncEnds
  split
  · rw [State.waitedSyncEnds]
    split
    · exact h.enterSyncing.frame (State.enterLeaving_mapAndPeers _)
    · exact h.frame (State.leaveToHalted_mapAndPeers _)
  · cases o with
    | rejected => exact .fatal _ _ _
    | taken => exact h.syncTaken accept
    | lost | collided | voided | unanswered => exact h.voidFrame _

/-- The outcome of the own ROSTER. -/
theorem MapKept.rosterEnds (h : MapKept m map s) (o : Outcome) : MapKept m map (s.rosterEnds o) := by
  cases o with
  | taken => exact h.frame rfl
  | voided => exact h.voidFrame _
  | lost | collided | rejected | unanswered => exact h

/-- The outcome of the own CLAIM: TAKEN adds an entry of the station's own. -/
theorem MapKept.claimFrameEnds (s : State) (f : Flight) (o : Outcome) : MapKept s.mc s.wmu.map (s.claimFrameEnds f o) := by
  have hadd : ∀ (n : Slot) (t : State), t.mapAndPeers = (addEntry (s.ownWindow n) s.wmu.map, s.mc.peers) →
      MapKept s.mc s.wmu.map t := fun n t ht => by
    obtain ⟨hmap, hpeers⟩ := Prod.mk.inj ht
    exact (MapKept.refl s).add hmap hpeers id (fun _ => Or.inl rfl)
  have h := MapKept.refl s
  rw [State.claimFrameEnds]
  split
  · next n _ =>
    simp only [State.claimEnds]
    split
    · split
      · exact hadd n _ rfl
      · exact h.frame rfl
      · split
        · exact h.frame rfl
        · exact h.abandon _
    · split
      · exact hadd n _ (State.nextClaim_mapAndPeers _)
      · exact h.frame (State.nextClaim_mapAndPeers _)
      · exact h.voidFrame _
  · exact h

/-- The outcome of the own RELEASE: TAKEN removes the entry. -/
theorem MapKept.releaseFrameEnds (h : MapKept m map s) (f : Flight) (o : Outcome) :
    MapKept m map (s.releaseFrameEnds f o) := by
  have hremove : ∀ (n : Slot) (t : State),
      t.mapAndPeers = (removeEntry (s.ownWindow n).base s.mc.sid s.wmu.map, s.mc.peers) → MapKept m map t :=
    fun n t ht => by
      obtain ⟨hmap, hpeers⟩ := Prod.mk.inj ht
      exact h.filter _ hmap (fun e _ hp => hpeers ▸ hp)
  rw [State.releaseFrameEnds]
  split
  · next n _ =>
    cases o with
    | taken =>
      simp only [State.releaseEnds]
      split
      · exact hremove n _ rfl
      · exact hremove n _ (State.testLeave_mapAndPeers _)
    | voided =>
      simp only [State.releaseEnds]
      split
      · exact h
      · exact h.voidFrame _
    | lost | collided | rejected | unanswered => exact h
  · exact h

/-- The outcome of the own EVICT. -/
theorem MapKept.evictFrameEnds (h : MapKept m map s) (f : Flight) (o : Outcome) : MapKept m map (s.evictFrameEnds f o) := by
  rw [State.evictFrameEnds]
  split
  · cases o with
    | taken => exact h.departure _ _
    | rejected => exact h.frame rfl
    | voided => exact h.voidFrame _
    | lost | collided | unanswered => exact h
  · exact h

/-- The outcome of the own BYE. -/
theorem MapKept.byeEnds (h : MapKept m map s) (o : Outcome) : MapKept m map (s.byeEnds o) := by
  cases o with
  | taken => exact .enterDetached _
  | voided => exact h.voidFrame _
  | lost | collided | rejected | unanswered => exact h

/-- The report of an outcome leaves the map and the peer set. -/
theorem MapKept.reportOutcome (h : MapKept m map s) (p : Station) (o : Outcome) :
    MapKept m map { s with mc := s.mc.reportOutcome p o } :=
  h.frame (by simp [State.mapAndPeers])

/-- The outcome of the RQ head's frame. -/
theorem MapKept.requestEnds (h : MapKept m map s) (f : Flight) (o : Outcome) : MapKept m map (s.requestEnds f o) := by
  have h₁ := h.reportOutcome f.frame.dest o
  simp only [State.requestEnds]
  split
  · exact h₁
  · split
    · exact h₁.frame (State.afterHead_mapAndPeers _)
    · rw [State.headRejected]
      split
      · exact h₁
      · split
        · exact h₁.frame rfl
        · exact h₁.frame (by simp)
    · exact h₁.frame (by simp)
    · exact h₁.voidFrame _

/-- The outcome of the SQ head's frame. -/
theorem MapKept.responseEnds (h : MapKept m map s) (f : Flight) (o : Outcome) : MapKept m map (s.responseEnds f o) := by
  have h₁ := h.reportOutcome f.frame.dest o
  simp only [State.responseEnds]
  split
  · exact h₁
  · split
    · exact h₁.frame (State.afterResponse_mapAndPeers _)
    · exact h₁.frame (State.afterResponse_mapAndPeers _)
    · exact h₁.voidFrame _

/-- A moment of an own frame: its last check bit, which touches the receiver alone, or its outcome. -/
theorem MapKept.ownFrame (s : State) (src : Source → Bool) (moment : TxMoment) {ends : Slots → Flight → Outcome → State → State}
    (hends : ∀ levels f o, MapKept s.mc s.wmu.map (ends levels f o s.endFlight)) :
    MapKept s.mc s.wmu.map (s.ownFrame src moment ends) := by
  cases moment with
  | lastCheckBit =>
    obtain ⟨p, hp, -⟩ := s.ownLastCheckBit_frame src
    rw [State.ownFrame, hp]
    exact (MapKept.refl s).frame rfl
  | endOfTrailer levels =>
    simp only [State.ownFrame, State.atTrailer]
    split
    · exact .refl s
    · split
      · exact hends _ _ _
      · exact .refl s

/-! ### What is received -/

/-- The merge of a ROSTER's pairs adds entries of its source, a peer. -/
theorem MapKept.mergePairs (h : MapKept m map s) {d : Station} (hd : s.mc.peers.has d = true) (pairs : List (Word × Word)) :
    MapKept m map (mergePairs d pairs s) := by
  induction pairs generalizing s with
  | nil => exact h
  | cons p ps ih =>
    have hmc : (mergePair d s p).mc = s.mc := (mergePairs_frame d [p] s).2.2.1
    refine ih (s := mergePair d s p) ?_ (by rw [hmc]; exact hd)
    rcases mergePair_cases d s p with hp | hp | ⟨hfits, hp⟩
    · rw [hp]; exact h
    · rw [hp]; exact h.frame rfl
    · rw [hp]
      exact h.insert hfits rfl rfl (fun _ => hd) (fun _ => Or.inr hd)

/-- A taken ROSTER: its source joins the peers before its pairs are merged (R53, R76). -/
theorem MapKept.applyRoster (h : MapKept m map s) (src : Station) (w : Word) (ps : List (Word × Word)) :
    MapKept m map (s.applyRoster src w ps) := by
  rw [State.applyRoster]
  split
  · have hnoted : MapKept m map (s.noteRoster src w) := h.grow rfl (fun p hp => by simp [State.noteRoster, hp])
    exact (hnoted.mergePairs (by simp [State.noteRoster]) ps).frame (State.testSync_mapAndPeers _)
  · exact h

/-- Noting a claimant takes no peer away, and in SYNCING it makes the claimant a peer (R53). -/
theorem Mc.noteClaimant_peers (m : Mc) (c : Station) :
    (∀ p, m.peers.has p = true → (m.noteClaimant c).peers.has p = true) ∧
    (m.state = .syncing → (m.noteClaimant c).peers.has c = true) := by
  rw [Mc.noteClaimant]
  split
  · refine ⟨fun p hp => ?_, fun _ => ?_⟩ <;> simp [*]
  · next hc => exact ⟨fun _ => id, fun hs => by simpa [hs] using hc⟩

/-- A taken CLAIM adds an entry of the claimant, in SYNCING a peer (R53, R72). -/
theorem MapKept.applyClaim (s : State) (src : Station) (b d : Word) : MapKept s.mc s.wmu.map (s.applyClaim src b d) := by
  obtain ⟨hgrow, hknown⟩ := s.mc.noteClaimant_peers src
  have hnoted : MapKept s.mc s.wmu.map { s with mc := s.mc.noteClaimant src } := (MapKept.refl s).grow rfl hgrow
  have hadded : MapKept s.mc s.wmu.map { s with
      mc := s.mc.noteClaimant src
      wmu := { s.wmu with map := addEntry (pairEntry (b, d) src) s.wmu.map } } :=
    hnoted.add rfl rfl (hgrow src) (fun hs => Or.inr (hknown hs))
  exact hadded.frame (by simp [State.applyClaim])

/-- What a member applies from a taken frame. -/
theorem MapKept.applyAccepted (s : State) (r : Reception) (x : Message) (p : Option ServicePlan) :
    MapKept s.mc s.wmu.map (s.applyAccepted r x p) := by
  have h := MapKept.refl s
  rw [State.applyAccepted]
  split
  · exact h.departure _ _
  · exact h.applyRoster _ _ _
  · exact .applyClaim _ _ _ _
  · exact h.filter _ rfl (fun _ _ => id)
  · exact h.departure _ _
  · exact h.departure _ _
  · next b _ =>
    split
    · next plan _ =>
      refine h.frame ?_
      simp only [State.applyRequest, State.testFlush_mapAndPeers]
      split <;> rfl
    · exact h
  · rw [State.applyResponse]
    split
    · exact h.frame (State.afterHead_mapAndPeers _)
    · exact h.frame rfl
  · exact h.frame rfl

/-- The end of a trailer, by the verdict. -/
theorem MapKept.applyVerdict (s : State) (r : Reception) (taken : Bool) : MapKept s.mc s.wmu.map (s.applyVerdict r taken) := by
  have h := MapKept.refl s
  rw [State.applyVerdict]
  split
  · next x p _ =>
    split
    · obtain ⟨hlaws, hstayed, hadded⟩ := MapKept.applyAccepted (s.hear x.source) r x p
      exact ⟨hlaws, hstayed, hadded⟩
    · exact h.frame (State.testFlush_mapAndPeers _)
  · split
    · exact h.frame rfl
    · exact h
  · exact h
  · exact h

/-- What an abandoned own frame is owed leaves the map and the peer set, or empties the map. -/
theorem MapKept.finishSpent (h : MapKept m map s) : MapKept m map s.finishSpent := by
  rw [State.finishSpent]
  split
  · exact h
  · exact h.frame rfl
  · exact .fatal _ _ _
  · exact .enterDetached _

/-- What a step keeps: the laws of the map from every state, and what the owners' law turns on from a state that has the
control laws. -/
def State.KeepsMap (s t : State) : Prop :=
  (MapLaws s.wmu.map → MapLaws t.wmu.map) ∧ (ControlLaws s → MapKept s.mc s.wmu.map t)

/-- Most rows need no law of the state for either. -/
theorem MapKept.keepsMap (h : MapKept s.mc s.wmu.map t) : s.KeepsMap t := ⟨h.laws, fun _ => h⟩

/-- A row that leaves the map and the peer set. -/
theorem State.KeepsMap.of_frame (e : t.mapAndPeers = s.mapAndPeers) : s.KeepsMap t := ((MapKept.refl s).frame e).keepsMap

/-- The end of a trailer: the control laws rule out that it abandons an own frame and applies an accepted one. -/
theorem State.rxEnd_keepsMap (x : Heard) (others : Slots) (s : State) : s.KeepsMap (s.rxEnd x others) := by
  simp only [State.rxEnd]
  split
  · have hspent : MapKept s.mc s.wmu.map
        { s with tif := { s.tif with receiver := .unsynced, rx := none, collidedHere := false } }.finishSpent :=
      MapKept.finishSpent ((MapKept.refl s).frame rfl)
    split
    · exact hspent.keepsMap
    · next r hr =>
      refine ⟨fun hl => (MapKept.applyVerdict _ _ _).laws (hspent.laws hl), fun hc => ?_⟩
      by_cases hn : s.tif.spent = none
      · rw [State.finishSpent_of_none (by exact hn)]
        exact MapKept.applyVerdict
          { s with tif := { s.tif with receiver := .unsynced, rx := none, collidedHere := false } } r _
      · have hv : r.verdict = .malformed := hc.collided (hc.spent (Option.isSome_iff_ne_none.2 hn)).2.1 r hr
        rw [State.applyVerdict, hv]
        exact hspent
  · exact (MapKept.refl s).keepsMap

/-- The last check bit touches the TIF alone. -/
theorem State.rxDecide_eq (x : Heard) (s : State) : s.rxDecide x = { s with tif := (s.rxDecide x).tif } := by
  rw [State.rxDecide]
  split <;> rfl

/-- A reception, at each of its moments. -/
theorem State.receive_keepsMap (x : Heard) (moment : RxMoment) (s : State) : s.KeepsMap (s.receive x moment) := by
  cases moment with
  | startBit => exact .of_frame rfl
  | lastCheckBit =>
    rw [State.receive, State.rxDecide_eq]
    exact .of_frame rfl
  | slotSampled slot =>
    rw [State.receive, State.rxSlot]
    split
    · exact .of_frame rfl
    · exact .of_frame rfl
  | endOfTrailer others => exact s.rxEnd_keepsMap x others
  | whole others =>
    have hwhole := State.rxEnd_keepsMap x others (s.rxStart.rxDecide x)
    rw [State.rxDecide_eq x s.rxStart] at hwhole
    obtain ⟨hlaws, howners⟩ := hwhole
    rw [State.receive, State.rxDecide_eq x s.rxStart]
    refine ⟨hlaws, fun hc => howners ?_⟩
    rw [← State.rxDecide_eq]
    exact hc.rxStart.rxDecide x

/-- Sampled bits received. -/
theorem State.receiveBits_keepsMap (bits : List Bool) (periods : List Nat) (moment : RxMoment) (s : State) :
    s.KeepsMap (s.receiveBits bits periods moment) := by
  unfold State.receiveBits
  split
  · exact s.receive_keepsMap _ _
  · exact .of_frame rfl
  · exact .of_frame rfl
  · exact .of_frame rfl

/-- An idle report. -/
theorem MapKept.idleObserved (h : MapKept m map s) : MapKept m map s.idleObserved := by
  simp only [State.idleObserved]
  split
  · split
    · exact h.frame rfl
    · exact MapKept.finishSpent (h.frame (State.testFlush_mapAndPeers _))
  · exact h

/-! ### The local port and the timers -/

/-- The frame a station begins leaves the map and the peer set. -/
theorem State.begin_mapAndPeers (s : State) : s.begin.mapAndPeers = s.mapAndPeers := by
  rw [State.begin]
  split
  · split
    · rfl
    · split <;> rfl
  · rfl

/-- A command write, by its treatment. -/
theorem MapKept.takeCommand (h : MapKept m map s) (c : Command) {effect : State → State} (he : MapKept m map (effect s)) :
    MapKept m map (s.takeCommand c effect) := by
  rw [State.takeCommand]
  split
  · exact h.frame rfl
  · exact h.frame rfl
  · exact he

/-- A JOIN. -/
theorem MapKept.join (h : MapKept m map s) : MapKept m map s.join := by
  refine h.takeCommand _ ?_
  simp only [State.joinAccepted]
  split
  · exact h.frame (State.finish_mapAndPeers _ _)
  · split
    · exact h.frame (State.finish_mapAndPeers _ _)
    · exact h.frame rfl

/-- A LEAVE. -/
theorem MapKept.leave (h : MapKept m map s) : MapKept m map s.leave := by
  have h₁ : MapKept m map ((s.finish .aborted).accept .leave) := h.frame (State.finish_mapAndPeers _ _)
  refine h.takeCommand _ ?_
  simp only [State.leaveAccepted]
  split
  · exact h₁.frame (State.leaveToHalted_mapAndPeers _)
  · split
    · exact h₁.frame (State.leaveToHalted_mapAndPeers _)
    · exact h₁
  · exact h₁.frame (State.enterLeaving_mapAndPeers _)

/-- A FLUSH. -/
theorem MapKept.flush (h : MapKept m map s) : MapKept m map s.flush :=
  h.takeCommand _ (h.frame (State.testFlush_mapAndPeers _))

/-- A RESTART empties the map. -/
theorem MapKept.restart (h : MapKept m map s) : MapKept m map s.restart :=
  h.takeCommand _ (.of_empty (congrArg Wmu.map (State.finish_frame _ _).2.2.2.1))

/-- The pushes leave the map and the peer set. -/
theorem State.pushes_mapAndPeers (s : State) :
    s.rqPush.mapAndPeers = s.mapAndPeers ∧ s.sqPush.mapAndPeers = s.mapAndPeers := by
  refine ⟨?_, ?_⟩
  · rw [State.rqPush]
    split
    · rfl
    · split
      · rfl
      · split
        · rfl
        · split
          · rfl
          · split <;> rfl
  · simp only [State.sqPush]
    split
    · rfl
    · split
      · rfl
      · split
        · rfl
        · split
          · exact State.testLeave_mapAndPeers _
          · rfl

/-- The pops and a Setup write leave the map and the peer set. -/
theorem State.pops_mapAndPeers (s : State) :
    s.cqPop.mapAndPeers = s.mapAndPeers ∧ s.iqPop.mapAndPeers = s.mapAndPeers ∧
    s.nqPop.mapAndPeers = s.mapAndPeers ∧ s.faultPop.mapAndPeers = s.mapAndPeers ∧
    ∀ i v, (s.setupWrite i v).mapAndPeers = s.mapAndPeers := by
  refine ⟨?_, ?_, ?_, ?_, fun i v => ?_⟩
  · rw [State.cqPop]
    split
    · rfl
    · exact State.afterHead_mapAndPeers _
  · rw [State.iqPop]; split <;> rfl
  · rw [State.nqPop]; split <;> rfl
  · rw [State.faultPop]; split <;> rfl
  · rw [State.setupWrite]; split <;> rfl

/-- A write access, word by word. -/
theorem MapKept.registerWrite (h : MapKept m map s) (a : BitVec 10) (v : Word) (readStrobe : Bool) :
    MapKept m map (s.registerWrite a v readStrobe) := by
  obtain ⟨hrq, hsq⟩ := s.pushes_mapAndPeers
  obtain ⟨hcq, hiq, hnq, hfault, hsetup⟩ := s.pops_mapAndPeers
  rw [State.registerWrite]
  split
  · exact h
  · cases portWord a with
    | view _ | unassigned => exact h
    | cause | mask | severityEnable | rqStage i | sqStage i => exact h.frame rfl
    | command =>
      simp only [State.writeWord, State.commandWrite]
      split
      · exact h.join
      · split
        · exact h.leave
        · split
          · exact h.flush
          · split
            · exact h.restart
            · exact h
    | setup i => exact h.frame (hsetup i v)
    | rqPush => exact h.frame hrq
    | sqPush => exact h.frame hsq
    | cqPop => exact h.frame hcq
    | iqPop => exact h.frame hiq
    | nqPop => exact h.frame hnq
    | faultPop => exact h.frame hfault

/-- The timers of the RQ head and of the tags leave the map and the peer set. -/
theorem State.requestTimers_mapAndPeers (s : State) :
    s.holdoffExpires.mapAndPeers = s.mapAndPeers ∧
    (∀ tag, (s.responseTimerExpires tag).mapAndPeers = s.mapAndPeers) ∧
    ∀ tag, (s.quarantineExpires tag).mapAndPeers = s.mapAndPeers := by
  refine ⟨?_, fun tag => ?_, fun tag => ?_⟩
  · rw [State.holdoffExpires]
    split <;> rfl
  · rw [State.responseTimerExpires]
    split
    · exact State.testLeave_mapAndPeers _
    · rfl
  · rw [State.quarantineExpires]
    split
    · exact State.afterHead_mapAndPeers _
    · rfl

/-- A settle expiry: the third empties the map. -/
theorem MapKept.settleExpires (h : MapKept m map s) : MapKept m map s.settleExpires := by
  rw [State.settleExpires]
  split
  · split
    · refine h.frame ?_
      rw [Mc.settleAgain]
      split <;> rfl
    · exact .fatal _ _ _
  · exact h

/-- The leave deadline leaves the map and the peer set. -/
theorem State.leaveDeadlineExpires_mapAndPeers (s : State) : s.leaveDeadlineExpires.mapAndPeers = s.mapAndPeers := by
  rw [State.leaveDeadlineExpires]
  split
  · exact State.finish_mapAndPeers _ _
  · rfl

/-! ### The step -/

/-- A row that acts while RESET_N is released keeps what its effect keeps. -/
theorem State.KeepsMap.released {effect : State → State} (ht : released effect s = .next t) (he : s.KeepsMap (effect s)) :
    s.KeepsMap t := by
  simp only [Machine.released, Host.Outcome.next.injEq] at ht
  split at ht
  · exact ht ▸ .of_frame rfl
  · exact ht ▸ he

/-- Every command keeps the map. -/
theorem exec_keepsMap {c : Instr} (ht : exec c s = .next t) : s.KeepsMap t := by
  have h := MapKept.refl s
  have hend : MapKept s.mc s.wmu.map s.endFlight := h.frame rfl
  obtain ⟨hrq, hsq⟩ := s.pushes_mapAndPeers
  obtain ⟨hcq, hiq, hnq, hfault, hsetup⟩ := s.pops_mapAndPeers
  obtain ⟨hholdoff, hresponse, hquarantine⟩ := s.requestTimers_mapAndPeers
  cases c with
  | resetNAsserted | resetNReleased sid rate =>
    obtain rfl := Host.Outcome.next.inj ht
    exact (MapKept.of_empty rfl).keepsMap
  | join => exact .released ht h.join.keepsMap
  | leave => exact .released ht h.leave.keepsMap
  | flush => exact .released ht h.flush.keepsMap
  | restart => exact .released ht h.restart.keepsMap
  | rqPush => exact .released ht (.of_frame hrq)
  | sqPush => exact .released ht (.of_frame hsq)
  | cqPop => exact .released ht (.of_frame hcq)
  | iqPop => exact .released ht (.of_frame hiq)
  | nqPop => exact .released ht (.of_frame hnq)
  | faultPop => exact .released ht (.of_frame hfault)
  | setupWrite i v => exact .released ht (.of_frame (hsetup i v))
  | causeWrite v | maskWrite v | severityEnableWrite v => exact .released ht (.of_frame rfl)
  | registerWrite a v r => exact .released ht (h.registerWrite a v r).keepsMap
  | trunkIdleObserved => exact .released ht h.idleObserved.keepsMap
  | beginningAFrame => exact .released ht (.of_frame s.begin_mapAndPeers)
  | lost bit =>
    refine .released ht (MapKept.keepsMap ?_)
    simp only [State.lostAt]
    split
    · exact h
    · split
      · exact h.frame (State.lose_mapAndPeers _ s)
      · exact h
  | collided bit =>
    refine .released ht (MapKept.keepsMap ?_)
    simp only [State.collidedAt]
    split
    · exact h
    · split
      · exact h.collide _
      · exact h
  | syncOutcome x =>
    exact .released ht (MapKept.ownFrame s _ x (fun levels _ o => hend.syncEnds levels.accept o)).keepsMap
  | rosterOutcome x => exact .released ht (MapKept.ownFrame s _ x (fun _ _ o => hend.rosterEnds o)).keepsMap
  | claimOutcome x =>
    exact .released ht (MapKept.ownFrame s _ x (fun _ f o => MapKept.claimFrameEnds s.endFlight f o)).keepsMap
  | releaseOutcome x =>
    exact .released ht (MapKept.ownFrame s _ x (fun _ f o => hend.releaseFrameEnds f o)).keepsMap
  | evictOutcome x => exact .released ht (MapKept.ownFrame s _ x (fun _ f o => hend.evictFrameEnds f o)).keepsMap
  | byeOutcome x => exact .released ht (MapKept.ownFrame s _ x (fun _ _ o => hend.byeEnds o)).keepsMap
  | requestFrameOutcome x =>
    exact .released ht (MapKept.ownFrame s _ x (fun _ f o => hend.requestEnds f o)).keepsMap
  | responseFrameOutcome x =>
    exact .released ht (MapKept.ownFrame s _ x (fun _ f o => hend.responseEnds f o)).keepsMap
  | malformedFrame bits periods x => exact .released ht (s.receiveBits_keepsMap bits periods x)
  | syncReceived p x | rosterReceived p w ps x | claimReceived p b d x | releaseReceived p b x | evictReceived p w x
  | byeReceived p x | requestReceived p g b x | responseReceived p g b x | signalReceived p b v x
  | frameForAnotherStation p d u x => exact .released ht (s.receive_keepsMap _ x)
  | headPreparation => exact .released ht (.of_frame s.afterHead_mapAndPeers)
  | holdoffExpiry => exact .released ht (.of_frame hholdoff)
  | responseTimerExpiry tag => exact .released ht (.of_frame (hresponse tag))
  | quarantineExpiry tag => exact .released ht (.of_frame (hquarantine tag))
  | settleTimerExpiry => exact .released ht h.settleExpires.keepsMap
  | leaveDeadlineExpiry => exact .released ht (.of_frame s.leaveDeadlineExpires_mapAndPeers)
  | burstNotAFrame => exact .released ht (.of_frame rfl)

/-- Every step keeps the map: the queue of commands has no part in it. -/
theorem step_keepsMap (ht : step s = .next t) : s.KeepsMap t := by
  rw [step] at ht
  split at ht
  · exact Host.Outcome.next.inj ht ▸ .of_frame rfl
  · obtain ⟨hlaws, howners⟩ := exec_keepsMap ht
    exact ⟨hlaws, fun hc => howners (hc.with_pending _)⟩

/-- The owners stay peers: each was one or is new, and a new one is the station's own or of a peer. -/
theorem MapKept.ownersPresent (h : MapKept s.mc s.wmu.map t) (hm : MembershipLaws s.mc) (ho : s.ownersPresent)
    (hnew : s.mc.state = .syncing ∨ ∀ e ∈ t.wmu.map, e ∈ s.wmu.map ∨ s.mc.peers.has e.owner = true) : t.ownersPresent := by
  intro e he
  rcases hnew with hs | hnew
  · rcases h.added hs e he with hold | hown | hpeer
    · exact h.stayed e he (ho e hold)
    · refine h.stayed e he ?_
      rw [hown, hm.own, hs]
      rfl
    · exact hpeer
  · exact h.stayed e he ((hnew e he).elim (ho e) id)

end

/-- Settles O56: both laws by what every step keeps of the map and the peer set. -/
theorem mapLawsKept : Obligations.MapLawsKept :=
  ⟨fun _ _ ht => (step_keepsMap ht).1, fun _ _ ht hm hc ho hnew => ((step_keepsMap ht).2 hc).ownersPresent hm ho hnew⟩

end Sys2Proof.Machine
end

section
/-! PROOF. The route lookup and the ownership check: no two entries of a lawful map hold one address, so that the entry that holds
a range is the one found. -/

namespace Sys2Proof.Machine

/-- The entry holds the range, byte by byte. -/
theorem MapEntry.covers_iff (e : MapEntry) (low bytes : Nat) :
    e.covers low bytes = true ↔ e.base.toNat ≤ low ∧ low + bytes ≤ e.base.toNat + 4096 * 2 ^ e.size.toNat := by
  simp only [MapEntry.covers, Bool.and_eq_true, decide_eq_true_eq]
  rfl

/-- Entries that hold the same range overlap, unless it is empty. -/
theorem MapEntry.overlaps_of_covers {a b : MapEntry} {low bytes : Nat} (hpos : 0 < bytes) (ha : a.covers low bytes = true)
    (hb : b.covers low bytes = true) : a.overlaps b = true := by
  simp only [MapEntry.covers, Bool.and_eq_true, decide_eq_true_eq] at ha hb
  simp only [MapEntry.overlaps, rangesOverlap, Bool.and_eq_true, decide_eq_true_eq]
  omega

/-- At most one entry of a lawful map holds a range (R65). -/
theorem MapLaws.covers_unique {map : List MapEntry} (h : MapLaws map) {low bytes : Nat} (hpos : 0 < bytes) {a b : MapEntry}
    (ha : a ∈ map) (hb : b ∈ map) (hca : a.covers low bytes = true) (hcb : b.covers low bytes = true) : a = b := by
  by_contra hne
  have : Std.Symm (fun a b : MapEntry => a.overlaps b = false) := ⟨fun a b hab => by rwa [MapEntry.overlaps_comm]⟩
  have hapart : a.overlaps b = false := h.disjoint.forall ha hb hne
  rw [MapEntry.overlaps_of_covers hpos hca hcb] at hapart
  cases hapart

/-- A search for the entry that holds a range and has p finds the one that does. -/
theorem MapLaws.find?_covers {map : List MapEntry} (h : MapLaws map) {low bytes : Nat} (hpos : 0 < bytes)
    (p : MapEntry → Bool) {e : MapEntry} (he : e ∈ map) (hp : p e = true) (hc : e.covers low bytes = true) :
    map.find? (fun x => p x && x.covers low bytes) = some e := by
  cases hfound : map.find? (fun x => p x && x.covers low bytes) with
  | none => exact absurd (List.find?_eq_none.1 hfound e he) (by simp [hp, hc])
  | some x =>
    have hx := List.find?_some hfound
    rw [Bool.and_eq_true] at hx
    rw [h.covers_unique hpos (List.mem_of_find?_eq_some hfound) he hx.2 hc]

/-- A range that lies within no entry, or runs past the address space, is routed nowhere (R78). -/
theorem routeLookup_none {map : List MapEntry} (sid : Station) {a : Word} {n : Nat}
    (h : a.toNat + 4 * n ≤ addressSpace → ∀ e ∈ map, e.covers a.toNat (4 * n) = false) : routeLookup map sid a n = .none := by
  rw [routeLookup]
  split
  · next hspace => rw [List.find?_eq_none.2 (fun e he => by simp [h hspace e he])]
  · rfl

/-- A range within an entry is routed to its owner (R78). -/
theorem routeLookup_some {map : List MapEntry} (hl : MapLaws map) (sid : Station) {a : Word} {n : Nat} (hn : 1 ≤ n)
    {e : MapEntry} (he : e ∈ map) (hspace : a.toNat + 4 * n ≤ addressSpace) (hc : e.covers a.toNat (4 * n) = true) :
    routeLookup map sid a n = if e.owner = sid then .self else .owner e.owner := by
  have hfound : map.find? (fun x => x.covers a.toNat (4 * n)) = some e := by
    simpa using hl.find?_covers (by omega) (fun _ => true) he rfl hc
  rw [routeLookup, if_pos hspace, hfound]

/-- A request for a range within no active own entry is not the station's to serve (R79). -/
theorem State.ownership_notOwner {s : State} {b : RequestBody}
    (h : (requestAddress b).toNat + 4 * requestLength b ≤ addressSpace → ∀ e ∈ s.wmu.map, s.activeOwn e = true →
      e.covers (requestAddress b).toNat (4 * requestLength b) = false) : s.ownership b = .notOwner := by
  simp only [State.ownership]
  split
  · next hspace =>
    have hnone : s.wmu.map.find? (fun e => s.activeOwn e &&
        e.covers (requestAddress b).toNat (4 * requestLength b)) = none :=
      List.find?_eq_none.2 (fun e he => by
        rw [Bool.and_eq_true]
        rintro ⟨ha, hc⟩
        rw [h hspace e he ha] at hc
        cases hc)
    rw [hnone]
  · rfl

/-- A request for a range within an active own entry is served, a write where the window is WRITABLE (R79). -/
theorem State.ownership_own {s : State} {b : RequestBody} (hl : MapLaws s.wmu.map) (hb : 1 ≤ requestLength b)
    {e : MapEntry} (he : e ∈ s.wmu.map) (ha : s.activeOwn e = true)
    (hspace : (requestAddress b).toNat + 4 * requestLength b ≤ addressSpace)
    (hc : e.covers (requestAddress b).toNat (4 * requestLength b) = true) :
    (∀ x l, b = .read x l → s.ownership b = .serve) ∧
    (∀ x ds, b = .write x ds ∨ b = .cwrite x ds → s.ownership b = if e.writable then .serve else .readOnly) := by
  have hfound := hl.find?_covers (by omega) s.activeOwn he ha hc
  refine ⟨?_, ?_⟩
  · rintro x l rfl
    simp only [State.ownership, if_pos hspace, hfound]
  · rintro x ds (rfl | rfl) <;> simp only [State.ownership, if_pos hspace, hfound]

/-- Settles O51: the lookup finds the entry that holds the range, the check the active own one. -/
theorem routeAndOwnership : Obligations.RouteAndOwnership := by
  refine ⟨fun map sid a n hl hn => ?_, fun s b hl hb => ?_⟩
  · intro within
    have hwithin : ∀ e, within e ↔ a.toNat + 4 * n ≤ addressSpace ∧ e.covers a.toNat (4 * n) = true := fun e => by
      rw [MapEntry.covers_iff]
      exact ⟨fun ⟨hlow, hhigh, hspace⟩ => ⟨hspace, hlow, hhigh⟩, fun ⟨hspace, hlow, hhigh⟩ => ⟨hlow, hhigh, hspace⟩⟩
    refine ⟨fun hnone => ?_, fun e he hw => ?_⟩
    · exact routeLookup_none sid (fun hspace e he => by
        rw [← Bool.not_eq_true]
        exact fun hc => hnone e he ((hwithin e).2 ⟨hspace, hc⟩))
    · obtain ⟨hspace, hc⟩ := (hwithin e).1 hw
      exact routeLookup_some hl sid hn he hspace hc
  · intro a bytes own
    have hown : ∀ e, own e ↔
        e ∈ s.wmu.map ∧ s.activeOwn e = true ∧ a + bytes ≤ addressSpace ∧ e.covers a bytes = true := fun e => by
      rw [MapEntry.covers_iff, State.activeOwn_iff]
      exact ⟨fun ⟨he, ho, ⟨n, hr, hbase⟩, hlow, hhigh, hspace⟩ => ⟨he, ⟨ho, n, hbase, hr⟩, hspace, hlow, hhigh⟩,
        fun ⟨he, ⟨ho, n, hbase, hr⟩, hspace, hlow, hhigh⟩ => ⟨he, ho, ⟨n, hr, hbase⟩, hlow, hhigh, hspace⟩⟩
    refine ⟨fun hnone => ?_, fun e he => ?_⟩
    · exact State.ownership_notOwner (fun hspace e he ha => by
        rw [← Bool.not_eq_true]
        exact fun hc => hnone e ((hown e).2 ⟨he, ha, hspace, hc⟩))
    · obtain ⟨he, ha, hspace, hc⟩ := (hown e).1 he
      exact State.ownership_own hl hb he ha hspace hc

end Sys2Proof.Machine
end

section
/-! PROOF. The own CLAIM taken and rejected: the claims go on alike whatever its record becomes, as it is not WANTED any more. -/

namespace Sys2Proof

/-- Writes to two cells of a bank commute. -/
theorem Bank.put_comm {w : Nat} {α : Type} (b : Bank w α) {i j : BitVec w} (h : i ≠ j) (x y : α) :
    (b.put i x).put j y = (b.put j y).put i x := by
  apply Bank.ext_at
  intro k
  by_cases hi : i = k
  · subst hi
    rw [Bank.at_put_ne _ _ (Ne.symm h), Bank.at_put_same, Bank.at_put_same]
  · simp only [Bank.at_put, if_neg hi]

namespace Machine

/-- The entry into JOINED does not depend on the own-window records. -/
theorem State.enterJoined_wmu (s : State) (w : Wmu) : State.enterJoined { s with wmu := w } = { s.enterJoined with wmu := w } := by
  by_cases hs : s.mc.state = .claiming
  · by_cases hr : s.lpu.running = some .join
    · rw [State.enterJoined_of_join hs hr, State.enterJoined_of_join (by exact hs) (by exact hr)]
    · simp only [State.enterJoined, if_pos hs, State.enter_mc_lpu, if_neg hr]
      rfl
  · simp [State.enterJoined, hs]

/-- Claiming passes over a record that is not WANTED, whatever its state. -/
theorem State.claimFrom_setRecord (l : List Slot) {s : State} {n : Slot} {a : WindowState} (ha : a ≠ .wanted)
    (hn : (s.wmu.own.at n).state ≠ .wanted) :
    State.claimFrom l { s with wmu := s.wmu.setRecord n a } =
      { State.claimFrom l s with wmu := (State.claimFrom l s).wmu.setRecord n a } := by
  induction l generalizing s with
  | nil =>
    rw [State.claimFrom, State.claimFrom, State.enterJoined_wmu, (State.enterJoined_frame s).2.2.1]
  | cons k ks ih =>
    by_cases hk : n = k
    · subst hk
      rw [State.claimFrom, State.claimFrom, if_neg hn, if_neg (by simpa [Wmu.setRecord] using ha), ih hn]
    · have hat : (s.wmu.setRecord n a).own.at k = s.wmu.own.at k := Bank.at_put_ne _ _ hk
      rw [State.claimFrom, State.claimFrom, hat]
      split
      · split
        · next hf => rw [if_pos (by exact hf)]; rfl
        · next hf =>
          have hrefuse : State.refuseClaim k { s with wmu := s.wmu.setRecord n a } =
              { s.refuseClaim k with wmu := (s.refuseClaim k).wmu.setRecord n a } := by
            simp only [State.refuseClaim, State.fault, Wmu.setRecord, Bank.put_comm _ hk]
            rfl
          rw [if_neg (by exact hf), hrefuse, ih]
          rw [(State.refuseClaim_frame k s).2.2.2.2.2.2.2.2.2.1, Bank.at_put_ne _ _ (Ne.symm hk)]
          exact hn
      · exact ih hn

/-- What is said of the claims that go on does not speak of the record whose CLAIM ended. -/
theorem State.claimsOn_setRecord {s t : State} {n : Slot} {map : List MapEntry} {faults : List FaultRecord}
    (h : s.claimsOn n map faults t) (a : WindowState) :
    s.claimsOn n map faults { t with wmu := t.wmu.setRecord n a } := by
  have hother : ∀ m, m ≠ n → (t.wmu.setRecord n a).own.at m = t.wmu.own.at m :=
    fun m hm => Bank.at_put_ne _ _ (Ne.symm hm)
  obtain ⟨hnext, hkeep, hjoined⟩ := h
  refine ⟨fun m hm hwanted hfirst => ?_, fun m hm hw => ?_, hjoined⟩
  · obtain ⟨hfits, hrefused⟩ := hnext m hm hwanted hfirst
    refine ⟨fun hf => ?_, fun hf => ?_⟩
    · rw [hother m hm]
      exact hfits hf
    · rw [hother m hm]
      exact hrefused hf
  · rw [hother m hm]
    exact hkeep m hm hw

/-- The claims after the own CLAIM of record n has ended in CLAIMING with the record in a state that is not WANTED, with the map
and the Fault List as its end leaves them. -/
theorem State.nextClaim_ended {s x : State} {n : Slot} {a : WindowState} {faults : List FaultRecord} (hs : s.mc.state = .claiming)
    (ha : a ≠ .wanted) (hmc : x.mc = s.mc) (hown : x.wmu.own = s.wmu.own.put n ⟨a, none⟩)
    (hlpu : x.lpu = { s.lpu with faults := faults }) :
    x.nextClaim.tif = x.tif ∧ x.nextClaim.ore = x.ore ∧ x.nextClaim.isu = x.isu ∧ x.nextClaim.wmu.map = x.wmu.map ∧
    x.nextClaim.wmu.own.at n = ⟨a, none⟩ ∧ s.claimsOn n x.wmu.map faults x.nextClaim := by
  obtain ⟨-, htif, hore, hisu, -, -, hmap, -, hkept⟩ := x.nextClaim_frame
  have hat : x.wmu.own.at n = ⟨a, none⟩ := by rw [hown, Bank.at_put_same]
  let y : State := { x with wmu := x.wmu.setRecord n .refused }
  have hyown : y.wmu.own = s.wmu.own.put n ⟨.refused, none⟩ := by simp [y, Wmu.setRecord, hown]
  have hback : { y with wmu := y.wmu.setRecord n a } = x := by
    simp only [y, Wmu.setRecord, Bank.put_put, ← hat, Bank.put_at]
  have hclaims : s.claimsOn n x.wmu.map faults y.nextClaim :=
    State.nextClaim_claimsOn (x := y) hs hmc hyown hlpu
  have hnext : x.nextClaim = { y.nextClaim with wmu := y.nextClaim.wmu.setRecord n a } := by
    have hset := State.claimFrom_setRecord (Bank.indices 2) (s := { y with wmu := { y.wmu with claim := none } }) (n := n) ha
      (by simp [y, Wmu.setRecord])
    rw [← hback]
    exact hset
  refine ⟨htif, hore, hisu, hmap, ?_, ?_⟩
  · rw [hkept n (by rw [hat]; exact ha), hat]
  · rw [hnext]
    exact State.claimsOn_setRecord hclaims a

/-- Settles O29: TAKEN and REJECTED, in CLAIMING and in LEAVING. -/
theorem claimOutcome : Obligations.ClaimOutcome := by
  intro s n f levels hsends hdest entry refused
  have htaken : levels.clear → exec (.claimOutcome (.endOfTrailer levels)) s = .next (s.endFlight.claimEnds n .taken) :=
    fun hclear => by rw [exec_claimOutcome hsends, outcomeOf_taken hclear (Or.inr hdest)]
  have hrejected : levels.error = false → levels.reject = true →
      exec (.claimOutcome (.endOfTrailer levels)) s = .next (s.endFlight.claimEnds n .rejected) :=
    fun he hr => by rw [exec_claimOutcome hsends, outcomeOf_reject he hr]
  refine ⟨fun hs hclear hfits => ?_, fun hs he hr => ?_, fun hs hclear hfits => ?_, fun hs he hr => ?_⟩
  · have hends : s.endFlight.claimEnds n .taken = State.nextClaim { s.endFlight with
        wmu := { s.wmu.setRecord n .held with map := insertEntry entry s.wmu.map } } := by
      have hne : s.endFlight.mc.state ≠ .leaving := by simp [hs]
      simp only [State.claimEnds, if_neg hne, ← addEntry_of_fits hfits]
      rfl
    exact ⟨_, (htaken hclear).trans (congrArg _ hends), State.nextClaim_ended hs (by decide) rfl rfl rfl⟩
  · have hends : s.endFlight.claimEnds n .rejected = (s.endFlight.refuseClaim n).nextClaim := by
      have hne : s.endFlight.mc.state ≠ .leaving := by simp [hs]
      simp only [State.claimEnds, if_neg hne]
    exact ⟨_, (hrejected he hr).trans (congrArg _ hends), State.nextClaim_ended hs (by decide) rfl rfl rfl⟩
  · rw [htaken hclear]
    have hl : s.endFlight.mc.state = .leaving := hs
    simp only [State.claimEnds, if_pos hl, ← addEntry_of_fits hfits]
    rfl
  · rw [hrejected he hr]
    have hl : s.endFlight.mc.state = .leaving := hs
    simp only [State.claimEnds, if_pos hl]
    rfl

end Machine

end Sys2Proof
end

section
/-! PROOF. What the local port returns: the word each number selects, the fields each packed word shows, and the views. -/

namespace Sys2Proof

/-- How many stations are in the set, counted number by number. -/
theorem StationSet.card_eq (s : StationSet) :
    StationSet.card s = (List.range 32).countP (fun n => StationSet.has s (BitVec.ofNat 5 n)) := by
  rw [StationSet.card, StationSet.toList, ← List.countP_eq_length_filter, Bank.indices, List.countP_map]
  rfl

namespace Machine

/-! ### The word a number selects (R174) -/

/-- The unassigned words. -/
theorem portWordAt_unassigned {n : Nat} (h : 10 ≤ n ∧ n < 16 ∨ 26 ≤ n ∧ n < 64 ∨ 83 ≤ n ∧ n < 128 ∨ 147 ≤ n ∧ n < 160 ∨
    179 ≤ n ∧ n < 192 ∨ 195 ≤ n ∧ n < 224 ∨ 242 ≤ n ∧ n < 256 ∨ 260 ≤ n ∧ n < 512 ∨ 640 ≤ n ∧ n < 1024) :
    portWordAt n = .unassigned := by
  rw [portWordAt]
  simp (disch := omega) only [if_neg, dif_neg]

/-- The Setup words. -/
theorem portWordAt_setup (i : Fin 9) : portWordAt (16 + i.val) = .setup i := by
  rw [portWordAt]
  simp (disch := omega) only [if_neg, dif_pos, Nat.add_sub_cancel_left]

/-- The RQ staging words. -/
theorem portWordAt_rqStage (i : Fin 18) : portWordAt (64 + i.val) = .rqStage i := by
  rw [portWordAt]
  simp (disch := omega) only [if_neg, dif_neg, dif_pos, Nat.add_sub_cancel_left]

/-- The SQ staging words. -/
theorem portWordAt_sqStage (i : Fin 17) : portWordAt (224 + i.val) = .sqStage i := by
  rw [portWordAt]
  simp (disch := omega) only [if_neg, dif_neg, dif_pos, Nat.add_sub_cancel_left]

/-- The words of the CQ head view. -/
theorem portWordAt_cqHead (i : Fin 18) : portWordAt (128 + i.val) = .view (.cqHead i) := by
  rw [portWordAt]
  simp (disch := omega) only [if_neg, dif_neg, dif_pos, Nat.add_sub_cancel_left]

/-- The words of the IQ head view. -/
theorem portWordAt_iqHead (i : Fin 18) : portWordAt (160 + i.val) = .view (.iqHead i) := by
  rw [portWordAt]
  simp (disch := omega) only [if_neg, dif_neg, dif_pos, Nat.add_sub_cancel_left]

/-- The two words of an entry of the map view. -/
theorem portWordAt_map (p : Fin 64) :
    portWordAt (512 + 2 * p.val) = .view (.map p false) ∧ portWordAt (513 + 2 * p.val) = .view (.map p true) := by
  constructor
  · have hposition : (512 + 2 * p.val - 512) / 2 = p.val := by omega
    have hword : (512 + 2 * p.val) % 2 ≠ 1 := by omega
    rw [portWordAt]
    simp (disch := omega) only [if_neg, dif_neg, dif_pos, hposition, hword, decide_false]
  · have hposition : (513 + 2 * p.val - 512) / 2 = p.val := by omega
    have hword : (513 + 2 * p.val) % 2 = 1 := by omega
    rw [portWordAt]
    simp (disch := omega) only [if_neg, dif_neg, dif_pos, hposition, hword, decide_true]

/-- A read of the word with number n, by the kind of the word. -/
theorem State.readWord_of_portWordAt (s : State) {n : Nat} {w : PortWord} (hn : n < 1024) (hw : portWordAt n = w) :
    s.readWord (BitVec.ofNat 10 n) false = s.readPortWord w := by
  rw [State.readWord, portWord, BitVec.toNat_ofNat, Nat.mod_eq_of_lt (by simpa using hn), hw]
  rfl

/-! ### The command word (R175) -/

/-- A field of value 0 at the end adds nothing. -/
theorem packFields_append_zero (fs : List Field) (b w : Nat) : packFields (fs ++ [⟨b, w, 0⟩]) = packFields fs := by
  simp [packFields]

/-- A field of value 0 at the beginning adds nothing. -/
theorem packFields_zero_cons (fs : List Field) (b w : Nat) : packFields (⟨b, w, 0⟩ :: fs) = packFields fs := by
  simp [packFields]

/-- The code of the command in progress, 0 with none. -/
def Lpu.runningCode (l : Lpu) : Nat :=
  match l.running with
  | none => 0
  | some c => c.code

/-- The fields of the command word: those of the command in progress, then those of the last one. -/
theorem Lpu.commandWord_eq (l : Lpu) : l.commandWord =
    packFields (⟨0, 3, l.runningCode⟩ :: ⟨3, 1, l.running.isSome.toNat⟩ ::
      match l.last with
      | none => []
      | some e =>
        [⟨4, 3, e.command.code⟩, ⟨8, 4, e.result.code⟩, ⟨16, 6, e.result.counts.1⟩, ⟨24, 5, e.result.counts.2⟩]) := by
  rw [Lpu.commandWord, Lpu.runningCode]
  cases l.running with
  | none => exact ((packFields_zero_cons _ _ _).trans (packFields_zero_cons _ _ _)).symm
  | some c => rfl

/-- With no last command. -/
theorem Lpu.commandWord_shows_none {l : Lpu} (h : l.last = none) :
    shows l.commandWord [(0, 3, l.runningCode), (3, 1, l.running.isSome.toNat)] := by
  rw [Lpu.commandWord_eq, h]
  exact packFields_shows [⟨0, 3, _⟩, ⟨3, 1, _⟩] (by simp) (by simp [Field.apart])

/-- With a last command that ended FORCED, which shows its counts. -/
theorem Lpu.commandWord_shows_forced {l : Lpu} {c : Command} {o i : Nat} (h : l.last = some ⟨c, .forced o i⟩) :
    shows l.commandWord [(0, 3, l.runningCode), (3, 1, l.running.isSome.toNat), (4, 3, c.code), (8, 4, 4), (16, 6, o),
      (24, 5, i)] := by
  rw [Lpu.commandWord_eq, h]
  exact packFields_shows [⟨0, 3, _⟩, ⟨3, 1, _⟩, ⟨4, 3, _⟩, ⟨8, 4, _⟩, ⟨16, 6, _⟩, ⟨24, 5, _⟩] (by simp)
    (by simp [Field.apart])

/-- With a last command that ended otherwise. -/
theorem Lpu.commandWord_shows_ended {l : Lpu} {c : Command} {r : CommandResult} (h : l.last = some ⟨c, r⟩)
    (hr : ∀ o i, r ≠ .forced o i) :
    shows l.commandWord [(0, 3, l.runningCode), (3, 1, l.running.isSome.toNat), (4, 3, c.code), (8, 4, r.code)] := by
  have hcounts : r.counts = (0, 0) := by
    cases r with
    | forced o i => exact absurd rfl (hr o i)
    | _ => rfl
  have hword : l.commandWord = packFields [⟨0, 3, l.runningCode⟩, ⟨3, 1, l.running.isSome.toNat⟩, ⟨4, 3, c.code⟩,
      ⟨8, 4, r.code⟩] := by
    rw [Lpu.commandWord_eq, h]
    simp only [hcounts]
    exact (packFields_append_zero [_, _, _, _, ⟨16, 6, 0⟩] 24 5).trans (packFields_append_zero [_, _, _, _] 16 6)
  rw [hword]
  exact packFields_shows [⟨0, 3, _⟩, ⟨3, 1, _⟩, ⟨4, 3, _⟩, ⟨8, 4, _⟩] (by simp) (by simp [Field.apart])

/-! ### The status words (R176, R178, R180) -/

/-- The station status word. -/
theorem State.statusWord_shows (s : State) : shows s.statusWord [(0, 4, s.mc.state.code), (4, 5, s.mc.sid.toNat),
    (9, 1, s.mc.state.isMember.toNat), (10, 1, s.lpu.locked.toNat), (12, 2, s.mc.attempts), (16, 5, s.mc.peers.card),
    (24, 3, s.wmu.heldCount)] :=
  packFields_shows [⟨0, 4, _⟩, ⟨4, 5, _⟩, ⟨9, 1, _⟩, ⟨10, 1, _⟩, ⟨12, 2, _⟩, ⟨16, 5, _⟩, ⟨24, 3, _⟩] (by simp)
    (by simp [Field.apart])

/-- The push/pop result word. -/
theorem PortResults.word_shows (r : PortResults) : shows r.word [(0, 4, r.rq.code), (4, 4, r.sq.code), (8, 4, r.cq.code),
    (12, 4, r.iq.code), (16, 4, r.nq.code), (20, 4, r.fault.code)] :=
  packFields_shows [⟨0, 4, _⟩, ⟨4, 4, _⟩, ⟨8, 4, _⟩, ⟨12, 4, _⟩, ⟨16, 4, _⟩, ⟨20, 4, _⟩] (by simp) (by simp [Field.apart])

/-- The outbound occupancy word. -/
theorem Ore.outboundWord_shows (o : Ore) : shows o.outboundWord [(0, 5, o.rq.length), (8, 2, o.headCode),
    (16, 6, o.cq.length), (24, 6, o.cqSum)] :=
  packFields_shows [⟨0, 5, _⟩, ⟨8, 2, _⟩, ⟨16, 6, _⟩, ⟨24, 6, _⟩] (by simp) (by simp [Field.apart])

/-- The tag occupancy word. -/
theorem Ore.tagWord_shows (o : Ore) : shows o.tagWord [(0, 6, o.ort.count OrtEntry.reserved),
    (8, 6, o.ort.count OrtEntry.isQuarantined)] :=
  packFields_shows [⟨0, 6, _⟩, ⟨8, 6, _⟩] (by simp) (by simp [Field.apart])

/-- The inbound occupancy word. -/
theorem Isu.inboundWord_shows (i : Isu) : shows i.inboundWord [(0, 5, i.iq.length), (8, 5, i.live), (16, 5, i.sq.length),
    (24, 4, i.nq.length)] :=
  packFields_shows [⟨0, 5, _⟩, ⟨8, 5, _⟩, ⟨16, 5, _⟩, ⟨24, 4, _⟩] (by simp) (by simp [Field.apart])

/-- The own-window state view. -/
theorem Wmu.ownWord_shows (w : Wmu) : shows w.ownWord [(0, 3, (w.own.at 0).state.code), (4, 3, (w.own.at 1).state.code),
    (8, 3, (w.own.at 2).state.code), (12, 3, (w.own.at 3).state.code)] :=
  packFields_shows [⟨0, 3, _⟩, ⟨4, 3, _⟩, ⟨8, 3, _⟩, ⟨12, 3, _⟩] (by simp) (by simp [Field.apart])

/-- The held-window count counts the records in HELD or RELEASING. -/
theorem Wmu.heldCount_eq (w : Wmu) : w.heldCount = w.own.count (fun r => r.state == .held || r.state == .releasing) :=
  Bank.count_congr fun n => by cases (w.own.at n).state <;> rfl

/-! ### The head views (R179, R182) -/

/-- The CQ head view of an empty CQ, and of its head record. -/
theorem Ore.cqHeadWord_views (o : Ore) :
    (o.cq = [] → ∀ i : Fin 18, o.cqHeadWord i = if i.val = 0 then 0x80000000 else 0) ∧
    ∀ c cs, o.cq = c :: cs →
      shows (o.cqHeadWord 0) [(0, 4, c.status.code), (4, 3, c.op.code), (8, 5, (c.dest.getD 0).toNat),
        (13, 1, c.dest.isSome.toNat), (16, 5, c.data.length)] ∧
      o.cqHeadWord 1 = c.ticket.setWidth 32 ∧ ∀ i (hi : i < 16), o.cqHeadWord ⟨2 + i, by omega⟩ = c.data.getD i 0 := by
  refine ⟨fun h i => ?_, fun c cs h => ⟨?_, ?_, fun i hi => ?_⟩⟩
  · simp only [Ore.cqHeadWord, h, emptyMark]
  · simp only [Ore.cqHeadWord, h]
    exact packFields_shows [⟨0, 4, _⟩, ⟨4, 3, _⟩, ⟨8, 5, _⟩, ⟨13, 1, _⟩, ⟨16, 5, _⟩] (by simp) (by simp [Field.apart])
  · simp [Ore.cqHeadWord, h]
  · have hnot : 2 + i ≠ 0 ∧ 2 + i ≠ 1 := by omega
    simp only [Ore.cqHeadWord, h, if_neg hnot.1, if_neg hnot.2, dataWord, Nat.add_sub_cancel_left]

/-- The IQ head view of an empty IQ, and of its head record. -/
theorem Isu.iqHeadWord_views (s : Isu) :
    (s.iq = [] → ∀ i : Fin 18, s.iqHeadWord i = if i.val = 0 then 0x80000000 else 0) ∧
    ∀ r rs, s.iq = r :: rs →
      shows (s.iqHeadWord 0) [(0, 3, r.work.op.code), (4, 5, r.source.toNat), (12, 5, r.work.length),
        (20, 4, (r.handle.getD 0).toNat), (24, 1, r.handle.isSome.toNat)] ∧
      s.iqHeadWord 1 = r.address ∧ ∀ i (hi : i < 16), s.iqHeadWord ⟨2 + i, by omega⟩ = r.work.data.getD i 0 := by
  refine ⟨fun h i => ?_, fun r rs h => ⟨?_, ?_, fun i hi => ?_⟩⟩
  · simp only [Isu.iqHeadWord, h, emptyMark]
  · simp only [Isu.iqHeadWord, h]
    exact packFields_shows [⟨0, 3, _⟩, ⟨4, 5, _⟩, ⟨12, 5, _⟩, ⟨20, 4, _⟩, ⟨24, 1, _⟩] (by simp) (by simp [Field.apart])
  · simp [Isu.iqHeadWord, h]
  · have hnot : 2 + i ≠ 0 ∧ 2 + i ≠ 1 := by omega
    simp only [Isu.iqHeadWord, h, if_neg hnot.1, if_neg hnot.2, dataWord, Nat.add_sub_cancel_left]

/-- The NQ head view of an empty NQ, and of its head record. -/
theorem Isu.nqHeadWord_views (s : Isu) :
    (s.nq = [] → s.nqHeadWord 0 = 0x80000000 ∧ s.nqHeadWord 1 = 0) ∧
    ∀ r rs, s.nq = r :: rs →
      shows (s.nqHeadWord 0) [(0, 5, r.source.toNat), (8, 1, r.broadcast.toNat)] ∧ s.nqHeadWord 1 = r.value := by
  refine ⟨fun h => ?_, fun r rs h => ⟨?_, ?_⟩⟩
  · simp [Isu.nqHeadWord, h, emptyMark]
  · simp only [Isu.nqHeadWord, h]
    exact packFields_shows [⟨0, 5, _⟩, ⟨8, 1, _⟩] (by simp) (by simp [Field.apart])
  · simp [Isu.nqHeadWord, h]

/-- The fault head view of an empty Fault List, and of its oldest record. -/
theorem Lpu.faultHeadWord_views (l : Lpu) :
    (l.faults = [] → l.faultHeadWord 0 = 0x80000000 ∧ l.faultHeadWord 1 = 0 ∧ l.faultHeadWord 2 = 0) ∧
    ∀ r rs, l.faults = r :: rs →
      shows (l.faultHeadWord 0) [(0, 4, r.kind.code), (4, 2, r.kind.severity.code), (8, 1, r.station.isSome.toNat),
        (9, 1, r.tagOrHandle.isSome.toNat), (10, 1, r.base.isSome.toNat), (16, 1, r.overflow.toNat)] ∧
      shows (l.faultHeadWord 1) [(0, 5, (r.station.getD 0).toNat), (8, 5, (r.tagOrHandle.getD 0).toNat)] ∧
      l.faultHeadWord 2 = r.base.getD 0 := by
  refine ⟨fun h => ?_, fun r rs h => ⟨?_, ?_, ?_⟩⟩
  · simp [Lpu.faultHeadWord, h, emptyMark]
  · simp only [Lpu.faultHeadWord, h]
    exact packFields_shows [⟨0, 4, _⟩, ⟨4, 2, _⟩, ⟨8, 1, _⟩, ⟨9, 1, _⟩, ⟨10, 1, _⟩, ⟨16, 1, _⟩] (by simp)
      (by simp [Field.apart])
  · simp only [Lpu.faultHeadWord, h]
    exact packFields_shows [⟨0, 5, _⟩, ⟨8, 5, _⟩] (by simp) (by simp [Field.apart])
  · simp [Lpu.faultHeadWord, h]

/-! ### The map view (R66, R180) -/

/-- The two words of a position that is valid, and of one that is not. -/
theorem Wmu.mapWord_views (w : Wmu) (p : Fin 64) :
    (∀ e, w.map[p.val]? = some e → w.mapWord p false = e.base ∧
      shows (w.mapWord p true) [(0, 5, e.size.toNat), (8, 5, e.owner.toNat), (30, 1, 1), (31, 1, e.writable.toNat)]) ∧
    (w.map.length ≤ p.val → ∀ d, w.mapWord p d = 0) := by
  refine ⟨fun e h => ⟨?_, ?_⟩, fun h d => ?_⟩
  · simp [Wmu.mapWord, h]
  · simp only [Wmu.mapWord, h, if_true]
    exact packFields_shows [⟨0, 5, _⟩, ⟨8, 5, _⟩, ⟨30, 1, _⟩, ⟨31, 1, _⟩] (by simp) (by simp [Field.apart])
  · rw [Wmu.mapWord, List.getElem?_eq_none h]

/-! ### The reads -/

/-- Settles O20, word by word in the order of the statement. -/
theorem portReads : Obligations.PortReads := by
  intro s read data
  have at_ {n : Nat} {w : PortWord} (hn : n < 1024) (hw : portWordAt n = w) : read n = s.readPortWord w :=
    s.readWord_of_portWordAt hn hw
  have hcq (i : Fin 18) : read (128 + i.val) = s.ore.cqHeadWord i := at_ (by omega) (portWordAt_cqHead i)
  have hiq (i : Fin 18) : read (160 + i.val) = s.isu.iqHeadWord i := at_ (by omega) (portWordAt_iqHead i)
  have hcqData (i : Nat) (hi : i < 16) : read (130 + i) = s.ore.cqHeadWord ⟨2 + i, by omega⟩ :=
    (congrArg read (Nat.add_assoc 128 2 i)).trans (hcq ⟨2 + i, by omega⟩)
  have hiqData (i : Nat) (hi : i < 16) : read (162 + i) = s.isu.iqHeadWord ⟨2 + i, by omega⟩ :=
    (congrArg read (Nat.add_assoc 160 2 i)).trans (hiq ⟨2 + i, by omega⟩)
  have hmap (p : Fin 64) : read (512 + 2 * p.val) = s.wmu.mapWord p false ∧
      read (513 + 2 * p.val) = s.wmu.mapWord p true :=
    ⟨at_ (by omega) (portWordAt_map p).1, at_ (by omega) (portWordAt_map p).2⟩
  obtain ⟨hcqEmpty, hcqHead⟩ := s.ore.cqHeadWord_views
  obtain ⟨hiqEmpty, hiqHead⟩ := s.isu.iqHeadWord_views
  obtain ⟨hnqEmpty, hnqHead⟩ := s.isu.nqHeadWord_views
  obtain ⟨hfaultEmpty, hfaultHead⟩ := s.lpu.faultHeadWord_views
  refine ⟨fun a => rfl, ?action, ?unassigned, ?rqStage, ?sqStage, ?setup, rfl, rfl, rfl, ?status, ?command, ?results,
    ?outbound, s.ore.tagWord_shows, rfl, s.isu.inboundWord_shows, ?own, ?cqEmpty, ?iqEmpty, ?nqEmpty, ?faultEmpty, ?heads,
    ?nq, ?fault, ?mapValid, ?mapInvalid⟩
  case action =>
    intro n hn
    simp only [List.mem_cons, List.not_mem_nil, or_false] at hn
    rcases hn with rfl | rfl | rfl | rfl | rfl | rfl <;> rfl
  case unassigned => exact fun n hn => at_ (by omega) (portWordAt_unassigned hn)
  case rqStage => exact fun i => at_ (by omega) (portWordAt_rqStage i)
  case sqStage => exact fun i => at_ (by omega) (portWordAt_sqStage i)
  case setup => exact fun i => at_ (by omega) (portWordAt_setup i)
  case status =>
    intro state member
    have hmember : member = s.mc.state.isMember := by cases h : s.mc.state <;> simp [member, h, StationState.isMember]
    rw [hmember, ← Wmu.heldCount_eq, ← StationSet.card_eq]
    exact s.statusWord_shows
  case command =>
    intro code result running
    exact ⟨Lpu.commandWord_shows_none, fun c r h => ⟨fun o i hr => Lpu.commandWord_shows_forced (hr ▸ h),
      Lpu.commandWord_shows_ended h⟩⟩
  case results => exact s.lpu.results.word_shows
  case outbound => exact s.ore.outboundWord_shows
  case own => exact s.wmu.ownWord_shows
  case cqEmpty => exact fun h i => (hcq i).trans (hcqEmpty h i)
  case iqEmpty => exact fun h i => (hiq i).trans (hiqEmpty h i)
  case nqEmpty => exact hnqEmpty
  case faultEmpty => exact hfaultEmpty
  case heads =>
    intro op status
    refine ⟨fun c cs h => ?_, fun r rs h => ?_⟩
    · obtain ⟨hword, hticket, hdata⟩ := hcqHead c cs h
      exact ⟨hword, hticket, fun i hi => (hcqData i hi).trans (hdata i hi)⟩
    · obtain ⟨hword, haddress, hdata⟩ := hiqHead r rs h
      have hread (i : Nat) (hi : i < 16) : read (162 + i) = data r.work.data i :=
        (hiqData i hi).trans (hdata i hi)
      refine ⟨haddress, fun n hw => ?_, fun ds hw => ?_, fun ds hw => ?_⟩ <;>
        (rw [hw] at hword hread; exact ⟨hword, hread⟩)
  case nq => exact hnqHead
  case fault =>
    intro kind r rs h
    have hkind : kind r.kind = (r.kind.code, r.kind.severity.code) := by cases r.kind <;> rfl
    rw [hkind]
    exact hfaultHead r rs h
  case mapValid =>
    intro p e he
    obtain ⟨hbase, hdescriptor⟩ := hmap p
    rw [hbase, hdescriptor]
    exact (s.wmu.mapWord_views p).1 e he
  case mapInvalid =>
    intro p hp
    obtain ⟨hbase, hdescriptor⟩ := hmap p
    rw [hbase, hdescriptor]
    exact ⟨(s.wmu.mapWord_views p).2 hp false, (s.wmu.mapWord_views p).2 hp true⟩

end Machine

end Sys2Proof
end

section
/-! PROOF. The miss counter of a silent destination: what one more miss makes of it, and of the pending EVICTs. -/

namespace Sys2Proof.Machine

/-- An addition for a station without a pending EVICT adds one with counts of 0, and nothing else changes. -/
theorem mem_addEvict_of_absent {d : Station} {es : List PendingEvict} (h : ∀ e ∈ es, e.station ≠ d) (e : PendingEvict) :
    e ∈ addEvict d es ↔ e ∈ es ∨ e = ⟨d, Counts.zero⟩ := by
  obtain ⟨hkept, hadded, new, hnew, hd⟩ := addEvict_mem d es
  obtain rfl : new = ⟨d, Counts.zero⟩ := (hadded new hnew).resolve_left fun hold => h new hold hd
  refine ⟨hadded e, ?_⟩
  rintro (hold | rfl)
  · exact hkept e hold
  · exact hnew

/-- A miss below the limit raises the counter by 1 (R89). -/
theorem Mc.raiseMiss_of_lt {m : Mc} {p : Station} (hp : p ≠ m.sid) (h : m.miss.at p + 1 < Config.missLimit) :
    m.raiseMiss p = { m with miss := m.miss.put p (m.miss.at p + 1) } := by
  rw [Mc.raiseMiss, if_neg hp, if_pos h]

/-- A miss that reaches the limit returns the counter to 0, and queues an EVICT of a station of the peer set (R90). -/
theorem Mc.raiseMiss_of_limit {m : Mc} {p : Station} (hp : p ≠ m.sid) (h : Config.missLimit ≤ m.miss.at p + 1) :
    m.raiseMiss p = { m with
      miss := m.miss.put p 0
      evicts := if m.peers.has p then addEvict p m.evicts else m.evicts } := by
  rw [Mc.raiseMiss, if_neg hp, if_neg (Nat.not_lt.2 h)]

/-- A miss of p leaves the counter of every other station. -/
theorem Mc.raiseMiss_at_of_ne (m : Mc) {p q : Station} (h : q ≠ p) : (m.raiseMiss p).miss.at q = m.miss.at q := by
  simp only [Mc.raiseMiss]
  split
  · rfl
  · split <;> exact Bank.at_put_ne _ _ h.symm

/-- The preparation of the next head and the leave test leave the miss counters and the pending EVICTs. -/
@[simp] theorem State.followed_misses (s : State) :
    s.followed.mc.miss = s.mc.miss ∧ s.followed.mc.evicts = s.mc.evicts := ⟨rfl, rfl⟩

/-- The unicast frame of the RQ head that nobody answers leaves the miss counters and the pending EVICTs as a miss of its
destination does: what follows in the same step touches neither. -/
theorem exec_requestFrameOutcome_unanswered {s : State} {f : Frame} {h : PreparedHead} (hsends : s.sends .rqHead f)
    (hq : s.ore.rq ≠ []) (hh : s.ore.head = some h) (hdest : f.dest = h.dest) (hunicast : h.dest ≠ 31) :
    ∃ t, exec (.requestFrameOutcome (.endOfTrailer ⟨false, false, false⟩)) s = .next t ∧
      t.mc.miss = (s.mc.raiseMiss h.dest).miss ∧ t.mc.evicts = (s.mc.raiseMiss h.dest).evicts := by
  obtain ⟨d, ds, hq⟩ := List.exists_cons_of_ne_nil hq
  obtain ⟨-, hanswered⟩ := requestFrameOutcome
  obtain ⟨-, hsilent, -⟩ := hanswered s f d ds h _ hsends hq hh hdest
  exact ⟨_, hsilent rfl hunicast, State.followed_misses _⟩

/-- Settles O53, by the value of the counter before the miss. -/
theorem missCounterReachesThree : Obligations.MissCounterReachesThree := by
  intro s f h hsends hq hh hdest hunicast hown
  obtain ⟨t, hexec, hmiss, hevicts⟩ := exec_requestFrameOutcome_unanswered hsends hq hh hdest hunicast
  refine ⟨t, hexec, ?_⟩
  rw [hmiss, hevicts]
  refine ⟨fun hbelow => ?below, fun hlast => ?last, fun q hne => s.mc.raiseMiss_at_of_ne hne⟩
  case below =>
    rw [Mc.raiseMiss_of_lt hown (Nat.succ_lt_succ hbelow)]
    exact ⟨Bank.at_put_same _ _ _, rfl⟩
  case last =>
    rw [Mc.raiseMiss_of_limit hown (Nat.succ_le_succ hlast.ge)]
    refine ⟨Bank.at_put_same _ _ _, fun hpeer habsent => ?_, fun hpeer hlaws hpending => ?_, fun hstranger => ?_⟩
    · simp only [hpeer, if_true]
      exact mem_addEvict_of_absent habsent
    · simp only [hpeer, if_true]
      exact addEvict_present hlaws.ascending hpending
    · simp [hstranger]

end Sys2Proof.Machine
end

section
/-! PROOF. Every step keeps the completion laws: what each operation of the ORE makes of its tables, and then row by row. -/

namespace Sys2Proof.Machine

/-! ### The ORE's own operations -/

section

variable {o : Ore}

/-- With no head prepared and no entry PENDING, the laws are two bounds. -/
theorem CompletionLaws.of_no_head (hh : o.head = none) (hp : ∀ t r, o.ort.at t ≠ .pending r)
    (hq : o.rq.length ≤ Config.rqDepth) (hs : o.cq.length + o.ort.count OrtEntry.reserved ≤ Config.cqDepth) :
    CompletionLaws o where
  sum := by rw [Ore.cqSum_eq, hh]; exact hs
  queue := hq
  headQueued e := by simp [hh] at e
  headTag h t e := by simp [hh] at e
  pendingHead t r e := absurd e (hp t r)

/-- Other tables with the same PENDING entries keep the laws, where records and reserved entries together are no more. -/
theorem CompletionLaws.with_tables (h : CompletionLaws o) {ort : Bank 5 OrtEntry} {cq : List Completion}
    (hp : ∀ t r, ort.at t = .pending r ↔ o.ort.at t = .pending r)
    (hs : cq.length + ort.count OrtEntry.reserved ≤ o.cq.length + o.ort.count OrtEntry.reserved) :
    CompletionLaws { o with ort := ort, cq := cq } where
  sum := by
    have hsum := h.sum
    rw [Ore.cqSum_eq] at hsum ⊢
    dsimp only
    omega
  queue := h.queue
  headQueued := h.headQueued
  headTag x t hx ht := by
    obtain ⟨r, hr⟩ := h.headTag x t hx ht
    exact ⟨r, (hp t r).2 hr⟩
  pendingHead t r e := h.pendingHead t r ((hp t r).1 e)

/-- A map of the entries that touches no PENDING one and no reservation keeps the laws. -/
theorem CompletionLaws.map_ort (h : CompletionLaws o) {f : OrtEntry → OrtEntry}
    (hp : ∀ e r, f e = .pending r ↔ e = .pending r) (hr : ∀ e, (f e).reserved = e.reserved) :
    CompletionLaws { o with ort := o.ort.map f } :=
  h.with_tables (fun t r => by rw [Bank.at_map, hp])
    (Nat.add_le_add_left (Bank.count_congr (fun t => by rw [Bank.at_map, hr])).le _)

/-- An entry changed, neither from PENDING nor to it, keeps the laws, where a new record takes the place of a reservation. -/
theorem CompletionLaws.put (h : CompletionLaws o) {t : Tag} {e : OrtEntry} {cs : List Completion}
    (hold : ∀ r, o.ort.at t ≠ .pending r) (hnew : ∀ r, e ≠ .pending r)
    (hs : cs.length + e.reserved.toNat ≤ (o.ort.at t).reserved.toNat) :
    CompletionLaws { o with ort := o.ort.put t e, cq := o.cq ++ cs } := by
  refine h.with_tables (fun k r => ?_) ?_
  · by_cases hk : t = k
    · subst hk
      rw [Bank.at_put_same]
      exact iff_of_false (hnew r) (hold r)
    · rw [Bank.at_put_ne _ _ hk]
  · have hcount := Bank.count_put OrtEntry.reserved o.ort t e
    rw [List.length_append]
    omega

/-- A head with its tag kept and anything else changed keeps the laws. -/
theorem CompletionLaws.map_head (h : CompletionLaws o) {f : PreparedHead → PreparedHead} (hf : ∀ x, (f x).tag = x.tag) :
    CompletionLaws { o with head := o.head.map f } where
  sum := by
    have hreserve : headReservation (o.head.map f) = headReservation o.head := by
      cases o.head <;> simp [headReservation, hf]
    have hsum := h.sum
    rw [Ore.cqSum_eq] at hsum ⊢
    rwa [hreserve]
  queue := h.queue
  headQueued e := h.headQueued (by simpa using e)
  headTag x t hx ht := by
    obtain ⟨y, hy, rfl⟩ := Option.map_eq_some_iff.1 hx
    exact h.headTag y t hy (hf y ▸ ht)
  pendingHead t r e := by
    obtain ⟨y, hy, ht⟩ := h.pendingHead t r e
    exact ⟨f y, by simp [hy], by rw [hf, ht]⟩

/-- The tag of a prepared head gone FREE, one reservation is left less: the entry's, or the head's own. -/
theorem CompletionLaws.freeHeadTag_count (h : CompletionLaws o) {x : PreparedHead} (hx : o.head = some x) :
    o.freeHeadTag.ort.count OrtEntry.reserved + 1 = o.ort.count OrtEntry.reserved + headReservation o.head := by
  cases ht : x.tag with
  | none => simp [Ore.freeHeadTag, headReservation, hx, ht]
  | some t =>
    obtain ⟨r, hr⟩ := h.headTag x t hx ht
    have hcount := Bank.count_put OrtEntry.reserved o.ort t .free
    simpa [Ore.freeHeadTag, headReservation, OrtEntry.reserved, hx, ht, hr] using hcount

/-- With its tag FREE and no head left, an ORE meets the laws with any RQ and CQ that fit. -/
theorem CompletionLaws.without_head (h : CompletionLaws o) {rq : List Descriptor} {cq : List Completion}
    (hq : rq.length ≤ Config.rqDepth) (hs : cq.length + o.freeHeadTag.ort.count OrtEntry.reserved ≤ Config.cqDepth) :
    CompletionLaws { o.freeHeadTag with rq := rq, head := none, cq := cq } :=
  .of_no_head rfl h.freeHeadTag_pending hq hs

/-- A prepared head completed keeps the laws: its record takes the place of its reservation. -/
theorem CompletionLaws.completeHead (h : CompletionLaws o) {x : PreparedHead} (hx : o.head = some x) (st : Status)
    (dest : Option Station) : CompletionLaws (o.completeHead st dest) := by
  rw [Ore.completeHead]
  cases hq : o.rq with
  | nil => exact h
  | cons d ds =>
    have hsum := h.sum
    have hqueue := h.queue
    have hcount := h.freeHeadTag_count hx
    rw [Ore.cqSum_eq] at hsum
    obtain ⟨hrq, -, hcq⟩ := o.freeHeadTag_frame
    refine h.without_head ?_ ?_
    · simp only [Ore.retireHead, hrq, List.length_tail]
      omega
    · simp only [Ore.retireHead, hcq, List.length_append, List.length_singleton]
      omega

/-- The RQ discarded keeps the laws. -/
theorem CompletionLaws.discardQueue (h : CompletionLaws o) : CompletionLaws o.discardQueue := by
  have hsum := h.sum
  rw [Ore.cqSum_eq] at hsum
  refine h.without_head (Nat.zero_le _) ?_
  rw [o.freeHeadTag_frame.2.2]
  cases hx : o.head with
  | none => simp [Ore.freeHeadTag, hx]; omega
  | some x =>
    have := h.freeHeadTag_count hx
    omega

/-- The frame of the head TAKEN keeps the laws: a PENDING entry goes to SENT with its reservation, and the head leaves. -/
theorem CompletionLaws.headTaken (h : CompletionLaws o) (timeout : Nat) : CompletionLaws (o.headTaken timeout) := by
  have hsum := h.sum
  have hqueue : o.rq.tail.length ≤ Config.rqDepth := (List.length_tail ▸ Nat.sub_le _ _).trans h.queue
  rw [Ore.cqSum_eq] at hsum
  rw [Ore.headTaken]
  cases ht : o.head.bind PreparedHead.tag with
  | none =>
    refine .of_no_head rfl (fun t r hr => ?_) hqueue (by dsimp only [Ore.retireHead]; omega)
    obtain ⟨x, hx, hxt⟩ := h.pendingHead t r hr
    simp [hx, hxt] at ht
  | some t =>
    obtain ⟨x, hx, hxt⟩ := Option.bind_eq_some_iff.1 ht
    obtain ⟨r, hr⟩ := h.headTag x t hx hxt
    have hcount := Bank.count_put OrtEntry.reserved o.ort t (.sent r (some timeout))
    simp only [hr, OrtEntry.reserved] at hcount
    refine .of_no_head rfl (fun k q hk => ?_) hqueue ?_
    · simp only [Ore.retireHead, hr, OrtEntry.send, Bank.at_put] at hk
      split at hk
      · cases hk
      · next hne =>
        obtain ⟨y, hy, hyk⟩ := h.pendingHead k q hk
        simp [hy, hyk] at ht
        exact hne ht.symm
    · simp only [Ore.retireHead, hr, OrtEntry.send]
      omega

/-- The PEER_LOST records of a departure take the places of the reservations of the entries it quarantines. -/
theorem quarantine_count (d : Station) (timeout : Nat) (es : List OrtEntry) :
    ((es.filter (OrtEntry.sentTo d)).filterMap OrtEntry.peerLost).length +
      (es.map (fun e => if e.sentTo d then e.quarantine timeout else e)).countP OrtEntry.reserved =
    es.countP OrtEntry.reserved := by
  induction es with
  | nil => rfl
  | cons e es ih =>
    simp only [List.filter_cons, List.map_cons, List.countP_cons]
    cases hs : e.sentTo d with
    | false =>
      simp only [Bool.false_eq_true, if_false]
      omega
    | true =>
      cases e with
      | sent r x =>
        have hgone : ((OrtEntry.sent r x).quarantine timeout).reserved = false := rfl
        have hheld : (OrtEntry.sent r x).reserved = true := rfl
        simp only [if_true, List.filterMap_cons, OrtEntry.peerLost, List.length_cons, hgone, hheld, Bool.false_eq_true,
          if_false]
        omega
      | free | pending r | quarantined r x => cases hs

/-- The departure of a station keeps the laws. -/
theorem CompletionLaws.departure (h : CompletionLaws o) (d : Station) (timeout : Nat) :
    CompletionLaws (o.departure d timeout) := by
  have hlost : CompletionLaws { o with
      cq := o.cq ++ (o.ort.cells.filter (OrtEntry.sentTo d)).filterMap OrtEntry.peerLost
      ort := o.ort.map (fun e => if e.sentTo d then e.quarantine timeout else e) } := by
    refine h.with_tables (fun t r => ?_) ?_
    · rw [Bank.at_map, Ore.departure_entry]
      cases o.ort.at t with
      | sent x y => by_cases hd : x.dest = d <;> simp [hd]
      | _ => simp
    · have hcount := quarantine_count d timeout o.ort.cells
      simp only [Bank.count, Bank.map, List.length_append]
      omega
  simp only [Ore.departure]
  split
  · next x hx =>
    split
    · exact hlost.completeHead hx _ _
    · exact hlost
  · exact hlost

/-- The tables at a FLUSH start: PENDING entries go FREE, SENT ones to QUARANTINED, and the CQ is empty (R115, R127). -/
theorem Ore.flush_frame (o : Ore) (timeout : Nat) :
    (o.flush timeout).rq = [] ∧ (o.flush timeout).head = none ∧ (o.flush timeout).cq = [] ∧
    ∀ t, (o.flush timeout).ort.at t =
      match o.freeHeadTag.ort.at t with
      | .pending _ => .free
      | .sent r _ => .quarantined r (some timeout)
      | e => e := by
  refine ⟨rfl, rfl, rfl, fun t => ?_⟩
  simp only [Ore.flush, Ore.discardQueue, Bank.at_map]
  cases o.freeHeadTag.ort.at t <;> rfl

/-- After a FLUSH start nothing is reserved. -/
theorem Ore.flush_count (o : Ore) (timeout : Nat) : (o.flush timeout).ort.count OrtEntry.reserved = 0 := by
  obtain ⟨-, -, -, hort⟩ := o.flush_frame timeout
  rw [Bank.count_eq_zero]
  intro t
  rw [hort]
  cases o.freeHeadTag.ort.at t <;> rfl

/-- A FLUSH start meets the laws: nothing is queued, reserved or recorded. -/
theorem CompletionLaws.flush (o : Ore) (timeout : Nat) : CompletionLaws (o.flush timeout) := by
  obtain ⟨hrq, hhead, hcq, hort⟩ := o.flush_frame timeout
  refine .of_no_head hhead (fun t r => ?_) (by simp [hrq]) (by simp [hcq, o.flush_count])
  rw [hort]
  cases o.freeHeadTag.ort.at t <;> simp

/-- The leave deadline keeps the laws: every reservation is gone, and the records stay. -/
theorem CompletionLaws.deadline (h : CompletionLaws o) : CompletionLaws o.deadline := by
  obtain ⟨hrq, hhead, -, hcqSum⟩ := o.deadline_frame
  have hsum := h.sum
  refine .of_no_head hhead (fun t r => ?_) (by simp [hrq]) ?_
  · rw [Ore.deadline_ort h]
    cases o.ort.at t <;> simp
  · rw [Ore.cqSum_eq, hhead] at hcqSum
    rw [Ore.cqSum_eq] at hsum
    simp only [headReservation] at hcqSum
    omega

/-- A descriptor at the RQ tail, where there is room, keeps the laws. -/
theorem CompletionLaws.push (h : CompletionLaws o) (hroom : o.rq.length < Config.rqDepth) (d : Descriptor) :
    CompletionLaws { o with rq := o.rq ++ [d] } :=
  { h with
    queue := by simpa using hroom
    headQueued := fun _ => by simp }

end

end Sys2Proof.Machine
end

section
/-! PROOF. Every step keeps the completion laws, continued: which operations of the station leave the ORE, what the others make
of it, and then row by row. -/

namespace Sys2Proof.Machine

section

variable {s t : State}

/-! ### What follows an event -/

/-- What follows where the head may have gone keeps the laws. -/
theorem CompletionLaws.afterHead (h : CompletionLaws s.ore) : CompletionLaws s.afterHead.ore := by
  rw [State.afterHead_ore]
  exact h.prepareHead _ _ _

/-- The end of a command leaves the ORE. -/
theorem State.finish_ore (r : CommandResult) (s : State) : (s.finish r).ore = s.ore := by simp

/-- The leave test leaves the ORE. -/
theorem State.testLeave_ore (s : State) : s.testLeave.ore = s.ore := by simp

/-- The test of a FLUSH leaves the ORE. -/
theorem State.testFlush_ore (s : State) : s.testFlush.ore = s.ore := by simp

/-- What follows where an SQ record may have gone leaves the ORE. -/
theorem State.afterResponse_ore (s : State) : s.afterResponse.ore = s.ore := by simp

/-- The next claim leaves the ORE. -/
theorem State.nextClaim_ore (s : State) : s.nextClaim.ore = s.ore := by
  obtain ⟨-, -, h, -⟩ := s.nextClaim_frame
  exact h

/-- The repeated check of a CLAIM leaves the ORE. -/
theorem State.recheckClaim_ore (s : State) : s.recheckClaim.ore = s.ore := by
  obtain ⟨-, -, h, -⟩ := s.recheckClaim_frame
  exact h

/-! ### Changes of station state -/

/-- The completion of sync keeps the laws: it prepares a head. -/
theorem CompletionLaws.completeSync (h : CompletionLaws s.ore) : CompletionLaws s.completeSync.ore := by
  refine CompletionLaws.prepareHead _ _ _ ?_
  rw [State.nextClaim_ore]
  exact h

/-- The test of the sync keeps the laws. -/
theorem CompletionLaws.testSync (h : CompletionLaws s.ore) : CompletionLaws s.testSync.ore := by
  rw [State.testSync]
  split
  · exact h.completeSync
  · exact h

/-- The entry into FAULTED keeps the laws: it stops timers. -/
theorem CompletionLaws.fatal (h : CompletionLaws s.ore) (k : FaultKind) (a : Option Station) :
    CompletionLaws (s.fatal k a).ore := by
  rw [State.fatal, State.enterFaulted, State.finish_ore]
  exact h.map_ort (fun e r => by cases e <;> simp [OrtEntry.stopTimer]) (fun e => by cases e <;> rfl)

/-- The entry into DETACHED keeps the laws: quarantined tags go FREE. -/
theorem CompletionLaws.enterDetached (h : CompletionLaws s.ore) : CompletionLaws s.enterDetached.ore := by
  have hreleased : CompletionLaws { s.ore with ort := s.ore.ort.map OrtEntry.release } :=
    h.map_ort (fun e r => by cases e <;> simp [OrtEntry.release]) (fun e => by cases e <;> rfl)
  simp only [State.enterDetached]
  split
  · rw [State.finish_ore]
    exact hreleased
  · exact hreleased

/-- The return to HALTED of a LEAVE leaves the ORE. -/
theorem State.leaveToHalted_ore (s : State) : s.leaveToHalted.ore = s.ore := State.finish_ore _ _

/-- The entry into LEAVING leaves the ORE. -/
theorem State.enterLeaving_ore (s : State) : s.enterLeaving.ore = s.ore := State.testLeave_ore _

/-- The departure of a station keeps the laws. -/
theorem CompletionLaws.departs (h : CompletionLaws s.ore) (d : Station) (cause : DepartureCause) :
    CompletionLaws (s.departure d cause).ore := by
  by_cases hd : d = s.mc.sid
  · rw [State.departure, if_pos hd]
    exact h
  · obtain ⟨-, -, hore, -⟩ := s.cleaned_fields d cause
    have hclean : CompletionLaws (s.cleaned d cause).ore := hore ▸ h.departure d _
    rw [State.departure_eq hd, State.testFlush_ore]
    exact hclean.testSync.afterHead

/-! ### Own frames -/

/-- Changed counts keep the laws: the head keeps its tag. -/
theorem CompletionLaws.withCounts (h : CompletionLaws s.ore) (src : Source) (c : Counts) :
    CompletionLaws (s.withCounts src c).ore := by
  cases src with
  | rqHead => exact h.map_head (fun _ => rfl)
  | sqHead | sync | bye | roster | evict d | release n | claim n => exact h

/-- A head given up keeps the laws. -/
theorem CompletionLaws.giveUpHead (h : CompletionLaws s.ore) (st : Status) : CompletionLaws (s.giveUpHead st).ore := by
  rw [State.giveUpHead]
  split
  · exact h
  · next hx => exact h.completeHead hx _ _

/-- An abandoned frame keeps the laws. -/
theorem CompletionLaws.abandon (h : CompletionLaws s.ore) (src : Source) : CompletionLaws (s.abandon src).ore := by
  cases src with
  | sqHead =>
    simp only [State.abandon]
    split
    · exact h
    · rw [State.afterResponse_ore]
      exact h
  | sync => exact h.fatal _ _
  | bye => exact CompletionLaws.enterDetached (by exact h)
  | roster | evict d | release n => exact h
  | claim n =>
    simp only [State.abandon]
    split
    · exact h
    · rw [State.nextClaim_ore]
      exact h
  | rqHead => exact (h.giveUpHead _).afterHead

/-- A voided frame keeps the laws. -/
theorem CompletionLaws.voidFrame (h : CompletionLaws s.ore) (src : Source) : CompletionLaws (s.voidFrame src).ore := by
  rw [State.voidFrame]
  split
  · exact h
  · split
    · exact h.withCounts _ _
    · exact h.abandon _

/-- A COLLIDED frame whose void count rises keeps the laws. -/
theorem CompletionLaws.collideVoid (h : CompletionLaws s.ore) (src : Source) : CompletionLaws (s.collideVoid src).ore := by
  rw [State.collideVoid]
  split
  · exact h
  · split
    · exact h.withCounts _ _
    · have hbit : CompletionLaws (s.abandonAtBit src).ore := CompletionLaws.abandon (by exact h) src
      cases src with
      | sync | bye => exact h
      | rqHead => exact h.abandon _
      | sqHead | roster | evict d | release n | claim n => exact hbit

/-- A LOST frame keeps the laws. -/
theorem CompletionLaws.lose (h : CompletionLaws s.ore) (f : Flight) : CompletionLaws (s.lose f).ore := by
  have hcounts : ∀ src c, CompletionLaws (State.withCounts src c
      { s with tif := { s.tif with flight := none, collisions := 0 } }).ore :=
    fun src c => CompletionLaws.withCounts (by exact h) src c
  simp only [State.lose]
  split
  · exact h
  · split
    · split
      · rw [State.leaveToHalted_ore]
        exact h
      · split
        · exact h
        · exact hcounts _ _
    · split
      · exact h
      · split
        · exact h
        · exact hcounts _ _
    · split
      · exact h
      · exact hcounts _ _

/-- A COLLIDED frame keeps the laws. -/
theorem CompletionLaws.collide (h : CompletionLaws s.ore) (f : Flight) : CompletionLaws (s.collide f).ore := by
  generalize hx : { s with tif := { s.tif with
    flight := none, collisions := s.tif.collisions + 1, collidedHere := true } } = x
  have h₁ : CompletionLaws x.ore := by rw [← hx]; exact h
  simp only [State.collide, hx]
  split
  · exact h₁.fatal _ _
  · split
    · exact h₁
    · split
      · split
        · rw [State.leaveToHalted_ore]
          exact h₁
        · exact h₁.collideVoid _
      · split
        · exact h₁
        · exact h₁.collideVoid _
      · exact h₁.collideVoid _

/-- The outcome of the own SYNC keeps the laws: by itself it ends in FAULTED, or completes the sync. -/
theorem CompletionLaws.syncEnds (h : CompletionLaws s.ore) (accept : Bool) (o : Outcome) :
    CompletionLaws (s.syncEnds accept o).ore := by
  unfold State.syncEnds
  split
  · rw [State.waitedSyncEnds]
    split
    · rw [State.enterLeaving_ore]
      exact h
    · rw [State.leaveToHalted_ore]
      exact h
  · cases o with
    | rejected => exact h.fatal _ _
    | taken =>
      simp only [State.syncTaken]
      split
      · split
        · exact h
        · exact CompletionLaws.completeSync (by exact h)
      · split
        · exact h
        · exact CompletionLaws.completeSync (by exact h)
      · exact h
    | lost | collided | voided | unanswered => exact h.voidFrame _

/-- The outcome of the own ROSTER keeps the laws. -/
theorem CompletionLaws.rosterEnds (h : CompletionLaws s.ore) (o : Outcome) : CompletionLaws (s.rosterEnds o).ore := by
  cases o with
  | voided => exact h.voidFrame _
  | taken | lost | collided | rejected | unanswered => exact h

/-- The outcome of the own CLAIM keeps the laws. -/
theorem CompletionLaws.claimFrameEnds (h : CompletionLaws s.ore) (f : Flight) (o : Outcome) :
    CompletionLaws (s.claimFrameEnds f o).ore := by
  rw [State.claimFrameEnds]
  split
  · simp only [State.claimEnds]
    split
    · split
      · exact h
      · exact h
      · split
        · exact h
        · exact h.abandon _
    · split
      · rw [State.nextClaim_ore]
        exact h
      · rw [State.nextClaim_ore]
        exact h
      · exact h.voidFrame _
  · exact h

/-- The outcome of the own RELEASE keeps the laws. -/
theorem CompletionLaws.releaseFrameEnds (h : CompletionLaws s.ore) (f : Flight) (o : Outcome) :
    CompletionLaws (s.releaseFrameEnds f o).ore := by
  rw [State.releaseFrameEnds]
  split
  · cases o with
    | taken =>
      simp only [State.releaseEnds]
      split
      · exact h
      · rw [State.testLeave_ore]
        exact h
    | voided =>
      simp only [State.releaseEnds]
      split
      · exact h
      · exact h.voidFrame _
    | lost | collided | rejected | unanswered => exact h
  · exact h

/-- The outcome of the own EVICT keeps the laws. -/
theorem CompletionLaws.evictFrameEnds (h : CompletionLaws s.ore) (f : Flight) (o : Outcome) :
    CompletionLaws (s.evictFrameEnds f o).ore := by
  rw [State.evictFrameEnds]
  split
  · cases o with
    | taken => exact h.departs _ _
    | voided => exact h.voidFrame _
    | lost | collided | rejected | unanswered => exact h
  · exact h

/-- The outcome of the own BYE keeps the laws. -/
theorem CompletionLaws.byeEnds (h : CompletionLaws s.ore) (o : Outcome) : CompletionLaws (s.byeEnds o).ore := by
  cases o with
  | taken => exact h.enterDetached
  | voided => exact h.voidFrame _
  | lost | collided | rejected | unanswered => exact h

/-- A REJECTED head keeps the laws: it goes to HOLDOFF with its tag, or is given up. -/
theorem CompletionLaws.headRejected (h : CompletionLaws s.ore) : CompletionLaws s.headRejected.ore := by
  rw [State.headRejected]
  split
  · exact h
  · next x hx =>
    split
    · have hheld := h.map_head (f := fun x => { x with busy := x.busy + 1, phase := .holdoff }) (fun _ => rfl)
      rw [hx] at hheld
      exact hheld
    · exact (h.giveUpHead _).afterHead

/-- The outcome of the RQ head's frame keeps the laws. -/
theorem CompletionLaws.requestEnds (h : CompletionLaws s.ore) (f : Flight) (o : Outcome) :
    CompletionLaws (s.requestEnds f o).ore := by
  have h₁ : CompletionLaws ({ s with mc := s.mc.reportOutcome f.frame.dest o } : State).ore := h
  simp only [State.requestEnds]
  split
  · exact h
  · split
    · exact CompletionLaws.afterHead (h.headTaken _)
    · exact h₁.headRejected
    · exact (h₁.giveUpHead _).afterHead
    · exact h₁.voidFrame _

/-- The outcome of the SQ head's frame keeps the laws. -/
theorem CompletionLaws.responseEnds (h : CompletionLaws s.ore) (f : Flight) (o : Outcome) :
    CompletionLaws (s.responseEnds f o).ore := by
  simp only [State.responseEnds]
  split
  · exact h
  · split
    · rw [State.afterResponse_ore]
      exact h
    · rw [State.afterResponse_ore]
      exact h
    · exact CompletionLaws.voidFrame (by exact h) _

/-- A moment of an own frame keeps the laws where its outcome does. -/
theorem CompletionLaws.ownFrame (h : CompletionLaws s.ore) (src : Source → Bool) (moment : TxMoment)
    {ends : Slots → Flight → Outcome → State → State}
    (hends : ∀ levels f o, CompletionLaws s.endFlight.ore → CompletionLaws (ends levels f o s.endFlight).ore) :
    CompletionLaws (s.ownFrame src moment ends).ore := by
  cases moment with
  | lastCheckBit =>
    obtain ⟨p, hp, -⟩ := s.ownLastCheckBit_frame src
    rw [State.ownFrame, hp]
    exact h
  | endOfTrailer levels =>
    simp only [State.ownFrame, State.atTrailer]
    split
    · exact h
    · split
      · exact hends _ _ _ h
      · exact h

/-! ### What is received -/

/-- A matching response keeps the laws: its record takes the place of its entry's reservation. -/
theorem CompletionLaws.applyResponse (h : CompletionLaws s.ore) (src : Station) (tag : Tag) (b : ResponseBody) :
    CompletionLaws (s.applyResponse src tag b).ore := by
  rw [State.applyResponse]
  split
  · next c hc =>
    refine CompletionLaws.afterHead ?_
    cases he : s.ore.ort.at tag with
    | sent r x => exact h.put (by simp [he]) (by simp) (by simp [he, OrtEntry.reserved])
    | free | pending r | quarantined r x => simp [he, OrtEntry.matching] at hc
  · exact h

/-- What a member applies from a taken frame keeps the laws. -/
theorem CompletionLaws.applyAccepted (h : CompletionLaws s.ore) (r : Reception) (m : Message) (p : Option ServicePlan) :
    CompletionLaws (s.applyAccepted r m p).ore := by
  rw [State.applyAccepted]
  split
  · exact h.departs _ _
  · next w ps _ =>
    rw [State.applyRoster]
    split
    · refine CompletionLaws.testSync ?_
      obtain ⟨-, -, -, hore, -⟩ := mergePairs_frame m.source ps (s.noteRoster m.source w)
      rw [hore]
      exact h
    · exact h
  · rw [State.applyClaim, State.recheckClaim_ore]
    exact CompletionLaws.testSync (by exact h)
  · exact h
  · exact h.departs _ _
  · exact h.departs _ _
  · split
    · simp only [State.applyRequest, State.testFlush_ore]
      split <;> exact h
    · exact h
  · exact h.applyResponse _ _ _
  · exact h

/-- The end of a trailer keeps the laws. -/
theorem CompletionLaws.applyVerdict (h : CompletionLaws s.ore) (r : Reception) (taken : Bool) :
    CompletionLaws (s.applyVerdict r taken).ore := by
  rw [State.applyVerdict]
  split
  · split
    · exact CompletionLaws.applyAccepted (by exact h) _ _ _
    · rw [State.testFlush_ore]
      exact h
  · split <;> exact h
  · exact h
  · exact h

/-- What an abandoned own frame is owed keeps the laws. -/
theorem CompletionLaws.finishSpent (h : CompletionLaws s.ore) : CompletionLaws s.finishSpent.ore := by
  rw [State.finishSpent]
  split
  · exact h
  · exact h
  · exact CompletionLaws.abandon (by exact h) _
  · exact CompletionLaws.abandon (by exact h) _

/-- The end of a trailer keeps the laws: what an own frame is owed first, then the verdict. -/
theorem CompletionLaws.rxEnd (h : CompletionLaws s.ore) (x : Heard) (others : Slots) :
    CompletionLaws (s.rxEnd x others).ore := by
  simp only [State.rxEnd]
  split
  · have hspent := CompletionLaws.finishSpent
      (s := { s with tif := { s.tif with receiver := .unsynced, rx := none, collidedHere := false } }) h
    split
    · exact hspent
    · exact hspent.applyVerdict _ _
  · exact h

/-- A reception keeps the laws at each of its moments: all but the end of the trailer touch the TIF alone. -/
theorem CompletionLaws.receive (h : CompletionLaws s.ore) (x : Heard) (moment : RxMoment) :
    CompletionLaws (s.receive x moment).ore := by
  cases moment with
  | startBit => exact h
  | lastCheckBit =>
    rw [State.receive, State.rxDecide_eq]
    exact h
  | slotSampled slot =>
    rw [State.receive, State.rxSlot]
    split <;> exact h
  | endOfTrailer others => exact h.rxEnd x others
  | whole others =>
    refine CompletionLaws.rxEnd ?_ x others
    rw [State.rxDecide_eq]
    exact h

/-- Sampled bits received keep the laws. -/
theorem CompletionLaws.receiveBits (h : CompletionLaws s.ore) (bits : List Bool) (periods : List Nat) (moment : RxMoment) :
    CompletionLaws (s.receiveBits bits periods moment).ore := by
  unfold State.receiveBits
  split
  · exact h.receive _ _
  · exact h
  · exact h
  · exact h

/-- An idle report keeps the laws. -/
theorem CompletionLaws.idleObserved (h : CompletionLaws s.ore) : CompletionLaws s.idleObserved.ore := by
  simp only [State.idleObserved]
  split
  · split
    · exact h
    · refine CompletionLaws.finishSpent ?_
      rw [State.testFlush_ore]
      exact h
  · exact h

/-- A frame begun leaves the ORE. -/
theorem State.begin_ore (s : State) : s.begin.ore = s.ore := by
  rw [State.begin]
  split
  · split
    · rfl
    · split <;> rfl
  · rfl

/-! ### The local port -/

/-- An accepted command keeps the laws: a FLUSH and a RESTART empty the ORE, a JOIN and a LEAVE leave it. -/
theorem CompletionLaws.effect (h : CompletionLaws s.ore) (c : Command) : CompletionLaws (c.effect s).ore := by
  cases c with
  | join =>
    simp only [Command.effect, State.joinAccepted]
    split
    · rw [State.finish_ore]
      exact h
    · split
      · rw [State.finish_ore]
        exact h
      · exact h
  | leave =>
    have h₁ : CompletionLaws ((s.finish .aborted).accept .leave).ore := (State.finish_ore .aborted s).symm ▸ h
    simp only [Command.effect, State.leaveAccepted]
    split
    · rw [State.leaveToHalted_ore]
      exact h₁
    · split
      · rw [State.leaveToHalted_ore]
        exact h₁
      · exact h₁
    · rw [State.enterLeaving_ore]
      exact h₁
  | flush =>
    simp only [Command.effect, State.flushAccepted, State.testFlush_ore]
    exact .flush _ _
  | restart =>
    simp only [Command.effect, State.restartAccepted, State.finish_ore]
    exact .reset

/-- A command write keeps the laws, refused or accepted. -/
theorem CompletionLaws.takeCommand (h : CompletionLaws s.ore) (c : Command) :
    CompletionLaws (s.takeCommand c c.effect).ore := by
  rw [State.takeCommand]
  split
  · exact h
  · exact h
  · exact h.effect c

/-- An RQ push keeps the laws: it is accepted where the RQ has room. -/
theorem CompletionLaws.rqPush (h : CompletionLaws s.ore) : CompletionLaws s.rqPush.ore := by
  rw [State.rqPush]
  split
  · exact h
  · split
    · exact h
    · split
      · exact h
      · split
        · exact h
        · next d _ =>
          split
          · next hroom => exact (h.push hroom d).prepareHead _ _ _
          · exact h

/-- An SQ push leaves the ORE. -/
theorem State.sqPush_ore (s : State) : s.sqPush.ore = s.ore := by
  simp only [State.sqPush]
  split
  · rfl
  · split
    · rfl
    · split
      · rfl
      · split
        · exact State.testLeave_ore _
        · rfl

/-- A CQ pop keeps the laws: the sum falls. -/
theorem CompletionLaws.cqPop (h : CompletionLaws s.ore) : CompletionLaws s.cqPop.ore := by
  rw [State.cqPop]
  split
  · exact h
  · next hcq =>
    exact CompletionLaws.afterHead (h.with_tables (fun _ _ => Iff.rfl) (by simp [hcq]))

/-- The pops of the IQ, the NQ and the Fault List and a Setup write leave the ORE. -/
theorem State.pops_ore (s : State) : s.iqPop.ore = s.ore ∧ s.nqPop.ore = s.ore ∧ s.faultPop.ore = s.ore ∧
    ∀ i v, (s.setupWrite i v).ore = s.ore := by
  refine ⟨?_, ?_, ?_, fun i v => ?_⟩
  · rw [State.iqPop]; split <;> rfl
  · rw [State.nqPop]; split <;> rfl
  · rw [State.faultPop]; split <;> rfl
  · rw [State.setupWrite]; split <;> rfl

/-- A write of the command word keeps the laws. -/
theorem CompletionLaws.commandWrite (h : CompletionLaws s.ore) (v : Word) : CompletionLaws (s.commandWrite v).ore := by
  simp only [State.commandWrite]
  split
  · exact h.takeCommand .join
  · split
    · exact h.takeCommand .leave
    · split
      · exact h.takeCommand .flush
      · split
        · exact h.takeCommand .restart
        · exact h

/-- A write access keeps the laws. -/
theorem CompletionLaws.registerWrite (h : CompletionLaws s.ore) (a : BitVec 10) (v : Word) (readStrobe : Bool) :
    CompletionLaws (s.registerWrite a v readStrobe).ore := by
  obtain ⟨hiq, hnq, hfault, hsetup⟩ := s.pops_ore
  rw [State.registerWrite]
  split
  · exact h
  · cases portWord a with
    | view _ | unassigned | cause | mask | severityEnable | rqStage i | sqStage i => exact h
    | command => exact h.commandWrite v
    | setup i => exact (hsetup i v).symm ▸ h
    | rqPush => exact h.rqPush
    | sqPush => exact s.sqPush_ore.symm ▸ h
    | cqPop => exact h.cqPop
    | iqPop => exact hiq.symm ▸ h
    | nqPop => exact hnq.symm ▸ h
    | faultPop => exact hfault.symm ▸ h

/-! ### The timers -/

/-- The end of a holdoff keeps the laws: the head keeps its tag. -/
theorem CompletionLaws.holdoffExpires (h : CompletionLaws s.ore) : CompletionLaws s.holdoffExpires.ore := by
  rw [State.holdoffExpires]
  split
  · exact h.map_head (fun _ => rfl)
  · exact h

/-- A response timeout keeps the laws: the TIMEOUT record takes the place of the entry's reservation. -/
theorem CompletionLaws.responseTimerExpires (h : CompletionLaws s.ore) (tag : Tag) :
    CompletionLaws (s.responseTimerExpires tag).ore := by
  rw [State.responseTimerExpires]
  split
  · next he =>
    rw [State.testLeave_ore]
    exact h.put (by simp [he]) (by simp) (by simp [he, OrtEntry.reserved])
  · exact h

/-- The end of a quarantine keeps the laws. -/
theorem CompletionLaws.quarantineExpires (h : CompletionLaws s.ore) (tag : Tag) :
    CompletionLaws (s.quarantineExpires tag).ore := by
  rw [State.quarantineExpires]
  split
  · next he =>
    have hfree := h.put (t := tag) (e := .free) (cs := []) (by simp [he]) (by simp) (by simp [OrtEntry.reserved])
    rw [List.append_nil] at hfree
    exact CompletionLaws.afterHead hfree
  · exact h

/-- A settle expiry keeps the laws. -/
theorem CompletionLaws.settleExpires (h : CompletionLaws s.ore) : CompletionLaws s.settleExpires.ore := by
  rw [State.settleExpires]
  split
  · split
    · exact h
    · exact CompletionLaws.fatal (by exact h) _ _
  · exact h

/-- The leave deadline keeps the laws. -/
theorem CompletionLaws.leaveDeadlineExpires (h : CompletionLaws s.ore) : CompletionLaws s.leaveDeadlineExpires.ore := by
  rw [State.leaveDeadlineExpires]
  split
  · rw [State.finish_ore]
    exact h.deadline
  · exact h

/-! ### The step -/

/-- A row that acts while RESET_N is released keeps what its effect keeps. -/
theorem CompletionLaws.released {effect : State → State} (ht : released effect s = .next t) (h : CompletionLaws s.ore)
    (he : CompletionLaws s.ore → CompletionLaws (effect s).ore) : CompletionLaws t.ore := by
  simp only [Machine.released, Host.Outcome.next.injEq] at ht
  split at ht
  · exact ht ▸ h
  · exact ht ▸ he h

/-- Every command keeps the completion laws. -/
theorem CompletionLaws.exec {c : Instr} (ht : exec c s = .next t) (h : CompletionLaws s.ore) : CompletionLaws t.ore := by
  obtain ⟨hiq, hnq, hfault, hsetup⟩ := s.pops_ore
  cases c with
  | resetNAsserted | resetNReleased sid rate =>
    obtain rfl := Host.Outcome.next.inj ht
    exact CompletionLaws.reset
  | join => exact h.released ht (fun h => h.takeCommand .join)
  | leave => exact h.released ht (fun h => h.takeCommand .leave)
  | flush => exact h.released ht (fun h => h.takeCommand .flush)
  | restart => exact h.released ht (fun h => h.takeCommand .restart)
  | rqPush => exact h.released ht rqPush
  | sqPush => exact h.released ht (fun h => s.sqPush_ore.symm ▸ h)
  | cqPop => exact h.released ht cqPop
  | iqPop => exact h.released ht (fun h => hiq.symm ▸ h)
  | nqPop => exact h.released ht (fun h => hnq.symm ▸ h)
  | faultPop => exact h.released ht (fun h => hfault.symm ▸ h)
  | setupWrite i v => exact h.released ht (fun h => (hsetup i v).symm ▸ h)
  | causeWrite v | maskWrite v | severityEnableWrite v => exact h.released ht id
  | registerWrite a v r => exact h.released ht (fun h => h.registerWrite a v r)
  | trunkIdleObserved => exact h.released ht idleObserved
  | beginningAFrame => exact h.released ht (fun h => s.begin_ore.symm ▸ h)
  | lost bit =>
    refine h.released ht (fun h => ?_)
    simp only [State.lostAt]
    split
    · exact h
    · split
      · exact h.lose _
      · exact h
  | collided bit =>
    refine h.released ht (fun h => ?_)
    simp only [State.collidedAt]
    split
    · exact h
    · split
      · exact h.collide _
      · exact h
  | syncOutcome m => exact h.released ht (fun h => h.ownFrame _ m (fun levels _ o he => he.syncEnds levels.accept o))
  | rosterOutcome m => exact h.released ht (fun h => h.ownFrame _ m (fun _ _ o he => he.rosterEnds o))
  | claimOutcome m => exact h.released ht (fun h => h.ownFrame _ m (fun _ f o he => he.claimFrameEnds f o))
  | releaseOutcome m => exact h.released ht (fun h => h.ownFrame _ m (fun _ f o he => he.releaseFrameEnds f o))
  | evictOutcome m => exact h.released ht (fun h => h.ownFrame _ m (fun _ f o he => he.evictFrameEnds f o))
  | byeOutcome m => exact h.released ht (fun h => h.ownFrame _ m (fun _ _ o he => he.byeEnds o))
  | requestFrameOutcome m => exact h.released ht (fun h => h.ownFrame _ m (fun _ f o he => he.requestEnds f o))
  | responseFrameOutcome m => exact h.released ht (fun h => h.ownFrame _ m (fun _ f o he => he.responseEnds f o))
  | malformedFrame bits periods m => exact h.released ht (fun h => h.receiveBits bits periods m)
  | syncReceived p m | rosterReceived p w ps m | claimReceived p b d m | releaseReceived p b m | evictReceived p w m
  | byeReceived p m | requestReceived p t b m | responseReceived p t b m | signalReceived p b v m
  | frameForAnotherStation p d u m => exact h.released ht (fun h => h.receive _ m)
  | headPreparation => exact h.released ht afterHead
  | holdoffExpiry => exact h.released ht holdoffExpires
  | responseTimerExpiry tag => exact h.released ht (fun h => h.responseTimerExpires tag)
  | quarantineExpiry tag => exact h.released ht (fun h => h.quarantineExpires tag)
  | settleTimerExpiry => exact h.released ht settleExpires
  | leaveDeadlineExpiry => exact h.released ht leaveDeadlineExpires
  | burstNotAFrame => exact h.released ht id

end

/-- Settles O57: each command keeps the completion laws, and the queue of commands has no part in them. -/
theorem completionLawsKept : Obligations.CompletionLawsKept := by
  intro s t hstep h
  rw [step] at hstep
  split at hstep
  · exact Host.Outcome.next.inj hstep ▸ h
  · exact CompletionLaws.exec hstep h

end Sys2Proof.Machine
end

section
/-! PROOF. The start of a FLUSH: what it makes of the ORT, the ITT, the SQ and the frames on the trunk, and when it ends at
once. -/

namespace Sys2Proof.Machine

/-- A FLUSH start quarantines the SENT entries and frees the PENDING ones, that of the head's tag too (R115, R127). -/
theorem Ore.flush_ort {o : Ore} (hl : CompletionLaws o) (timeout : Nat) (tag : Tag) :
    (o.flush timeout).ort.at tag =
      match o.ort.at tag with
      | .sent r _ => .quarantined r (some timeout)
      | .quarantined r x => .quarantined r x
      | .pending _ => .free
      | .free => .free := by
  obtain ⟨-, -, -, hort⟩ := o.flush_frame timeout
  rw [hort]
  cases he : o.ort.at tag with
  | pending r =>
    have hfree : o.freeHeadTag.ort.at tag = .free ∨ o.freeHeadTag.ort.at tag = .pending r := by
      rw [Ore.freeHeadTag_ort, he]
      exact ite_eq_or_eq _ _ _
    rcases hfree with e | e <;> rw [e]
  | free | sent r x | quarantined r x => rw [hl.freeHeadTag_ort (by simp [he]), he]

/-- After a FLUSH start the CQ sum is 0. -/
theorem Ore.flush_cqSum (o : Ore) (timeout : Nat) : (o.flush timeout).cqSum = 0 := by
  obtain ⟨-, hhead, hcq, -⟩ := o.flush_frame timeout
  rw [Ore.cqSum_eq, hhead, hcq, o.flush_count]
  rfl

/-- An ITT entry after a FLUSH start: answered now where it was not, or freed if orphaned (R160). -/
theorem Isu.flush_itt (i : Isu) (h : Handle) :
    i.flush.itt.at h =
      match i.itt.at h with
      | none => none
      | some r =>
        if r.state = .answering then some r else if r.orphaned then none else some { r with state := .answering } := by
  rw [Isu.flush, Bank.at_map]
  cases i.itt.at h <;> rfl

/-- The FLUSHED records a FLUSH start appends are those of the handles neither answered nor orphaned (R160). -/
theorem mem_flushedRecords (i : Isu) (a : SqRecord) :
    a ∈ (Bank.indices 4).filterMap (flushedRecord i) ↔
      ∃ r, i.itt.at a.handle = some r ∧ r.state ≠ .answering ∧ r.orphaned = false ∧
        a = ⟨a.handle, r.source, r.tag, .fail 11⟩ := by
  simp only [List.mem_filterMap, Bank.mem_indices, true_and, flushedRecord_eq_some]
  constructor
  · rintro ⟨h, r, hr, hstate, horphaned, rfl⟩
    exact ⟨r, hr, hstate, horphaned, rfl⟩
  · rintro ⟨r, hr, hstate, horphaned, ha⟩
    exact ⟨a.handle, r, hr, hstate, horphaned, ha⟩

/-- They stand in ascending order of handle (R160). -/
theorem flushedRecords_ascending (i : Isu) :
    ((Bank.indices 4).filterMap (flushedRecord i)).Pairwise (fun a b => a.handle.toNat < b.handle.toNat) := by
  have hhandle : ∀ (h : Handle) (a : SqRecord), flushedRecord i h = some a → a.handle = h := by
    intro h a ha
    obtain ⟨r, -, -, -, rfl⟩ := (flushedRecord_eq_some i h a).1 ha
    rfl
  refine (Bank.indices_ascending 4).filterMap _ (fun h k hlt a ha b hb => ?_)
  rw [hhandle h a ha, hhandle k b hb]
  exact hlt

/-- The mark of a FLUSH leaves open whether the frame being received is a request accepted (R138, R163). -/
theorem Tif.acceptedRequest_flush (t : Tif) : t.discardHead.markFlush.acceptedRequest = t.acceptedRequest := by
  unfold Tif.acceptedRequest
  cases h : t.rx <;> simp [Tif.discardHead, Tif.markFlush, h]

/-- The state at a FLUSH start, before its end is tested. -/
def State.flushStarted (s : State) : State :=
  { s with
    tif := s.tif.discardHead.markFlush
    ore := s.ore.flush s.timeout
    isu := s.isu.flush
    lpu := { s.lpu with running := some .flush } }

/-- A FLUSH accepted is its start and the test of its end (R158 to R160, R163). -/
theorem exec_flush {s : State} (hr : s.resetAsserted = false) (hfree : s.lpu.running = none) (hs : s.mc.state = .joined) :
    exec .flush s = .next s.flushStarted.flushTested := by
  have haccepted : exec .flush s = .next s.flushAccepted :=
    Command.exec_row_accepted (c := .flush) hr (Or.inl hfree) (by simp [Command.states, hs])
  rw [haccepted, ← State.testFlush_eq_flushTested]
  rfl

/-- Settles O10, block by block. -/
theorem flushStart : Obligations.FlushStart := by
  intro s hr hfree hs hl
  have hfaults : s.flushStarted.flushTested.lpu.faults = s.lpu.faults := by
    rw [← State.testFlush_eq_flushTested, (State.testFlush_lpu_frame _).1]
    rfl
  refine ⟨_, exec_flush hr hfree hs, rfl, rfl, hfaults, rfl, rfl, rfl, Ore.flush_cqSum _ _, rfl, Ore.flush_ort hl _, rfl, rfl,
    Isu.flush_itt _, ⟨_, rfl, flushedRecords_ascending _, mem_flushedRecords _⟩, fun f hf => ?_, rfl, ?_⟩
  · simp only [State.flushTested, State.flushStarted, Tif.markFlush, Tif.discardHead, hf, Option.map_some]
    by_cases hsrc : f.source = .rqHead <;> simp [hsrc]
  · simp only [State.flushTested, State.flushStarted, Tif.acceptedRequest_flush, true_and]

end Sys2Proof.Machine
end

section
/-! PROOF. The RQ: what the preparation of the head finds and does, the RQ push, and the pops of the four queues. -/

namespace Sys2Proof.Machine

/-! ### What a preparation finds -/

/-- What a route means for a descriptor (R103, R105). -/
def Route.preparation : Route → Preparation
  | .owner p => .routed p
  | .self => .completed .localWindow Option.none
  | .none => .completed .noWindow Option.none

/-- What the preparation finds for a work item that no condition of R101 holds back (R103, R105). -/
def Work.preparation (m : Mc) (map : List MapEntry) : Work → Preparation
  | .signal p _ => if p = allStations ∨ m.peers.has p = true then .routed p else .completed .noPeer (some p)
  | .read a n => (routeLookup map m.sid a n).preparation
  | .write a ds => (routeLookup map m.sid a ds.length).preparation
  | .cwrite a ds => (routeLookup map m.sid a ds.length).preparation

/-- The conditions of R101: the state, room in the CQ sum, and for a READ or CWRITE a FREE tag. -/
def Ore.mayPrepare (o : Ore) (m : Mc) (d : Descriptor) : Prop :=
  m.state.prepares = true ∧ o.cqSum < Config.cqDepth ∧
  (d.work.tagged = true → ∃ t, o.ort.lowest OrtEntry.isFree = some t)

section

variable {m : Mc} {map : List MapEntry} {o : Ore} {d : Descriptor}

/-- Where the conditions hold, the work decides. -/
theorem prepare_of_mayPrepare (h : o.mayPrepare m d) : prepare m map o d = d.work.preparation m map := by
  obtain ⟨hs, hsum, htag⟩ := h
  have hcond : (m.state.prepares && decide (o.cqSum < Config.cqDepth) &&
      (!d.work.tagged || (o.ort.lowest OrtEntry.isFree).isSome)) = true := by
    cases ht : d.work.tagged with
    | false => simp [hs, hsum]
    | true =>
      obtain ⟨t, hlowest⟩ := htag ht
      simp [hs, hsum, hlowest]
  rw [prepare, if_pos hcond]
  cases d.work with
  | signal p v => rfl
  | read a n =>
    simp only [Work.preparation]
    cases routeLookup map m.sid a n <;> rfl
  | write a ds | cwrite a ds =>
    simp only [Work.preparation]
    cases routeLookup map m.sid a ds.length <;> rfl

/-- Where one fails, the descriptor is held back. -/
theorem prepare_blocked (h : ¬o.mayPrepare m d) : prepare m map o d = .blocked := by
  by_contra hne
  exact h (prepare_unblocked hne)

/-! ### What a preparation does -/

/-- A WAITING head held back stays WAITING. -/
theorem Ore.prepareHead_blocked (n : Nat) {ds : List Descriptor} (hq : o.rq = d :: ds) (h : ¬o.mayPrepare m d) :
    o.prepareHead m map n = o := by
  cases n with
  | zero => rfl
  | succ n => simp [Ore.prepareHead, hq, prepare_blocked h]

/-- A WAITING head that is routed goes READY. -/
theorem Ore.prepareHead_routed (n : Nat) {ds : List Descriptor} {p : Station} (hq : o.rq = d :: ds) (hh : o.head = none)
    (h : o.mayPrepare m d) (hp : d.work.preparation m map = .routed p) :
    o.prepareHead m map (n + 1) = o.makeReady d p := by
  simp [Ore.prepareHead, hq, hh, prepare_of_mayPrepare h, hp]

/-- A WAITING head that is completed leaves its place to the next descriptor, which is prepared in its turn. -/
theorem Ore.prepareHead_completed (n : Nat) {ds : List Descriptor} {st : Status} {dest : Option Station} (hq : o.rq = d :: ds)
    (hh : o.head = none) (h : o.mayPrepare m d) (hp : d.work.preparation m map = .completed st dest) :
    o.prepareHead m map (n + 1) =
      Ore.prepareHead m map n { o with rq := ds, cq := o.cq ++ [⟨d.ticket, d.work.op, st, dest, []⟩] } := by
  rw [Ore.prepareHead]
  simp only [hq, hh, Option.isSome_none, Bool.false_eq_true, if_false, prepare_of_mayPrepare h, hp,
    Ore.completeHead_waiting hq hh]

end

/-! ### HEAD_PREPARATION -/

/-- The lowest FREE tag, as the statements say it. -/
theorem Ore.lowest_isFree (o : Ore) (t : Tag) :
    o.ort.lowest OrtEntry.isFree = some t ↔
      o.ort.at t = .free ∧ ∀ k : Tag, k.toNat < t.toNat → o.ort.at k ≠ .free := by
  have hfree : ∀ e : OrtEntry, e.isFree = true ↔ e = .free := fun e => by cases e <;> simp [OrtEntry.isFree]
  simp only [Bank.lowest_eq_some, hfree, ← Bool.not_eq_true, ne_eq]

/-- The states in which a head is prepared are those R101 lists. -/
theorem StationState.prepares_iff (st : StationState) :
    st.prepares = true ↔ st = .claiming ∨ st = .joined ∨ st = .leaving := by
  cases st <;> simp [StationState.prepares]

/-- The ops that take a tag are READ and CWRITE. -/
theorem Work.tagged_iff (w : Work) : w.tagged = true ↔ w.op = .read ∨ w.op = .cwrite := by
  cases w <;> simp [Work.tagged, Work.op]

/-- HEAD_PREPARATION prepares the head and tests the leave condition. -/
theorem exec_headPreparation {s : State} (hr : s.resetAsserted = false) : exec .headPreparation s = .next s.followed := by
  simp only [exec, execHeadPreparation, released, hr, ← State.afterHead_eq_followed]
  rfl

/-- While descriptors are queued the leave condition does not hold, so that the preparation is all that follows. -/
theorem State.followed_of_queued {s : State} (h : s.prepareHead.ore.rq ≠ []) : s.followed = s.prepareHead := by
  have hcondition : s.prepareHead.leaveCondition = false := by simp [State.leaveCondition, h]
  rw [State.followed, ← State.testLeave_eq_byeTested]
  simp only [State.testLeave, hcondition, Bool.false_eq_true, and_false, if_false]

section

variable {s : State} {d : Descriptor} {ds : List Descriptor}

/-- A preparation that leaves a descriptor at the RQ's head is the whole step. -/
theorem exec_headPreparation_of_queued {o : Ore} (hr : s.resetAsserted = false)
    (ho : s.ore.prepareHead s.mc s.wmu.map s.ore.rq.length = o) (hne : o.rq ≠ []) :
    exec .headPreparation s = .next { s with ore := o } := by
  subst ho
  rw [exec_headPreparation hr, State.followed_of_queued hne]
  rfl

/-- A head that is routed goes READY, and the step does nothing else. -/
theorem exec_headPreparation_routed {o : Ore} {p : Station} (hr : s.resetAsserted = false) (hq : s.ore.rq = d :: ds)
    (hh : s.ore.head = none) (h : s.ore.mayPrepare s.mc d) (hp : d.work.preparation s.mc s.wmu.map = .routed p)
    (ho : s.ore.makeReady d p = o) (hrq : o.rq = s.ore.rq) : exec .headPreparation s = .next { s with ore := o } := by
  refine exec_headPreparation_of_queued hr ?_ (by simp [hrq, hq])
  rw [hq, List.length_cons, Ore.prepareHead_routed _ hq hh h hp, ho]

/-- A READ or CWRITE that is routed takes the lowest FREE tag (R104). -/
theorem exec_headPreparation_tagged {p : Station} {t : Tag} (hr : s.resetAsserted = false) (hq : s.ore.rq = d :: ds)
    (hh : s.ore.head = none) (h : s.ore.mayPrepare s.mc d) (hp : d.work.preparation s.mc s.wmu.map = .routed p)
    (htag : d.work.tagged = true) (ht : s.ore.ort.lowest OrtEntry.isFree = some t) :
    exec .headPreparation s = .next { s with ore := { s.ore with
      head := some ⟨p, some t, .ready, 0, Counts.zero⟩, ort := s.ore.ort.put t (.pending (recordOf d p)) } } :=
  exec_headPreparation_routed hr hq hh h hp (Ore.makeReady_tagged htag ht p) rfl

/-- A WRITE or SIGNAL that is routed takes none (R103). -/
theorem exec_headPreparation_untagged {p : Station} (hr : s.resetAsserted = false) (hq : s.ore.rq = d :: ds)
    (hh : s.ore.head = none) (h : s.ore.mayPrepare s.mc d) (hp : d.work.preparation s.mc s.wmu.map = .routed p)
    (htag : d.work.tagged = false) :
    exec .headPreparation s =
      .next { s with ore := { s.ore with head := some ⟨p, none, .ready, 0, Counts.zero⟩ } } :=
  exec_headPreparation_routed hr hq hh h hp (Ore.makeReady_untagged htag p _) rfl

/-- A head completed locally leaves a record, and the next descriptor is prepared in its turn (R99, R103, R105). -/
theorem exec_headPreparation_completed {st : Status} {dest : Option Station} (hr : s.resetAsserted = false)
    (hq : s.ore.rq = d :: ds) (hh : s.ore.head = none) (h : s.ore.mayPrepare s.mc d)
    (hp : d.work.preparation s.mc s.wmu.map = .completed st dest) :
    exec .headPreparation s = .next (State.followed { s with ore := { s.ore with
      rq := ds, cq := s.ore.cq ++ [⟨d.ticket, d.work.op, st, dest, []⟩] } }) := by
  have hprepared : s.prepareHead = State.prepareHead { s with ore := { s.ore with
      rq := ds, cq := s.ore.cq ++ [⟨d.ticket, d.work.op, st, dest, []⟩] } } := by
    rw [State.prepareHead, hq, List.length_cons, Ore.prepareHead_completed _ hq hh h hp]
    rfl
  rw [exec_headPreparation hr, State.followed, hprepared]
  rfl

end

/-- Settles O47: the conditions of R101, then the route, op by op. -/
theorem headPreparation : Obligations.HeadPreparation := by
  intro s d ds hr hq prepares lowest runs readyFor completes
  refine ⟨fun hheld => ?held, fun hh hs hsum => ?prepared⟩
  case held =>
    refine exec_headPreparation_of_queued hr ?_ (by simp [hq])
    by_cases hh : s.ore.head.isSome = true
    · exact Ore.prepareHead_of_head _ _ _ hh
    · refine Ore.prepareHead_blocked _ hq ?_
      rintro ⟨hs, hsum, htag⟩
      rcases hheld with hhead | hstate | hfull | ⟨hop, hnone⟩
      · exact hh hhead
      · exact hstate ((StationState.prepares_iff _).1 hs)
      · exact absurd hsum (Nat.not_lt.2 hfull)
      · obtain ⟨t, ht⟩ := htag ((Work.tagged_iff _).2 hop)
        exact hnone t (Ore.lowest_free ht)
  case prepared =>
    have htagged : ∀ t, lowest t → s.ore.mayPrepare s.mc d := fun t ht =>
      ⟨(StationState.prepares_iff _).2 hs, hsum, fun _ => ⟨t, (Ore.lowest_isFree _ _).2 ht⟩⟩
    have huntagged : d.work.tagged = false → s.ore.mayPrepare s.mc d := fun hw =>
      ⟨(StationState.prepares_iff _).2 hs, hsum, fun ht => by simp [hw] at ht⟩
    have hcompletes : ∀ {st dest}, s.ore.mayPrepare s.mc d → d.work.preparation s.mc s.wmu.map = .completed st dest →
        completes st dest := exec_headPreparation_completed hr hq hh
    refine ⟨fun a n p t hw hp ht => ?_, fun a ws p t hw hp ht => ?_, fun a ws p hw hp => ?_, fun p v hw hp => ?_,
      fun a ws hw hp => ?_, fun a ws hw hp => ?_, fun a n t hw ht hp => ?_, fun a n t hw ht hp => ?_,
      fun a ws t hw ht hp => ?_, fun a ws t hw ht hp => ?_, fun p v hw hp hpeer => ?_⟩
    · have hrecord : recordOf d p = ⟨false, p, n, d.ticket⟩ := by simp [recordOf, hw, Work.op, Work.length]
      rw [← hrecord]
      exact exec_headPreparation_tagged hr hq hh (htagged t ht) (by rw [hw, Work.preparation, hp]; rfl) (by rw [hw]; rfl)
        ((Ore.lowest_isFree _ _).2 ht)
    · have hrecord : recordOf d p = ⟨true, p, ws.length, d.ticket⟩ := by simp [recordOf, hw, Work.op, Work.length]
      rw [← hrecord]
      exact exec_headPreparation_tagged hr hq hh (htagged t ht) (by rw [hw, Work.preparation, hp]; rfl) (by rw [hw]; rfl)
        ((Ore.lowest_isFree _ _).2 ht)
    · have hfree : d.work.tagged = false := by rw [hw]; rfl
      exact exec_headPreparation_untagged hr hq hh (huntagged hfree) (by rw [hw, Work.preparation, hp]; rfl) hfree
    · have hfree : d.work.tagged = false := by rw [hw]; rfl
      exact exec_headPreparation_untagged hr hq hh (huntagged hfree) (by rw [hw, Work.preparation, if_pos hp]) hfree
    · exact hcompletes (huntagged (by rw [hw]; rfl)) (by rw [hw, Work.preparation, hp]; rfl)
    · exact hcompletes (huntagged (by rw [hw]; rfl)) (by rw [hw, Work.preparation, hp]; rfl)
    · exact hcompletes (htagged t ht) (by rw [hw, Work.preparation, hp]; rfl)
    · exact hcompletes (htagged t ht) (by rw [hw, Work.preparation, hp]; rfl)
    · exact hcompletes (htagged t ht) (by rw [hw, Work.preparation, hp]; rfl)
    · exact hcompletes (htagged t ht) (by rw [hw, Work.preparation, hp]; rfl)
    · refine hcompletes (huntagged (by rw [hw]; rfl)) ?_
      rw [hw, Work.preparation, if_neg (not_or.2 ⟨hp, by simp [hpeer]⟩)]

/-! ### The RQ push -/

/-- The state of an accepted RQ push before its head is prepared: the descriptor at the RQ tail, the result ACCEPTED (R98). -/
def State.rqPushed (s : State) (d : Descriptor) : State :=
  { s with
    ore := { s.ore with rq := s.ore.rq ++ [d] }
    lpu := { s.lpu with results := { s.lpu.results with rq := .accepted } } }

/-- A descriptor pushed into an empty RQ is prepared by itself. -/
theorem State.rqPushed_alone {s : State} (d : Descriptor) (hq : s.ore.rq = []) :
    (s.rqPushed d).prepareHead.ore = Ore.prepareHead s.mc s.wmu.map 1 { s.ore with rq := [d] } := by
  simp [State.prepareHead, State.rqPushed, hq]

/-- RQ_PUSH runs the push while RESET_N is released. -/
theorem exec_rqPush {s : State} (hr : s.resetAsserted = false) : exec .rqPush s = .next s.rqPush := by
  simp only [exec, execRqPush, released, hr]
  rfl

/-- The two states in which the RQ takes a push are not LEAVING. -/
theorem StationState.ne_leaving {st : StationState} (h : st = .claiming ∨ st = .joined) : st ≠ .leaving := by
  rcases h with rfl | rfl <;> simp

/-- In CLAIMING and JOINED, with no FLUSH in progress, a staging area without a descriptor is refused (R98). -/
theorem State.rqPush_unstaged {s : State} (hs : s.mc.state = .claiming ∨ s.mc.state = .joined)
    (hflush : s.lpu.running ≠ some .flush) (hd : stagedDescriptor s.mc.sid s.lpu.rqStage = none) :
    s.rqPush = s.rqResult .badDescriptor := by
  simp [State.rqPush, StationState.ne_leaving hs, hs, State.flushing, hflush, hd]

/-- There a staged descriptor is taken where the RQ has room for it (R98). -/
theorem State.rqPush_staged {s : State} {d : Descriptor} (hs : s.mc.state = .claiming ∨ s.mc.state = .joined)
    (hflush : s.lpu.running ≠ some .flush) (hd : stagedDescriptor s.mc.sid s.lpu.rqStage = some d) :
    s.rqPush = if s.ore.rq.length < Config.rqDepth then (s.rqPushed d).prepareHead else s.rqResult .full := by
  simp only [State.rqPush, if_neg (StationState.ne_leaving hs), hs, State.flushing, beq_eq_false_iff_ne.2 hflush, hd,
    decide_true, Bool.not_true, Bool.false_eq_true, if_false]
  rfl

/-- Settles O12, check by check. -/
theorem rqPushRefused : Obligations.RqPushRefused := by
  intro s hr answer isOpen
  rw [exec_rqPush hr]
  refine ⟨fun hleaving => ?_, fun hleaving hclosed => ?_, fun hs hflush => ?_, fun hs hflush hnone => ?_,
    fun hs hflush hstaged hfull => ?_⟩
  · rw [State.rqPush, if_pos hleaving]
    rfl
  · have hclosed : ¬(s.mc.state = .claiming ∨ s.mc.state = .joined) := hclosed
    simp only [State.rqPush, if_neg hleaving, hclosed, decide_false, Bool.not_false, if_true]
    rfl
  · have hs : s.mc.state = .claiming ∨ s.mc.state = .joined := hs
    simp only [State.rqPush, if_neg (StationState.ne_leaving hs), hs, State.flushing, hflush, decide_true, Bool.not_true,
      Bool.false_eq_true, if_false, beq_self_eq_true, if_true]
    rfl
  · rw [State.rqPush_unstaged hs hflush ((stagedDescriptor_eq_none_iff _ _).2 hnone)]
    rfl
  · obtain ⟨d, hd⟩ := hstaged
    rw [State.rqPush_staged hs hflush ((stagedDescriptor_eq_some_iff _ _ _).2 hd), if_neg (Nat.not_lt.2 hfull)]
    rfl

/-- Settles O13: the push leaves what HEAD_PREPARATION leaves of the pushed state, for no leave is tested in these states. -/
theorem rqPushAccepted : Obligations.RqPushAccepted := by
  intro s d hr hs hflush hd hroom
  have hpush : s.rqPush = (s.rqPushed d).prepareHead := by
    rw [State.rqPush_staged hs hflush ((stagedDescriptor_eq_some_iff _ _ _).2 hd), if_pos hroom]
  have hfollowed : (s.rqPushed d).followed = (s.rqPushed d).prepareHead := by
    rw [← State.afterHead_eq_followed]
    exact State.testLeave_of_ne (StationState.ne_leaving hs)
  refine ⟨(s.rqPushed d).prepareHead, by rw [exec_rqPush hr, hpush], ?_, rfl, rfl, rfl, rfl, rfl, fun hh => ?_,
    fun hq hh hsum a ws hw => ?_, fun hq hh hfull => ?_⟩
  · rw [← hfollowed]
    exact exec_headPreparation (s := s.rqPushed d) hr
  · rw [State.prepareHead_idle (s := s.rqPushed d) (Or.inr hh)]
    rfl
  · rw [State.rqPushed_alone d hq]
    have hfree : d.work.tagged = false := by rw [hw]; rfl
    have hmay : ({ s.ore with rq := [d] } : Ore).mayPrepare s.mc d :=
      ⟨(StationState.prepares_iff _).2 (hs.imp_right Or.inl), hsum, fun ht => by simp [hfree] at ht⟩
    have hlocal : ∀ st, d.work.preparation s.mc s.wmu.map = .completed st none →
        Ore.prepareHead s.mc s.wmu.map 1 { s.ore with rq := [d] } =
          { s.ore with cq := s.ore.cq ++ [⟨d.ticket, .write, st, none, []⟩] } := fun st hp => by
      have hop : d.work.op = .write := by rw [hw]; rfl
      rw [Ore.prepareHead_completed (o := { s.ore with rq := [d] }) 0 rfl hh hmay hp, hop, ← hq]
      rfl
    cases hroute : routeLookup s.wmu.map s.mc.sid a ws.length with
    | owner p =>
      dsimp only
      rw [Ore.prepareHead_routed (o := { s.ore with rq := [d] }) 0 rfl hh hmay (by rw [hw, Work.preparation, hroute]; rfl),
        Ore.makeReady_untagged hfree]
    | self => exact hlocal .localWindow (by rw [hw, Work.preparation, hroute]; rfl)
    | none => exact hlocal .noWindow (by rw [hw, Work.preparation, hroute]; rfl)
  · rw [State.rqPushed_alone d hq]
    refine Ore.prepareHead_blocked _ rfl ?_
    rintro ⟨-, hsum, -⟩
    exact absurd hsum (Nat.not_lt.2 hfull)

/-! ### The pops -/

/-- A live entry goes to AWAITING where it was DELIVERED (R141). -/
theorem awaitEntry_some (e : IttRecord) :
    awaitEntry (some e) = some (if e.state = .delivered then { e with state := .awaiting } else e) := by
  rw [apply_ite some]
  rfl

/-- Settles O15, queue by queue. -/
theorem pops : Obligations.Pops := by
  intro s hr
  have hcq : exec .cqPop s = .next s.cqPop := by simp only [exec, execCqPop, released, hr]; rfl
  have hiq : exec .iqPop s = .next s.iqPop := by simp only [exec, execIqPop, released, hr]; rfl
  have hnq : exec .nqPop s = .next s.nqPop := by simp only [exec, execNqPop, released, hr]; rfl
  have hfault : exec .faultPop s = .next s.faultPop := by simp only [exec, execFaultPop, released, hr]; rfl
  rw [hcq, hiq, hnq, hfault]
  refine ⟨fun h => ?_, fun h => ?_, fun h => ?_, fun h => ?_, fun c cs h => ?_, fun r rs h => ?_, fun r rs h => ?_,
    fun r rs h => ?_⟩
  · rw [State.cqPop, h]; rfl
  · rw [State.iqPop, h]; rfl
  · rw [State.nqPop, h]; rfl
  · rw [State.faultPop, h]; rfl
  · rw [State.cqPop, h]
    exact congrArg _ (State.afterHead_eq_followed _)
  · simp only [State.iqPop, h, Isu.popIq]
    cases hh : r.handle with
    | none => rfl
    | some k =>
      dsimp only
      cases s.isu.itt.at k with
      | none => rfl
      | some e => rw [awaitEntry_some]; rfl
  · rw [State.nqPop, h]; rfl
  · rw [State.faultPop, h]; rfl

end Sys2Proof.Machine
end

section
/-! PROOF. A response received by a member: the SENT entry it answers, or none, and what the end of its trailer does. -/

namespace Sys2Proof.Machine

/-! ### The entry a response answers (R121, R122) -/

/-- The status words of a FAIL that can match, and the status each gives. -/
theorem failStatus_eq_some_iff (w : Word) (st : Status) :
    failStatus w = some st ↔
      (w = 3 ∧ st = .notOwner) ∨ (w = 4 ∧ st = .readOnly) ∨ (w = 5 ∧ st = .targetError) ∨ (w = 11 ∧ st = .flushed) := by
  have hcode : ∀ n : Nat, n < 2 ^ 32 → (n = w.toNat ↔ w = BitVec.ofNat 32 n) := fun n hn => by
    rw [← BitVec.toNat_inj, BitVec.toNat_ofNat, Nat.mod_eq_of_lt hn, eq_comm]
  simp only [failStatus, List.find?_cons, List.find?_nil, Status.code, beq_eq_decide, hcode 3 (by decide),
    hcode 4 (by decide), hcode 5 (by decide), hcode 11 (by decide)]
  by_cases h3 : w = 3#32
  · simp [h3, eq_comm]
  by_cases h4 : w = 4#32
  · simp [h4, eq_comm]
  by_cases h5 : w = 5#32
  · simp [h5, eq_comm]
  by_cases h11 : w = 11#32
  · simp [h11, eq_comm]
  · simp [h3, h4, h5, h11]

/-- A response fits an entry exactly where it answers it, with the status and the data of its completion. -/
theorem OrtRecord.fits_eq_some_iff (r : OrtRecord) (b : ResponseBody) (st : Status) (data : List Word) :
    r.fits b = some (st, data) ↔ r.answeredBy b st data := by
  cases b with
  | data ws =>
    simp only [OrtRecord.fits, OrtRecord.answeredBy, Option.ite_none_right_eq_some, Option.some.injEq, Prod.mk.injEq,
      and_assoc, eq_comm (a := st), eq_comm (a := data)]
  | done =>
    simp only [OrtRecord.fits, OrtRecord.answeredBy, Option.ite_none_right_eq_some, Option.some.injEq, Prod.mk.injEq,
      eq_comm (a := st), eq_comm (a := data)]
  | fail w =>
    simp only [OrtRecord.fits, OrtRecord.answeredBy, Option.map_eq_some_iff, Prod.mk.injEq, ← failStatus_eq_some_iff]
    constructor
    · rintro ⟨_, hw, rfl, rfl⟩
      exact ⟨rfl, hw⟩
    · rintro ⟨rfl, hw⟩
      exact ⟨st, hw, rfl, rfl⟩

/-- The match of a response is a SENT entry to its source that it answers. -/
theorem OrtEntry.matching_eq_some_iff (e : OrtEntry) (p : Station) (b : ResponseBody) (c : Completion) :
    e.matching p b = some c ↔
      ∃ r x st data, e = .sent r x ∧ r.dest = p ∧ r.answeredBy b st data ∧ c = r.completion st data := by
  cases e with
  | sent r x =>
    by_cases hd : r.dest = p
    · simp [OrtEntry.matching, hd, OrtRecord.fits_eq_some_iff, eq_comm (a := c)]
    · simp [OrtEntry.matching, hd]
  | free | pending r | quarantined r x => simp [OrtEntry.matching]

/-! ### What a taken response does (R122, R123) -/

/-- A response that answers the SENT entry of its tag completes it, and the head's preparation and the leave test follow. -/
theorem State.applyResponse_of_answers {s : State} {p : Station} {tag : Tag} {b : ResponseBody} {r : OrtRecord}
    {x : Timer} {st : Status} {data : List Word} (he : s.ore.ort.at tag = .sent r x) (hd : r.dest = p)
    (ha : r.answeredBy b st data) :
    s.applyResponse p tag b = State.followed { s with ore := { s.ore with
      ort := s.ore.ort.put tag .free, cq := s.ore.cq ++ [r.completion st data] } } := by
  have hmatch := (OrtEntry.matching_eq_some_iff _ p b _).2 ⟨r, x, st, data, he, hd, ha, rfl⟩
  rw [State.applyResponse, hmatch]
  exact State.afterHead_eq_followed _

/-- A response that answers no SENT entry of its tag is a stray: a fault record and nothing else. -/
theorem State.applyResponse_of_stray {s : State} {p : Station} {tag : Tag} {b : ResponseBody}
    (h : ∀ r x st data, s.ore.ort.at tag = .sent r x → r.dest = p → ¬r.answeredBy b st data) :
    s.applyResponse p tag b = s.fault .strayResponse (some p) (some tag) none := by
  have hnone : (s.ore.ort.at tag).matching p b = none := by
    rw [Option.eq_none_iff_forall_ne_some]
    intro c hc
    obtain ⟨r, x, st, data, he, hd, ha, -⟩ := (OrtEntry.matching_eq_some_iff _ _ _ _).1 hc
    exact h r x st data he hd ha
  rw [State.applyResponse, hnone]

/-! ### The row -/

/-- RESPONSE_RECEIVED, whole, is a reception in tolerance that a member accepts (R120). -/
theorem State.receives_response {s : State} {p : Station} {tag : Tag} {b : ResponseBody} {others : Slots} (h : s.hears)
    (hsid : validStation s.mc.sid = true)
    (hw : (Instr.responseReceived p tag b (.whole others)).wellFormed = true) :
    ∃ y : Heard, y.clockHeld = true ∧
      s.verdictOn y.message = .accept ⟨p, s.mc.sid, tag, .response b⟩ none ∧
      exec (.responseReceived p tag b (.whole others)) s = .next (s.receive y (.whole others)) := by
  obtain ⟨hr, hmember, -, -⟩ := h
  have hcls : (Content.response b).kind.cls = 0 := by cases b <;> rfl
  refine ⟨Heard.ofFields p s.mc.sid tag (.response b), rfl, ?_,
    by simp only [exec, execResponseReceived, released, hr]; rfl⟩
  rw [Heard.ofFields_message, heard_of_passes_to hw (Or.inl hcls) hsid, State.verdictOn_addressed hmember (Or.inl rfl)]
  rfl

/-- Settles O39: the row is the reception of a response the member accepts; taken, its entry is completed or it is a stray. -/
theorem responseReceived : Obligations.ResponseReceived := by
  intro s p tag b others h hsid hw alive
  obtain ⟨y, hclock, hverdict, hexec⟩ := State.receives_response h hsid hw
  have htaken : others.clear → exec (.responseReceived p tag b (.whole others)) s =
      .next (State.applyResponse p tag b { s with tif := s.tif.heard, mc := alive }) := fun hclear => by
    rw [hexec, State.receive_whole_accept h hverdict hclock hclear]
    rfl
  refine ⟨fun hnot => ?_, fun hclear r x st data he hd ha => ?_, fun hclear hstray => ?_⟩
  · rw [hexec, State.receive_whole_not_clear h hverdict hnot]
  · rw [htaken hclear, State.applyResponse_of_answers (by exact he) hd ha, ← hd]
    rfl
  · rw [htaken hclear, State.applyResponse_of_stray (by exact hstray)]
    rfl

end Sys2Proof.Machine
end

section
/-! PROOF. Every step keeps the service laws: what each operation of the ISU makes of the responses and the inbound queues, and
what a verdict promises of their room. -/

namespace Sys2Proof.Machine

/-! ### Handles -/

/-- The lowest FREE handle (R142). -/
theorem Isu.freeHandle_eq_some (i : Isu) (h : Handle) :
    i.freeHandle = some h ↔ i.itt.at h = none ∧ ∀ k : Handle, k.toNat < h.toNat → i.itt.at k ≠ none := by
  simp only [Isu.freeHandle, Bank.lowest_eq_some, Option.isNone_iff_eq_none, ← Bool.not_eq_true, ne_eq]

/-- There is one exactly where some handle is FREE. -/
theorem Isu.freeHandle_isSome (i : Isu) : i.freeHandle.isSome = true ↔ ∃ h, i.itt.at h = none := by
  rw [← not_iff_not, Bool.not_eq_true, Option.isSome_eq_false_iff, Option.isNone_iff_eq_none, Isu.freeHandle,
    Bank.lowest_eq_none]
  simp [Option.isSome_iff_ne_none]

/-- The entry a push answers: of a handle below 16, in AWAITING (R144). -/
theorem Isu.awaiting_eq_some (i : Isu) (h : BitVec 5) (r : IttRecord) :
    i.awaiting h = some r ↔ h.toNat < 16 ∧ i.itt.at (h.setWidth 4) = some r ∧ r.state = .awaiting := by
  rw [Isu.awaiting]
  by_cases hh : h.toNat < 16
  · cases hr : i.itt.at (h.setWidth 4) with
    | none => simp [hh]
    | some x =>
      by_cases hx : x.state = .awaiting
      · simp only [hh, if_true, hx, Option.some.injEq, true_and]
        exact ⟨fun e => ⟨e, e ▸ hx⟩, fun e => e.1⟩
      · simp only [hh, if_true, hx, if_false, reduceCtorEq, Option.some.injEq, true_and, false_iff]
        rintro ⟨rfl, hr⟩
        exact hx hr
  · simp [hh]

/-! ### The operations of the ISU and the response laws -/

/-- A delivery keeps the response laws: its entry goes from FREE to DELIVERED. -/
theorem ResponseLaws.deliver {i : Isu} (hl : ResponseLaws i) (m : Message) (b : RequestBody) :
    ResponseLaws (i.deliver m b) := by
  rw [Isu.deliver]
  split
  · exact hl.congr rfl rfl
  · split
    · exact hl
    · next h hh =>
      obtain ⟨hfree, -⟩ := (i.freeHandle_eq_some h).1 hh
      exact (hl.put (h := h) (x := some (ittRecord m b .delivered)) (by simp [hfree]) (by simp [ittRecord])).congr rfl rfl

/-- A hardware answer keeps them: the handle and the record come together. -/
theorem ResponseLaws.answer {i : Isu} (hl : ResponseLaws i) (m : Message) (b : RequestBody) (st : Status) :
    ResponseLaws (i.answer m b st) := by
  rw [Isu.answer]
  split
  · exact hl
  · next h hh =>
    obtain ⟨hfree, -⟩ := (i.freeHandle_eq_some h).1 hh
    exact hl.push (r := ⟨h, m.source, m.tag, _⟩) (by simp [hfree]) rfl rfl rfl

/-- An accepted push keeps them: the handle goes FREE, or gets its record. -/
theorem ResponseLaws.answerPushed {i : Isu} (hl : ResponseLaws i) {p : StagedResponse} {r : IttRecord}
    (hr : i.awaiting p.handle = some r) : ResponseLaws (i.answerPushed p r) := by
  obtain ⟨-, hentry, hawaiting⟩ := (i.awaiting_eq_some _ _).1 hr
  have hnot : ∀ e, i.itt.at (p.handle.setWidth 4) = some e → e.state ≠ .answering := by
    rintro e he
    obtain rfl := Option.some.inj (hentry.symm.trans he)
    simp [hawaiting]
  simp only [Isu.answerPushed]
  split
  · exact hl.put hnot (by simp)
  · exact hl.push (r := ⟨p.handle.setWidth 4, r.source, r.tag, p.body r⟩) hnot rfl rfl rfl

/-- The pop of an IQ record keeps them: an entry that is ANSWERING stays as it is (R141). -/
theorem ResponseLaws.popIq {i : Isu} (hl : ResponseLaws i) (r : IqRecord) (rest : List IqRecord) :
    ResponseLaws (i.popIq r rest) := by
  rw [Isu.popIq]
  split
  · exact hl.congr rfl rfl
  · next h _ =>
    cases he : i.itt.at h with
    | none => exact (hl.put (h := h) (x := none) (by simp [he]) (by simp)).congr rfl rfl
    | some e =>
      by_cases hd : e.state = .delivered
      · exact (hl.put (h := h) (x := awaitEntry (some e)) (by simp [he, hd]) (by simp [awaitEntry, hd])).congr rfl rfl
      · refine hl.congr rfl ?_
        rw [awaitEntry, if_neg hd, ← he]
        exact Bank.put_at _ _

/-! ### The operations of the ISU and the inbound queues -/

/-- The pop of the SQ leaves the inbound queues. -/
theorem Isu.popSq_queues (i : Isu) : i.popSq.iq = i.iq ∧ i.popSq.nq = i.nq := by
  rw [Isu.popSq]
  split <;> exact ⟨rfl, rfl⟩

/-- So does a hardware answer. -/
theorem Isu.answer_queues (i : Isu) (m : Message) (b : RequestBody) (st : Status) :
    (i.answer m b st).iq = i.iq ∧ (i.answer m b st).nq = i.nq := by
  rw [Isu.answer]
  split <;> exact ⟨rfl, rfl⟩

/-- So does an accepted push. -/
theorem Isu.answerPushed_queues (i : Isu) (p : StagedResponse) (r : IttRecord) :
    (i.answerPushed p r).iq = i.iq ∧ (i.answerPushed p r).nq = i.nq := by
  simp only [Isu.answerPushed]
  split <;> exact ⟨rfl, rfl⟩

/-- The pop of the IQ leaves the records behind the head. -/
theorem Isu.popIq_queues (i : Isu) (r : IqRecord) (rest : List IqRecord) :
    (i.popIq r rest).iq = rest ∧ (i.popIq r rest).nq = i.nq := by
  rw [Isu.popIq]
  split <;> exact ⟨rfl, rfl⟩

/-- A delivery appends at most one IQ record. -/
theorem Isu.deliver_queues (i : Isu) (m : Message) (b : RequestBody) :
    (i.deliver m b).iq.length ≤ i.iq.length + 1 ∧ (i.deliver m b).nq = i.nq := by
  rw [Isu.deliver]
  split
  · simp
  · split <;> simp

/-! ### The room a verdict promises -/

/-- A verdict that will deliver a request has room in the IQ, and one that accepts a SIGNAL room in the NQ (R138, R154). -/
def Verdict.fits (v : Verdict) (i : Isu) : Prop :=
  match v with
  | .accept m p =>
    (p = some .deliver → i.iq.length < Config.iqDepth) ∧ (∀ x, m.content = .signal x → i.nq.length < Config.nqDepth)
  | _ => True

/-- Queues no longer keep the room. -/
theorem Verdict.fits.mono {v : Verdict} {i j : Isu} (h : v.fits i) (hiq : j.iq.length ≤ i.iq.length)
    (hnq : j.nq.length ≤ i.nq.length) : v.fits j := by
  cases v with
  | accept m p => exact ⟨fun hp => hiq.trans_lt (h.1 hp), fun x hx => hnq.trans_lt (h.2 x hx)⟩
  | malformed | silent m | reject m => trivial

/-- The plan of R137 delivers only what finds room in the IQ. -/
theorem State.servicePlan_deliver {s : State} {b : RequestBody} (h : s.servicePlan b = some .deliver) :
    s.isu.iq.length < Config.iqDepth := by
  simp only [State.servicePlan] at h
  split at h
  · cases h
  · split at h
    · split at h
      · next hroom => exact hroom.1
      · cases h
    all_goals
      split at h
      · cases h
      · split at h <;> cases h

/-- The decision on a frame addressed to the station has the room it promises (R137, R153). -/
theorem State.decideAddressed_fits (s : State) (m : Message) : (s.decideAddressed m).fits s.isu := by
  rw [State.decideAddressed]
  split
  case h_4 b hc =>
    split
    · next p hp => exact ⟨fun e => State.servicePlan_deliver (hp.trans e), fun x hx => by simp [hc] at hx⟩
    · trivial
  case h_5 =>
    split
    · next hroom => exact ⟨nofun, fun _ _ => hroom⟩
    · trivial
  case h_1 hc | h_2 hc | h_3 hc =>
    split
    · trivial
    · exact ⟨nofun, fun x hx => by simp [hc] at hx⟩
  all_goals
    next hc => exact ⟨nofun, fun x hx => by simp [hc] at hx⟩

/-- So has every decision. -/
theorem State.decide_fits (s : State) (m : Option Message) : (s.decide m).fits s.isu := by
  unfold State.decide
  split
  · trivial
  · split
    · trivial
    · split
      · trivial
      · split
        · exact s.decideAddressed_fits _
        · trivial

/-- What the inbound laws ask of a reception and the ISU. -/
structure InboundRoom (rx : Option Reception) (i : Isu) : Prop where
  iq : i.iq.length ≤ Config.iqDepth
  nq : i.nq.length ≤ Config.nqDepth
  room : ∀ r, rx = some r → r.verdict.fits i

/-- With no frame being received the two depths are all. -/
theorem InboundRoom.of_silent {i : Isu} (hiq : i.iq.length ≤ Config.iqDepth) (hnq : i.nq.length ≤ Config.nqDepth) :
    InboundRoom none i :=
  ⟨hiq, hnq, fun _ hr => by cases hr⟩

/-- It is what the laws say. -/
theorem inboundLaws_iff (t : Tif) (i : Isu) : InboundLaws t i ↔ InboundRoom t.rx i := by
  constructor
  · intro h
    refine ⟨h.iq, h.nq, fun r hr => ?_⟩
    cases hv : r.verdict with
    | accept m p => exact ⟨fun hp => h.iqRoom r m hr (hp ▸ hv), fun x hx => h.nqRoom r m x p hr hv hx⟩
    | malformed | silent m | reject m => trivial
  · intro h
    refine ⟨h.iq, h.nq, fun r m hr hv => ?_, fun r m x p hr hv hx => ?_⟩
    · have hfits := h.room r hr
      rw [hv] at hfits
      exact hfits.1 rfl
    · have hfits := h.room r hr
      rw [hv] at hfits
      exact hfits.2 x hx

end Sys2Proof.Machine
end

section
/-! PROOF. Every step keeps the service laws, continued: which operations of the station leave the ISU and the reception, what
the others make of them, and then row by row. -/

namespace Sys2Proof.Machine

/-- The way from s to t keeps the response laws and the inbound laws. -/
def ServiceKept (s t : State) : Prop :=
  (ResponseLaws s.isu → ResponseLaws t.isu) ∧ (InboundLaws s.tif s.isu → InboundRoom t.tif.rx t.isu)

/-- What an abandoned own frame is owed leaves the inbound queues, and no reception comes of it. -/
theorem State.finishSpent_inbound (s : State) :
    s.finishSpent.isu.iq = s.isu.iq ∧ s.finishSpent.isu.nq = s.isu.nq ∧ (s.tif.rx = none → s.finishSpent.tif.rx = none) := by
  rw [State.finishSpent]
  split
  · exact ⟨rfl, rfl, id⟩
  · exact ⟨rfl, rfl, id⟩
  · simp [State.abandon, State.fatal, State.enterFaulted]
  · simp only [State.abandon, State.enterDetached]
    split <;> simp

section

variable {s t u : State}

/-! ### The ways that keep them -/

/-- Nothing done keeps them. -/
theorem ServiceKept.refl (s : State) : ServiceKept s s := ⟨id, (inboundLaws_iff _ _).1⟩

/-- What leaves the reception and the ISU keeps them. -/
theorem ServiceKept.frame (h : ServiceKept s t) (htif : u.tif = t.tif) (hisu : u.isu = t.isu) : ServiceKept s u := by
  rw [ServiceKept, htif, hisu]
  exact h

/-- What ends the reception and leaves the ISU keeps them. -/
theorem ServiceKept.quiet (h : ServiceKept s t) (hrx : u.tif.rx = none) (hisu : u.isu = t.isu) : ServiceKept s u := by
  rw [ServiceKept, hrx, hisu]
  exact ⟨h.1, fun hin => .of_silent (h.2 hin).iq (h.2 hin).nq⟩

/-- What changes a reception without its verdict keeps them. -/
theorem ServiceKept.mark (h : ServiceKept s t) {f : Reception → Reception} (hf : ∀ r, (f r).verdict = r.verdict)
    (hrx : u.tif.rx = t.tif.rx.map f) (hisu : u.isu = t.isu) : ServiceKept s u := by
  rw [ServiceKept, hrx, hisu]
  refine ⟨h.1, fun hin => ⟨(h.2 hin).iq, (h.2 hin).nq, fun r hr => ?_⟩⟩
  obtain ⟨x, hx, rfl⟩ := Option.map_eq_some_iff.1 hr
  exact hf x ▸ (h.2 hin).room x hx

/-- An operation of the ISU keeps them that keeps the response laws and makes no queue longer. -/
theorem ServiceKept.with_isu (h : ServiceKept s t) {i : Isu} (hl : ResponseLaws t.isu → ResponseLaws i)
    (hiq : i.iq.length ≤ t.isu.iq.length) (hnq : i.nq.length ≤ t.isu.nq.length) :
    ServiceKept s { t with isu := i } :=
  ⟨fun hr => hl (h.1 hr), fun hin =>
    ⟨hiq.trans (h.2 hin).iq, hnq.trans (h.2 hin).nq, fun r hr => ((h.2 hin).room r hr).mono hiq hnq⟩⟩

/-- Once the reception has ended, an operation keeps them that finds the room it takes. -/
theorem ServiceKept.enqueue (h : ServiceKept s t) (hrx : t.tif.rx = none) {i : Isu}
    (hl : ResponseLaws t.isu → ResponseLaws i)
    (hiq : InboundLaws s.tif s.isu → i.iq.length ≤ Config.iqDepth)
    (hnq : InboundLaws s.tif s.isu → i.nq.length ≤ Config.nqDepth) : ServiceKept s { t with isu := i } :=
  ⟨fun hr => hl (h.1 hr), fun hin => hrx.symm ▸ .of_silent (hiq hin) (hnq hin)⟩

/-- An emptied ISU keeps them. -/
theorem ServiceKept.emptied (s : State) (hrx : u.tif.rx = none) (hisu : u.isu = Isu.reset) : ServiceKept s u := by
  rw [ServiceKept, hrx, hisu]
  exact ⟨fun _ => .of_empty rfl (by simp [Isu.reset]), fun _ => .of_silent (Nat.zero_le _) (Nat.zero_le _)⟩

/-! ### What follows an event -/

/-- The leave test keeps them. -/
theorem ServiceKept.testLeave (h : ServiceKept s t) : ServiceKept s t.testLeave := h.frame (by simp) (by simp)

/-- The test of a FLUSH keeps them. -/
theorem ServiceKept.testFlush (h : ServiceKept s t) : ServiceKept s t.testFlush := h.frame (by simp) (by simp)

/-- The end of a command keeps them. -/
theorem ServiceKept.finish (h : ServiceKept s t) (r : CommandResult) : ServiceKept s (t.finish r) :=
  h.frame (by simp) (by simp)

/-- What follows where the head may have gone keeps them. -/
theorem ServiceKept.afterHead (h : ServiceKept s t) : ServiceKept s t.afterHead := h.frame (by simp) (by simp)

/-- What follows where an SQ record may have gone keeps them. -/
theorem ServiceKept.afterResponse (h : ServiceKept s t) : ServiceKept s t.afterResponse := h.frame (by simp) (by simp)

/-- The next claim keeps them. -/
theorem ServiceKept.nextClaim (h : ServiceKept s t) : ServiceKept s t.nextClaim := by
  obtain ⟨-, htif, -, hisu, -⟩ := t.nextClaim_frame
  exact h.frame htif hisu

/-- The repeated check of a CLAIM keeps them. -/
theorem ServiceKept.recheckClaim (h : ServiceKept s t) : ServiceKept s t.recheckClaim := by
  obtain ⟨-, htif, -, hisu, -⟩ := t.recheckClaim_frame
  exact h.frame htif hisu

/-! ### Changes of station state -/

/-- The completion of sync keeps them. -/
theorem ServiceKept.completeSync (h : ServiceKept s t) : ServiceKept s t.completeSync := by
  obtain ⟨-, htif, hisu, -⟩ := t.completeSync_frame
  exact h.frame htif hisu

/-- The test of the sync keeps them. -/
theorem ServiceKept.testSync (h : ServiceKept s t) : ServiceKept s t.testSync := by
  obtain ⟨-, htif, hisu, -⟩ := t.testSync_frame
  exact h.frame htif hisu

/-- The entry into FAULTED keeps them: the reception ends, and the ISU is frozen (R151). -/
theorem ServiceKept.fatal (h : ServiceKept s t) (k : FaultKind) (a : Option Station) : ServiceKept s (t.fatal k a) :=
  h.quiet (by simp [State.fatal, State.enterFaulted]) (by simp [State.fatal, State.enterFaulted])

/-- A service dropped keeps them: the inbound queues stay (R150). -/
theorem ServiceKept.dropService (h : ServiceKept s t) : ServiceKept s { t with isu := t.isu.dropService } :=
  h.with_isu (fun _ => .dropService _) le_rfl le_rfl

/-- The entry into DETACHED keeps them: the reception ends, and the service is dropped. -/
theorem ServiceKept.enterDetached (h : ServiceKept s t) : ServiceKept s t.enterDetached := by
  refine h.dropService.quiet ?_ ?_ <;>
  · simp only [State.enterDetached]
    split <;> simp

/-- The return to HALTED of a LEAVE keeps them. -/
theorem ServiceKept.leaveToHalted (h : ServiceKept s t) : ServiceKept s t.leaveToHalted :=
  h.quiet (by simp [State.leaveToHalted]) (by simp [State.leaveToHalted])

/-- The entry into LEAVING keeps them. -/
theorem ServiceKept.enterLeaving (h : ServiceKept s t) : ServiceKept s t.enterLeaving :=
  ServiceKept.testLeave (by exact h)

/-- The departure of a station keeps them (R148). -/
theorem ServiceKept.departure (h : ServiceKept s t) (d : Station) (cause : DepartureCause) :
    ServiceKept s (t.departure d cause) := by
  by_cases hd : d = t.mc.sid
  · rw [State.departure, if_pos hd]
    exact h
  · obtain ⟨-, -, -, hisu, htif, -⟩ := t.cleaned_fields d cause
    have hdeparted : ServiceKept s { t with isu := t.isu.departure d } := h.with_isu (.departure d) le_rfl le_rfl
    have hcleaned : ServiceKept s (t.cleaned d cause) := by
      rw [ServiceKept, hisu, htif]
      exact hdeparted
    rw [State.departure_eq hd]
    exact hcleaned.testSync.afterHead.testFlush

/-! ### Own frames -/

/-- The SQ head gone keeps them. -/
theorem ServiceKept.popSq (h : ServiceKept s t) : ServiceKept s { t with isu := t.isu.popSq } := by
  obtain ⟨hiq, hnq⟩ := t.isu.popSq_queues
  exact h.with_isu .pop (hiq ▸ le_rfl) (hnq ▸ le_rfl)

/-- Changed counts keep them. -/
theorem ServiceKept.withCounts (h : ServiceKept s t) (src : Source) (c : Counts) : ServiceKept s (t.withCounts src c) := by
  cases src with
  | sqHead => exact h.with_isu (fun hl => hl.congr rfl rfl) le_rfl le_rfl
  | sync | bye | roster | evict d | release n | claim n | rqHead => exact h

/-- A head given up keeps them. -/
theorem ServiceKept.giveUpHead (h : ServiceKept s t) (st : Status) : ServiceKept s (t.giveUpHead st) := by
  rw [State.giveUpHead]
  split <;> exact h

/-- An abandoned frame keeps them. -/
theorem ServiceKept.abandon (h : ServiceKept s t) (src : Source) : ServiceKept s (t.abandon src) := by
  cases src with
  | sqHead =>
    simp only [State.abandon]
    split
    · exact h
    · exact ServiceKept.afterResponse (by exact h.popSq)
  | sync => exact h.fatal _ _
  | bye => exact ServiceKept.enterDetached (by exact h)
  | roster | evict d | release n => exact h
  | claim n =>
    simp only [State.abandon]
    split
    · exact h
    · exact ServiceKept.nextClaim (by exact h)
  | rqHead => exact (h.giveUpHead _).afterHead

/-- A voided frame keeps them. -/
theorem ServiceKept.voidFrame (h : ServiceKept s t) (src : Source) : ServiceKept s (t.voidFrame src) := by
  rw [State.voidFrame]
  split
  · exact h
  · split
    · exact h.withCounts _ _
    · exact h.abandon _

/-- A COLLIDED frame whose void count rises keeps them. -/
theorem ServiceKept.collideVoid (h : ServiceKept s t) (src : Source) : ServiceKept s (t.collideVoid src) := by
  rw [State.collideVoid]
  split
  · exact h
  · split
    · exact h.withCounts _ _
    · have hbit : ServiceKept s (t.abandonAtBit src) := ServiceKept.abandon (by exact h) src
      cases src with
      | sync | bye => exact h
      | rqHead => exact h.abandon _
      | sqHead | roster | evict d | release n | claim n => exact hbit

/-- What an abandoned own frame is owed keeps them. -/
theorem ServiceKept.finishSpent (h : ServiceKept s t) : ServiceKept s t.finishSpent := by
  rw [State.finishSpent]
  split
  · exact h
  · exact h
  · exact ServiceKept.abandon (by exact h) _
  · exact ServiceKept.abandon (by exact h) _

/-- A LOST frame keeps them. -/
theorem ServiceKept.lose (h : ServiceKept s t) (f : Flight) : ServiceKept s (t.lose f) := by
  generalize hx : { t with tif := { t.tif with flight := none, collisions := 0 } } = x
  have h₁ : ServiceKept s x := by rw [← hx]; exact h
  simp only [State.lose, hx]
  split
  · exact h₁
  · split
    · split
      · exact h₁.leaveToHalted
      · split
        · exact h₁
        · exact h₁.withCounts _ _
    · split
      · exact h₁
      · split
        · exact h₁
        · exact h₁.withCounts _ _
    · split
      · exact h₁
      · exact h₁.withCounts _ _

/-- A COLLIDED frame keeps them. -/
theorem ServiceKept.collide (h : ServiceKept s t) (f : Flight) : ServiceKept s (t.collide f) := by
  generalize hx : { t with tif := { t.tif with
    flight := none, collisions := t.tif.collisions + 1, collidedHere := true } } = x
  have h₁ : ServiceKept s x := by rw [← hx]; exact h
  simp only [State.collide, hx]
  split
  · exact h₁.fatal _ _
  · split
    · exact h₁
    · split
      · split
        · exact h₁.leaveToHalted
        · exact h₁.collideVoid _
      · split
        · exact h₁
        · exact h₁.collideVoid _
      · exact h₁.collideVoid _

/-- A bit compared keeps them, whatever comes of it. -/
theorem ServiceKept.compared (h : ServiceKept s t) (p : Nat) :
    ServiceKept s (t.lostAt p) ∧ ServiceKept s (t.collidedAt p) := by
  constructor
  · rw [State.lostAt]
    split
    · exact h
    · split
      · exact h.lose _
      · exact h
  · rw [State.collidedAt]
    split
    · exact h
    · split
      · exact h.collide _
      · exact h

/-- The outcome of the own SYNC keeps them. -/
theorem ServiceKept.syncEnds (h : ServiceKept s t) (accept : Bool) (o : Outcome) :
    ServiceKept s (t.syncEnds accept o) := by
  unfold State.syncEnds
  split
  · rw [State.waitedSyncEnds]
    split
    · exact ServiceKept.enterLeaving (by exact h)
    · exact h.leaveToHalted
  · cases o with
    | rejected => exact h.fatal _ _
    | taken =>
      simp only [State.syncTaken]
      split
      · split
        · exact h
        · exact ServiceKept.completeSync (by exact h)
      · split
        · exact h
        · exact ServiceKept.completeSync (by exact h)
      · exact h
    | lost | collided | voided | unanswered => exact h.voidFrame _

/-- The outcome of the own ROSTER keeps them. -/
theorem ServiceKept.rosterEnds (h : ServiceKept s t) (o : Outcome) : ServiceKept s (t.rosterEnds o) := by
  cases o with
  | voided => exact h.voidFrame _
  | taken | lost | collided | rejected | unanswered => exact h

/-- The outcome of the own CLAIM keeps them. -/
theorem ServiceKept.claimFrameEnds (h : ServiceKept s t) (f : Flight) (o : Outcome) :
    ServiceKept s (t.claimFrameEnds f o) := by
  rw [State.claimFrameEnds]
  split
  · simp only [State.claimEnds]
    split
    · split
      · exact h
      · exact h
      · split
        · exact h
        · exact h.abandon _
    · split
      · exact ServiceKept.nextClaim (by exact h)
      · exact ServiceKept.nextClaim (by exact h)
      · exact h.voidFrame _
  · exact h

/-- The outcome of the own RELEASE keeps them. -/
theorem ServiceKept.releaseFrameEnds (h : ServiceKept s t) (f : Flight) (o : Outcome) :
    ServiceKept s (t.releaseFrameEnds f o) := by
  rw [State.releaseFrameEnds]
  split
  · cases o with
    | taken =>
      simp only [State.releaseEnds]
      split
      · exact h
      · exact ServiceKept.testLeave (by exact h)
    | voided =>
      simp only [State.releaseEnds]
      split
      · exact h
      · exact h.voidFrame _
    | lost | collided | rejected | unanswered => exact h
  · exact h

/-- The outcome of the own EVICT keeps them. -/
theorem ServiceKept.evictFrameEnds (h : ServiceKept s t) (f : Flight) (o : Outcome) :
    ServiceKept s (t.evictFrameEnds f o) := by
  rw [State.evictFrameEnds]
  split
  · cases o with
    | taken => exact h.departure _ _
    | voided => exact h.voidFrame _
    | lost | collided | rejected | unanswered => exact h
  · exact h

/-- The outcome of the own BYE keeps them. -/
theorem ServiceKept.byeEnds (h : ServiceKept s t) (o : Outcome) : ServiceKept s (t.byeEnds o) := by
  cases o with
  | taken => exact h.enterDetached
  | voided => exact h.voidFrame _
  | lost | collided | rejected | unanswered => exact h

/-- A REJECTED head keeps them. -/
theorem ServiceKept.headRejected (h : ServiceKept s t) : ServiceKept s t.headRejected := by
  rw [State.headRejected]
  split
  · exact h
  · split
    · exact h
    · exact (h.giveUpHead _).afterHead

/-- The outcome of the RQ head's frame keeps them. -/
theorem ServiceKept.requestEnds (h : ServiceKept s t) (f : Flight) (o : Outcome) :
    ServiceKept s (t.requestEnds f o) := by
  have h₁ : ServiceKept s { t with mc := t.mc.reportOutcome f.frame.dest o } := h
  simp only [State.requestEnds]
  split
  · exact h
  · split
    · exact ServiceKept.afterHead (by exact h)
    · exact h₁.headRejected
    · exact (h₁.giveUpHead _).afterHead
    · exact h₁.voidFrame _

/-- The outcome of the SQ head's frame keeps them. -/
theorem ServiceKept.responseEnds (h : ServiceKept s t) (f : Flight) (o : Outcome) :
    ServiceKept s (t.responseEnds f o) := by
  have h₁ : ServiceKept s { t with mc := t.mc.reportOutcome f.frame.dest o } := h
  simp only [State.responseEnds]
  split
  · exact h
  · split
    · exact h₁.popSq.afterResponse
    · exact h₁.popSq.afterResponse
    · exact h₁.voidFrame _

/-- A moment of an own frame keeps them where its outcome does. -/
theorem ServiceKept.ownFrame (h : ServiceKept s t) (src : Source → Bool) (moment : TxMoment)
    {ends : Slots → Flight → Outcome → State → State}
    (hends : ∀ levels f o, ServiceKept s t.endFlight → ServiceKept s (ends levels f o t.endFlight)) :
    ServiceKept s (t.ownFrame src moment ends) := by
  cases moment with
  | lastCheckBit =>
    obtain ⟨p, hp, -⟩ := t.ownLastCheckBit_frame src
    rw [State.ownFrame, hp]
    exact h
  | endOfTrailer levels =>
    simp only [State.ownFrame, State.atTrailer]
    split
    · exact h
    · split
      · exact hends _ _ _ h
      · exact h

/-- The beginning of a frame keeps them: it ends the reception. -/
theorem ServiceKept.begin (h : ServiceKept s t) : ServiceKept s t.begin := by
  rw [State.begin]
  split
  · split
    · exact h
    · split
      · exact h
      · exact h.quiet rfl rfl
  · exact h

/-! ### What is received -/

/-- Only a delivery planned is carried out as one (R138). -/
theorem Reception.planNow_deliver {r : Reception} {b : RequestBody} {p : ServicePlan} (h : r.planNow b p = .deliver) :
    p = .deliver := by
  cases p with
  | deliver => rfl
  | answer st | drop => cases h

/-- A request carried out keeps them: a delivery has room in the IQ, and an answer gets its record. -/
theorem ServiceKept.applyRequest (h : ServiceKept s t) (hrx : t.tif.rx = none) (m : Message) (b : RequestBody)
    {p : ServicePlan} (hroom : InboundLaws s.tif s.isu → p = .deliver → t.isu.iq.length < Config.iqDepth) :
    ServiceKept s (t.applyRequest m b p) := by
  refine ServiceKept.testFlush ?_
  cases p with
  | deliver =>
    obtain ⟨hiq, hnq⟩ := t.isu.deliver_queues m b
    exact h.enqueue hrx (fun hl => hl.deliver m b) (fun hin => hiq.trans (hroom hin rfl))
      (fun hin => hnq ▸ (h.2 hin).nq)
  | answer st =>
    obtain ⟨hiq, hnq⟩ := t.isu.answer_queues m b st
    exact h.with_isu (fun hl => hl.answer m b st) (hiq ▸ le_rfl) (hnq ▸ le_rfl)
  | drop => exact h

/-- A taken ROSTER keeps them. -/
theorem ServiceKept.applyRoster (h : ServiceKept s t) (p : Station) (w : Word) (ps : List (Word × Word)) :
    ServiceKept s (t.applyRoster p w ps) := by
  rw [State.applyRoster]
  split
  · have hnoted : ServiceKept s (t.noteRoster p w) := h
    exact ServiceKept.testSync (hnoted.frame (by simp) (by simp))
  · exact h

/-- A taken response keeps them. -/
theorem ServiceKept.applyResponse (h : ServiceKept s t) (p : Station) (tag : Tag) (b : ResponseBody) :
    ServiceKept s (t.applyResponse p tag b) := by
  rw [State.applyResponse]
  split
  · exact ServiceKept.afterHead (by exact h)
  · exact h

/-- What a member applies from a taken frame keeps them, where the frame finds the room it was promised (R138, R154). -/
theorem ServiceKept.applyAccepted (h : ServiceKept s t) (hrx : t.tif.rx = none) (r : Reception) {m : Message}
    {p : Option ServicePlan} (hfits : InboundLaws s.tif s.isu → (Verdict.accept m p).fits t.isu) :
    ServiceKept s (t.applyAccepted r m p) := by
  rw [State.applyAccepted]
  split
  · exact h.departure _ _
  · exact h.applyRoster _ _ _
  · exact (ServiceKept.testSync (by exact h)).recheckClaim
  · exact h
  · exact h.departure _ _
  · exact h.departure _ _
  · split
    · exact h.applyRequest hrx m _ (fun hin hp => (hfits hin).1 (congrArg some (Reception.planNow_deliver hp)))
    · exact h
  · exact h.applyResponse _ _ _
  · next v hv =>
    exact h.enqueue hrx (fun hl => hl.congr rfl rfl) (fun hin => (h.2 hin).iq)
      (fun hin => by simpa using (hfits hin).2 v hv)

/-- The end of a trailer keeps them, where the frame finds the room it was promised. -/
theorem ServiceKept.applyVerdict (h : ServiceKept s t) (hrx : t.tif.rx = none) {r : Reception} (taken : Bool)
    (hfits : InboundLaws s.tif s.isu → r.verdict.fits t.isu) : ServiceKept s (t.applyVerdict r taken) := by
  rw [State.applyVerdict]
  split
  · next m p hv =>
    split
    · exact ServiceKept.applyAccepted (t := t.hear m.source) h hrx r (fun hin => hv ▸ hfits hin)
    · exact h.testFlush
  · split <;> exact h
  · exact h
  · exact h

/-- The start bit of a frame keeps them. -/
theorem ServiceKept.rxStart (h : ServiceKept s t) : ServiceKept s t.rxStart := by
  by_cases hr : t.tif.receiver = .ready
  · exact h.quiet (by simp [State.rxStart, hr]) rfl
  · simp only [State.rxStart, if_neg hr]
    exact h

/-- The decision keeps them: it promises no more room than there is. -/
theorem ServiceKept.rxDecide (h : ServiceKept s t) (x : Heard) : ServiceKept s (t.rxDecide x) := by
  rw [State.rxDecide]
  split
  · refine ⟨h.1, fun hin => ⟨(h.2 hin).iq, (h.2 hin).nq, fun r hr => ?_⟩⟩
    dsimp only at hr
    split at hr
    · obtain rfl := Option.some.inj hr
      exact t.decide_fits x.message
    · cases hr
  · exact h

/-- The end of a trailer keeps them: the frame finds the room its verdict promised. -/
theorem ServiceKept.rxEnd (h : ServiceKept s t) (x : Heard) (others : Slots) : ServiceKept s (t.rxEnd x others) := by
  generalize hu : { t with tif := { t.tif with receiver := .unsynced, rx := none, collidedHere := false } } = u
  have h₁ : ServiceKept s u := h.quiet (by rw [← hu]) (by rw [← hu])
  obtain ⟨hiq, hnq, hquiet⟩ := u.finishSpent_inbound
  simp only [State.rxEnd, hu]
  split
  · split
    · exact h₁.finishSpent
    · next r hr =>
      refine h₁.finishSpent.applyVerdict (hquiet (by rw [← hu])) _ (fun hin => ?_)
      have hisu : u.isu = t.isu := by rw [← hu]
      exact ((h.2 hin).room r hr).mono (by rw [hiq, hisu]) (by rw [hnq, hisu])
  · exact h

/-- A reception keeps them at each of its moments. -/
theorem ServiceKept.receive (h : ServiceKept s t) (x : Heard) (moment : RxMoment) : ServiceKept s (t.receive x moment) := by
  cases moment with
  | startBit => exact h.rxStart
  | lastCheckBit => exact h.rxDecide x
  | slotSampled slot =>
    rw [State.receive, State.rxSlot]
    split
    · exact h.mark (f := fun r => { r with late := r.late.or (some slot) }) (fun _ => rfl) rfl rfl
    · exact h
  | endOfTrailer others => exact h.rxEnd x others
  | whole others => exact (h.rxStart.rxDecide x).rxEnd x others

/-- Sampled bits received keep them. -/
theorem ServiceKept.receiveBits (h : ServiceKept s t) (bits : List Bool) (periods : List Nat) (moment : RxMoment) :
    ServiceKept s (t.receiveBits bits periods moment) := by
  unfold State.receiveBits
  split
  · exact h.receive _ _
  · exact h.rxStart
  · exact h.rxStart
  · exact h

/-- An idle report keeps them: it ends the reception. -/
theorem ServiceKept.idleObserved (h : ServiceKept s t) : ServiceKept s t.idleObserved := by
  simp only [State.idleObserved]
  split
  · split
    · exact h.quiet (by simp) rfl
    · exact (ServiceKept.testFlush (h.quiet (by rfl) (by rfl))).finishSpent
  · exact h

/-! ### The local port -/

/-- An accepted command keeps them: a FLUSH answers what it finds, a RESTART empties the ISU. -/
theorem ServiceKept.effect (h : ServiceKept s t) (c : Command) : ServiceKept s (c.effect t) := by
  cases c with
  | join =>
    simp only [Command.effect, State.joinAccepted]
    split
    · exact ServiceKept.finish (by exact h) _
    · split
      · exact ServiceKept.finish (by exact h) _
      · exact h
  | leave =>
    have h₁ : ServiceKept s ((t.finish .aborted).accept .leave) := h.finish .aborted
    simp only [Command.effect, State.leaveAccepted]
    split
    · exact h₁.leaveToHalted
    · split
      · exact h₁.leaveToHalted
      · exact h₁
    · exact h₁.enterLeaving
  | flush =>
    have hflushed : ServiceKept s { t with isu := t.isu.flush } := h.with_isu .flush (Nat.zero_le _) (Nat.zero_le _)
    exact ServiceKept.testFlush
      (hflushed.mark (f := fun r => { r with flushedSince := true }) (fun _ => rfl) (by rfl) (by rfl))
  | restart =>
    refine .emptied s ?_ ?_
    · simp only [Command.effect, State.restartAccepted, State.finish_frame, State.accept_frame, State.enter_frame]
      rfl
    · simp only [Command.effect, State.restartAccepted, State.finish_frame, State.accept_frame, State.enter_frame]

/-- A command write keeps them, refused or accepted. -/
theorem ServiceKept.takeCommand (h : ServiceKept s t) (c : Command) : ServiceKept s (t.takeCommand c c.effect) := by
  rw [State.takeCommand]
  split
  · exact h
  · exact h
  · exact h.effect c

/-- An RQ push keeps them. -/
theorem ServiceKept.rqPush (h : ServiceKept s t) : ServiceKept s t.rqPush := by
  rw [State.rqPush]
  split
  · exact h
  · split
    · exact h
    · split
      · exact h
      · split
        · exact h
        · split <;> exact h

/-- An SQ push keeps them: the entry it answers was AWAITING. -/
theorem ServiceKept.sqPush (h : ServiceKept s t) : ServiceKept s t.sqPush := by
  simp only [State.sqPush]
  split
  · exact h
  · split
    · exact h
    · split
      · exact h
      · next r hr =>
        split
        · obtain ⟨hiq, hnq⟩ := t.isu.answerPushed_queues (stagedResponse t.lpu.sqStage) r
          have hpushed := h.with_isu (fun hl => hl.answerPushed hr) (hiq ▸ le_rfl) (hnq ▸ le_rfl)
          exact ServiceKept.testLeave (by exact hpushed)
        · exact h

/-- A CQ pop keeps them. -/
theorem ServiceKept.cqPop (h : ServiceKept s t) : ServiceKept s t.cqPop := by
  rw [State.cqPop]
  split
  · exact h
  · exact ServiceKept.afterHead (by exact h)

/-- An IQ pop keeps them: the IQ gets shorter (R141). -/
theorem ServiceKept.iqPop (h : ServiceKept s t) : ServiceKept s t.iqPop := by
  rw [State.iqPop]
  split
  · exact h
  · next r rest hq =>
    obtain ⟨hiq, hnq⟩ := t.isu.popIq_queues r rest
    have hpopped : ServiceKept s { t with isu := t.isu.popIq r rest } :=
      h.with_isu (fun hl => hl.popIq r rest) (by simp [hiq, hq]) (by rw [hnq])
    exact hpopped

/-- An NQ pop keeps them: the NQ gets shorter (R156). -/
theorem ServiceKept.nqPop (h : ServiceKept s t) : ServiceKept s t.nqPop := by
  rw [State.nqPop]
  split
  · exact h
  · next hq => exact h.with_isu (fun hl => hl.congr rfl rfl) le_rfl (by simp [hq])

/-- A fault pop and a Setup write keep them. -/
theorem ServiceKept.plain (h : ServiceKept s t) :
    ServiceKept s t.faultPop ∧ ∀ i v, ServiceKept s (t.setupWrite i v) := by
  refine ⟨?_, fun i v => ?_⟩
  · rw [State.faultPop]
    split <;> exact h
  · rw [State.setupWrite]
    split <;> exact h

/-- A write of the command word keeps them. -/
theorem ServiceKept.commandWrite (h : ServiceKept s t) (v : Word) : ServiceKept s (t.commandWrite v) := by
  simp only [State.commandWrite]
  split
  · exact h.takeCommand .join
  · split
    · exact h.takeCommand .leave
    · split
      · exact h.takeCommand .flush
      · split
        · exact h.takeCommand .restart
        · exact h

/-- A write access keeps them. -/
theorem ServiceKept.registerWrite (h : ServiceKept s t) (a : BitVec 10) (v : Word) (readStrobe : Bool) :
    ServiceKept s (t.registerWrite a v readStrobe) := by
  obtain ⟨hfault, hsetup⟩ := h.plain
  rw [State.registerWrite]
  split
  · exact h
  · cases portWord a with
    | view _ | unassigned | cause | mask | severityEnable | rqStage i | sqStage i => exact h
    | command => exact h.commandWrite v
    | setup i => exact hsetup i v
    | rqPush => exact h.rqPush
    | sqPush => exact h.sqPush
    | cqPop => exact h.cqPop
    | iqPop => exact h.iqPop
    | nqPop => exact h.nqPop
    | faultPop => exact hfault

/-! ### The timers -/

/-- The expiries of the ORE's timers keep them. -/
theorem ServiceKept.requestTimers (h : ServiceKept s t) (tag : Tag) :
    ServiceKept s t.holdoffExpires ∧ ServiceKept s (t.responseTimerExpires tag) ∧
    ServiceKept s (t.quarantineExpires tag) := by
  refine ⟨?_, ?_, ?_⟩
  · rw [State.holdoffExpires]
    split <;> exact h
  · rw [State.responseTimerExpires]
    split
    · exact ServiceKept.testLeave (by exact h)
    · exact h
  · rw [State.quarantineExpires]
    split
    · exact ServiceKept.afterHead (by exact h)
    · exact h

/-- A settle expiry keeps them. -/
theorem ServiceKept.settleExpires (h : ServiceKept s t) : ServiceKept s t.settleExpires := by
  rw [State.settleExpires]
  split
  · split
    · exact h
    · exact ServiceKept.fatal (by exact h) _ _
  · exact h

/-- The leave deadline keeps them: the service is dropped, and the reception marked (R60, R138). -/
theorem ServiceKept.leaveDeadlineExpires (h : ServiceKept s t) : ServiceKept s t.leaveDeadlineExpires := by
  rw [State.leaveDeadlineExpires]
  split
  · exact ServiceKept.finish
      (h.dropService.mark (f := fun r => { r with deadlineSince := true }) (fun _ => rfl) (by rfl) (by rfl)) _
  · exact h

/-! ### The step -/

/-- A row that acts while RESET_N is released keeps what its effect keeps. -/
theorem ServiceKept.released {effect : State → State} (ht : released effect s = .next t)
    (he : ServiceKept s (effect s)) : ServiceKept s t := by
  obtain rfl := Host.Outcome.next.inj ht
  split
  · exact .refl s
  · exact he

/-- Every command keeps the service laws. -/
theorem ServiceKept.exec {c : Instr} (ht : exec c s = .next t) : ServiceKept s t := by
  have h := ServiceKept.refl s
  obtain ⟨hfault, hsetup⟩ := h.plain
  cases c with
  | resetNAsserted | resetNReleased sid rate =>
    obtain rfl := Host.Outcome.next.inj ht
    exact .emptied s rfl rfl
  | join => exact .released ht (h.takeCommand .join)
  | leave => exact .released ht (h.takeCommand .leave)
  | flush => exact .released ht (h.takeCommand .flush)
  | restart => exact .released ht (h.takeCommand .restart)
  | rqPush => exact .released ht h.rqPush
  | sqPush => exact .released ht h.sqPush
  | cqPop => exact .released ht h.cqPop
  | iqPop => exact .released ht h.iqPop
  | nqPop => exact .released ht h.nqPop
  | faultPop => exact .released ht hfault
  | setupWrite i v => exact .released ht (hsetup i v)
  | causeWrite v | maskWrite v | severityEnableWrite v | burstNotAFrame => exact .released ht h
  | registerWrite a v r => exact .released ht (h.registerWrite a v r)
  | trunkIdleObserved => exact .released ht h.idleObserved
  | beginningAFrame => exact .released ht h.begin
  | lost bit => exact .released ht (h.compared _).1
  | collided bit => exact .released ht (h.compared _).2
  | syncOutcome m => exact .released ht (h.ownFrame _ m (fun levels _ o he => he.syncEnds levels.accept o))
  | rosterOutcome m => exact .released ht (h.ownFrame _ m (fun _ _ o he => he.rosterEnds o))
  | claimOutcome m => exact .released ht (h.ownFrame _ m (fun _ f o he => he.claimFrameEnds f o))
  | releaseOutcome m => exact .released ht (h.ownFrame _ m (fun _ f o he => he.releaseFrameEnds f o))
  | evictOutcome m => exact .released ht (h.ownFrame _ m (fun _ f o he => he.evictFrameEnds f o))
  | byeOutcome m => exact .released ht (h.ownFrame _ m (fun _ _ o he => he.byeEnds o))
  | requestFrameOutcome m => exact .released ht (h.ownFrame _ m (fun _ f o he => he.requestEnds f o))
  | responseFrameOutcome m => exact .released ht (h.ownFrame _ m (fun _ f o he => he.responseEnds f o))
  | malformedFrame bits periods m => exact .released ht (h.receiveBits bits periods m)
  | syncReceived p m | rosterReceived p w ps m | claimReceived p b d m | releaseReceived p b m | evictReceived p w m
  | byeReceived p m | requestReceived p t b m | responseReceived p t b m | signalReceived p b v m
  | frameForAnotherStation p d u m => exact .released ht (h.receive _ m)
  | headPreparation => exact .released ht h.afterHead
  | holdoffExpiry => exact .released ht (h.requestTimers 0).1
  | responseTimerExpiry tag => exact .released ht (h.requestTimers tag).2.1
  | quarantineExpiry tag => exact .released ht (h.requestTimers tag).2.2
  | settleTimerExpiry => exact .released ht h.settleExpires
  | leaveDeadlineExpiry => exact .released ht h.leaveDeadlineExpires

end

/-- Settles O58: each command keeps the service laws, and the queue of commands has no part in them. -/
theorem serviceLawsKept : Obligations.ServiceLawsKept := by
  intro s t hstep
  have hkept : ServiceKept s t := by
    rw [step] at hstep
    split at hstep
    · exact Host.Outcome.next.inj hstep ▸ .refl s
    · next rest _ =>
      have hrun : ServiceKept { s with pending := rest } t := .exec hstep
      exact hrun
  exact ⟨hkept.1, fun h => (inboundLaws_iff _ _).2 (hkept.2 h)⟩

end Sys2Proof.Machine
end

section
/-! PROOF. The response push: its checks in the order of R144, and what it makes of the entry it answers. -/

namespace Sys2Proof.Machine

/-- A push answers no entry: its handle is 16 or more, or not AWAITING (R144). -/
theorem Isu.awaiting_eq_none (i : Isu) (h : BitVec 5) :
    i.awaiting h = none ↔ 16 ≤ h.toNat ∨ ∀ r, i.itt.at (h.setWidth 4) = some r → r.state ≠ .awaiting := by
  simp only [Option.eq_none_iff_forall_ne_some, ne_eq, Isu.awaiting_eq_some, not_and, ← Nat.not_lt]
  by_cases hh : h.toNat < 16 <;> simp [hh]

/-- The count that fits: the length for a READ answered OK, 0 for every other answer (R144). -/
theorem StagedResponse.countFits_iff (p : StagedResponse) (r : IttRecord) :
    p.countFits r = true ↔ p.count = if p.status = 0 ∧ r.cwrite = false then r.length else 0 := by
  rw [StagedResponse.countFits]
  split <;> exact beq_iff_eq

/-- An orphaned entry goes FREE (R145). -/
theorem Isu.answerPushed_orphaned (i : Isu) (p : StagedResponse) {r : IttRecord} (h : r.orphaned = true) :
    i.answerPushed p r = { i with itt := i.itt.put (p.handle.setWidth 4) none } := by
  simp only [Isu.answerPushed, h, if_true]

/-- Any other goes to ANSWERING with a record at the SQ tail (R145, R146). -/
theorem Isu.answerPushed_queued (i : Isu) (p : StagedResponse) {r : IttRecord} (h : r.orphaned = false) :
    i.answerPushed p r = { i with
      itt := i.itt.put (p.handle.setWidth 4) (some { r with state := .answering })
      sq := i.sq ++ [⟨p.handle.setWidth 4, r.source, r.tag,
        if p.status = 0 then (if r.cwrite then .done else .data p.data) else .fail 5⟩]
      sqCounts := if i.sq.isEmpty then Counts.zero else i.sqCounts } := by
  simp only [Isu.answerPushed, h, Bool.false_eq_true, if_false]
  rfl

/-- The state of an accepted push before the leave test: the entry answered, the result ACCEPTED (R145). -/
def State.sqPushed (s : State) (r : IttRecord) : State :=
  State.sqResult .accepted { s with isu := s.isu.answerPushed (stagedResponse s.lpu.sqStage) r }

/-- SQ_PUSH runs the push while RESET_N is released. -/
theorem exec_sqPush {s : State} (hr : s.resetAsserted = false) : exec .sqPush s = .next s.sqPush := by
  simp only [exec, execSqPush, released, hr]
  rfl

/-- A member refuses a status other than 0 and 5 (R144). -/
theorem State.sqPush_badStatus {s : State} (hm : s.mc.state.isMember = true)
    (hst : ¬((stagedResponse s.lpu.sqStage).status = 0 ∨ (stagedResponse s.lpu.sqStage).status = 5)) :
    s.sqPush = s.sqResult .badDescriptor := by
  simp only [State.sqPush, hm, hst, decide_false, Bool.not_true, Bool.not_false, Bool.false_eq_true, if_false, if_true]

section

variable {s : State} (hm : s.mc.state.isMember = true)
  (hst : (stagedResponse s.lpu.sqStage).status = 0 ∨ (stagedResponse s.lpu.sqStage).status = 5)
include hm hst

/-- With the first two checks passed, a push that answers no entry is refused (R144). -/
theorem State.sqPush_badHandle (h : s.isu.awaiting (stagedResponse s.lpu.sqStage).handle = none) :
    s.sqPush = s.sqResult .badHandle := by
  simp only [State.sqPush, hm, hst, h, decide_true, Bool.not_true, Bool.false_eq_true, if_false]

/-- One that answers an entry is taken where its count fits (R144, R145). -/
theorem State.sqPush_awaiting {r : IttRecord} (h : s.isu.awaiting (stagedResponse s.lpu.sqStage).handle = some r) :
    s.sqPush = if (stagedResponse s.lpu.sqStage).countFits r = true then (s.sqPushed r).testLeave
      else s.sqResult .badLength := by
  simp only [State.sqPush, hm, hst, h, decide_true, Bool.not_true, Bool.false_eq_true, if_false]
  rfl

end

/-- The leave test leaves the leave condition as it was. -/
theorem State.testLeave_leaveCondition (s : State) : s.testLeave.leaveCondition = s.leaveCondition := by
  simp [State.leaveCondition]

/-- Settles O14, check by check. -/
theorem sqPush : Obligations.SqPush := by
  intro s hr p h answer
  rw [exec_sqPush hr]
  have hentry : ∀ r, p.handle.toNat < 16 → s.isu.itt.at h = some r → r.state = .awaiting →
      s.isu.awaiting p.handle = some r := fun r hh he hs => (Isu.awaiting_eq_some _ _ _).2 ⟨hh, he, hs⟩
  refine ⟨fun hm => ?_, fun hm h0 h5 => ?_, fun hm hst hnone => ?_, fun r hm hst hh he hs hcount => ?_,
    fun r hm hst hh he hs hcount => ?_⟩
  · simp only [State.sqPush, hm, Bool.not_false, if_true]
    rfl
  · rw [State.sqPush_badStatus hm (not_or.2 ⟨h0, h5⟩)]
    rfl
  · rw [State.sqPush_badHandle hm hst ((Isu.awaiting_eq_none _ _).2 hnone)]
    rfl
  · rw [State.sqPush_awaiting hm hst (hentry r hh he hs), if_neg (mt (StagedResponse.countFits_iff _ _).1 hcount)]
    rfl
  · rw [State.sqPush_awaiting hm hst (hentry r hh he hs), if_pos ((StagedResponse.countFits_iff _ _).2 hcount)]
    refine ⟨_, rfl, by simp [State.sqPushed], by simp [State.sqPushed], by simp [State.sqPushed],
      by simp [State.sqPushed, answer], ?_, fun ho => ?_, fun ho => ?_⟩
    · rw [State.testLeave_mc, State.testLeave_leaveCondition]
      rfl
    · rw [(State.testLeave_frame _).2.2.2.2.1]
      exact Isu.answerPushed_orphaned _ _ ho
    · rw [(State.testLeave_frame _).2.2.2.2.1]
      exact Isu.answerPushed_queued _ _ ho

end Sys2Proof.Machine
end

section
/-! PROOF. A request addressed to the station: the decision on it, and what the end of its trailer carries out. -/

namespace Sys2Proof.Machine

/-! ### The plan (R137) -/

/-- The status of the answer to a request the station may not serve (R137). -/
def Ownership.refusal : Ownership → Status
  | .readOnly => .readOnly
  | _ => .notOwner

/-- There is a handle for a request: it needs none, or one is FREE. -/
theorem State.handleFree_iff (s : State) (b : RequestBody) :
    (requestPosted b || s.isu.freeHandle.isSome) = true ↔ requestPosted b = true ∨ ∃ h, s.isu.itt.at h = none := by
  rw [Bool.or_eq_true, Isu.freeHandle_isSome]

section

variable {s : State} {b : RequestBody}

/-- A FLUSH in progress leaves no plan. -/
theorem State.servicePlan_flushing (h : s.lpu.running = some .flush) : s.servicePlan b = none := by
  simp [State.servicePlan, State.flushing, h]

variable (hflush : s.lpu.running ≠ some .flush)
include hflush

/-- A request the station may serve is delivered where there is room and a handle. -/
theorem State.servicePlan_serve (ho : s.ownership b = .serve) :
    s.servicePlan b =
      if s.isu.iq.length < Config.iqDepth ∧ (requestPosted b || s.isu.freeHandle.isSome) = true then some .deliver
      else none := by
  simp only [State.servicePlan, State.flushing, beq_eq_false_iff_ne.2 hflush, ho, Bool.false_eq_true, if_false]

/-- One it may not serve is dropped if it is a WRITE, and else answered where a handle is FREE. -/
theorem State.servicePlan_refused (ho : s.ownership b ≠ .serve) :
    s.servicePlan b =
      if requestPosted b = true then some .drop
      else if s.isu.freeHandle.isSome = true then some (.answer (s.ownership b).refusal) else none := by
  simp only [State.servicePlan, State.flushing, beq_eq_false_iff_ne.2 hflush, Bool.false_eq_true, if_false]
  cases hb : s.ownership b with
  | serve => exact absurd hb ho
  | readOnly | notOwner => cases requestPosted b <;> rfl

end

/-! ### The decision at the last check bit -/

/-- REQUEST_RECEIVED is a reception of a request addressed to the station, at each of its moments. -/
theorem exec_requestReceived {s : State} (hr : s.resetAsserted = false) (p : Station) (tag : Tag) (b : RequestBody)
    (moment : RxMoment) :
    exec (.requestReceived p tag b moment) s =
      .next (s.receive (Heard.ofFields p s.mc.sid tag (.request b)) moment) := by
  simp only [exec, execRequestReceived, released, hr]
  rfl

/-- The tag a request is sent with: 0 for a WRITE (R8). -/
theorem sentTag_request (b : RequestBody) (tag : Tag) :
    (Content.request b).sentTag tag = if requestPosted b then 0 else tag := by
  cases b <;> rfl

/-- The verdict on a request is its plan, or REJECT where there is none. -/
theorem State.decideAddressed_request (s : State) (p d : Station) (tag : Tag) (b : RequestBody) :
    s.decideAddressed ⟨p, d, tag, .request b⟩ =
      (s.servicePlan b).elim (.reject ⟨p, d, tag, .request b⟩) (fun plan => .accept ⟨p, d, tag, .request b⟩ (some plan)) := by
  cases hplan : s.servicePlan b <;> simp [State.decideAddressed, hplan]

/-- REQUEST_RECEIVED at the last check bit, at a member that decides. -/
theorem exec_requestReceived_decides {s : State} {p : Station} {tag : Tag} {b : RequestBody} (h : s.decides)
    (hm : s.mc.state.isMember = true) (hw : (Instr.requestReceived p tag b .lastCheckBit).wellFormed = true) :
    exec (.requestReceived p tag b .lastCheckBit) s =
      .next { s with tif := { s.tif with
        receiver := .slots
        rx := some ⟨s.decideAddressed ⟨p, s.mc.sid, if requestPosted b then 0 else tag, .request b⟩,
          BitVec.ofNat 5 (Content.request b).body.length, false, false, none⟩ } } := by
  obtain ⟨hr, hsid, -⟩ := State.decides_number h
  have hk : (Content.request b).kind.cls = 2 := by cases b <;> rfl
  rw [exec_requestReceived hr, State.receive, State.rxDecide_of_decides h, Heard.ofFields_message, Heard.ofFields_count,
    heard_of_passes_to hw (Or.inr (Or.inl hk)) hsid, State.decide_addressed h hm (Or.inl rfl), sentTag_request]

/-- Settles O37: the verdict is the plan, clause by clause. -/
theorem requestDecision : Obligations.RequestDecision := by
  intro s p tag b h hm hw m decided handleFree serve posted
  have hdecided : ∀ plan, s.servicePlan b = plan →
      decided (plan.elim (.reject m) (fun plan => .accept m (some plan))) := by
    rintro _ rfl
    exact (State.decideAddressed_request s p s.mc.sid _ b) ▸ exec_requestReceived_decides h hm hw
  have hfree : s.isu.freeHandle.isSome = true ↔ handleFree := s.isu.freeHandle_isSome
  refine ⟨fun hflush => hdecided none (State.servicePlan_flushing hflush), fun hflush =>
    ⟨fun ho hroom hh => ?_, fun ho hnot => ?_, fun ho hp hh => ?_, fun ho hp hh => ?_, fun ho hp hh => ?_, fun ho hp => ?_⟩⟩
  · refine hdecided (some .deliver) ?_
    rw [State.servicePlan_serve hflush ho, if_pos ⟨hroom, (s.handleFree_iff b).2 hh⟩]
  · refine hdecided none ?_
    rw [State.servicePlan_serve hflush ho, if_neg]
    rintro ⟨hroom, hh⟩
    rcases hnot with hfull | ⟨hp, hnone⟩
    · exact absurd hroom (Nat.not_lt.2 hfull)
    · exact ((s.handleFree_iff b).1 hh).elim hp hnone
  · refine hdecided (some (.answer .notOwner)) ?_
    rw [State.servicePlan_refused hflush (by simp [ho]), if_neg hp, if_pos (hfree.2 hh), ho]
    rfl
  · refine hdecided (some (.answer .readOnly)) ?_
    rw [State.servicePlan_refused hflush (by simp [ho]), if_neg hp, if_pos (hfree.2 hh), ho]
    rfl
  · refine hdecided none ?_
    rw [State.servicePlan_refused hflush ho, if_neg hp, if_neg (mt hfree.1 hh)]
  · refine hdecided (some .drop) ?_
    rw [State.servicePlan_refused hflush ho, if_pos hp]

/-! ### The plan as it stands at the end of the trailer (R138) -/

/-- What a delivery becomes: a FLUSH start comes before the leave deadline. -/
theorem Reception.planNow_of_deliver (r : Reception) (b : RequestBody) :
    r.planNow b .deliver =
      if r.flushedSince = true then (if requestPosted b = true then .drop else .answer .flushed)
      else if r.deadlineSince = true then (if requestPosted b = true then .drop else .answer .notOwner)
      else .deliver := rfl

/-! ### What is carried out (R138 to R140, R142, R143) -/

/-- A posted request delivered takes no handle. -/
theorem Isu.deliver_posted (i : Isu) (m : Message) {b : RequestBody} (hb : requestPosted b = true) :
    i.deliver m b = { i with iq := i.iq ++ [iqRecord m b none] } := by
  rw [Isu.deliver, if_pos hb]

/-- Any other takes the lowest FREE handle, in DELIVERED. -/
theorem Isu.deliver_handle {i : Isu} {h : Handle} (m : Message) {b : RequestBody} (hb : requestPosted b = false)
    (hh : i.freeHandle = some h) :
    i.deliver m b = { i with
      itt := i.itt.put h (some (ittRecord m b .delivered))
      iq := i.iq ++ [iqRecord m b (some h)] } := by
  simp only [Isu.deliver, hb, hh, Bool.false_eq_true, if_false]

/-- An answer takes the lowest FREE handle, in ANSWERING, with its record at the SQ tail. -/
theorem Isu.answer_handle {i : Isu} {h : Handle} (m : Message) (b : RequestBody) (st : Status)
    (hh : i.freeHandle = some h) :
    i.answer m b st = { i with
      itt := i.itt.put h (some (ittRecord m b .answering))
      sq := i.sq ++ [⟨h, m.source, m.tag, .fail (BitVec.ofNat 32 st.code)⟩]
      sqCounts := if i.sq.isEmpty then Counts.zero else i.sqCounts } := by
  simp only [Isu.answer, hh]
  rfl

/-- A delivery carried out, by what it makes of the ISU. -/
theorem State.applyRequest_deliver {s : State} {m : Message} {b : RequestBody} {i : Isu} (h : s.isu.deliver m b = i) :
    s.applyRequest m b .deliver = State.testFlush { s with isu := i } := by
  rw [← h]
  rfl

/-- An answer carried out, by what it makes of the ISU. -/
theorem State.applyRequest_answer {s : State} {m : Message} {b : RequestBody} {st : Status} {i : Isu}
    (h : s.isu.answer m b st = i) : s.applyRequest m b (.answer st) = State.testFlush { s with isu := i } := by
  rw [← h]
  rfl

/-- A frame that was accepted with the clock in tolerance is taken by a member exactly where nobody else drives ERROR or REJECT
(R32, R34). -/
theorem State.takesAtEnd_accept {s : State} {r : Reception} {x : Heard} {others : Slots} {m : Message}
    {p : Option ServicePlan} (hm : s.mc.state.isMember = true) (hv : r.verdict = .accept m p) (hlate : r.late = none)
    (hclock : x.clockHeld = true) : s.takesAtEnd x others r = true ↔ others.clear := by
  have hdrives : r.drives = ⟨false, false, true⟩ := by rw [Reception.drives, hlate, hv]; rfl
  simp only [State.takesAtEnd, hm, hlate, hclock, hdrives, Option.isNone_none, Bool.true_and]
  refine ⟨fun htaken => ?_, takenBy_accept⟩
  by_contra hnot
  rw [takenBy_of_not_clear hnot] at htaken
  cases htaken

/-- The state once the trailer has ended (R6). -/
def State.trailerEnded (s : State) : State :=
  { s with tif := { s.tif with receiver := .unsynced, rx := none, collidedHere := false } }

section

variable {s : State} {m : Message} {b : RequestBody} {plan : ServicePlan} {count : BitVec 5} {fl dl : Bool}
  {others : Slots} (hr : s.resetAsserted = false) (hm : s.mc.state.isMember = true) (hslots : s.tif.receiver = .slots)
  (hf : s.tif.flight = none) (hspent : s.tif.spent = none)
  (hx : s.tif.rx = some ⟨.accept m (some plan), count, fl, dl, none⟩)
include hr hm hslots hf hspent hx

/-- REQUEST_RECEIVED at the end of the trailer of a request accepted: taken, it is carried out as its plan now stands. -/
theorem exec_requestReceived_taken (hb : m.content = .request b) (hc : others.clear) :
    exec (.requestReceived m.source m.tag b (.endOfTrailer others)) s =
      .next ((s.trailerEnded.hear m.source).applyRequest m b
        ((⟨.accept m (some plan), count, fl, dl, none⟩ : Reception).planNow b plan)) := by
  rw [exec_requestReceived hr, State.receive, State.rxEnd_of_slots _ others hslots hf hx hspent,
    (State.takesAtEnd_accept (r := ⟨.accept m (some plan), count, fl, dl, none⟩) hm rfl rfl
      (Heard.ofFields_clockHeld _ _ _ _)).2 hc]
  simp only [State.applyVerdict, State.applyAccepted, hb, if_true]
  rfl

/-- Not taken, it is applied nowhere, and holds a FLUSH no more (R163). -/
theorem exec_requestReceived_untaken (hc : ¬others.clear) :
    exec (.requestReceived m.source m.tag b (.endOfTrailer others)) s = .next s.trailerEnded.flushTested := by
  have hnot := mt (State.takesAtEnd_accept (r := ⟨.accept m (some plan), count, fl, dl, none⟩) hm rfl rfl
    (Heard.ofFields_clockHeld m.source s.mc.sid m.tag (.request b))).1 hc
  rw [exec_requestReceived hr, State.receive, State.rxEnd_of_slots _ others hslots hf hx hspent,
    Bool.eq_false_of_not_eq_true hnot, ← State.testFlush_eq_flushTested]
  rfl

end

/-- Settles O38: the plan as it stands is carried out, and the test of a FLUSH follows. -/
theorem requestTaken : Obligations.RequestTaken := by
  intro s m b plan count fl dl others hr hm hslots hf hspent hx hb ended alive runs lowest entry dropped answered
    answersWith
  have hlowest : ∀ h, lowest h → (s.trailerEnded.hear m.source).isu.freeHandle = some h :=
    fun h hh => (s.isu.freeHandle_eq_some h).2 hh
  have hruns : others.clear → ∀ {p t}, Reception.planNow ⟨.accept m (some plan), count, fl, dl, none⟩ b plan = p →
      (s.trailerEnded.hear m.source).applyRequest m b p = State.testFlush t → runs t := by
    rintro hc _ t rfl ht
    exact (exec_requestReceived_taken hr hm hslots hf hspent hx hb hc).trans
      (congrArg _ (ht.trans (State.testFlush_eq_flushTested t)))
  have hdropped : others.clear → Reception.planNow ⟨.accept m (some plan), count, fl, dl, none⟩ b plan = .drop →
      runs dropped := fun hc hp => hruns hc hp rfl
  have hanswers : others.clear → ∀ st : Status, (requestPosted b = false →
      Reception.planNow ⟨.accept m (some plan), count, fl, dl, none⟩ b plan = .answer st) →
      answersWith (BitVec.ofNat 32 st.code) := by
    intro hc st hp
    refine ⟨?_, ?_⟩
    · rintro h a l hh rfl
      exact hruns hc (hp rfl) (State.applyRequest_answer (Isu.answer_handle m _ st (hlowest h hh)))
    · rintro h a ds hh rfl
      exact hruns hc (hp rfl) (State.applyRequest_answer (Isu.answer_handle m _ st (hlowest h hh)))
  refine ⟨fun hc => exec_requestReceived_untaken hr hm hslots hf hspent hx hc, ?_, ?_, ?_, ?_, ?_, ?_⟩
  · rintro hc rfl rfl rfl
    refine ⟨?_, ?_, ?_⟩
    · rintro h a l hh rfl
      exact hruns hc rfl (State.applyRequest_deliver (Isu.deliver_handle m rfl (hlowest h hh)))
    · rintro h a ds hh rfl
      exact hruns hc rfl (State.applyRequest_deliver (Isu.deliver_handle m rfl (hlowest h hh)))
    · rintro a ds rfl
      exact hruns hc rfl (State.applyRequest_deliver (Isu.deliver_posted _ m rfl))
  · rintro hc rfl rfl
    refine ⟨hanswers hc .flushed (fun hp => by simp [Reception.planNow_of_deliver, hp]), ?_⟩
    rintro a ds rfl
    exact hdropped hc rfl
  · rintro hc rfl rfl rfl
    refine ⟨hanswers hc .notOwner (fun hp => by simp [Reception.planNow_of_deliver, hp]), ?_⟩
    rintro a ds rfl
    exact hdropped hc rfl
  · rintro hc rfl
    exact hanswers hc .notOwner (fun _ => rfl)
  · rintro hc rfl
    exact hanswers hc .readOnly (fun _ => rfl)
  · rintro hc rfl
    exact hdropped hc rfl

end Sys2Proof.Machine
end

section
/-! PROOF. The reception of a SIGNAL by a member: the room of the NQ decides it, and a taken one joins the NQ tail. -/

namespace Sys2Proof.Machine

/-- The destination of a SIGNAL tells whether it was sent to all: the number of a station is not that of all stations. -/
theorem signalDest_beq_allStations {sid : Station} (h : validStation sid = true) (broadcast : Bool) :
    ((if broadcast then allStations else sid) == allStations) = broadcast := by
  cases broadcast with
  | true => rfl
  | false =>
    have hne : sid ≠ allStations := by
      rintro rfl
      exact absurd h (by decide)
    simpa using hne

/-- SIGNAL_RECEIVED, whole, is a reception in tolerance on which a member decides by the room of the NQ (R153). -/
theorem State.receives_signal {s : State} {p : Station} {others : Slots} (h : s.hears)
    (hsid : validStation s.mc.sid = true) (hp : validStation p = true) (broadcast : Bool) (v : Word) :
    ∃ (y : Heard) (m : Message), y.clockHeld = true ∧
      (m.source = p ∧ m.content = .signal v ∧ (m.dest == allStations) = broadcast) ∧
      s.verdictOn y.message = (if s.isu.nq.length < 8 then .accept m none else .reject m) ∧
      exec (.signalReceived p broadcast v (.whole others)) s = .next (s.receive y (.whole others)) := by
  obtain ⟨hr, hmember, -, -⟩ := h
  have hsid0 : s.mc.sid ≠ 0#5 := fun h0 => absurd hsid (by rw [h0]; decide)
  have haddressed : (if broadcast then allStations else s.mc.sid) = s.mc.sid ∨
      (if broadcast then allStations else s.mc.sid) = allStations := by
    cases broadcast <;> simp
  refine ⟨Heard.ofFields p (if broadcast then allStations else s.mc.sid) 0 (.signal v), ⟨p, _, 0, .signal v⟩, rfl,
    ⟨rfl, rfl, signalDest_beq_allStations hsid broadcast⟩, ?_,
    by simp only [exec, execSignalReceived, released, hr]; rfl⟩
  rw [Heard.ofFields_message, heard_signal hp (signalDest_ne_zero hsid0 broadcast),
    State.verdictOn_addressed hmember haddressed]
  rfl

/-- A SIGNAL the member accepted, once taken, puts its record at the NQ tail (R154). -/
theorem State.applyAccepted_signal (s : State) (r : Reception) (m : Message) (plan : Option ServicePlan) {v : Word}
    (hv : m.content = .signal v) :
    s.applyAccepted r m plan =
      { s with isu := { s.isu with nq := s.isu.nq ++ [⟨m.source, v, m.dest == allStations⟩] } } := by
  rw [State.applyAccepted, hv]
  rfl

/-- Settles O40: with room in the NQ the SIGNAL is accepted, and applied where nobody else drives ERROR or REJECT; with the NQ
full it is rejected. -/
theorem signalReceived : Obligations.SignalReceived := by
  intro s p broadcast v others h hsid hp
  obtain ⟨y, m, hclock, ⟨hsource, hcontent, hall⟩, hverdict, hexec⟩ :=
    State.receives_signal (others := others) h hsid hp broadcast v
  refine ⟨fun hroom hclear => ?_, fun hroom hnot => ?_, fun hfull => ?_⟩
  · rw [if_pos hroom] at hverdict
    rw [hexec, State.receive_whole_accept h hverdict hclock hclear, State.applyAccepted_signal _ _ _ _ hcontent, hsource,
      hall]
    rfl
  · rw [if_pos hroom] at hverdict
    rw [hexec, State.receive_whole_not_clear h hverdict hnot]
  · rw [if_neg (by omega)] at hverdict
    rw [hexec, State.receive_whole_reject h hverdict]

end Sys2Proof.Machine
end

section
/-! PROOF. The Fault List with and without room, the six interrupt causes, and LIRQ after a mask write. -/

namespace Sys2Proof.Machine

/-! ### The Fault List (R165, R166) -/

/-- With room in the list a fault record joins at the newest end (R165). -/
theorem addFault_of_room (r : FaultRecord) {fs : List FaultRecord} (h : fs.length < 8) : addFault r fs = fs ++ [r] :=
  if_pos h

/-- With the list full only the newest record changes: it gives way to a FATAL one where it is not FATAL itself, and in any case
the mark is set (R166). -/
theorem addFault_of_full (r newest : FaultRecord) {older : List FaultRecord} (h : older.length = 7) :
    addFault r (older ++ [newest]) =
      if r.kind.severity = .fatal ∧ newest.kind.severity ≠ .fatal then older ++ [{ r with overflow := true }]
      else older ++ [{ newest with overflow := true }] := by
  have hfull : ¬(older ++ [newest]).length < Config.faultDepth := by simp [h, Config.faultDepth]
  rw [addFault, if_neg hfull, List.getLast?_concat, List.dropLast_concat]

/-- Settles O52: with room the record joins; with the list full the severities decide which record stays the newest. -/
theorem faultListOverflow : Obligations.FaultListOverflow := by
  intro r newest older
  refine ⟨addFault_of_room r, fun hfull => ?_⟩
  rw [addFault_of_full r newest hfull]
  exact ⟨fun hr hnewest => if_pos ⟨hr, hnewest⟩, fun _ hnewest => if_neg fun h => h.2 hnewest,
    fun hr => if_neg fun h => hr h.1⟩

/-! ### The causes (R168 to R170, R181) -/

/-- The six causes, bit by bit from bit 0. -/
theorem State.causes_getLsbD (s : State) (i : Nat) :
    s.causes.getLsbD i = [!s.ore.cq.isEmpty, !s.isu.iq.isEmpty, !s.isu.nq.isEmpty, s.lpu.faultCause, s.lpu.cmdDone,
      s.lpu.stateChange].getD i false := by
  rw [← BitVec.getLsbD_ofBoolListLE]
  cases h : s.lpu.stateChange <;> simp only [State.causes, h] <;> rfl

/-- FAULT is active while a record of an enabled severity stands in the list (R168). -/
theorem Lpu.faultCause_iff (l : Lpu) :
    l.faultCause = true ↔ ∃ r ∈ l.faults, l.enables.getLsbD r.kind.severity.bit = true := List.any_eq_true

/-! ### LIRQ (R171) -/

/-- A word is not cleared by a mask exactly where a bit of it stands that the mask leaves open. -/
theorem and_not_ne_zero_iff {w : Nat} (x m : BitVec w) :
    (x &&& ~~~m) ≠ 0 ↔ ∃ i, i < w ∧ x.getLsbD i = true ∧ m.getLsbD i = false := by
  rw [ne_eq, BitVec.eq_of_getLsbD_eq_iff]
  push Not
  refine exists_congr fun i => and_congr_right fun hi => ?_
  simp [hi]

/-- While RESET_N is released, LIRQ is asserted exactly while an unmasked cause is active. -/
theorem State.lirq_iff {s : State} (hr : s.resetAsserted = false) :
    s.lirq = true ↔ ∃ i, i < 6 ∧ s.causes.getLsbD i = true ∧ s.lpu.masks.getLsbD i = false := by
  rw [← and_not_ne_zero_iff, State.lirq, hr, Bool.not_false, Bool.true_and, bne_iff_ne]

/-- The six low bits of a written mask word decide on LIRQ: the causes are as they were. -/
theorem State.maskWrite_lirq_iff {s : State} (hr : s.resetAsserted = false) (v : Word) :
    (s.maskWrite v).lirq = true ↔ ∃ i, i < 6 ∧ s.causes.getLsbD i = true ∧ v.getLsbD i = false := by
  have hcauses : (s.maskWrite v).causes = s.causes := rfl
  have hmask : ∀ i < 6, (s.maskWrite v).lpu.masks.getLsbD i = v.getLsbD i := fun i hi => by
    rw [State.maskWrite, BitVec.getLsbD_setWidth, decide_eq_true hi, Bool.true_and]
  rw [State.lirq_iff (s := s.maskWrite v) hr, hcauses]
  exact exists_congr fun i => and_congr_right fun hi => by rw [hmask i hi]

/-! ### The writes -/

/-- Settles O17: the three writes are their rows of the port, and each cause is read off its bit. -/
theorem causeMaskAndEnableWrites : Obligations.CauseMaskAndEnableWrites := by
  intro v s hr
  have hcause : exec (.causeWrite v) s = .next (s.causeWrite v) := by simp only [exec, execCauseWrite, released, hr]; rfl
  have hmask : exec (.maskWrite v) s = .next (s.maskWrite v) := by simp only [exec, execMaskWrite, released, hr]; rfl
  have henable : exec (.severityEnableWrite v) s = .next (s.severityEnableWrite v) := by
    simp only [exec, execSeverityEnableWrite, released, hr]; rfl
  refine ⟨hcause, henable, ⟨_, hmask, rfl, State.maskWrite_lirq_iff hr v⟩, State.lirq_iff hr, ?_⟩
  intro enabledBit
  have hbit : ∀ k : FaultKind, enabledBit k = k.severity.bit := fun k => by cases k <;> rfl
  have hqueue : ∀ {α : Type} (l : List α), (!l.isEmpty) = true ↔ l ≠ [] := fun l => by simp
  simp only [State.causes_getLsbD, hbit]
  exact ⟨hqueue _, hqueue _, hqueue _, s.lpu.faultCause_iff, Iff.rfl, Iff.rfl⟩

end Sys2Proof.Machine
end

section
/-! PROOF. A write of the local port: the kind of word its address selects decides what it does, and a word that has a row of its
own is that row. -/

namespace Sys2Proof.Machine

/-! ### The word an address selects (R173, R174) -/

/-- The address of the word with number n selects that word. -/
theorem portWord_ofNat {n : Nat} {w : PortWord} (hn : n < 1024) (hw : portWordAt n = w) :
    portWord (BitVec.ofNat 10 n) = w := by
  rw [portWord, BitVec.toNat_ofNat, Nat.mod_eq_of_lt (by simpa using hn), hw]

/-- A write access with RD_N released is the write of the word it selects. -/
theorem exec_registerWrite_of_portWord {a : BitVec 10} {w : PortWord} (h : portWord a = w) (v : Word) (s : State) :
    exec (.registerWrite a v false) s = released (State.writeWord w v) s := by
  subst h
  rfl

/-- While RESET_N is released a row has its effect. -/
theorem released_eq {s : State} (hr : s.resetAsserted = false) (effect : State → State) :
    released effect s = .next (effect s) := by
  simp [released, hr]

/-! ### The command word (R175) -/

/-- The code of a written command word is its three low bits. -/
theorem setWidth_three_eq_iff {v : Word} {c : Nat} (hc : c < 8) :
    v.setWidth 3 = BitVec.ofNat 3 c ↔ v.toNat % 8 = c := by
  rw [← BitVec.toNat_inj, BitVec.toNat_setWidth, BitVec.toNat_ofNat, Nat.mod_eq_of_lt (a := c) hc]

/-- The code of a command starts that command. -/
theorem State.commandWrite_of_code {v : Word} {c : Command} (h : v.toNat % 8 = c.code) (s : State) :
    s.commandWrite v = s.takeCommand c c.effect := by
  have hcode : v.setWidth 3 = BitVec.ofNat 3 c.code := (setWidth_three_eq_iff (by cases c <;> decide)).mpr h
  simp only [State.commandWrite, hcode]
  cases c <;> rfl

/-- The codes 0, 5, 6 and 7 start nothing. -/
theorem State.commandWrite_of_empty_code {v : Word} (h : v.toNat % 8 = 0 ∨ 5 ≤ v.toNat % 8) (s : State) :
    s.commandWrite v = s := by
  have hcode : ∀ c, 0 < c ∧ c < 5 → v.setWidth 3 ≠ BitVec.ofNat 3 c := fun c hc heq => by
    have := (setWidth_three_eq_iff (by omega)).mp heq
    omega
  unfold State.commandWrite
  exact (if_neg (hcode 1 (by decide))).trans <| (if_neg (hcode 2 (by decide))).trans <|
    (if_neg (hcode 3 (by decide))).trans (if_neg (hcode 4 (by decide)))

/-- A write of the command word with the code of a command is the row of that command. -/
theorem exec_registerWrite_command {v : Word} {c : Command} (h : v.toNat % 8 = c.code) (s : State) :
    exec (.registerWrite 1 v false) s = exec c.row s := by
  have hrow : exec c.row s = released (State.takeCommand c c.effect) s := by cases c <;> rfl
  have hwrite : State.writeWord .command v = State.takeCommand c c.effect :=
    funext (State.commandWrite_of_code h)
  rw [hrow, exec_registerWrite_of_portWord (w := .command) rfl, hwrite]

/-! ### The writes -/

/-- Settles O18, by the kind of the word that is written. -/
theorem registerWrite : Obligations.RegisterWrite := by
  intro v s hr
  have hword {a : BitVec 10} {w : PortWord} (h : portWord a = w) :
      exec (.registerWrite a v false) s = .next (s.writeWord w v) := by
    rw [exec_registerWrite_of_portWord h, released_eq hr]
  refine ⟨fun a => released_eq hr _, fun i => ?_, fun i => ?_, fun a ha => ?_, fun hcode => ?_⟩
  · exact hword (portWord_ofNat (by omega) (portWordAt_rqStage i))
  · exact hword (portWord_ofNat (by omega) (portWordAt_sqStage i))
  · obtain ⟨_, hview⟩ | hunassigned := ha
    · exact hword hview
    · exact hword hunassigned
  · rw [hword (w := .command) rfl, State.writeWord, State.commandWrite_of_empty_code hcode]

/-- Settles O19: the command word by its code, the others by the word their number selects. -/
theorem registerWriteIsItsRow : Obligations.RegisterWriteIsItsRow := by
  intro v s
  refine ⟨exec_registerWrite_command (c := .join) (s := s), exec_registerWrite_command (c := .leave) (s := s),
    exec_registerWrite_command (c := .flush) (s := s), exec_registerWrite_command (c := .restart) (s := s), ?_⟩
  have hword {n : Nat} (w : PortWord) (hn : n < 1024) (hw : portWordAt n = w) :
      exec (.registerWrite (BitVec.ofNat 10 n) v false) s = released (State.writeWord w v) s :=
    exec_registerWrite_of_portWord (portWord_ofNat hn hw) v s
  exact ⟨hword .cause (by decide) rfl, hword .mask (by decide) rfl, hword .severityEnable (by decide) rfl,
    fun i => hword (.setup i) (by omega) (portWordAt_setup i), hword .rqPush (by decide) rfl,
    hword .cqPop (by decide) rfl, hword .iqPop (by decide) rfl, hword .nqPop (by decide) rfl,
    hword .sqPush (by decide) rfl, hword .faultPop (by decide) rfl⟩

end Sys2Proof.Machine
end

section
/-! PROOF. The step by what the queue holds: the rule for a waiting command and the rule for an empty queue. -/

namespace Sys2Proof.Machine

variable {s : State}

/-- A waiting command runs on the state with the rest of the queue. -/
theorem step_of_pending_cons {c : Instr} {q : List Instr} (h : s.pending = c :: q) :
    step s = exec c { s with pending := q } := by
  rw [step, h]

/-- An empty queue idles (log entry 3). -/
theorem step_of_pending_nil (h : s.pending = []) : step s = .next s := by
  rw [step, h]

/-- Settles O1, by the two forms of the queue. -/
theorem stepRunsTheFrontCommand : Obligations.StepRunsTheFrontCommand :=
  ⟨fun _ _ _ => step_of_pending_cons rfl, fun _ => step_of_pending_nil⟩

end Sys2Proof.Machine
end
